-- ==== Sys2Proof/Word.lean ====
section
/-! DEFINITION. The word types of crysp-core and their plainest names. -/

namespace Sys2Proof

/-- One byte of a byte string or of `DBUF` (spec 00_scope R14). -/
abbrev Byte := BitVec 8

/-- One 32-bit word: a host register, an argument, a command word (10_state R40, 30_encoding R140). -/
abbrev Word := BitVec 32

/-- A 13-bit byte offset on the host bus (20_memory R100, 70 R630). -/
abbrev HostOffset := BitVec 13

/-- The number of a bit-vector register, `V0` to `V7` (10_state R32, 30_encoding R142). -/
abbrev VReg := Fin 8

end Sys2Proof
end

