-- ==== Sys2Proof/Syntax.lean ====
section
/-! DEFINITION. The commands of CRYSP-CMD version 1: one constructor per row of spec/opcode_table.json, with the
fields of the command word the row uses (30_encoding R146, R150). Wide operands are no part of the syntax: a
command reads them from the argument registers (R143). -/

namespace Sys2Proof

/-- The 2-bit `BO` field (20_memory R111, 30_encoding R146). -/
inductive BitOrder where
  /-- `00`: the whole buffer is one big-endian integer. -/
  | bigEndian
  /-- `01`: little-endian chunks. -/
  | littleEndian
  /-- `10`: bitstream mode, each byte bit-reversed. -/
  | bitstream
  /-- `11`: reserved; a word that holds it raises `ILLEGAL` 3 (30_encoding R147). -/
  | reserved
  deriving DecidableEq, Repr

/-- A command. Operand names are the spec's field names. -/
inductive Instr where
  | nop
  | bvLdi (vd : VReg) (sz : Bool)
  | bvLdb (vd : VReg) (bo : BitOrder) (sz : Bool)
  | bvStb (va : VReg) (bo : BitOrder)
  | bvLdbits (vd : VReg)
  | bvMov (vd va : VReg)
  | bvSize (va : VReg)
  | bvRdw (va : VReg)
  | bvGet (vd va : VReg)
  | bvSet (vd : VReg)
  | bvGets (vd va : VReg) (ns ne : Bool)
  | bvSets (vd va : VReg) (ns ne co : Bool)
  | bvAnd (vd va vb : VReg)
  | bvOr (vd va vb : VReg)
  | bvXor (vd va vb : VReg)
  | bvNot (vd va : VReg)
  | bvAdd (vd va vb : VReg)
  | bvSub (vd va vb : VReg)
  | bvShl (vd va : VReg)
  | bvShr (vd va : VReg)
  | bvCat (vd va vb : VReg)
  | bvZext (vd : VReg)
  | bvSext (vd : VReg)
  | bvHw (va : VReg)
  | bvHd (va vb : VReg)
  | bvPack (va : VReg) (big : Bool)
  | bvUnpack (vd : VReg) (big : Bool)
  | segReset
  | segFeed (pad decl : Bool)
  | segUnpad
  | modeEnc
  | modeDec
  | modeSetiv
  | modeGetiv
  | modeSetctr
  | modeGetctr
  | ctrReset
  deriving DecidableEq, Repr

end Sys2Proof
end

