-- ==== Sys2Proof/WellFormed.lean ====
section
/-! DEFINITION. Which commands are well formed. The types of the operands already hold every field to its range
(a register number is below 8, a flag is one bit), so one check is left: a used `BO` field is not the reserved
value (30_encoding R147). -/

namespace Sys2Proof

/-- The bit order is one of the three of 20_memory R111. -/
def BitOrder.legal : BitOrder → Bool
  | .bigEndian => true
  | .littleEndian => true
  | .bitstream => true
  | .reserved => false

/-- A command that the decoder can answer: no used field holds a reserved value. -/
def Instr.wellFormed : Instr → Bool
  | .bvLdb _ bo _ => bo.legal
  | .bvStb _ bo => bo.legal
  | .nop | .bvLdi _ _ | .bvLdbits _ | .bvMov _ _ | .bvSize _ | .bvRdw _ | .bvGet _ _ | .bvSet _
  | .bvGets _ _ _ _ | .bvSets _ _ _ _ _ | .bvAnd _ _ _ | .bvOr _ _ _ | .bvXor _ _ _ | .bvNot _ _
  | .bvAdd _ _ _ | .bvSub _ _ _ | .bvShl _ _ | .bvShr _ _ | .bvCat _ _ _ | .bvZext _ | .bvSext _
  | .bvHw _ | .bvHd _ _ | .bvPack _ _ | .bvUnpack _ _ | .segReset | .segFeed _ _ | .segUnpad
  | .modeEnc | .modeDec | .modeSetiv | .modeGetiv | .modeSetctr | .modeGetctr | .ctrReset => true

end Sys2Proof
end

