-- ==== Sys2Proof/Decode.lean ====
section
/-! DEFINITION. From a command word to a command and back: the opcode map of spec 30_encoding R150 with the decode
order of R148, and the encoder written from the same field table (R140, R146). -/

namespace Sys2Proof

/-- Why a command word is no command: the three sub-codes of `ILLEGAL`, in the order of 30_encoding R148. -/
inductive DecodeError where
  /-- Sub-code 1: `c[7:0]` is not an opcode. -/
  | unknownOpcode
  /-- Sub-code 2: a reserved bit or an unused field is 1. -/
  | reservedBits
  /-- Sub-code 3: a used `FN` field holds a reserved value. -/
  | reservedFn
  deriving DecidableEq, Repr

/-- The opcode byte `c[7:0]` (R140). -/
def opcodeOf (c : Word) : BitVec 8 := c.extractLsb' 0 8

/-- A 3-bit register field at bit `lo` (R142). -/
def fieldReg (c : Word) (lo : Nat) : VReg := ⟨(c.extractLsb' lo 3).toNat, (c.extractLsb' lo 3).isLt⟩

/-- `VD`, bits 10:8 (R140). -/
def fieldVd (c : Word) : VReg := fieldReg c 8

/-- `VA`, bits 14:12 (R140). -/
def fieldVa (c : Word) : VReg := fieldReg c 12

/-- `VB`, bits 18:16 (R140). -/
def fieldVb (c : Word) : VReg := fieldReg c 16

/-- The `BO` field from its two bits (R146). -/
def boOfBits : Bool → Bool → BitOrder
  | false, false => .bigEndian
  | false, true => .littleEndian
  | true, false => .bitstream
  | true, true => .reserved

/-- `BO`, `FN` bits 1:0, which are bits 21:20 of the word (R140, R146). -/
def fieldBo (c : Word) : BitOrder := boOfBits (c.getLsbD 21) (c.getLsbD 20)

/-- One row of the opcode map. `mask` has a 1 at every bit the row fixes; those bits are the opcode's bits and
zero elsewhere (R141, R150). -/
structure OpRow where
  mnemonic : String
  opcode : BitVec 8
  mask : Word
  build : Word → Instr

/-- The control row of 30_encoding R150: mnemonic, opcode, mask, operands. -/
def controlRows : List OpRow :=
  [
   ⟨"NOP", 0x00#8, 0xFFFFFFFF#32, fun _ => .nop⟩]

/-- The bit-vector rows `0x10` to `0x1B` of 30_encoding R150: mnemonic, opcode, mask, operands. -/
def bvRowsLow : List OpRow :=
  [
   ⟨"BV.LDI", 0x10#8, 0xFFEFF8FF#32, fun c => .bvLdi (fieldVd c) (c.getLsbD 20)⟩,
   ⟨"BV.LDB", 0x11#8, 0xFF8FF8FF#32, fun c => .bvLdb (fieldVd c) (fieldBo c) (c.getLsbD 22)⟩,
   ⟨"BV.STB", 0x12#8, 0xFFCF8FFF#32, fun c => .bvStb (fieldVa c) (fieldBo c)⟩,
   ⟨"BV.LDBITS", 0x13#8, 0xFFFFF8FF#32, fun c => .bvLdbits (fieldVd c)⟩,
   ⟨"BV.MOV", 0x14#8, 0xFFFF88FF#32, fun c => .bvMov (fieldVd c) (fieldVa c)⟩,
   ⟨"BV.SIZE", 0x15#8, 0xFFFF8FFF#32, fun c => .bvSize (fieldVa c)⟩,
   ⟨"BV.RDW", 0x16#8, 0xFFFF8FFF#32, fun c => .bvRdw (fieldVa c)⟩,
   ⟨"BV.GET", 0x18#8, 0xFFFF88FF#32, fun c => .bvGet (fieldVd c) (fieldVa c)⟩,
   ⟨"BV.SET", 0x19#8, 0xFFFFF8FF#32, fun c => .bvSet (fieldVd c)⟩,
   ⟨"BV.GETS", 0x1A#8, 0xFFCF88FF#32, fun c => .bvGets (fieldVd c) (fieldVa c) (c.getLsbD 20) (c.getLsbD 21)⟩,
   ⟨"BV.SETS", 0x1B#8, 0xFF8F88FF#32, fun c => .bvSets (fieldVd c) (fieldVa c) (c.getLsbD 20) (c.getLsbD 21) (c.getLsbD 22)⟩]

/-- The bit-vector rows `0x20` to `0x2E` of 30_encoding R150: mnemonic, opcode, mask, operands. -/
def bvRowsHigh : List OpRow :=
  [
   ⟨"BV.AND", 0x20#8, 0xFFF888FF#32, fun c => .bvAnd (fieldVd c) (fieldVa c) (fieldVb c)⟩,
   ⟨"BV.OR", 0x21#8, 0xFFF888FF#32, fun c => .bvOr (fieldVd c) (fieldVa c) (fieldVb c)⟩,
   ⟨"BV.XOR", 0x22#8, 0xFFF888FF#32, fun c => .bvXor (fieldVd c) (fieldVa c) (fieldVb c)⟩,
   ⟨"BV.NOT", 0x23#8, 0xFFFF88FF#32, fun c => .bvNot (fieldVd c) (fieldVa c)⟩,
   ⟨"BV.ADD", 0x24#8, 0xFFF888FF#32, fun c => .bvAdd (fieldVd c) (fieldVa c) (fieldVb c)⟩,
   ⟨"BV.SUB", 0x25#8, 0xFFF888FF#32, fun c => .bvSub (fieldVd c) (fieldVa c) (fieldVb c)⟩,
   ⟨"BV.SHL", 0x26#8, 0xFFFF88FF#32, fun c => .bvShl (fieldVd c) (fieldVa c)⟩,
   ⟨"BV.SHR", 0x27#8, 0xFFFF88FF#32, fun c => .bvShr (fieldVd c) (fieldVa c)⟩,
   ⟨"BV.CAT", 0x28#8, 0xFFF888FF#32, fun c => .bvCat (fieldVd c) (fieldVa c) (fieldVb c)⟩,
   ⟨"BV.ZEXT", 0x29#8, 0xFFFFF8FF#32, fun c => .bvZext (fieldVd c)⟩,
   ⟨"BV.SEXT", 0x2A#8, 0xFFFFF8FF#32, fun c => .bvSext (fieldVd c)⟩,
   ⟨"BV.HW", 0x2B#8, 0xFFFF8FFF#32, fun c => .bvHw (fieldVa c)⟩,
   ⟨"BV.HD", 0x2C#8, 0xFFF88FFF#32, fun c => .bvHd (fieldVa c) (fieldVb c)⟩,
   ⟨"BV.PACK", 0x2D#8, 0xFFEF8FFF#32, fun c => .bvPack (fieldVa c) (c.getLsbD 20)⟩,
   ⟨"BV.UNPACK", 0x2E#8, 0xFFEFF8FF#32, fun c => .bvUnpack (fieldVd c) (c.getLsbD 20)⟩]

/-- The segmenter rows of 30_encoding R150: mnemonic, opcode, mask, operands. -/
def segRows : List OpRow :=
  [
   ⟨"SEG.RESET", 0x30#8, 0xFFFFFFFF#32, fun _ => .segReset⟩,
   ⟨"SEG.FEED", 0x31#8, 0xFFCFFFFF#32, fun c => .segFeed (c.getLsbD 20) (c.getLsbD 21)⟩,
   ⟨"SEG.UNPAD", 0x32#8, 0xFFFFFFFF#32, fun _ => .segUnpad⟩]

/-- The mode controller rows of 30_encoding R150: mnemonic, opcode, mask, operands. -/
def modeRows : List OpRow :=
  [
   ⟨"MODE.ENC", 0x40#8, 0xFFFFFFFF#32, fun _ => .modeEnc⟩,
   ⟨"MODE.DEC", 0x41#8, 0xFFFFFFFF#32, fun _ => .modeDec⟩,
   ⟨"MODE.SETIV", 0x42#8, 0xFFFFFFFF#32, fun _ => .modeSetiv⟩,
   ⟨"MODE.GETIV", 0x43#8, 0xFFFFFFFF#32, fun _ => .modeGetiv⟩,
   ⟨"MODE.SETCTR", 0x44#8, 0xFFFFFFFF#32, fun _ => .modeSetctr⟩,
   ⟨"MODE.GETCTR", 0x45#8, 0xFFFFFFFF#32, fun _ => .modeGetctr⟩,
   ⟨"CTR.RESET", 0x46#8, 0xFFFFFFFF#32, fun _ => .ctrReset⟩]

/-- The complete opcode map (R150). -/
def opcodeRows : List OpRow :=
  controlRows ++ (bvRowsLow ++ (bvRowsHigh ++ (segRows ++ modeRows)))

/-- The row of an opcode byte, if there is one (R148 step 1). -/
def findRow (op : BitVec 8) : Option OpRow := opcodeRows.find? (fun r => r.opcode == op)

/-- Decode a command word in the order of R148: the opcode, then the reserved bits and unused fields, then the
reserved values of used fields. -/
def decode (c : Word) : Except DecodeError Instr :=
  match findRow (opcodeOf c) with
  | none => .error .unknownOpcode
  | some r =>
    if c &&& r.mask = r.opcode.setWidth 32 then
      if (r.build c).wellFormed then .ok (r.build c) else .error .reservedFn
    else .error .reservedBits

/-! The encoder. -/

/-- The two bits of a `BO` value, high bit first (R146). -/
def boBits : BitOrder → BitVec 2
  | .bigEndian => 0b00#2
  | .littleEndian => 0b01#2
  | .bitstream => 0b10#2
  | .reserved => 0b11#2

/-- A command word from its fields (R140): `FN` at 23:20, `VB` at 18:16, `VA` at 14:12, `VD` at 10:8. -/
def packWord (op : BitVec 8) (vd va vb : VReg) (fn : BitVec 4) : Word :=
  op.setWidth 32 ||| (BitVec.ofNat 32 vd.val <<< 8) ||| (BitVec.ofNat 32 va.val <<< 12)
    ||| (BitVec.ofNat 32 vb.val <<< 16) ||| (fn.setWidth 32 <<< 20)

/-- `FN` from its four bits, bit 3 first. -/
def fnBits (b3 b2 b1 b0 : Bool) : BitVec 4 :=
  BitVec.ofBool b3 ++ BitVec.ofBool b2 ++ BitVec.ofBool b1 ++ BitVec.ofBool b0

/-- `FN` of a command that uses `BO` in bits 1:0 and one more flag in bit 2. -/
def fnBo (b2 : Bool) (bo : BitOrder) : BitVec 4 := 0#1 ++ BitVec.ofBool b2 ++ boBits bo

/-- The word of a command (R140, R146, R150); an unused field is 0 (R141). -/
def encode : Instr → Word
  | .nop => packWord 0x00#8 0 0 0 0#4
  | .bvLdi vd sz => packWord 0x10#8 vd 0 0 (fnBits false false false sz)
  | .bvLdb vd bo sz => packWord 0x11#8 vd 0 0 (fnBo sz bo)
  | .bvStb va bo => packWord 0x12#8 0 va 0 (fnBo false bo)
  | .bvLdbits vd => packWord 0x13#8 vd 0 0 0#4
  | .bvMov vd va => packWord 0x14#8 vd va 0 0#4
  | .bvSize va => packWord 0x15#8 0 va 0 0#4
  | .bvRdw va => packWord 0x16#8 0 va 0 0#4
  | .bvGet vd va => packWord 0x18#8 vd va 0 0#4
  | .bvSet vd => packWord 0x19#8 vd 0 0 0#4
  | .bvGets vd va ns ne => packWord 0x1A#8 vd va 0 (fnBits false false ne ns)
  | .bvSets vd va ns ne co => packWord 0x1B#8 vd va 0 (fnBits false co ne ns)
  | .bvAnd vd va vb => packWord 0x20#8 vd va vb 0#4
  | .bvOr vd va vb => packWord 0x21#8 vd va vb 0#4
  | .bvXor vd va vb => packWord 0x22#8 vd va vb 0#4
  | .bvNot vd va => packWord 0x23#8 vd va 0 0#4
  | .bvAdd vd va vb => packWord 0x24#8 vd va vb 0#4
  | .bvSub vd va vb => packWord 0x25#8 vd va vb 0#4
  | .bvShl vd va => packWord 0x26#8 vd va 0 0#4
  | .bvShr vd va => packWord 0x27#8 vd va 0 0#4
  | .bvCat vd va vb => packWord 0x28#8 vd va vb 0#4
  | .bvZext vd => packWord 0x29#8 vd 0 0 0#4
  | .bvSext vd => packWord 0x2A#8 vd 0 0 0#4
  | .bvHw va => packWord 0x2B#8 0 va 0 0#4
  | .bvHd va vb => packWord 0x2C#8 0 va vb 0#4
  | .bvPack va big => packWord 0x2D#8 0 va 0 (fnBits false false false big)
  | .bvUnpack vd big => packWord 0x2E#8 vd 0 0 (fnBits false false false big)
  | .segReset => packWord 0x30#8 0 0 0 0#4
  | .segFeed pad decl => packWord 0x31#8 0 0 0 (fnBits false false decl pad)
  | .segUnpad => packWord 0x32#8 0 0 0 0#4
  | .modeEnc => packWord 0x40#8 0 0 0 0#4
  | .modeDec => packWord 0x41#8 0 0 0 0#4
  | .modeSetiv => packWord 0x42#8 0 0 0 0#4
  | .modeGetiv => packWord 0x43#8 0 0 0 0#4
  | .modeSetctr => packWord 0x44#8 0 0 0 0#4
  | .modeGetctr => packWord 0x45#8 0 0 0 0#4
  | .ctrReset => packWord 0x46#8 0 0 0 0#4

/-- The command word of a row of spec/opcode_table.json from its bits `w`, of which the row gives `nbits`: every
bit above them is 0. A command word is stored as one 32-bit register, so it has no byte order (10_state R44). -/
def tableWord (nbits w : Nat) : Word := BitVec.ofNat 32 (w % 2 ^ min nbits 32)

/-- What the decoder reads from a row's word. -/
def decodeTableWord (nbits w : Nat) : Option Instr :=
  match decode (tableWord nbits w) with
  | .ok i => some i
  | .error _ => none

end Sys2Proof
end

