-- ==== Sys2Proof/Config.lean ====
section
/-! DEFINITION. What an implementation of crysp-core fixes: the fixed parameters of spec 00_scope R10, the
OPEN parameters as opaque constants, and the free values of the rules that leave a value open. -/

namespace Sys2Proof

/-- The block size of the attached cipher primitive: one of 64, 128, 256, 512, 1024 bits (00_scope R10, D34). -/
inductive PrimWidth where
  | w64
  | w128
  | w256
  | w512
  | w1024
  deriving DecidableEq, Repr, Inhabited

/-- The block length in bits, `PRIM_BLOCK_BITS`. -/
def PrimWidth.bits : PrimWidth → Nat
  | .w64 => 64
  | .w128 => 128
  | .w256 => 256
  | .w512 => 512
  | .w1024 => 1024

/-- The block length in bytes, `B` of 43_modes R400. -/
def PrimWidth.bytes (w : PrimWidth) : Nat := w.bits / 8

/-- Half the block length in bytes, `H` of 43_modes R400. -/
def PrimWidth.halfBytes (w : PrimWidth) : Nat := w.bytes / 2

namespace Config

/-- `BV_W`: the largest bit-vector size in bits (R10, D4). -/
def bvW : Nat := 1024

/-- `DBUF_BYTES`: the size of the data buffer (R10, D3). -/
def dbufBytes : Nat := 4096

/-- What `ID` reads (10_state R41). -/
def idValue : Word := 0x43525950#32

/-- What `VERSION` reads (10_state R41). -/
def versionValue : Word := 0x00000001#32

/-- `PRIM_BLOCK_BITS`, an OPEN parameter: an opaque constant (log 5). -/
opaque primWidth : PrimWidth

/-- `PRIM_E`, an OPEN parameter: a total function on blocks, byte `i` of the block on bits `8i+7 .. 8i`
as on the port (00_scope R18, 43_modes R440, R441; log 5). -/
opaque primE : (w : PrimWidth) → BitVec w.bits → BitVec w.bits

/-- `PRIM_D`, an OPEN parameter, as `primE` (log 5). -/
opaque primD : (w : PrimWidth) → BitVec w.bits → BitVec w.bits

/-- `CORE_BASE`, an OPEN parameter: where the platform maps the block (20_memory R113; log 12). -/
opaque coreBase : Nat

/-- FREE VALUE: what a `DBUF` byte that nothing has written reads as, by the number of the draw and the byte's
address (20_memory R102; log 3). -/
opaque freeByte : Nat → Nat → Byte

/-- FREE VALUE: whether a byte of the destination range of a command abandoned by a soft reset keeps its old
value, by the number of the draw and the byte's address (70 R603; log 9). -/
opaque keepsOld : Nat → Nat → Bool

end Config
end Sys2Proof
end

