-- ==== Sys2Proof/Machine/State.lean ====
section
/-! DEFINITION. The architectural state of crysp-core as plain data (spec 10_state), its reset value (R74), and the
reasons a step could stop. -/

namespace Sys2Proof.Machine

/-- A bit-vector register: the pair `(val, size)` of 00_scope R13. The widths (`val` below `2^size`, `size` at most
1024) are the mask invariant of 10_state R33, kept by every command (log 15). -/
structure BvReg where
  val : Nat
  size : Nat
  deriving DecidableEq, Repr

/-- The seven padding schemes (10_state R46). The reserved code 7 is no scheme: it is never latched (R61). -/
inductive PadScheme where
  | none
  | zero
  | bitpad
  | pkcs7
  | x923
  | md
  | blake
  deriving DecidableEq, Repr

/-- The Merkle–Damgård word size `w = 8 << WSZ` (10_state R46). -/
inductive MdWord where
  | w8
  | w16
  | w32
  | w64
  deriving DecidableEq, Repr

/-- A segmenter configuration: the latched elements of 10_state R60, or a mode's private one (43_modes R403). -/
structure PadCfg where
  /-- `seg.scheme` -/
  scheme : PadScheme
  /-- `seg.w` -/
  w : MdWord
  /-- `seg.len_be` -/
  lenBe : Bool
  /-- `seg.dbit` -/
  dbit : Bool
  /-- `seg.Bb`, the block size in bits -/
  blockBits : Nat
  deriving DecidableEq, Repr

/-- The active segmenter (10_state R60). -/
structure SegState where
  cfg : PadCfg
  /-- `seg.processed`, modulo `2^64` -/
  processed : BitVec 64
  finalized : Bool
  /-- `seg.last_pad` -/
  lastPad : BitVec 12
  deriving DecidableEq, Repr

/-- The mode state (10_state R70). -/
structure ModeState where
  /-- `mode.chain`, `B` bytes -/
  chain : List Byte
  ivValid : Bool
  /-- `mode.nonce`, `H` bytes -/
  nonce : List Byte
  /-- `mode.ctr_init`, below `2^(8H)` -/
  ctrInit : Nat
  /-- `mode.ctr`, below `2^(8H)` -/
  ctr : Nat
  ctrValid : Bool
  /-- `mode.m_last_pad` -/
  lastPad : BitVec 32
  deriving DecidableEq, Repr

/-- Which function of the primitive a call asks for (43_modes R440, `prim_req_dir`). -/
inductive PrimDir where
  | encrypt
  | decrypt
  deriving DecidableEq, Repr

/-- One PRIM call: its direction and its input block (43_modes R440). -/
structure PrimCall where
  dir : PrimDir
  block : List Byte
  deriving DecidableEq, Repr

/-- The PRIM port: its handshake (10_state R73 (b)) and the sequence of calls taken on it (43_modes R442). -/
structure PrimPort where
  /-- the call that was taken and is not yet answered -/
  outstanding : Option PrimCall
  /-- how many calls of the running command have been answered -/
  answered : Nat
  /-- the port trace, oldest call first; the model's own record (log 7) -/
  trace : List PrimCall
  deriving DecidableEq, Repr

/-- The error codes of 60_exceptions R500. Codes 11 to 15 are never raised. -/
inductive ErrCode where
  | none
  | illegal
  | index
  | sizeMismatch
  | padding
  | length
  | type
  | address
  | overflow
  | config
  | state
  deriving DecidableEq, Repr

/-- An error `E(sub)` (00_scope R19). -/
structure CmdError where
  code : ErrCode
  sub : BitVec 8
  deriving DecidableEq, Repr

/-- What may happen next in the world of crysp-core, in the order in which it happens (60_exceptions R513,
20_memory R115; log 1). -/
inductive Event where
  /-- the host writes a word (70 R630) -/
  | write (offset : HostOffset) (value : Word)
  /-- the host reads a word -/
  | read (offset : HostOffset)
  /-- `rst_n` is asserted and released (70 R600) -/
  | hardReset
  /-- one event of the PRIM port: the next call is taken, or the outstanding one is answered (43_modes R440) -/
  | prim
  /-- the engine's turn: a running command executes and completes (40_control R180) -/
  | engine
  deriving DecidableEq, Repr

/-- The machine. Every field but the last four of its kind is architectural state of 10_state; `agenda`, `rdata`,
`draws` and `port.trace` are the model's own (logs 1, 4, 7, 8). -/
structure State where
  /-- `V0` .. `V7` (R32) -/
  v : Vector BvReg 8
  /-- `ARG0` .. `ARG3` (R35) -/
  arg0 : Word
  arg1 : Word
  arg2 : Word
  arg3 : Word
  /-- `RESULT0`, `RESULT1` (R36) -/
  result0 : Word
  result1 : Word
  /-- `CTRL.IE` (R42) -/
  ie : Bool
  /-- `STATUS.BUSY`, `DONE`, `ERR`, `OVR`, `ACCERR` (R43) -/
  busy : Bool
  done : Bool
  err : Bool
  ovr : Bool
  accErr : Bool
  /-- `STATUS.ERRCODE` (R43) -/
  errCode : ErrCode
  /-- `ERRINFO.SUB`, `ERRINFO.CHK` (R45) -/
  errSub : BitVec 8
  errChk : BitVec 8
  /-- `CMD`: the last accepted word (R44) -/
  cmd : Word
  /-- `SEG_CFG` with its reserved bits 0 (R46) -/
  segCfg : Word
  /-- `SEG_BLKBITS.BLKBITS` (R47) -/
  segBlkBits : BitVec 11
  /-- `MODE_CFG` with its reserved bits 0 (R52) -/
  modeCfg : Word
  /-- `PRIM_BLKBITS`: the block size of the attached primitive, constant (R53) -/
  primWidth : PrimWidth
  /-- the active segmenter (R60) -/
  seg : SegState
  /-- the mode state (R70) -/
  mode : ModeState
  /-- the bytes of `DBUF` that have been written since reset (20_memory R101, R102), in canonical form -/
  dbuf : List Host.Cell
  /-- the PRIM port (R73 (b)) -/
  port : PrimPort
  /-- the events to come, the next one first (log 1) -/
  agenda : List Event
  /-- what the latest host read returned, pin `h_rdata` (70 R630; log 8) -/
  rdata : Word
  /-- how often free bytes have been drawn (20_memory R102; log 4) -/
  draws : Nat
  deriving DecidableEq, Repr

/-- The segmenter configuration after reset: `NONE`, `w = 32`, big-endian length, `DBIT = 0`, 512 bits (R60). -/
def PadCfg.reset : PadCfg :=
  { scheme := .none, w := .w32, lenBe := true, dbit := false, blockBits := 512 }

/-- The active segmenter after reset (R60). -/
def SegState.reset : SegState :=
  { cfg := PadCfg.reset, processed := 0#64, finalized := false, lastPad := 0#12 }

/-- The mode state after reset, for a primitive of block size `w` (R70). -/
def ModeState.reset (w : PrimWidth) : ModeState :=
  { chain := List.replicate w.bytes 0#8, ivValid := false, nonce := List.replicate w.halfBytes 0#8,
    ctrInit := 0, ctr := 0, ctrValid := false, lastPad := 0#32 }

/-- The PRIM port with no call made. -/
def PrimPort.reset : PrimPort := { outstanding := none, answered := 0, trace := [] }

/-- The machine right after a hardware reset (R74, 70 R600) with a primitive of block size `w` attached. No byte of
`DBUF` is listed: its content is unspecified (20_memory R102). -/
def State.resetWith (w : PrimWidth) : State :=
  { v := Vector.replicate 8 { val := 0, size := 0 }
    arg0 := 0#32, arg1 := 0#32, arg2 := 0#32, arg3 := 0#32
    result0 := 0#32, result1 := 0#32
    ie := false
    busy := false, done := false, err := false, ovr := false, accErr := false
    errCode := .none, errSub := 0#8, errChk := 0#8
    cmd := 0#32
    segCfg := 0x60#32, segBlkBits := 0x200#11, modeCfg := 0x630#32
    primWidth := w
    seg := SegState.reset, mode := ModeState.reset w
    dbuf := []
    port := PrimPort.reset
    agenda := [], rdata := 0#32, draws := 0 }

/-- The machine right after a hardware reset (R74), with the attached primitive of `Config` (log 5). -/
def State.reset : State := State.resetWith Config.primWidth

/-- Why a step stops with a fault: never. Every error of crysp-core is a completion that the host can read, every
refused host access is a next state, and the bus has no error response (60_exceptions R511, R512; log 18). The type
has no constructor: nobody raises a fault, which is safe. -/
inductive Fault where
  deriving DecidableEq, Repr

/-- Why a step is refused. -/
inductive Refusal where
  /-- Raised by `exec` alone, for an instruction that has no meaning yet (none is left); safe, since the machine
  stops. -/
  | notModelled (mnemonic : String)
  deriving DecidableEq, Repr

end Sys2Proof.Machine
end

