-- ==== Sys2Proof/Machine/Bytes.lean ====
section
/-! DEFINITION. Integers, byte strings and bit strings, and the conversions between them (spec 00_scope R12 to R16). -/

namespace Sys2Proof.Machine

/-- `mask(s) = 2^s - 1` (R12). -/
def mask (s : Nat) : Nat := 2 ^ s - 1

/-- `bitlen(v)`, with `bitlen(0) = 0` (R16). -/
def bitlen (v : Nat) : Nat := if v = 0 then 0 else Nat.log2 v + 1

/-- `popcount(v)`: the number of 1 bits (R16). -/
def popcount (v : Nat) : Nat := (List.range (bitlen v)).countP (fun i => v.testBit i)

/-- `ceil(a / b)`. -/
def ceilDiv (a b : Nat) : Nat := (a + b - 1) / b

/-- The number whose bit `i` is element `i` of the list. -/
def natOfBits : List Bool → Nat
  | [] => 0
  | b :: bs => b.toNat + 2 * natOfBits bs

/-- Bits `0` to `n - 1` of a number, bit 0 first. -/
def bitsOfNat (v n : Nat) : List Bool := (List.range n).map (fun i => v.testBit i)

/-- `(v & ~2^j) | (x * 2^j)`: a number with bit `j` set to `x` (41_bitvector R223). -/
def setBit (v j : Nat) (x : Bool) : Nat := ((v ||| 2 ^ j) ^^^ 2 ^ j) ||| (x.toNat * 2 ^ j)

/-- `int_le(b)` (R16). -/
def intLe : List Byte → Nat
  | [] => 0
  | b :: bs => b.toNat + 256 * intLe bs

/-- `int_be(b)` (R16). -/
def intBe (b : List Byte) : Nat := intLe b.reverse

/-- `le_k(v)` (R16): byte `i` is bits `8i+7 .. 8i` of `v`. -/
def leBytes (k v : Nat) : List Byte := (List.range k).map (fun i => BitVec.ofNat 8 (v >>> (8 * i)))

/-- `be_k(v)` (R16). -/
def beBytes (k v : Nat) : List Byte := (leBytes k v).reverse

/-- The eight stream bits of a byte, most significant first (R15). -/
def byteBits (b : Byte) : List Bool := (List.range 8).map (fun t => b.getLsbD (7 - t))

/-- The stream bits of a byte string (R15): `bits(b, L)` is the first `L` of them. -/
def streamBits (b : List Byte) : List Bool := b.flatMap byteBits

/-- The byte whose stream bits are the first eight of the list, 0 where it is shorter (R15). -/
def byteOfBits (s : List Bool) : Byte :=
  BitVec.ofNat 8 ((List.range 8).foldl (fun acc t => 2 * acc + (s.getD t false).toNat) 0)

/-- `bytes(s)`: the shortest byte string whose first bits are `s`, the rest 0 (R15). -/
def packBits (s : List Bool) : List Byte :=
  (List.range (ceilDiv s.length 8)).map (fun i => byteOfBits ((s.drop (8 * i)).take 8))

/-- `xor(a, b)`: the byte-wise exclusive or (R18). -/
def xorBytes (a b : List Byte) : List Byte := List.zipWith (fun x y => x ^^^ y) a b

/-- The largest position that holds a 1, if there is one (42_segmenter R324, R327). -/
def lastTrue? : List Bool → Option Nat
  | [] => none
  | b :: bs =>
    match lastTrue? bs with
    | some j => some (j + 1)
    | none => if b then some 0 else none

/-- A byte string cut into blocks of `B` bytes, the last one perhaps shorter (43_modes R400). -/
def blocksOf (B : Nat) (x : List Byte) : List (List Byte) :=
  (List.range (ceilDiv x.length B)).map (fun i => (x.drop (i * B)).take B)

end Sys2Proof.Machine
end

