-- ==== Sys2Proof/Machine/Memory.lean ====
section
/-! DEFINITION. `DBUF` as a list of the bytes written since reset, in one canonical form: addresses strictly rising
and below `DBUF_BYTES`. What an unlisted address reads as is said once, in `byteOr` (spec 20_memory R101, R102;
log 3): a free value that no listed byte can stand for, so a listed byte is never equal to an unlisted one. -/

namespace Sys2Proof.Machine

/-- The written bytes of `DBUF`. -/
abbrev Memory := List Host.Cell

/-- Addresses strictly rise from `lo`. -/
def Memory.risesFrom (lo : Nat) : Memory → Bool
  | [] => true
  | (a, _) :: m => decide (lo ≤ a) && Memory.risesFrom (a + 1) m

/-- The canonical form: addresses strictly rising, all inside `DBUF`. -/
def Memory.wf (m : Memory) : Bool :=
  Memory.risesFrom 0 m && m.all (fun c => decide (c.1 < Config.dbufBytes))

/-- The byte last written at an address, if any was since reset. -/
def Memory.byte? : Memory → Nat → Option Byte
  | [], _ => none
  | (k, b) :: m, a => if a = k then some b else Memory.byte? m a

/-- What an address reads as in the draw of number `draw`: the byte written there, or a free value (R102). -/
def Memory.byteOr (m : Memory) (draw a : Nat) : Byte := (Memory.byte? m a).getD (Config.freeByte draw a)

/-- `MemRead(a, n)` (00_scope R17), drawing free bytes with draw number `draw`. -/
def Memory.bytes (m : Memory) (draw a n : Nat) : List Byte :=
  (List.range n).map (fun i => Memory.byteOr m draw (a + i))

/-- One byte written, in canonical form. -/
def Memory.setByte : Memory → Nat → Byte → Memory
  | [], a, b => [(a, b)]
  | (k, c) :: m, a, b =>
    if a < k then (a, b) :: (k, c) :: m
    else if a = k then (a, b) :: m
    else (k, c) :: Memory.setByte m a b

/-- `MemWrite(a, n, b)` with `n = len(b)` (00_scope R17): byte `b[i]` goes to address `a + i`. -/
def Memory.setBytes (m : Memory) (a : Nat) : List Byte → Memory
  | [] => m
  | b :: bs => Memory.setBytes (Memory.setByte m a b) (a + 1) bs

/-- The bytes of `[a, a + n)` become unspecified, but those the free choice keeps (70 R603; log 9). -/
def Memory.scramble (m : Memory) (draw a n : Nat) : Memory :=
  m.filter (fun c => !(decide (a ≤ c.1) && decide (c.1 < a + n)) || Config.keepsOld draw c.1)

/-- `InRange(a, n)` (00_scope R17, 20_memory R104), on natural numbers, so that the sum cannot wrap. -/
def inRange (a n : Nat) : Bool := decide (a + n ≤ Config.dbufBytes)

end Sys2Proof.Machine
end

