-- ==== Sys2Proof/Machine/Ops.lean ====
section
/-! DEFINITION. The shared operations over registers and memory, and how a command ends: completion without error
(spec 40_control R183) and error completion, the block's trap entry (60_exceptions R511), with the acknowledgement
that stands for a return from it (R514). -/

namespace Sys2Proof.Machine

/-! Registers and memory. -/

/-- `V[r]` (00_scope R13). -/
def State.vreg (s : State) (r : VReg) : BvReg := s.v[r]

/-- `V[r] <- x`: both fields in one step (00_scope R13, 10_state R33). -/
def State.setV (s : State) (r : VReg) (x : BvReg) : State := { s with v := s.v.set r x }

/-- `RESULT0 <- n` (10_state R36). -/
def State.setResult0 (s : State) (n : Nat) : State := { s with result0 := BitVec.ofNat 32 n }

/-- `RESULT1 <- n` (10_state R36). -/
def State.setResult1 (s : State) (n : Nat) : State := { s with result1 := BitVec.ofNat 32 n }

/-- The byte at a `DBUF` address, as the current draw reads it (20_memory R102). -/
def State.byteAt (s : State) (a : Nat) : Byte := Memory.byteOr s.dbuf s.draws a

/-- `MemRead(a, n)` (00_scope R17). Every read of one command is made with the draw of the state at its start. -/
def State.memRead (s : State) (a n : Nat) : List Byte := Memory.bytes s.dbuf s.draws a n

/-- `MemWrite(a, len(b), b)` (00_scope R17). -/
def State.memWrite (s : State) (a : Nat) (b : List Byte) : State := { s with dbuf := Memory.setBytes s.dbuf a b }

/-- The next draw of free bytes, so that no later read need agree with an earlier one (20_memory R102; log 4). -/
def State.nextDraw (s : State) : State := { s with draws := s.draws + 1 }

/-! The PRIM port. -/

/-- No call of a running command: nothing is outstanding and nothing has been answered (43_modes R440). -/
def PrimPort.idle (p : PrimPort) : PrimPort := { p with outstanding := none, answered := 0 }

/-- Every one of a command's calls has been taken and answered: what the command waits for (70 R613). -/
def PrimPort.answeredAll (p : PrimPort) (calls : List PrimCall) : Bool :=
  p.outstanding.isNone && decide (calls.length ≤ p.answered)

/-- The port once a primitive has answered a command's calls, made in their order (43_modes R442). -/
def PrimPort.answerAll (p : PrimPort) (calls : List PrimCall) : PrimPort :=
  { outstanding := none, answered := calls.length, trace := p.trace ++ calls }

/-! How a command ends. -/

/-- `check C else raise E(sub)` (00_scope R19). -/
def check (c : Bool) (code : ErrCode) (sub : BitVec 8) : Except CmdError Unit :=
  if c then .ok () else .error { code := code, sub := sub }

/-- Completion without error: `BUSY <- 0`, `DONE <- 1`; `ERR`, `ERRCODE` and `ERRINFO` are left (40_control R183). -/
def State.complete (s : State) : State :=
  { s with busy := false, done := true, port := s.port.idle }

/-- Error completion, the block's trap entry (60_exceptions R511): `ERRCODE`, `SUB` and `CHK` are written, `ERR` and
`DONE` are set, `BUSY` is cleared, nothing else changes. `CHK` is the opcode byte of `CMD` (R504; log 17). -/
def State.raise (s : State) (e : CmdError) : State :=
  { s with busy := false, done := true, err := true, errCode := e.code, errSub := e.sub,
           errChk := opcodeOf s.cmd, port := s.port.idle }

/-- The host's acknowledgement of an error, a write of 1 to `STATUS.ERR`: it clears `ERR`, `ERRCODE` and `ERRINFO`
(10_state R43, R45, 60_exceptions R514). There is no other return from an error. -/
def State.clearErr (s : State) : State :=
  { s with err := false, errCode := .none, errSub := 0#8, errChk := 0#8 }

/-- The end of a command that reads no `DBUF` byte: its writes and the completion, or the error, at one instant. -/
def finish (s : State) (r : Except CmdError State) : Host.Outcome State Fault Refusal :=
  match r with
  | .ok t => .next t.complete
  | .error e => .next (s.raise e)

/-- The end of a command that reads `DBUF`: as `finish`, and the next read is a new draw (20_memory R102; log 4). -/
def finishRead (s : State) (r : Except CmdError State) : Host.Outcome State Fault Refusal :=
  finish s.nextDraw (r.map State.nextDraw)

end Sys2Proof.Machine
end

