-- ==== Sys2Proof/Machine/Operands.lean ====
section
/-! DEFINITION. Operand forms: how a command reads its argument registers (spec 30_encoding R143, R144), bit indices
and slices (41_bitvector R220, R222), the bit orders (20_memory R111), and the fields of the configuration registers
(10_state R46, R52). -/

namespace Sys2Proof.Machine

/-! Argument registers. `u32(ARGn)` is `s.argn.toNat`; `s32(ARGn)` is `s.argn.toInt`. -/

/-- `u32(ARG0)` (R143). -/
abbrev State.u0 (s : State) : Nat := s.arg0.toNat

/-- `u32(ARG1)`. -/
abbrev State.u1 (s : State) : Nat := s.arg1.toNat

/-- `u32(ARG2)`. -/
abbrev State.u2 (s : State) : Nat := s.arg2.toNat

/-- `u32(ARG3)`. -/
abbrev State.u3 (s : State) : Nat := s.arg3.toNat

/-- The 64-bit unsigned value `ARG1 * 2^32 + ARG0` (R143). -/
abbrev State.argPair (s : State) : Nat := s.u1 * 2 ^ 32 + s.u0

/-! Bit indices and slices. -/

/-- Index normalisation: `-s <= i < s` selects `i + s` when `i` is negative and `i` otherwise, else `INDEX` 1
(41_bitvector R220). -/
def normIndex (i : Int) (s : Nat) : Except CmdError Nat :=
  if -(s : Int) ≤ i ∧ i < (s : Int) then
    .ok (if i < 0 then i + (s : Int) else i).toNat
  else .error { code := .index, sub := 1#8 }

/-- A slice `[st, st + step, ...]` of `count` indices (41_bitvector R222). -/
structure Slice where
  st : Nat
  step : Nat
  count : Nat
  deriving DecidableEq, Repr

/-- `idx[k]`. -/
def Slice.index (x : Slice) (k : Nat) : Nat := x.st + k * x.step

/-- A negative bound counts from the high end (R222). -/
def fromHighEnd (i : Int) (s : Nat) : Int := if i < 0 then i + (s : Int) else i

/-- Slice normalisation `SL(s)` of R222: the step first (`INDEX` 3), then the bounds (`INDEX` 2). -/
def sliceOf (ns ne : Bool) (a0 a1 a2 : Word) (s : Nat) : Except CmdError Slice := do
  let st : Int := if ns then 0 else a0.toInt
  let sp : Int := if ne then (s : Int) else a1.toInt
  let step : Int := a2.toInt
  check (decide (1 ≤ step)) .index 3#8
  let st := fromHighEnd st s
  let sp := fromHighEnd sp s
  check (decide (0 ≤ st) && decide (st ≤ sp) && decide (sp ≤ (s : Int))) .index 2#8
  pure { st := st.toNat, step := step.toNat, count := ceilDiv (sp - st).toNat step.toNat }

/-- The bits a slice selects, as a number: result bit `k` is bit `idx[k]` (R222). -/
def Slice.read (x : Slice) (v : Nat) : Nat :=
  natOfBits ((List.range x.count).map (fun k => v.testBit (x.index k)))

/-- Bit `idx[k]` of `v` becomes bit `k` of `w`, for every `k` (41_bitvector R224). -/
def Slice.write (x : Slice) (v w : Nat) : Nat :=
  (List.range x.count).foldl (fun acc k => setBit acc (x.index k) (w.testBit k)) v

/-! Bit orders. -/

/-- The integer a byte string stands for in a bit order, in the three conventions of 20_memory R111 and
41_bitvector R210. The reserved value never gets here: it is refused (30_encoding R147). -/
def bytesToNat (bo : BitOrder) (b : List Byte) : Nat :=
  match bo with
  | .bigEndian => intBe b
  | .littleEndian => intLe b
  | .bitstream => natOfBits (streamBits b)
  | .reserved => 0

/-- The `k` bytes of a value in a bit order (41_bitvector R213). -/
def natToBytes (bo : BitOrder) (k v : Nat) : List Byte :=
  match bo with
  | .bigEndian => beBytes k v
  | .littleEndian => leBytes k v
  | .bitstream => packBits (bitsOfNat v (8 * k))
  | .reserved => []

/-- A used `BO` field must not be `11` (30_encoding R147). -/
def checkBo (bo : BitOrder) : Except CmdError Unit := check bo.legal .illegal 3#8

/-! Configuration fields. -/

/-- The scheme of a 3-bit code; 7 is reserved (10_state R46). -/
def schemeOfCode (c : BitVec 3) : Option PadScheme :=
  match c.toNat with
  | 0 => some .none
  | 1 => some .zero
  | 2 => some .bitpad
  | 3 => some .pkcs7
  | 4 => some .x923
  | 5 => some .md
  | 6 => some .blake
  | _ => none

/-- The 3-bit code of a scheme (10_state R46). -/
def schemeCode : PadScheme → BitVec 3
  | .none => 0#3
  | .zero => 1#3
  | .bitpad => 2#3
  | .pkcs7 => 3#3
  | .x923 => 4#3
  | .md => 5#3
  | .blake => 6#3

/-- The word size of a `WSZ` code (10_state R46). -/
def mdWordOfCode (c : BitVec 2) : MdWord :=
  match c.toNat with
  | 0 => .w8
  | 1 => .w16
  | 2 => .w32
  | _ => .w64

/-- The `WSZ` code of a word size. -/
def mdWordCode : MdWord → BitVec 2
  | .w8 => 0#2
  | .w16 => 1#2
  | .w32 => 2#2
  | .w64 => 3#2

/-- `w` in bits. -/
def MdWord.bits : MdWord → Nat
  | .w8 => 8
  | .w16 => 16
  | .w32 => 32
  | .w64 => 64

/-- The five modes of operation (10_state R52). -/
inductive ModeKind where
  | ecb
  | cbc
  | ecbCts
  | cbcCts
  | ctr
  deriving DecidableEq, Repr

/-- The mode of a 3-bit code; 5, 6 and 7 are reserved (10_state R52). -/
def modeOfCode (c : BitVec 3) : Option ModeKind :=
  match c.toNat with
  | 0 => some .ecb
  | 1 => some .cbc
  | 2 => some .ecbCts
  | 3 => some .cbcCts
  | 4 => some .ctr
  | _ => none

/-- The bits of `SEG_CFG` that store what is written: 7:4 and 2:0 (10_state R46). -/
def segCfgMask : Word := 0xF7#32

/-- The bits of `MODE_CFG` that store what is written: 11:8, 6:4 and 2:0 (10_state R52). -/
def modeCfgMask : Word := 0xF77#32

end Sys2Proof.Machine
end

