-- ==== Sys2Proof/Machine/Flags.lean ====
section
/-! DEFINITION. The flags a host can read, and the registers that show them: `STATUS`, `ERRINFO`, `SEG_ACFG` and the
interrupt output (spec 10_state R43, R45, R51, R72; 60_exceptions R500, R520). crysp-core has no arithmetic flags
(R72), so no command computes any. -/

namespace Sys2Proof.Machine

/-- The 4-bit code of an error (60_exceptions R500). -/
def ErrCode.bits : ErrCode → BitVec 4
  | .none => 0#4
  | .illegal => 1#4
  | .index => 2#4
  | .sizeMismatch => 3#4
  | .padding => 4#4
  | .length => 5#4
  | .type => 6#4
  | .address => 7#4
  | .overflow => 8#4
  | .config => 9#4
  | .state => 10#4

/-- What `STATUS` reads (10_state R43), its reserved bits 0 and bits 18:16 the mirrors. -/
def State.statusWord (s : State) : Word :=
  0#13 ++ BitVec.ofBool s.mode.ctrValid ++ BitVec.ofBool s.mode.ivValid ++ BitVec.ofBool s.seg.finalized
    ++ 0#4 ++ s.errCode.bits ++ 0#3
    ++ BitVec.ofBool s.accErr ++ BitVec.ofBool s.ovr ++ BitVec.ofBool s.err ++ BitVec.ofBool s.done
    ++ BitVec.ofBool s.busy

/-- What `ERRINFO` reads (10_state R45). -/
def State.errInfoWord (s : State) : Word := 0#16 ++ s.errChk ++ s.errSub

/-- A latched configuration in the layout of `SEG_CFG` (10_state R46, R51). -/
def PadCfg.word (c : PadCfg) : Word :=
  0#24 ++ BitVec.ofBool c.dbit ++ BitVec.ofBool c.lenBe ++ mdWordCode c.w ++ 0#1 ++ schemeCode c.scheme

/-- The interrupt output `irq = CTRL.IE & STATUS.DONE` (60_exceptions R520). -/
def State.irq (s : State) : Bool := s.ie && s.done

/-- A write to `STATUS` clears the flags whose W1C bit is 1 and no other; clearing `ERR` clears `ERRCODE` and
`ERRINFO` too (10_state R43). -/
def State.clearStatus (s : State) (w : Word) : State :=
  let s := if w.getLsbD 1 then { s with done := false } else s
  let s := if w.getLsbD 2 then s.clearErr else s
  let s := if w.getLsbD 3 then { s with ovr := false } else s
  if w.getLsbD 4 then { s with accErr := false } else s

/-- A refused host access sets `ACCERR` and nothing else (20_memory R103, R105, R110). -/
def State.refuseAccess (s : State) : State := { s with accErr := true }

/-- The error of a word that does not decode (30_encoding R148). -/
def decodeErrorCmd : DecodeError → CmdError
  | .unknownOpcode => { code := .illegal, sub := 1#8 }
  | .reservedBits => { code := .illegal, sub := 2#8 }
  | .reservedFn => { code := .illegal, sub := 3#8 }

end Sys2Proof.Machine
end

