-- ==== Sys2Proof/Machine/BvMove.lean ====
section
/-! DEFINITION. Bit-vector construction, copy, read-back and byte conversion (spec 41_bitvector sections 2, 3 and 8).
Each command is a computation of what it writes, which may raise, and a meaning that writes it and completes. -/

namespace Sys2Proof.Machine

/-- A result size above `BV_W` raises `OVERFLOW` 1 (41_bitvector R202). -/
def checkSize (size : Nat) : Except CmdError Unit := check (decide (size ≤ Config.bvW)) .overflow 1#8

/-- A `DBUF` range that fails `InRange` raises `ADDRESS` 1 (20_memory R104). -/
def checkRange (a n : Nat) : Except CmdError Unit := check (inRange a n) .address 1#8

/-! Construction, copy and read-back. -/

/-- What `BV.LDI` loads (R205). -/
def ldiValue (sz : Bool) (s : State) : Except CmdError BvReg :=
  let v := s.argPair
  if sz then do
    let size := s.u2
    checkSize size
    pure { val := v &&& mask size, size := size }
  else pure { val := v, size := bitlen v }

/-- `BV.LDI` (R205). -/
def execBvLdi (vd : VReg) (sz : Bool) (s : State) : Host.Outcome State Fault Refusal :=
  finish s ((ldiValue sz s).map (s.setV vd))

/-- What `BV.LDBITS` loads: one byte per bit, element `i` is bit `i` (R206). -/
def ldbitsValue (s : State) : Except CmdError BvReg := do
  let a := s.u0
  let c := s.u1
  checkRange a c
  checkSize c
  let b := s.memRead a c
  check (b.all (fun x => x == 0#8 || x == 1#8)) .type 1#8
  pure { val := natOfBits (b.map (fun x => x == 1#8)), size := c }

/-- `BV.LDBITS` (R206). -/
def execBvLdbits (vd : VReg) (s : State) : Host.Outcome State Fault Refusal :=
  finishRead s ((ldbitsValue s).map (s.setV vd))

/-- `BV.MOV` (R207). -/
def execBvMov (vd va : VReg) (s : State) : Host.Outcome State Fault Refusal :=
  finish s (.ok (s.setV vd (s.vreg va)))

/-- `BV.SIZE` (R208). -/
def execBvSize (va : VReg) (s : State) : Host.Outcome State Fault Refusal :=
  finish s (.ok (s.setResult0 (s.vreg va).size))

/-- `BV.RDW`: word `k` of the value; a word above the size reads 0 (R209). -/
def execBvRdw (va : VReg) (s : State) : Host.Outcome State Fault Refusal :=
  finish s (.ok (s.setResult0 (((s.vreg va).val >>> (32 * s.u0)) &&& 0xFFFFFFFF)))

/-! Byte conversion. -/

/-- What `BV.LDB` loads (R210). -/
def ldbValue (bo : BitOrder) (sz : Bool) (s : State) : Except CmdError BvReg := do
  checkBo bo
  let a := s.u0
  let n := s.u1
  checkRange a n
  let size := if sz then s.u2 else 8 * n
  check (decide (size ≤ 8 * n)) .sizeMismatch 3#8
  checkSize size
  pure { val := bytesToNat bo (s.memRead a n) &&& mask size, size := size }

/-- `BV.LDB` (R210). -/
def execBvLdb (vd : VReg) (bo : BitOrder) (sz : Bool) (s : State) : Host.Outcome State Fault Refusal :=
  finishRead s ((ldbValue bo sz s).map (s.setV vd))

/-- The bytes a store of register `r` takes: `ceil(size / 8)` (R213, R250). -/
def BvReg.byteCount (r : BvReg) : Nat := ceilDiv r.size 8

/-- The bytes `BV.STB` stores at `ARG0` (R213). -/
def stbBytes (va : VReg) (bo : BitOrder) (s : State) : Except CmdError (List Byte) := do
  checkBo bo
  let r := s.vreg va
  checkRange s.u0 r.byteCount
  pure (natToBytes bo r.byteCount r.val)

/-- `BV.STB` (R213). -/
def execBvStb (va : VReg) (bo : BitOrder) (s : State) : Host.Outcome State Fault Refusal :=
  finish s ((stbBytes va bo s).map
    (fun out => (s.memWrite s.u0 out).setResult0 (s.vreg va).byteCount))

/-- The 8-bit groups of a value, the lowest first (R250). -/
def byteGroups (v g : Nat) : List Byte := (List.range g).map (fun j => BitVec.ofNat 8 ((v >>> (8 * j)) &&& 0xFF))

/-- The bytes `BV.PACK` stores at `ARG0` (R250). -/
def packBytes (va : VReg) (big : Bool) (s : State) : Except CmdError (List Byte) := do
  let r := s.vreg va
  checkRange s.u0 r.byteCount
  let groups := byteGroups r.val r.byteCount
  pure (if big then groups.reverse else groups)

/-- `BV.PACK` (R250). -/
def execBvPack (va : VReg) (big : Bool) (s : State) : Host.Outcome State Fault Refusal :=
  finish s ((packBytes va big s).map
    (fun out => (s.memWrite s.u0 out).setResult0 (s.vreg va).byteCount))

/-- What `BV.UNPACK` loads (R251). -/
def unpackValue (big : Bool) (s : State) : Except CmdError BvReg := do
  let a := s.u0
  let n := s.u1
  checkRange a n
  checkSize (8 * n)
  let b := s.memRead a n
  pure { val := if big then intBe b else intLe b, size := 8 * n }

/-- `BV.UNPACK` (R251). -/
def execBvUnpack (vd : VReg) (big : Bool) (s : State) : Host.Outcome State Fault Refusal :=
  finishRead s ((unpackValue big s).map (fun r => (s.setV vd r).setResult0 r.size))

end Sys2Proof.Machine
end

