-- ==== Sys2Proof/Machine/BvArith.lean ====
section
/-! DEFINITION. Bitwise and arithmetic operators, shifts, concatenation, extension and Hamming counts (spec
41_bitvector sections 5 to 7). Operands are used as integers, so the narrower one is in effect zero-extended (R230). -/

namespace Sys2Proof.Machine

/-- The size of a binary operator's result: the larger operand size (R230). -/
def maxSize (a b : BvReg) : Nat := max a.size b.size

/-- A binary operator's meaning: both sources are read before the destination is written (R201). -/
def binaryOp (f : BvReg → BvReg → BvReg) (vd va vb : VReg) (s : State) : Host.Outcome State Fault Refusal :=
  finish s (.ok (s.setV vd (f (s.vreg va) (s.vreg vb))))

/-- `a & b` (R231). -/
def bvAnd (a b : BvReg) : BvReg := { val := a.val &&& b.val, size := maxSize a b }

/-- `a | b` (R232). -/
def bvOr (a b : BvReg) : BvReg := { val := a.val ||| b.val, size := maxSize a b }

/-- `a ^ b` (R233). -/
def bvXor (a b : BvReg) : BvReg := { val := a.val ^^^ b.val, size := maxSize a b }

/-- `~a & mask(sa)` (R234). -/
def bvNot (a : BvReg) : BvReg := { val := (a.val &&& mask a.size) ^^^ mask a.size, size := a.size }

/-- `(a + b) mod 2^s` (R235). -/
def bvAdd (a b : BvReg) : BvReg := { val := (a.val + b.val) % 2 ^ maxSize a b, size := maxSize a b }

/-- `(a - b) mod 2^s`, the mathematical difference reduced (R236). -/
def bvSub (a b : BvReg) : BvReg :=
  { val := (((a.val : Int) - (b.val : Int)) % ((2 ^ maxSize a b : Nat) : Int)).toNat, size := maxSize a b }

/-- `(a * 2^n) & mask(sa)`; `n >= sa` gives 0 (R237). -/
def bvShl (a : BvReg) (n : Nat) : BvReg :=
  { val := if a.size ≤ n then 0 else (a.val * 2 ^ n) &&& mask a.size, size := a.size }

/-- `a div 2^n` (R238). -/
def bvShr (a : BvReg) (n : Nat) : BvReg := { val := a.val >>> n, size := a.size }

/-- `BV.AND` (R231). -/
def execBvAnd (vd va vb : VReg) (s : State) : Host.Outcome State Fault Refusal := binaryOp bvAnd vd va vb s

/-- `BV.OR` (R232). -/
def execBvOr (vd va vb : VReg) (s : State) : Host.Outcome State Fault Refusal := binaryOp bvOr vd va vb s

/-- `BV.XOR` (R233). -/
def execBvXor (vd va vb : VReg) (s : State) : Host.Outcome State Fault Refusal := binaryOp bvXor vd va vb s

/-- `BV.NOT` (R234). -/
def execBvNot (vd va : VReg) (s : State) : Host.Outcome State Fault Refusal :=
  finish s (.ok (s.setV vd (bvNot (s.vreg va))))

/-- `BV.ADD` (R235). -/
def execBvAdd (vd va vb : VReg) (s : State) : Host.Outcome State Fault Refusal := binaryOp bvAdd vd va vb s

/-- `BV.SUB` (R236). -/
def execBvSub (vd va vb : VReg) (s : State) : Host.Outcome State Fault Refusal := binaryOp bvSub vd va vb s

/-- `BV.SHL` by `ARG0` (R237). -/
def execBvShl (vd va : VReg) (s : State) : Host.Outcome State Fault Refusal :=
  finish s (.ok (s.setV vd (bvShl (s.vreg va) s.u0)))

/-- `BV.SHR` by `ARG0` (R238). -/
def execBvShr (vd va : VReg) (s : State) : Host.Outcome State Fault Refusal :=
  finish s (.ok (s.setV vd (bvShr (s.vreg va) s.u0)))

/-- `concat(a, b)`: `a` in the low bits (R240). -/
def catValue (a b : BvReg) : Except CmdError BvReg := do
  checkSize (a.size + b.size)
  pure { val := a.val + b.val * 2 ^ a.size, size := a.size + b.size }

/-- `BV.CAT` (R240). -/
def execBvCat (vd va vb : VReg) (s : State) : Host.Outcome State Fault Refusal :=
  finish s ((catValue (s.vreg va) (s.vreg vb)).map (s.setV vd))

/-- Zero extension to `m` bits; no change when `m` is not above the size (R241). -/
def zextValue (r : BvReg) (m : Nat) : Except CmdError BvReg :=
  if m ≤ r.size then pure r
  else do
    checkSize m
    pure { val := r.val, size := m }

/-- `BV.ZEXT` to `ARG0` bits (R241). -/
def execBvZext (vd : VReg) (s : State) : Host.Outcome State Fault Refusal :=
  finish s ((zextValue (s.vreg vd) s.u0).map (s.setV vd))

/-- The most significant bit; a vector of size 0 counts as having a 0 there (R242). -/
def BvReg.msb (r : BvReg) : Bool := decide (r.size ≠ 0) && r.val.testBit (r.size - 1)

/-- Sign extension to `m` bits (R242). -/
def sextValue (r : BvReg) (m : Nat) : Except CmdError BvReg :=
  if m ≤ r.size then pure r
  else do
    checkSize m
    pure { val := if r.msb then r.val ||| (mask m - mask r.size) else r.val, size := m }

/-- `BV.SEXT` to `ARG0` bits (R242). -/
def execBvSext (vd : VReg) (s : State) : Host.Outcome State Fault Refusal :=
  finish s ((sextValue (s.vreg vd) s.u0).map (s.setV vd))

/-- `BV.HW` (R245). -/
def execBvHw (va : VReg) (s : State) : Host.Outcome State Fault Refusal :=
  finish s (.ok (s.setResult0 (popcount (s.vreg va).val)))

/-- The Hamming distance of two vectors of equal size (R246). -/
def hamming (a b : BvReg) : Except CmdError Nat := do
  check (decide (a.size = b.size)) .sizeMismatch 1#8
  pure (popcount (a.val ^^^ b.val))

/-- `BV.HD` (R246). -/
def execBvHd (va vb : VReg) (s : State) : Host.Outcome State Fault Refusal :=
  finish s ((hamming (s.vreg va) (s.vreg vb)).map s.setResult0)

end Sys2Proof.Machine
end

