-- ==== Sys2Proof/Machine/BvSelect.lean ====
section
/-! DEFINITION. Bit and slice access, the slice-mux (spec 41_bitvector section 4). -/

namespace Sys2Proof.Machine

/-- The bit `BV.GET` reads (R221). -/
def getBit (va : VReg) (s : State) : Except CmdError Bool := do
  let r := s.vreg va
  let j ← normIndex s.arg0.toInt r.size
  pure (r.val.testBit j)

/-- `BV.GET`: the bit as a vector of size 1 and in `RESULT0` (R221). -/
def execBvGet (vd va : VReg) (s : State) : Host.Outcome State Fault Refusal :=
  finish s ((getBit va s).map
    (fun x => (s.setV vd { val := x.toNat, size := 1 }).setResult0 x.toNat))

/-- What `BV.SET` makes of its target: the index is checked before the bit value (R223). -/
def setValue (vd : VReg) (s : State) : Except CmdError BvReg := do
  let r := s.vreg vd
  let j ← normIndex s.arg0.toInt r.size
  check (decide (s.u1 ≤ 1)) .type 2#8
  pure { r with val := setBit r.val j (decide (s.u1 = 1)) }

/-- `BV.SET` (R223). -/
def execBvSet (vd : VReg) (s : State) : Host.Outcome State Fault Refusal :=
  finish s ((setValue vd s).map (s.setV vd))

/-- What `BV.GETS` reads (R222). -/
def getsValue (va : VReg) (ns ne : Bool) (s : State) : Except CmdError BvReg := do
  let r := s.vreg va
  let x ← sliceOf ns ne s.arg0 s.arg1 s.arg2 r.size
  pure { val := x.read r.val, size := x.count }

/-- `BV.GETS` (R222). -/
def execBvGets (vd va : VReg) (ns ne : Bool) (s : State) : Host.Outcome State Fault Refusal :=
  finish s ((getsValue va ns ne s).map (s.setV vd))

/-- What `BV.SETS` makes of its target: the source is coerced to the slice's length, or must have it (R224). -/
def setsValue (vd va : VReg) (ns ne co : Bool) (s : State) : Except CmdError BvReg := do
  let r := s.vreg vd
  let u := s.vreg va
  let x ← sliceOf ns ne s.arg0 s.arg1 s.arg2 r.size
  check (co || decide (u.size = x.count)) .sizeMismatch 2#8
  pure { r with val := x.write r.val (if co then u.val &&& mask x.count else u.val) }

/-- `BV.SETS` (R224). -/
def execBvSets (vd va : VReg) (ns ne co : Bool) (s : State) : Host.Outcome State Fault Refusal :=
  finish s ((setsValue vd va ns ne co s).map (s.setV vd))

end Sys2Proof.Machine
end

