-- ==== Sys2Proof/Machine/Control.lean ====
section
/-! DEFINITION. The control command (spec 40_control). -/

namespace Sys2Proof.Machine

/-- `NOP` (40_control R185): nothing but the completion. -/
def execNop (s : State) : Host.Outcome State Fault Refusal := finish s (.ok s)

end Sys2Proof.Machine
end

