-- ==== Sys2Proof/Machine/Padding.lean ====
section
/-! DEFINITION. The padding-scheme dispatcher: the pad and unpad functions of the seven schemes (spec 42_segmenter
R302, R311 to R318, R321 to R327) and the configuration checks (R304). Bit strings are lists of bits in stream order
(00_scope R15). The segmenter and the mode controller share these. -/

namespace Sys2Proof.Machine

/-- `f = 2w`, the width of the length suffix in bits (R317). -/
def PadCfg.fieldBits (c : PadCfg) : Nat := 2 * c.w.bits

/-- `Bb / 8`, the block size in bytes. -/
def PadCfg.blockBytes (c : PadCfg) : Nat := c.blockBits / 8

/-- The block size is a multiple of 8 from 8 to 1024 (R304). -/
def legalBlockBits (n : Nat) : Bool := decide (n % 8 = 0) && decide (8 ≤ n) && decide (n ≤ 1024)

/-- The length suffix and the sentinel (and the domain bit) fit one block (R304, 43_modes R401). -/
def PadCfg.fieldFits (c : PadCfg) : Bool :=
  match c.scheme with
  | .md => decide (c.fieldBits + 1 ≤ c.blockBits)
  | .blake => decide (c.fieldBits + 2 ≤ c.blockBits)
  | .none | .zero | .bitpad | .pkcs7 | .x923 => true

/-- A configuration that passes every check of R304. -/
def PadCfg.legal (c : PadCfg) : Bool := legalBlockBits c.blockBits && c.fieldFits

/-! Padding. -/

/-- What a pad function answers (R311): the padded tail, the number of padding bits, the number of blocks. -/
structure Padded where
  bits : List Bool
  padBits : Nat
  blocks : Nat
  deriving DecidableEq, Repr

/-- `NONE` (R312): the tail as a short block, nothing for an empty tail. -/
def padNone (t : List Bool) : Padded :=
  { bits := t, padBits := 0, blocks := if t.length = 0 then 0 else 1 }

/-- `ZERO` (R313): zeros to the end of the block; an aligned message gets no extra block. -/
def padZero (bb : Nat) (t : List Bool) : Padded :=
  if t.length = 0 then { bits := [], padBits := 0, blocks := 0 }
  else { bits := t ++ List.replicate (bb - t.length) false, padBits := bb - t.length, blocks := 1 }

/-- `BITPAD` (R314): a 1, then zeros. -/
def padBit (bb : Nat) (t : List Bool) : Padded :=
  { bits := t ++ true :: List.replicate (bb - t.length - 1) false, padBits := bb - t.length, blocks := 1 }

/-- The pad count `N = Bbytes - t/8` of the byte schemes (R315, R316). -/
def padCount (bb : Nat) (t : List Bool) : Nat := bb / 8 - t.length / 8

/-- `PKCS7` (R315): `N` bytes of value `N`. -/
def padPkcs7 (bb : Nat) (t : List Bool) : Padded :=
  let n := padCount bb t
  { bits := t ++ streamBits (List.replicate n (BitVec.ofNat 8 n)), padBits := 8 * n, blocks := 1 }

/-- `X923` (R316): `N - 1` zero bytes, then `N`. -/
def padX923 (bb : Nat) (t : List Bool) : Padded :=
  let n := padCount bb t
  { bits := t ++ streamBits (List.replicate (n - 1) 0#8 ++ [BitVec.ofNat 8 n]), padBits := 8 * n, blocks := 1 }

/-- The length suffix `LB`: `P mod 2^f` in `f/8` bytes, big- or little-endian (R317). -/
def lengthSuffix (c : PadCfg) (p : Nat) : List Byte :=
  let f := c.fieldBits
  let lv := p % 2 ^ f
  if c.lenBe then beBytes (f / 8) lv else leBytes (f / 8) lv

/-- The blocks `MD` and `BLAKE` padding takes: one if the tail, `extra` bits and the length fit it, else two (R317,
R318). -/
def suffixBlocks (c : PadCfg) (t extra : Nat) : Nat := if t + extra + c.fieldBits ≤ c.blockBits then 1 else 2

/-- `MD` (R317): a 1, zeros, the length. -/
def padMd (c : PadCfg) (t : List Bool) (p : Nat) : Padded :=
  let tb := suffixBlocks c t.length 1
  let z := tb * c.blockBits - t.length - 1 - c.fieldBits
  { bits := t ++ true :: (List.replicate z false ++ streamBits (lengthSuffix c p))
    padBits := 1 + z + c.fieldBits, blocks := tb }

/-- `BLAKE` (R318): a 1, zeros, the domain bit, the length. -/
def padBlake (c : PadCfg) (t : List Bool) (p : Nat) : Padded :=
  let tb := suffixBlocks c t.length 2
  let z := tb * c.blockBits - t.length - 2 - c.fieldBits
  { bits := t ++ true :: (List.replicate z false ++ c.dbit :: streamBits (lengthSuffix c p))
    padBits := 2 + z + c.fieldBits, blocks := tb }

/-- `Pad(T, t, P)` (R311). -/
def padTail (c : PadCfg) (t : List Bool) (p : Nat) : Padded :=
  match c.scheme with
  | .none => padNone t
  | .zero => padZero c.blockBits t
  | .bitpad => padBit c.blockBits t
  | .pkcs7 => padPkcs7 c.blockBits t
  | .x923 => padX923 c.blockBits t
  | .md => padMd c t p
  | .blake => padBlake c t p

/-- The byte schemes have no layout for a partial byte (R309). -/
def PadScheme.wholeBytes : PadScheme → Bool
  | .pkcs7 | .x923 => true
  | .none | .zero | .bitpad | .md | .blake => false

/-! Padding removal. -/

/-- Malformed padding: `PADDING` 4 (R321). -/
def badPadding : CmdError := { code := .padding, sub := 4#8 }

/-- The position of the last 1 among the stream bits `[lo, hi)` of `b`, or `PADDING` 4 (R324, R327). -/
def sentinel (b : List Byte) (lo hi : Nat) : Except CmdError Nat :=
  match lastTrue? (((streamBits b).drop lo).take (hi - lo)) with
  | some j => .ok (lo + j)
  | none => .error badPadding

/-- Every scheme but `NONE` and `ZERO` needs a non-empty whole number of blocks (R321). -/
def checkWholeBlocks (c : PadCfg) (n : Nat) : Except CmdError Unit :=
  check (decide (c.blockBytes ≤ n) && decide (n % c.blockBytes = 0)) .padding 4#8

/-- `ZERO` (R323): the length comes from the stored padding length, and the padding must be zeros. -/
def unpadZero (b : List Byte) (lp : Nat) : Except CmdError Nat := do
  check (decide (lp ≤ 8 * b.length)) .padding 4#8
  let l := 8 * b.length - lp
  check (((streamBits b).drop l).all (fun x => !x)) .padding 4#8
  pure l

/-- `BITPAD` (R324): the last 1 of the final block. -/
def unpadBit (c : PadCfg) (b : List Byte) : Except CmdError Nat := do
  checkWholeBlocks c b.length
  sentinel b (8 * b.length - c.blockBits) (8 * b.length)

/-- The pad count in the last byte, checked to be in `1 .. Bb/8` (R325, R326). -/
def lastCount (c : PadCfg) (b : List Byte) : Except CmdError Nat := do
  checkWholeBlocks c b.length
  let n := ((b.getLast?).getD 0#8).toNat
  check (decide (1 ≤ n) && decide (n ≤ c.blockBytes)) .padding 4#8
  pure n

/-- `PKCS7` (R325): the last `N` bytes all equal `N`. -/
def unpadPkcs7 (c : PadCfg) (b : List Byte) : Except CmdError Nat := do
  let n ← lastCount c b
  check ((b.drop (b.length - n)).all (fun x => x.toNat == n)) .padding 4#8
  pure (8 * (b.length - n))

/-- `X923` (R326): the fill bytes are not checked. -/
def unpadX923 (c : PadCfg) (b : List Byte) : Except CmdError Nat := do
  let n ← lastCount c b
  pure (8 * (b.length - n))

/-- The first stream position of the last one or two blocks (R327). -/
def tailStart (c : PadCfg) (n : Nat) : Nat := 8 * n - min 2 (n / c.blockBytes) * c.blockBits

/-- `MD` (R327): the last 1 before the length suffix. -/
def unpadMd (c : PadCfg) (b : List Byte) : Except CmdError Nat := do
  checkWholeBlocks c b.length
  sentinel b (tailStart c b.length) (8 * b.length - c.fieldBits)

/-- `BLAKE` (R327): the domain bit is checked, then the last 1 before it is the sentinel. -/
def unpadBlake (c : PadCfg) (b : List Byte) : Except CmdError Nat := do
  checkWholeBlocks c b.length
  let x := 8 * b.length - c.fieldBits - 1
  check ((streamBits b).getD x false == c.dbit) .padding 4#8
  sentinel b (tailStart c b.length) x

/-- `Unpad(b, n, sc, Bb, w, x, lp)` (R321): the message length in bits. -/
def unpad (c : PadCfg) (b : List Byte) (lp : Nat) : Except CmdError Nat :=
  match c.scheme with
  | .none => .ok (8 * b.length)
  | .zero => unpadZero b lp
  | .bitpad => unpadBit c b
  | .pkcs7 => unpadPkcs7 c b
  | .x923 => unpadX923 c b
  | .md => unpadMd c b
  | .blake => unpadBlake c b

end Sys2Proof.Machine
end

