-- ==== Sys2Proof/Machine/Prim.lean ====
section
/-! DEFINITION. The attached block-cipher primitive (spec 43_modes R440, R441), as the mode computations use it. They
take it as an argument, so that they can be evaluated on a given primitive; a command uses the one of `Config`. -/

namespace Sys2Proof.Machine

/-- A primitive: its block length `B` in bytes and its two functions on blocks (00_scope R18). -/
structure Prim where
  bytes : Nat
  enc : List Byte → List Byte
  dec : List Byte → List Byte

/-- A function on `w.bits`-bit values as a function on blocks of `B` bytes: byte `i` of a block is bits `8i+7 .. 8i`
of the port's data (43_modes R440). -/
def blockFn (w : PrimWidth) (f : BitVec w.bits → BitVec w.bits) (x : List Byte) : List Byte :=
  leBytes w.bytes (f (BitVec.ofNat w.bits (intLe x))).toNat

/-- The attached primitive of block size `w`: the OPEN functions `PRIM_E` and `PRIM_D` (00_scope R10; log 5). -/
def attachedPrim (w : PrimWidth) : Prim :=
  { bytes := w.bytes, enc := blockFn w (Config.primE w), dec := blockFn w (Config.primD w) }

/-- Half a block, `H` (43_modes R400). -/
def Prim.half (P : Prim) : Nat := P.bytes / 2

/-- The call `PRIM_E(x)`. -/
def encCall (x : List Byte) : PrimCall := { dir := .encrypt, block := x }

/-- The call `PRIM_D(x)`. -/
def decCall (x : List Byte) : PrimCall := { dir := .decrypt, block := x }

/-- Both functions answer blocks of `B` bytes (R441). -/
def Prim.blockSized (P : Prim) : Prop :=
  ∀ x : List Byte, (P.enc x).length = P.bytes ∧ (P.dec x).length = P.bytes

/-- The named property `PRIM_D(PRIM_E(y)) = y` for every block `y` (R441; log 19). -/
def Prim.inverse (P : Prim) : Prop := ∀ y : List Byte, y.length = P.bytes → P.dec (P.enc y) = y

end Sys2Proof.Machine
end

