-- ==== Sys2Proof/Machine/Mode.lean ====
section
/-! DEFINITION. The mode-of-operation controller (spec 43_modes): ECB, CBC, both with ciphertext stealing, and CTR,
and the IV and counter commands. A mode function answers what an encryption or decryption would do: the PRIM calls it
makes, in port order (R442), the bytes it writes or the late padding error, and the mode state afterwards. -/

namespace Sys2Proof.Machine

/-- What a successful `MODE.ENC` or `MODE.DEC` writes. -/
structure ModeWrite where
  /-- the bytes for `DBUF[ARG2..)` -/
  out : List Byte
  /-- the mode state afterwards -/
  mode : ModeState
  deriving DecidableEq, Repr

/-- A `MODE.ENC` or `MODE.DEC` that has passed every check before its first PRIM call. -/
structure ModePlan where
  /-- the PRIM calls, in the order of R442 -/
  calls : List PrimCall
  /-- the length of the destination range that was checked (R404) -/
  room : Nat
  /-- the writes, or an error found after the calls (R405) -/
  result : Except CmdError ModeWrite

/-- A plan that cannot fail any more. -/
def planOk (calls : List PrimCall) (room : Nat) (out : List Byte) (mode : ModeState) : ModePlan :=
  { calls := calls, room := room, result := .ok { out := out, mode := mode } }

/-! Configuration and state checks. -/

/-- The configuration a MODE command samples: the mode, and the private segmenter's configuration (R401, R403). -/
structure ModeSample where
  kind : ModeKind
  cfg : PadCfg
  deriving DecidableEq, Repr

/-- The private segmenter's configuration for scheme `sc` and block length `B` (R401, R403). -/
def privateCfg (modeCfg : Word) (sc : PadScheme) (B : Nat) : PadCfg :=
  { scheme := sc, w := mdWordOfCode (modeCfg.extractLsb' 8 2), lenBe := modeCfg.getLsbD 10,
    dbit := modeCfg.getLsbD 11, blockBits := 8 * B }

/-- The sample and checks of R401. `PAD` is ignored outside `ECB` and `CBC`. -/
def modeSample (modeCfg : Word) (B : Nat) : Except CmdError ModeSample :=
  match modeOfCode (modeCfg.extractLsb' 0 3) with
  | none => .error { code := .config, sub := 4#8 }
  | some kind =>
    if kind = .ecb ∨ kind = .cbc then
      match schemeOfCode (modeCfg.extractLsb' 4 3) with
      | none => .error { code := .config, sub := 5#8 }
      | some sc => do
        let c := privateCfg modeCfg sc B
        check c.fieldFits .config 6#8
        pure { kind := kind, cfg := c }
    else .ok { kind := kind, cfg := privateCfg modeCfg .none B }

/-- The state checks of R402. -/
def modeStateCheck (kind : ModeKind) (m : ModeState) : Except CmdError Unit :=
  match kind with
  | .ecb => .ok ()
  | .cbc => check m.ivValid .state 1#8
  | .ecbCts => .ok ()
  | .cbcCts => check m.ivValid .state 1#8
  | .ctr => check m.ctrValid .state 2#8

/-! ECB and CBC. -/

/-- `ModePad(M)` (R403): the padded blocks and the padding length. -/
def modePad (c : PadCfg) (B : Nat) (msg : List Byte) : Except CmdError (List (List Byte) × Nat) := do
  let k := msg.length / B
  check (!decide (c.scheme = .none) || decide (msg.length % B = 0)) .sizeMismatch 5#8
  let t := padTail c (streamBits (msg.drop (k * B))) (8 * msg.length)
  pure (blocksOf B (msg.take (k * B) ++ packBits t.bits), t.padBits)

/-- Each block with the chain value it is combined with, in CBC encryption: the input of every call and its answer,
`C_i = E(P_i xor C_(i-1))` (R409). -/
def cbcChain (P : Prim) : List Byte → List (List Byte) → List (List Byte × List Byte)
  | _, [] => []
  | x, p :: ps =>
    let inp := xorBytes p x
    let c := P.enc inp
    (inp, c) :: cbcChain P c ps

/-- CBC decryption of ciphertext blocks after chain value `x`: `P_i = D(C_i) xor C_(i-1)` (R410). -/
def cbcUnchain (P : Prim) (x : List Byte) (cs : List (List Byte)) : List (List Byte) :=
  List.zipWith (fun c prev => xorBytes (P.dec c) prev) cs (x :: cs)

/-- The last block, or the chain value when there is none (R409, R410). -/
def lastBlock (x : List Byte) (cs : List (List Byte)) : List Byte := (cs.getLast?).getD x

/-- `EcbEnc(M)` (R407). -/
def ecbEnc (P : Prim) (c : PadCfg) (m : ModeState) (dst : Nat) (msg : List Byte) : Except CmdError ModePlan := do
  let (ps, pb) ← modePad c P.bytes msg
  checkRange dst (ps.length * P.bytes)
  pure (planOk (ps.map encCall) (ps.length * P.bytes) (ps.map P.enc).flatten
    { m with lastPad := BitVec.ofNat 32 pb })

/-- `CbcEnc(M)` (R409). -/
def cbcEnc (P : Prim) (c : PadCfg) (m : ModeState) (dst : Nat) (msg : List Byte) : Except CmdError ModePlan := do
  let (ps, pb) ← modePad c P.bytes msg
  checkRange dst (ps.length * P.bytes)
  let run := cbcChain P m.chain ps
  let cs := run.map Prod.snd
  pure (planOk (run.map (fun x => encCall x.1)) (ps.length * P.bytes) cs.flatten
    { m with chain := lastBlock m.chain cs, lastPad := BitVec.ofNat 32 pb })

/-- The end of an ECB or CBC decryption: the padding of `q` is removed, and the message must be whole bytes (R408,
R410). -/
def removePad (c : PadCfg) (lp : Nat) (q : List Byte) : Except CmdError (List Byte) := do
  let l ← unpad c q lp
  check (decide (l % 8 = 0)) .padding 6#8
  pure (q.take (l / 8))

/-- `EcbDec(C)` (R408). -/
def ecbDec (P : Prim) (c : PadCfg) (m : ModeState) (dst : Nat) (msg : List Byte) : Except CmdError ModePlan := do
  check (decide (msg.length % P.bytes = 0)) .length 1#8
  checkRange dst msg.length
  let cs := blocksOf P.bytes msg
  pure { calls := cs.map decCall, room := msg.length
         result := (removePad c m.lastPad.toNat (cs.map P.dec).flatten).map (fun out => { out := out, mode := m }) }

/-- `CbcDec(C)` (R410): the calls go backward, and the chain becomes the last ciphertext block. -/
def cbcDec (P : Prim) (c : PadCfg) (m : ModeState) (dst : Nat) (msg : List Byte) : Except CmdError ModePlan := do
  check (decide (msg.length % P.bytes = 0)) .length 1#8
  checkRange dst msg.length
  let cs := blocksOf P.bytes msg
  pure { calls := cs.reverse.map decCall, room := msg.length
         result := (removePad c m.lastPad.toNat (cbcUnchain P m.chain cs).flatten).map
           (fun out => { out := out, mode := { m with chain := lastBlock m.chain cs } }) }

/-! Ciphertext stealing. -/

/-- The common checks of R411. -/
def ctsCheck (P : Prim) (dst : Nat) (msg : List Byte) : Except CmdError Unit := do
  check (decide (P.bytes ≤ msg.length)) .length 2#8
  checkRange dst msg.length

/-- A message cut for stealing: blocks 1 to `m - 2`, the full block `m - 1`, the short block `m` (R413, R414). -/
structure CtsCut where
  front : List (List Byte)
  full : List Byte
  short : List Byte
  deriving DecidableEq, Repr

/-- The cut of a message whose last block is short. -/
def ctsCut (P : Prim) (msg : List Byte) : CtsCut :=
  let bs := blocksOf P.bytes msg
  { front := bs.take (bs.length - 2), full := bs.getD (bs.length - 2) [], short := bs.getD (bs.length - 1) [] }

/-- `ECB_CTS` encryption (R411, R413): plain ECB when the last block is full. -/
def ecbCtsEnc (P : Prim) (m : ModeState) (msg : List Byte) : ModePlan :=
  if msg.length % P.bytes = 0 then
    let ps := blocksOf P.bytes msg
    planOk (ps.map encCall) msg.length (ps.map P.enc).flatten m
  else
    let x := ctsCut P msg
    let z := P.enc x.full
    let steal := x.short ++ z.drop x.short.length
    planOk (x.front.map encCall ++ [encCall x.full, encCall steal]) msg.length
      ((x.front.map P.enc).flatten ++ P.enc steal ++ z.take x.short.length) m

/-- `CBC_CTS` encryption (R411, R413, R415). -/
def cbcCtsEnc (P : Prim) (m : ModeState) (msg : List Byte) : ModePlan :=
  if msg.length % P.bytes = 0 then
    let run := cbcChain P m.chain (blocksOf P.bytes msg)
    let cs := run.map Prod.snd
    planOk (run.map (fun x => encCall x.1)) msg.length cs.flatten { m with chain := lastBlock m.chain cs }
  else
    let x := ctsCut P msg
    let run := cbcChain P m.chain x.front
    let cs := run.map Prod.snd
    let inp := xorBytes x.full (lastBlock m.chain cs)
    let z := P.enc inp
    let steal := xorBytes z (x.short ++ List.replicate (P.bytes - x.short.length) 0#8)
    let c := P.enc steal
    planOk (run.map (fun x => encCall x.1) ++ [encCall inp, encCall steal]) msg.length
      (cs.flatten ++ c ++ z.take x.short.length) { m with chain := c }

/-- `ECB_CTS` decryption (R411, R414): the pre-decryption of the full block comes before the rebuilt block. -/
def ecbCtsDec (P : Prim) (m : ModeState) (msg : List Byte) : ModePlan :=
  if msg.length % P.bytes = 0 then
    let cs := blocksOf P.bytes msg
    planOk (cs.map decCall) msg.length (cs.map P.dec).flatten m
  else
    let x := ctsCut P msg
    let y := P.dec x.full
    let rebuilt := x.short ++ y.drop x.short.length
    planOk (x.front.map decCall ++ [decCall x.full, decCall rebuilt]) msg.length
      ((x.front.map P.dec).flatten ++ P.dec rebuilt ++ y.take x.short.length) m

/-- `CBC_CTS` decryption (R411, R414, R415). -/
def cbcCtsDec (P : Prim) (m : ModeState) (msg : List Byte) : ModePlan :=
  if msg.length % P.bytes = 0 then
    let cs := blocksOf P.bytes msg
    planOk (cs.reverse.map decCall) msg.length (cbcUnchain P m.chain cs).flatten
      { m with chain := lastBlock m.chain cs }
  else
    let x := ctsCut P msg
    let y := P.dec x.full
    let rebuilt := x.short ++ y.drop x.short.length
    planOk ([decCall x.full, decCall rebuilt] ++ x.front.reverse.map decCall) msg.length
      ((cbcUnchain P m.chain x.front).flatten ++ xorBytes (P.dec rebuilt) (lastBlock m.chain x.front)
        ++ xorBytes (y.take x.short.length) x.short)
      { m with chain := x.full }

/-! CTR. -/

/-- The counter block `mode.nonce ++ be_H(c)` (R431). -/
def ctrBlock (P : Prim) (nonce : List Byte) (c : Nat) : List Byte := nonce ++ beBytes P.half c

/-- The counter after one block: modulo `2^(8H)` (R431). -/
def ctrNext (P : Prim) (c : Nat) : Nat := (c + 1) % 2 ^ (8 * P.half)

/-- The blocks of a message each with its counter value, and the counter afterwards (R435). -/
def ctrWalk (P : Prim) : Nat → List (List Byte) → List (Nat × List Byte) × Nat
  | c, [] => ([], c)
  | c, p :: ps => ((c, p) :: (ctrWalk P (ctrNext P c) ps).1, (ctrWalk P (ctrNext P c) ps).2)

/-- `CtrXcrypt(M)` (R435, R436). -/
def ctrXcrypt (P : Prim) (m : ModeState) (dst : Nat) (msg : List Byte) : Except CmdError ModePlan := do
  checkRange dst msg.length
  let walk := ctrWalk P m.ctr (blocksOf P.bytes msg)
  pure (planOk (walk.1.map (fun x => encCall (ctrBlock P m.nonce x.1))) msg.length
    (walk.1.map (fun x => xorBytes x.2 ((P.enc (ctrBlock P m.nonce x.1)).take x.2.length))).flatten
    { m with ctr := walk.2 })

/-! The commands. -/

/-- `MODE.ENC` by mode (R404). -/
def encByMode (P : Prim) (x : ModeSample) (m : ModeState) (dst : Nat) (msg : List Byte) :
    Except CmdError ModePlan :=
  match x.kind with
  | .ecb => ecbEnc P x.cfg m dst msg
  | .cbc => cbcEnc P x.cfg m dst msg
  | .ecbCts => (ctsCheck P dst msg).map (fun _ => ecbCtsEnc P m msg)
  | .cbcCts => (ctsCheck P dst msg).map (fun _ => cbcCtsEnc P m msg)
  | .ctr => ctrXcrypt P m dst msg

/-- `MODE.DEC` by mode (R405). -/
def decByMode (P : Prim) (x : ModeSample) (m : ModeState) (dst : Nat) (msg : List Byte) :
    Except CmdError ModePlan :=
  match x.kind with
  | .ecb => ecbDec P x.cfg m dst msg
  | .cbc => cbcDec P x.cfg m dst msg
  | .ecbCts => (ctsCheck P dst msg).map (fun _ => ecbCtsDec P m msg)
  | .cbcCts => (ctsCheck P dst msg).map (fun _ => cbcCtsDec P m msg)
  | .ctr => ctrXcrypt P m dst msg

/-- The checks and the computation of a MODE command in the order of R404 and R405. -/
def modePlan (P : Prim)
    (byMode : Prim → ModeSample → ModeState → Nat → List Byte → Except CmdError ModePlan) (s : State) :
    Except CmdError ModePlan := do
  let x ← modeSample s.modeCfg P.bytes
  modeStateCheck x.kind s.mode
  checkRange s.u0 s.u1
  byMode P x s.mode s.u2 (s.memRead s.u0 s.u1)

/-- The computation of `MODE.ENC` with primitive `P` (R404). -/
def encPlan (P : Prim) (s : State) : Except CmdError ModePlan := modePlan P encByMode s

/-- The computation of `MODE.DEC` with primitive `P` (R405). -/
def decPlan (P : Prim) (s : State) : Except CmdError ModePlan := modePlan P decByMode s

/-- The writes of a successful `MODE.ENC` or `MODE.DEC` (R404). -/
def State.applyMode (s : State) (p : ModePlan) (w : ModeWrite) : State :=
  (({ s with mode := w.mode }.memWrite s.u2 w.out).setResult0 w.out.length).setResult1 p.calls.length

/-- A MODE command at the engine's turn (R404 to R406; log 6): it raises before its first call; or it waits while the
primitive has not answered every call, and nothing changes (70 R613); or its writes happen, or the late error does. -/
def runMode (s : State) (r : Except CmdError ModePlan) : Host.Outcome State Fault Refusal :=
  match r with
  | .error e => finishRead s (.error e)
  | .ok p => if s.port.answeredAll p.calls then finishRead s (p.result.map (s.applyMode p)) else .next s

/-- `MODE.ENC` (R404). -/
def execModeEnc (s : State) : Host.Outcome State Fault Refusal := runMode s (encPlan (attachedPrim s.primWidth) s)

/-- `MODE.DEC` (R405). -/
def execModeDec (s : State) : Host.Outcome State Fault Refusal := runMode s (decPlan (attachedPrim s.primWidth) s)

/-- The block of `B` bytes a set-up command loads (R425, R432). -/
def loadBlock (s : State) : Except CmdError (List Byte) := do
  checkRange s.u0 s.u1
  check (decide (s.u1 = s.primWidth.bytes)) .sizeMismatch 4#8
  pure (s.memRead s.u0 s.primWidth.bytes)

/-- `MODE.SETIV` (R425). -/
def execModeSetiv (s : State) : Host.Outcome State Fault Refusal :=
  finishRead s ((loadBlock s).map (fun b => { s with mode := { s.mode with chain := b, ivValid := true } }))

/-- The mode state after a counter block is loaded: the nonce half first, then the counter half, big-endian (R432). -/
def ModeState.loadCounter (m : ModeState) (half : Nat) (b : List Byte) : ModeState :=
  { m with nonce := b.take half, ctrInit := intBe (b.drop half), ctr := intBe (b.drop half), ctrValid := true }

/-- `MODE.SETCTR` (R432). -/
def execModeSetctr (s : State) : Host.Outcome State Fault Refusal :=
  finishRead s ((loadBlock s).map (fun b => { s with mode := s.mode.loadCounter s.primWidth.halfBytes b }))

/-- A block stored at `ARG0`, with `RESULT0 = B` (R426, R433). -/
def storeBlock (b : List Byte) (s : State) : Except CmdError State := do
  checkRange s.u0 s.primWidth.bytes
  pure ((s.memWrite s.u0 b).setResult0 s.primWidth.bytes)

/-- `MODE.GETIV` (R426). -/
def execModeGetiv (s : State) : Host.Outcome State Fault Refusal := finish s (storeBlock s.mode.chain s)

/-- The current counter block, `mode.nonce ++ be_H(mode.ctr)` (R433). -/
def State.counterBlock (s : State) : List Byte := s.mode.nonce ++ beBytes s.primWidth.halfBytes s.mode.ctr

/-- `MODE.GETCTR` (R433). -/
def execModeGetctr (s : State) : Host.Outcome State Fault Refusal := finish s (storeBlock s.counterBlock s)

/-- `CTR.RESET` (R434). -/
def execCtrReset (s : State) : Host.Outcome State Fault Refusal :=
  finish s (.ok { s with mode := { s.mode with ctr := s.mode.ctrInit } })

end Sys2Proof.Machine
end

