-- ==== Sys2Proof/Machine/Segmenter.lean ====
section
/-! DEFINITION. The block segmenter: `SEG.RESET`, `SEG.FEED`, `SEG.UNPAD` (spec 42_segmenter). -/

namespace Sys2Proof.Machine

/-- `CfgCheck` of `SEG_CFG` and `SEG_BLKBITS` (R304): the configuration `SEG.RESET` latches, or `CONFIG` 1, 2, 3. -/
def segConfig (s : State) : Except CmdError PadCfg := do
  let bb := s.segBlkBits.toNat
  match schemeOfCode (s.segCfg.extractLsb' 0 3) with
  | none => .error { code := .config, sub := 1#8 }
  | some sc =>
    let c : PadCfg :=
      { scheme := sc, w := mdWordOfCode (s.segCfg.extractLsb' 4 2), lenBe := s.segCfg.getLsbD 6,
        dbit := s.segCfg.getLsbD 7, blockBits := bb }
    check (legalBlockBits bb) .config 2#8
    check c.fieldFits .config 3#8
    pure c

/-- `SEG.RESET` (R303): the configuration is latched and a new message begins. -/
def execSegReset (s : State) : Host.Outcome State Fault Refusal :=
  finish s ((segConfig s).map
    (fun c => { s with seg := { cfg := c, processed := 0#64, finalized := false, lastPad := 0#12 } }))

/-- What a `SEG.FEED` writes (R305). -/
structure FeedPlan where
  /-- the bytes for `DBUF[ARG3..)` -/
  out : List Byte
  /-- the segmenter afterwards -/
  seg : SegState
  /-- `RESULT1`, the blocks written -/
  blocks : Nat
  deriving DecidableEq, Repr

/-- The message length `L`: the declared one, which must not exceed the input, or `8n` (R306). -/
def feedLength (decl : Bool) (n declared : Nat) : Except CmdError Nat :=
  if decl then do
    check (decide (declared ≤ 8 * n)) .padding 3#8
    pure declared
  else pure (8 * n)

/-- The blocks of a message `m` fed to segmenter `g` (R305, R310, R311, R319): the whole blocks as they are, and with
`pad` the padded tail. -/
def feedMessage (pad : Bool) (g : SegState) (m : List Bool) : FeedPlan :=
  let k := m.length / g.cfg.blockBits
  let whole := packBits (m.take (k * g.cfg.blockBits))
  let p := g.processed + BitVec.ofNat 64 m.length
  if pad then
    let t := padTail g.cfg (m.drop (k * g.cfg.blockBits)) p.toNat
    { out := whole ++ packBits t.bits, blocks := k + t.blocks
      seg := { g with processed := p, finalized := true, lastPad := BitVec.ofNat 12 t.padBits } }
  else { out := whole, blocks := k, seg := { g with processed := p } }

/-- The computation of `SEG.FEED` with its checks in the order of R305. -/
def feedPlan (pad decl : Bool) (s : State) : Except CmdError FeedPlan := do
  check (!s.seg.finalized) .padding 2#8
  checkRange s.u0 s.u1
  let len ← feedLength decl s.u1 s.u2
  let t := len % s.seg.cfg.blockBits
  check (pad || decide (t = 0)) .padding 1#8
  check (!(pad && s.seg.cfg.scheme.wholeBytes) || decide (t % 8 = 0)) .padding 5#8
  let plan := feedMessage pad s.seg ((streamBits (s.memRead s.u0 s.u1)).take len)
  checkRange s.u3 plan.out.length
  pure plan

/-- `SEG.FEED` (R305). -/
def execSegFeed (pad decl : Bool) (s : State) : Host.Outcome State Fault Refusal :=
  finishRead s ((feedPlan pad decl s).map
    (fun p => (({ s with seg := p.seg }.memWrite s.u3 p.out).setResult0 p.out.length).setResult1 p.blocks))

/-- The message length `SEG.UNPAD` finds, in bits (R320). -/
def segUnpadLength (s : State) : Except CmdError Nat := do
  checkRange s.u0 s.u1
  unpad s.seg.cfg (s.memRead s.u0 s.u1) s.seg.lastPad.toNat

/-- `SEG.UNPAD` (R320): the length in bits and in bytes, nothing else. -/
def execSegUnpad (s : State) : Host.Outcome State Fault Refusal :=
  finishRead s ((segUnpadLength s).map (fun l => (s.setResult0 l).setResult1 (ceilDiv l 8)))

end Sys2Proof.Machine
end

