-- ==== Sys2Proof/Machine/Dispatch.lean ====
section
/-! DEFINITION. The meaning of every command: execute and complete (spec 40_control R182, R183; 60_exceptions R511).
One arm per row of spec/opcode_table.json. -/

namespace Sys2Proof.Machine

def exec (i : Instr) (s : State) : Host.Outcome State Fault Refusal :=
  match i with
  | .nop => Sys2Proof.Machine.execNop s
  | .bvLdi vd sz => Sys2Proof.Machine.execBvLdi vd sz s
  | .bvLdb vd bo sz => Sys2Proof.Machine.execBvLdb vd bo sz s
  | .bvStb va bo => Sys2Proof.Machine.execBvStb va bo s
  | .bvLdbits vd => Sys2Proof.Machine.execBvLdbits vd s
  | .bvMov vd va => Sys2Proof.Machine.execBvMov vd va s
  | .bvSize va => Sys2Proof.Machine.execBvSize va s
  | .bvRdw va => Sys2Proof.Machine.execBvRdw va s
  | .bvGet vd va => Sys2Proof.Machine.execBvGet vd va s
  | .bvSet vd => Sys2Proof.Machine.execBvSet vd s
  | .bvGets vd va ns ne => Sys2Proof.Machine.execBvGets vd va ns ne s
  | .bvSets vd va ns ne co => Sys2Proof.Machine.execBvSets vd va ns ne co s
  | .bvAnd vd va vb => Sys2Proof.Machine.execBvAnd vd va vb s
  | .bvOr vd va vb => Sys2Proof.Machine.execBvOr vd va vb s
  | .bvXor vd va vb => Sys2Proof.Machine.execBvXor vd va vb s
  | .bvNot vd va => Sys2Proof.Machine.execBvNot vd va s
  | .bvAdd vd va vb => Sys2Proof.Machine.execBvAdd vd va vb s
  | .bvSub vd va vb => Sys2Proof.Machine.execBvSub vd va vb s
  | .bvShl vd va => Sys2Proof.Machine.execBvShl vd va s
  | .bvShr vd va => Sys2Proof.Machine.execBvShr vd va s
  | .bvCat vd va vb => Sys2Proof.Machine.execBvCat vd va vb s
  | .bvZext vd => Sys2Proof.Machine.execBvZext vd s
  | .bvSext vd => Sys2Proof.Machine.execBvSext vd s
  | .bvHw va => Sys2Proof.Machine.execBvHw va s
  | .bvHd va vb => Sys2Proof.Machine.execBvHd va vb s
  | .bvPack va big => Sys2Proof.Machine.execBvPack va big s
  | .bvUnpack vd big => Sys2Proof.Machine.execBvUnpack vd big s
  | .segReset => Sys2Proof.Machine.execSegReset s
  | .segFeed pad decl => Sys2Proof.Machine.execSegFeed pad decl s
  | .segUnpad => Sys2Proof.Machine.execSegUnpad s
  | .modeEnc => Sys2Proof.Machine.execModeEnc s
  | .modeDec => Sys2Proof.Machine.execModeDec s
  | .modeSetiv => Sys2Proof.Machine.execModeSetiv s
  | .modeGetiv => Sys2Proof.Machine.execModeGetiv s
  | .modeSetctr => Sys2Proof.Machine.execModeSetctr s
  | .modeGetctr => Sys2Proof.Machine.execModeGetctr s
  | .ctrReset => Sys2Proof.Machine.execCtrReset s

end Sys2Proof.Machine
end

