-- ==== Sys2Proof/Machine/Engine.lean ====
section
/-! DEFINITION. The command engine between accept and completion: its turn, the port events of a running command, and
what a command would have written if it is abandoned (spec 40_control R181, R182; 43_modes R440; 70 R603). -/

namespace Sys2Proof.Machine

/-- Accept of a command word while idle: `CMD <- c`, `BUSY <- 1`; `DONE` and `ERR` are not cleared (40_control R181).
No PRIM call of it has been made. -/
def State.accept (s : State) (c : Word) : State := { s with cmd := c, busy := true, port := s.port.idle }

/-- The engine's turn for the command in progress: the accepted word is decoded, a word that does not decode completes
with its error, a command runs by its rule and completes, but for a MODE command whose primitive has not answered
every call, which goes on waiting (40_control R182, 70 R613). With no command in progress nothing happens. -/
def engineTurn (s : State) : Host.Outcome State Fault Refusal :=
  if s.busy then
    match decode s.cmd with
    | .ok i => exec i s
    | .error e => .next (s.raise (decodeErrorCmd e))
  else .next s

/-- The calls of a plan, none if it raises before its first call. -/
def plannedCalls : Except CmdError ModePlan → List PrimCall
  | .ok p => p.calls
  | .error _ => []

/-- The PRIM calls a command makes, in port order (43_modes R442). Only `MODE.ENC` and `MODE.DEC` make any. -/
def callsOf (i : Instr) (s : State) : List PrimCall :=
  match i with
  | .modeEnc => plannedCalls (encPlan (attachedPrim s.primWidth) s)
  | .modeDec => plannedCalls (decPlan (attachedPrim s.primWidth) s)
  | .nop | .bvLdi _ _ | .bvLdb _ _ _ | .bvStb _ _ | .bvLdbits _ | .bvMov _ _ | .bvSize _ | .bvRdw _ | .bvGet _ _
  | .bvSet _ | .bvGets _ _ _ _ | .bvSets _ _ _ _ _ | .bvAnd _ _ _ | .bvOr _ _ _ | .bvXor _ _ _ | .bvNot _ _
  | .bvAdd _ _ _ | .bvSub _ _ _ | .bvShl _ _ | .bvShr _ _ | .bvCat _ _ _ | .bvZext _ | .bvSext _ | .bvHw _
  | .bvHd _ _ | .bvPack _ _ | .bvUnpack _ _ | .segReset | .segFeed _ _ | .segUnpad | .modeSetiv | .modeGetiv
  | .modeSetctr | .modeGetctr | .ctrReset => []

/-- The calls of the command in progress. -/
def runningCalls (s : State) : List PrimCall :=
  match decode s.cmd with
  | .ok i => callsOf i s
  | .error _ => []

/-- One event of the PRIM port while a command runs: the outstanding call is answered, or the next call is taken. At
most one call is outstanding, and an answer outside one is ignored (43_modes R440; log 6). -/
def primEvent (s : State) : State :=
  if s.busy then
    match s.port.outstanding with
    | some _ => { s with port := { s.port with outstanding := none, answered := s.port.answered + 1 } }
    | none =>
      match (runningCalls s)[s.port.answered]? with
      | some c => { s with port := { s.port with outstanding := some c, trace := s.port.trace ++ [c] } }
      | none => s
  else s

/-- A destination range, where the computation did not raise. -/
def rangeOf {α : Type} (r : Except CmdError α) (a : Nat) (len : α → Nat) : Option (Nat × Nat) :=
  match r with
  | .ok x => some (a, len x)
  | .error _ => none

/-- The destination range a command would write in `DBUF`, as its rule checks it with `InRange`: its first address and
its length; none for a command that stores nothing or raises before or at that check (70 R603; log 9). -/
def destRange (i : Instr) (s : State) : Option (Nat × Nat) :=
  match i with
  | .bvStb va bo => rangeOf (stbBytes va bo s) s.u0 List.length
  | .bvPack va big => rangeOf (packBytes va big s) s.u0 List.length
  | .segFeed pad decl => rangeOf (feedPlan pad decl s) s.u3 (fun p => p.out.length)
  | .modeEnc => rangeOf (encPlan (attachedPrim s.primWidth) s) s.u2 ModePlan.room
  | .modeDec => rangeOf (decPlan (attachedPrim s.primWidth) s) s.u2 ModePlan.room
  | .modeGetiv => rangeOf (storeBlock s.mode.chain s) s.u0 (fun _ => s.primWidth.bytes)
  | .modeGetctr => rangeOf (storeBlock s.counterBlock s) s.u0 (fun _ => s.primWidth.bytes)
  | .nop | .bvLdi _ _ | .bvLdb _ _ _ | .bvLdbits _ | .bvMov _ _ | .bvSize _ | .bvRdw _ | .bvGet _ _ | .bvSet _
  | .bvGets _ _ _ _ | .bvSets _ _ _ _ _ | .bvAnd _ _ _ | .bvOr _ _ _ | .bvXor _ _ _ | .bvNot _ _ | .bvAdd _ _ _
  | .bvSub _ _ _ | .bvShl _ _ | .bvShr _ _ | .bvCat _ _ _ | .bvZext _ | .bvSext _ | .bvHw _ | .bvHd _ _
  | .bvUnpack _ _ | .segReset | .segUnpad | .modeSetiv | .modeSetctr | .ctrReset => none

/-- The destination range of the command in progress. -/
def runningDest (s : State) : Option (Nat × Nat) :=
  match decode s.cmd with
  | .ok i => destRange i s
  | .error _ => none

end Sys2Proof.Machine
end

