-- ==== Sys2Proof/Machine/HostBus.lean ====
section
/-! DEFINITION. The host's side of the block: resets, the register map, and the host bus with its refusals (spec
10_state R40 to R54, 20_memory R100 to R110, 70 R600 to R603). -/

namespace Sys2Proof.Machine

/-! Resets. -/

/-- Every register and state element at its reset value, `DBUF` becoming `mem`. What the model keeps of the world
outside stays: the events to come, the host's last read value, the record of the port; the draws go on, so that a
byte unspecified again reads afresh (logs 4, 7, 8, 10). -/
def State.resetKeeping (s : State) (mem : Memory) : State :=
  { State.resetWith s.primWidth with
    dbuf := mem, port := s.port.idle, agenda := s.agenda, rdata := s.rdata, draws := s.draws + 1 }

/-- Hardware reset (70 R600): the content of `DBUF` becomes unspecified, a running command is abandoned. -/
def State.hardReset (s : State) : State := s.resetKeeping []

/-- `DBUF` after a soft reset: kept, but for the destination range of a command it abandons, whose bytes each keep
their value or become unspecified (70 R602, R603; log 9). -/
def State.dbufAfterSoftReset (s : State) : Memory :=
  if s.busy then
    match runningDest s with
    | some r => Memory.scramble s.dbuf s.draws r.1 r.2
    | none => s.dbuf
  else s.dbuf

/-- Soft reset (70 R602, R603). -/
def State.softReset (s : State) : State := s.resetKeeping s.dbufAfterSoftReset

/-! The register map. -/

/-- The registers of 10_state R40. -/
inductive HostReg where
  | id
  | version
  | ctrl
  | status
  | cmd
  | arg0
  | arg1
  | arg2
  | arg3
  | result0
  | result1
  | errInfo
  | segCfg
  | segBlkBits
  | segPbitsLo
  | segPbitsHi
  | segLastPad
  | segState
  | segAcfg
  | segAblkBits
  | modeCfg
  | primBlkBits
  | modeLastPad
  deriving DecidableEq, Repr

/-- The register at an offset (10_state R40). -/
def hostRegAt (offset : Nat) : Option HostReg :=
  match offset with
  | 0x000 => some .id
  | 0x004 => some .version
  | 0x008 => some .ctrl
  | 0x00C => some .status
  | 0x010 => some .cmd
  | 0x014 => some .arg0
  | 0x018 => some .arg1
  | 0x01C => some .arg2
  | 0x020 => some .arg3
  | 0x024 => some .result0
  | 0x028 => some .result1
  | 0x02C => some .errInfo
  | 0x030 => some .segCfg
  | 0x034 => some .segBlkBits
  | 0x038 => some .segPbitsLo
  | 0x03C => some .segPbitsHi
  | 0x040 => some .segLastPad
  | 0x044 => some .segState
  | 0x048 => some .segAcfg
  | 0x04C => some .segAblkBits
  | 0x050 => some .modeCfg
  | 0x054 => some .primBlkBits
  | 0x058 => some .modeLastPad
  | _ => none

/-- What a host access reaches (20_memory R100, R103, R105, R113). -/
inductive Target where
  /-- bits 1:0 of the offset are not 0 -/
  | misaligned
  | reg (r : HostReg)
  /-- the word of four `DBUF` bytes at this address -/
  | dbuf (a : Nat)
  | unmapped
  deriving DecidableEq, Repr

/-- The target of an offset. -/
def targetOf (offset : HostOffset) : Target :=
  let o := offset.toNat
  if o % 4 = 0 then
    if 0x1000 ≤ o then .dbuf (o - 0x1000)
    else
      match hostRegAt o with
      | some r => .reg r
      | none => .unmapped
  else .misaligned

/-- The offset of a platform address in the block, if it is one (20_memory R100, R113). DESIGN CHOICE (log 12): whether
the platform decodes addresses past offset `0x1FFF` to the block is left to the platform, and here it does not. -/
def hostOffset? (address : Nat) : Option HostOffset :=
  if Config.coreBase ≤ address ∧ address < Config.coreBase + 0x2000 then
    some (BitVec.ofNat 13 (address - Config.coreBase))
  else none

/-! Reads. -/

/-- What a register reads (10_state R40 to R54). Reserved bits read 0. -/
def regRead (r : HostReg) (s : State) : Word :=
  match r with
  | .id => Config.idValue
  | .version => Config.versionValue
  | .ctrl => (BitVec.ofBool s.ie).setWidth 32
  | .status => s.statusWord
  | .cmd => s.cmd
  | .arg0 => s.arg0
  | .arg1 => s.arg1
  | .arg2 => s.arg2
  | .arg3 => s.arg3
  | .result0 => s.result0
  | .result1 => s.result1
  | .errInfo => s.errInfoWord
  | .segCfg => s.segCfg
  | .segBlkBits => s.segBlkBits.setWidth 32
  | .segPbitsLo => s.seg.processed.extractLsb' 0 32
  | .segPbitsHi => s.seg.processed.extractLsb' 32 32
  | .segLastPad => s.seg.lastPad.setWidth 32
  | .segState => (BitVec.ofBool s.seg.finalized).setWidth 32
  | .segAcfg => s.seg.cfg.word
  | .segAblkBits => BitVec.ofNat 32 s.seg.cfg.blockBits
  | .modeCfg => s.modeCfg
  | .primBlkBits => BitVec.ofNat 32 s.primWidth.bits
  | .modeLastPad => s.mode.lastPad

/-- The 32-bit word at a `DBUF` address: byte `k` on bits `8k+7 .. 8k` (20_memory R101). -/
def State.dbufWord (s : State) (a : Nat) : Word := BitVec.ofNat 32 (intLe (s.memRead a 4))

/-- A host read (20_memory R103, R105, R110; 70 R630): its value is in `rdata`. Registers can be read at any time,
`DBUF` only while idle. -/
def hostRead (offset : HostOffset) (s : State) : State :=
  match targetOf offset with
  | .reg r => { s with rdata := regRead r s }
  | .dbuf a =>
    if s.busy then { s.refuseAccess with rdata := 0#32 }
    else { s.nextDraw with rdata := s.dbufWord a }
  | .misaligned => { s.refuseAccess with rdata := 0#32 }
  | .unmapped => { s.refuseAccess with rdata := 0#32 }

/-! Writes. -/

/-- A write of `CTRL`: `IE` is bit 0; bit 1 performs a soft reset, after which `IE` is 0 whatever bit 0 was (10_state
R42, 70 R602). -/
def writeCtrl (w : Word) (s : State) : State :=
  if w.getLsbD 1 then s.softReset else { s with ie := w.getLsbD 0 }

/-- A write of `CMD`: accepted while idle, dropped with `OVR` while a command runs (10_state R44, 40_control R181). -/
def writeCmd (w : Word) (s : State) : State :=
  if s.busy then { s with ovr := true } else s.accept w

/-- A write that only an idle block takes; while a command runs it is refused (20_memory R110). -/
def idleWrite (s t : State) : State := if s.busy then s.refuseAccess else t

/-- A write of a register (10_state R40 to R54); a write of a read-only one is refused (20_memory R103). -/
def regWrite (r : HostReg) (w : Word) (s : State) : State :=
  match r with
  | .ctrl => writeCtrl w s
  | .status => s.clearStatus w
  | .cmd => writeCmd w s
  | .arg0 => idleWrite s { s with arg0 := w }
  | .arg1 => idleWrite s { s with arg1 := w }
  | .arg2 => idleWrite s { s with arg2 := w }
  | .arg3 => idleWrite s { s with arg3 := w }
  | .segCfg => idleWrite s { s with segCfg := w &&& segCfgMask }
  | .segBlkBits => idleWrite s { s with segBlkBits := w.extractLsb' 0 11 }
  | .modeCfg => idleWrite s { s with modeCfg := w &&& modeCfgMask }
  | .id | .version | .result0 | .result1 | .errInfo | .segPbitsLo | .segPbitsHi | .segLastPad | .segState
  | .segAcfg | .segAblkBits | .primBlkBits | .modeLastPad => s.refuseAccess

/-- A host write (20_memory R101, R103, R105, R110). -/
def hostWrite (offset : HostOffset) (w : Word) (s : State) : State :=
  match targetOf offset with
  | .reg r => regWrite r w s
  | .dbuf a => idleWrite s (s.memWrite a (leBytes 4 w.toNat))
  | .misaligned => s.refuseAccess
  | .unmapped => s.refuseAccess

end Sys2Proof.Machine
end

