-- ==== Sys2Proof/Machine/Step.lean ====
section
/-! DEFINITION. One step of the machine: the next event of the agenda happens (spec 20_memory R115, 60_exceptions R513;
log 1), and how an instruction is put where the next step runs it (log 2). -/

namespace Sys2Proof.Machine

/-- One event. -/
def stepEvent (e : Event) (s : State) : Host.Outcome State Fault Refusal :=
  match e with
  | .write offset value => .next (hostWrite offset value s)
  | .read offset => .next (hostRead offset s)
  | .hardReset => .next s.hardReset
  | .prim => .next (primEvent s)
  | .engine => engineTurn s

/-- One step: the first event of the agenda happens. With no event to come nothing changes: an idle block keeps all
state (70 R625), and a command in flight whose turn never comes is a run that does not end (70 R606, R613). -/
def step (s : State) : Host.Outcome State Fault Refusal :=
  match s.agenda with
  | [] => .next s
  | e :: rest => stepEvent e { s with agenda := rest }

/-- `s` with the command word of a table row accepted, the primitive having answered the command's calls, and the
engine's turn coming next (log 2). -/
def State.withFetchWord (s : State) (nbits w : Nat) : State :=
  let t := { s.accept (tableWord nbits w) with agenda := .engine :: s.agenda }
  { t with port := t.port.answerAll (runningCalls t) }

end Sys2Proof.Machine
end

