-- ==== Sys2Proof/Safety.lean ====
section
/-! DEFINITION. The terms the claims use: how a command ends, the errors each command may raise (spec 60_exceptions R500,
R501), what the host alone changes, the invariant every step keeps, and byte strings as the rules describe them. None
of it is part of the machine. -/

namespace Sys2Proof.Machine

/-! How a command ends. -/

/-- `u`, the writes of a command, with its completion without error: `BUSY = 0`, `DONE = 1`, and no call left on the
port (40_control R183). -/
def completed (u : State) : State :=
  { u with busy := false, done := true, port := { u.port with outstanding := none, answered := 0 } }

/-- `s` with an error completion: the five writes of 60_exceptions R511, and no call left on the port. -/
def raised (s : State) (code : ErrCode) (sub : BitVec 8) : State :=
  { s with errCode := code, errSub := sub, errChk := s.cmd.extractLsb' 0 8, err := true, busy := false, done := true,
           port := { s.port with outstanding := none, answered := 0 } }

/-- `s` after a command that read `DBUF`: the next read of an unspecified byte is a new draw (20_memory R102). -/
def drawn (s : State) : State := { s with draws := s.draws + 1 }

/-- Command `i` at `s`, begun with no error standing, completes without error: it leaves the block idle. -/
def succeeds (i : Instr) (s : State) : Prop :=
  ∃ t, exec i { s with err := false } = .next t ∧ t.err = false ∧ t.busy = false

/-- Command `i` at `s`, begun with no error standing, raises. -/
def raises (i : Instr) (s : State) : Prop :=
  ∃ t, exec i { s with err := false } = .next t ∧ t.err = true

/-- The registers only the host's writes change (10_state R35, R40, R42), and the model's record of the world outside:
no command changes them. -/
def hostSame (s t : State) : Prop :=
  t.arg0 = s.arg0 ∧ t.arg1 = s.arg1 ∧ t.arg2 = s.arg2 ∧ t.arg3 = s.arg3 ∧ t.ie = s.ie ∧ t.ovr = s.ovr ∧
  t.accErr = s.accErr ∧ t.cmd = s.cmd ∧ t.segCfg = s.segCfg ∧ t.segBlkBits = s.segBlkBits ∧ t.modeCfg = s.modeCfg ∧
  t.primWidth = s.primWidth ∧ t.agenda = s.agenda ∧ t.rdata = s.rdata

/-- Every byte of `DBUF` outside `[a, a + n)` reads as before. -/
def sameOutside (s t : State) (a n : Nat) : Prop :=
  ∀ x, x < a ∨ a + n ≤ x → Memory.byte? t.dbuf x = Memory.byte? s.dbuf x

/-- `DBUF` holds the byte string `b` at address `a`. -/
def holds (t : State) (a : Nat) (b : List Byte) : Prop :=
  ∀ k (h : k < b.length), Memory.byte? t.dbuf (a + k) = some b[k]

/-! Which command runs, which event resets. -/

/-- The next step is the execution of command `i`. -/
def runs (s : State) (i : Instr) : Prop :=
  s.busy = true ∧ decode s.cmd = .ok i ∧ ∃ rest, s.agenda = .engine :: rest

/-- The next step is a hardware reset or a soft reset (70 R600, R602). -/
def resetsNext (s : State) : Prop :=
  ∃ e rest, s.agenda = e :: rest ∧ (e = .hardReset ∨ ∃ w : Word, e = .write 0x008#13 w ∧ w.getLsbD 1 = true)

/-- No call of a running command has been made on the port (43_modes R440). -/
def portIdle (s : State) : Prop := s.port.outstanding = none ∧ s.port.answered = 0

/-! The primitive answers (70 R613). -/

/-- PRIM_LIVE as the premise of one execution of `i`: the primitive has answered every call that `i` makes. A command
that makes no call needs no answer. -/
abbrev primLive (i : Instr) (s : State) : Prop := s.port.answeredAll (callsOf i s) = true

/-- No event of a list is a hardware reset or a soft reset. -/
def noReset (es : List Event) : Prop := ∀ e ∈ es, e ≠ .hardReset ∧ ∀ w : Word, e = .write 0x008#13 w → w.getLsbD 1 = false

/-- PRIM_LIVE as the premise of a run in which `i` executes: before some engine turn, and with no reset, there come
the two events of the port that each call of `i` takes, its request and its response. -/
def primLiveRun (i : Instr) (s : State) : Prop :=
  ∃ pre post, s.agenda = pre ++ .engine :: post ∧ noReset pre ∧ 2 * (callsOf i s).length ≤ pre.count .prim

/-- The state after `n` steps. -/
def runSteps : Nat → State → State
  | 0, s => s
  | n + 1, s =>
    match step s with
    | .next t => runSteps n t
    | .fault _ => s
    | .refused _ => s

/-! The errors. -/

/-- The opcode of a command (30_encoding R150). -/
def opcodeByte : Instr → BitVec 8
  | .nop => 0x00#8
  | .bvLdi _ _ => 0x10#8
  | .bvLdb _ _ _ => 0x11#8
  | .bvStb _ _ => 0x12#8
  | .bvLdbits _ => 0x13#8
  | .bvMov _ _ => 0x14#8
  | .bvSize _ => 0x15#8
  | .bvRdw _ => 0x16#8
  | .bvGet _ _ => 0x18#8
  | .bvSet _ => 0x19#8
  | .bvGets _ _ _ _ => 0x1A#8
  | .bvSets _ _ _ _ _ => 0x1B#8
  | .bvAnd _ _ _ => 0x20#8
  | .bvOr _ _ _ => 0x21#8
  | .bvXor _ _ _ => 0x22#8
  | .bvNot _ _ => 0x23#8
  | .bvAdd _ _ _ => 0x24#8
  | .bvSub _ _ _ => 0x25#8
  | .bvShl _ _ => 0x26#8
  | .bvShr _ _ => 0x27#8
  | .bvCat _ _ _ => 0x28#8
  | .bvZext _ => 0x29#8
  | .bvSext _ => 0x2A#8
  | .bvHw _ => 0x2B#8
  | .bvHd _ _ => 0x2C#8
  | .bvPack _ _ => 0x2D#8
  | .bvUnpack _ _ => 0x2E#8
  | .segReset => 0x30#8
  | .segFeed _ _ => 0x31#8
  | .segUnpad => 0x32#8
  | .modeEnc => 0x40#8
  | .modeDec => 0x41#8
  | .modeSetiv => 0x42#8
  | .modeGetiv => 0x43#8
  | .modeSetctr => 0x44#8
  | .modeGetctr => 0x45#8
  | .ctrReset => 0x46#8

/-- One row of the error table: a code, a sub-code, and the opcodes of the commands whose rules raise it. `ILLEGAL` 1
and 2 are raised by the decoder alone. -/
structure ErrorRow where
  code : ErrCode
  sub : BitVec 8
  raisers : List (BitVec 8)
  deriving DecidableEq, Repr

/-- The error table, 60_exceptions R500 and R501, with the commands whose rules raise each error. -/
def errorRows : List ErrorRow :=
  [⟨.illegal, 1#8, []⟩,
   ⟨.illegal, 2#8, []⟩,
   ⟨.illegal, 3#8, [0x11#8, 0x12#8]⟩,
   ⟨.index, 1#8, [0x18#8, 0x19#8]⟩,
   ⟨.index, 2#8, [0x1A#8, 0x1B#8]⟩,
   ⟨.index, 3#8, [0x1A#8, 0x1B#8]⟩,
   ⟨.sizeMismatch, 1#8, [0x2C#8]⟩,
   ⟨.sizeMismatch, 2#8, [0x1B#8]⟩,
   ⟨.sizeMismatch, 3#8, [0x11#8]⟩,
   ⟨.sizeMismatch, 4#8, [0x42#8, 0x44#8]⟩,
   ⟨.sizeMismatch, 5#8, [0x40#8]⟩,
   ⟨.padding, 1#8, [0x31#8]⟩,
   ⟨.padding, 2#8, [0x31#8]⟩,
   ⟨.padding, 3#8, [0x31#8]⟩,
   ⟨.padding, 4#8, [0x32#8, 0x41#8]⟩,
   ⟨.padding, 5#8, [0x31#8]⟩,
   ⟨.padding, 6#8, [0x41#8]⟩,
   ⟨.length, 1#8, [0x41#8]⟩,
   ⟨.length, 2#8, [0x40#8, 0x41#8]⟩,
   ⟨.type, 1#8, [0x13#8]⟩,
   ⟨.type, 2#8, [0x19#8]⟩,
   ⟨.address, 1#8, [0x11#8, 0x12#8, 0x13#8, 0x2D#8, 0x2E#8, 0x31#8, 0x32#8, 0x40#8, 0x41#8, 0x42#8, 0x43#8, 0x44#8,
     0x45#8]⟩,
   ⟨.overflow, 1#8, [0x10#8, 0x11#8, 0x13#8, 0x28#8, 0x29#8, 0x2A#8, 0x2E#8]⟩,
   ⟨.config, 1#8, [0x30#8]⟩,
   ⟨.config, 2#8, [0x30#8]⟩,
   ⟨.config, 3#8, [0x30#8]⟩,
   ⟨.config, 4#8, [0x40#8, 0x41#8]⟩,
   ⟨.config, 5#8, [0x40#8, 0x41#8]⟩,
   ⟨.config, 6#8, [0x40#8, 0x41#8]⟩,
   ⟨.state, 1#8, [0x40#8, 0x41#8]⟩,
   ⟨.state, 2#8, [0x40#8, 0x41#8]⟩]

/-- The pair has a row. -/
def listedError (code : ErrCode) (sub : BitVec 8) : Prop := ∃ r ∈ errorRows, r.code = code ∧ r.sub = sub

/-- The pair has a row that names the command. -/
def mayRaise (i : Instr) (code : ErrCode) (sub : BitVec 8) : Prop :=
  ∃ r ∈ errorRows, r.code = code ∧ r.sub = sub ∧ opcodeByte i ∈ r.raisers

/-! The invariant. -/

/-- The size bound and the mask invariant of a bit-vector register (10_state R32, R33). -/
abbrev BvReg.wf (r : BvReg) : Prop := r.size ≤ 1024 ∧ r.val < 2 ^ r.size

/-- What every step keeps: the widths and bounds of 10_state that the field types do not hold, the reserved bits, the
canonical form of `DBUF`, and that no error shows while `ERR = 0` (R43). -/
structure State.Inv (s : State) : Prop where
  /-- R32, R33 -/
  regs : ∀ r : VReg, (s.vreg r).wf
  /-- log 3 -/
  mem : Memory.wf s.dbuf = true
  /-- the reserved bits of `SEG_CFG` (R46) -/
  segCfg : s.segCfg &&& 0xFFFFFF08#32 = 0#32
  /-- the reserved bits of `MODE_CFG` (R52) -/
  modeCfg : s.modeCfg &&& 0xFFFFF088#32 = 0#32
  /-- the active configuration has passed the checks of 42_segmenter R304 -/
  seg : s.seg.cfg.legal = true
  /-- R49 -/
  segLastPad : s.seg.lastPad.toNat ≤ 2048
  /-- R70 -/
  chain : s.mode.chain.length = s.primWidth.bytes
  nonce : s.mode.nonce.length = s.primWidth.halfBytes
  ctrInit : s.mode.ctrInit < 2 ^ (8 * s.primWidth.halfBytes)
  ctr : s.mode.ctr < 2 ^ (8 * s.primWidth.halfBytes)
  /-- R43, R45 -/
  noError : s.err = false → s.errCode = .none ∧ s.errSub = 0#8 ∧ s.errChk = 0#8
  /-- 60_exceptions R501 -/
  error : s.err = true → listedError s.errCode s.errSub
  /-- 43_modes R440 -/
  port : s.busy = false → portIdle s

/-! Bits, slices and byte strings as the rules describe them. -/

/-- Bit `j` of the vector that `n` bytes give in a bit order (20_memory R111, 41_bitvector R210). -/
def loadedBit (bo : BitOrder) (n : Nat) (byte : Nat → Byte) (j : Nat) : Bool :=
  match bo with
  | .bigEndian => (byte (n - 1 - j / 8)).getLsbD (j % 8)
  | .littleEndian => (byte (j / 8)).getLsbD (j % 8)
  | .bitstream => (byte (j / 8)).getLsbD (7 - j % 8)
  | .reserved => false

/-- Bit `q` of byte `i` of the `k` bytes that a value gives in a bit order (41_bitvector R213). -/
def storedBit (bo : BitOrder) (k v i q : Nat) : Bool :=
  match bo with
  | .bigEndian => v.testBit (8 * (k - 1 - i) + q)
  | .littleEndian => v.testBit (8 * i + q)
  | .bitstream => v.testBit (8 * i + (7 - q))
  | .reserved => false

/-- The normalised start of a slice of a vector of size `n` (41_bitvector R222). -/
def sliceStart (ns : Bool) (a : Word) (n : Nat) : Int :=
  if ns then 0 else if a.toInt < 0 then a.toInt + n else a.toInt

/-- The normalised stop of a slice of a vector of size `n` (41_bitvector R222). -/
def sliceStop (ne : Bool) (a : Word) (n : Nat) : Int :=
  if ne then n else if a.toInt < 0 then a.toInt + n else a.toInt

/-- The bounds of a slice lie in the vector, in order (41_bitvector R222). -/
def sliceInside (ns ne : Bool) (a0 a1 : Word) (n : Nat) : Prop :=
  0 ≤ sliceStart ns a0 n ∧ sliceStart ns a0 n ≤ sliceStop ne a1 n ∧ sliceStop ne a1 n ≤ n

/-- Stream bit `j` of a byte string (00_scope R15). -/
def streamBit (b : List Byte) (j : Nat) : Bool := (b.getD (j / 8) 0#8).getLsbD (7 - j % 8)

/-- The message length of a `SEG.FEED` (42_segmenter R306). -/
def feedBits (decl : Bool) (s : State) : Nat := if decl then s.arg2.toNat else 8 * s.arg1.toNat

/-- The message of a `SEG.FEED`: the first stream bits of its source bytes (42_segmenter R301). -/
def feedMsg (decl : Bool) (s : State) : List Bool :=
  (streamBits (s.memRead s.arg0.toNat s.arg1.toNat)).take (feedBits decl s)

/-- The blocks `ModePad` makes of a message, one after another (43_modes R403). -/
def paddedMessage (c : PadCfg) (B : Nat) (msg : List Byte) : List Byte :=
  msg.take (msg.length / B * B)
    ++ packBits (padTail c (streamBits (msg.drop (msg.length / B * B))) (8 * msg.length)).bits

/-- Block `i`, counted from 0, of a byte string cut into blocks of `B` bytes (43_modes R400). -/
def block (B : Nat) (x : List Byte) (i : Nat) : List Byte := (x.drop (i * B)).take B

/-- `C_(i-1)` of 43_modes R410: the block before block `i`, the chain value before block 0. -/
def blockBefore (B : Nat) (chain x : List Byte) (i : Nat) : List Byte :=
  if i = 0 then chain else block B x (i - 1)

/-- The padding configuration `MODE_CFG` selects, by the codes of 10_state R52. -/
def modePadCfg (s : State) (sc : PadScheme) : PadCfg :=
  { scheme := sc, w := mdWordOfCode (s.modeCfg.extractLsb' 8 2), lenBe := s.modeCfg.getLsbD 10,
    dbit := s.modeCfg.getLsbD 11, blockBits := s.primWidth.bits }

/-- `MODE_CFG.MODE` (10_state R52). -/
def modeField (s : State) : Nat := (s.modeCfg.extractLsb' 0 3).toNat

/-- `MODE_CFG.PAD` (10_state R52). -/
def padField (s : State) : Nat := (s.modeCfg.extractLsb' 4 3).toNat

/-- The width of the length suffix `MODE_CFG.WSZ` selects, `2w` bits (10_state R52, 42_segmenter R317). -/
def modeSuffixBits (s : State) : Nat := 2 * (8 * 2 ^ (s.modeCfg.extractLsb' 8 2).toNat)

/-- Every configuration check of 43_modes R401 passes. -/
abbrev modeConfigOk (s : State) : Prop :=
  modeField s ≤ 4 ∧
  (modeField s ≤ 1 → padField s ≠ 7 ∧ (padField s = 5 → modeSuffixBits s + 1 ≤ s.primWidth.bits) ∧
    (padField s = 6 → modeSuffixBits s + 2 ≤ s.primWidth.bits))

/-- Every state check of 43_modes R402 passes. -/
abbrev modeStateOk (s : State) : Prop :=
  (modeField s = 1 ∨ modeField s = 3 → s.mode.ivValid = true) ∧ (modeField s = 4 → s.mode.ctrValid = true)

/-- The bytes a MODE command reads: `MemRead(u32(ARG0), u32(ARG1))` (43_modes R404). -/
def modeMsg (s : State) : List Byte := s.memRead s.arg0.toNat s.arg1.toNat

end Sys2Proof.Machine
end

