-- ==== Sys2Proof/Certificates/Slice0/Obligations.lean ====
section
/-! DEFINITION. The statements about crysp-core, from the numbered rules of spec/. Each says what a command or the
machine does, and what it leaves unchanged. "completed" and "raised" are the two ends of a command (Safety.lean). -/

section Statements

open Sys2Proof Sys2Proof.Machine

/-- Every well-formed command decodes from its own word. Rules: R140, R141, R146, R150 (derived). -/
def Obligations.EncodedCommandsDecode : Prop :=
  ∀ i : Instr, i.wellFormed = true → decode (encode i) = .ok i

/-- A word that decodes is the word of its command. Rules: R141, R148, R150 (derived). -/
def Obligations.DecodedWordsEncodeBack : Prop :=
  ∀ (c : Word) (i : Instr), decode c = .ok i → i.wellFormed = true ∧ encode i = c

/-- The four outcomes of decoding an accepted word, in their order. Rules: R148. -/
def Obligations.DecodeOrder : Prop :=
  ∀ (s : State) (rest : List Event), s.busy = true → s.agenda = .engine :: rest →
    ((∀ r ∈ opcodeRows, r.opcode ≠ s.cmd.extractLsb' 0 8) →
      step s = .next (raised { s with agenda := rest } .illegal 1#8)) ∧
    (∀ r ∈ opcodeRows, r.opcode = s.cmd.extractLsb' 0 8 →
      (s.cmd &&& r.mask ≠ r.opcode.setWidth 32 →
        step s = .next (raised { s with agenda := rest } .illegal 2#8)) ∧
      (s.cmd &&& r.mask = r.opcode.setWidth 32 → (r.opcode = 0x11#8 ∨ r.opcode = 0x12#8) →
        s.cmd.extractLsb' 20 2 = 3#2 → step s = .next (raised { s with agenda := rest } .illegal 3#8)) ∧
      (s.cmd &&& r.mask = r.opcode.setWidth 32 →
        ¬ ((r.opcode = 0x11#8 ∨ r.opcode = 0x12#8) ∧ s.cmd.extractLsb' 20 2 = 3#2) →
        ∃ i : Instr, encode i = s.cmd ∧ opcodeByte i = r.opcode ∧ step s = exec i { s with agenda := rest }))

/-- The example words of the encoding chapter. Rules: R152. -/
def Obligations.EncodingExamples : Prop :=
  encode (.bvXor 1 2 3) = 0x00032122#32 ∧ decode 0x00032122#32 = .ok (.bvXor 1 2 3) ∧
  encode (.bvLdb 5 .bitstream true) = 0x00600511#32 ∧ decode 0x00600511#32 = .ok (.bvLdb 5 .bitstream true) ∧
  encode (.segFeed true true) = 0x00300031#32 ∧ decode 0x00300031#32 = .ok (.segFeed true true) ∧
  (decode 0x00300011#32).mapError decodeErrorCmd = .error { code := .illegal, sub := 3#8 } ∧
  (decode 0x00000800#32).mapError decodeErrorCmd = .error { code := .illegal, sub := 2#8 } ∧
  (decode 0x000000FF#32).mapError decodeErrorCmd = .error { code := .illegal, sub := 1#8 }

/-- A step runs the decoded command, or performs the next event of the agenda. Rules: R180, R182, R440, R600
(derived). -/
def Obligations.StepRunsTheDecodedCommand : Prop :=
  ∀ (s : State) (rest : List Event),
    (∀ i : Instr, s.busy = true → decode s.cmd = .ok i → s.agenda = .engine :: rest →
      step s = exec i { s with agenda := rest }) ∧
    (∀ e, s.busy = true → decode s.cmd = .error e → s.agenda = .engine :: rest →
      step s = .next (raised { s with agenda := rest } (decodeErrorCmd e).code (decodeErrorCmd e).sub)) ∧
    (s.busy = false → s.agenda = .engine :: rest → step s = .next { s with agenda := rest }) ∧
    (∀ (o : HostOffset) (w : Word), s.agenda = .write o w :: rest →
      step s = .next (hostWrite o w { s with agenda := rest })) ∧
    (∀ o : HostOffset, s.agenda = .read o :: rest → step s = .next (hostRead o { s with agenda := rest })) ∧
    (s.agenda = .hardReset :: rest → step s = .next (State.hardReset { s with agenda := rest })) ∧
    (s.agenda = .prim :: rest → step s = .next (primEvent { s with agenda := rest })) ∧
    (s.agenda = [] → step s = .next s)

/-- Every command answers a next state: a completion, an error that changes nothing else, or the wait for the
primitive. Rules: R511, R504, R183, R35, R500, R501, R405, R406, R613 (derived). -/
def Obligations.ErrorsArePrecise : Prop :=
  ∀ (i : Instr) (s : State), ∃ t, exec i s = .next t ∧ hostSame s t ∧ t.port.trace = s.port.trace ∧
    ((t = s ∧ (i = .modeEnc ∨ i = .modeDec) ∧ ¬ primLive i s) ∨
     (t.busy = false ∧ t.done = true ∧ portIdle t ∧
      ((t.err = s.err ∧ t.errCode = s.errCode ∧ t.errSub = s.errSub ∧ t.errChk = s.errChk) ∨
       (∃ code sub, mayRaise i code sub ∧ t = { raised s code sub with draws := t.draws } ∧
         (callsOf i s = [] ∨ i = .modeDec)))))

/-- The interrupt output rises only at a completion or when the host enables it. Rules: R520, R512 (derived). -/
def Obligations.InterruptRisesOnlyByCompletionOrEnable : Prop :=
  ∀ s t : State, step s = .next t →
    (s.irq = false → t.irq = true →
      (s.busy = true ∧ t.busy = false ∧ t.done = true ∧ s.ie = true) ∨
      (s.done = true ∧ ∃ (w : Word) (rest : List Event), s.agenda = .write 0x008#13 w :: rest ∧
        w.getLsbD 0 = true ∧ w.getLsbD 1 = false)) ∧
    (s.irq = true → t.irq = false →
      (∃ (w : Word) (rest : List Event), s.agenda = .write 0x00C#13 w :: rest ∧ w.getLsbD 1 = true) ∨
      (∃ (w : Word) (rest : List Event), s.agenda = .write 0x008#13 w :: rest ∧ w.getLsbD 0 = false) ∨
      resetsNext s)

/-- The state after reset satisfies the invariant. Rules: R74 (derived). -/
def Obligations.ResetSatisfiesTheInvariant : Prop :=
  (∀ w : PrimWidth, (State.resetWith w).Inv) ∧ State.reset.Inv

/-- Every step keeps the invariant. Rules: R33, R43, R46, R49, R52, R70, R304, R501 (derived). -/
def Obligations.EveryStepKeepsTheInvariant : Prop :=
  ∀ s t : State, s.Inv → step s = .next t → t.Inv

/-- The reset values. Rules: R74. -/
def Obligations.ResetValues : Prop :=
  ∀ w : PrimWidth,
    (∀ r : VReg, (State.resetWith w).vreg r = { val := 0, size := 0 }) ∧
    ([HostReg.id, .version, .ctrl, .status, .cmd, .arg0, .arg1, .arg2, .arg3, .result0, .result1, .errInfo, .segCfg,
      .segBlkBits, .segPbitsLo, .segPbitsHi, .segLastPad, .segState, .segAcfg, .segAblkBits, .modeCfg, .primBlkBits,
      .modeLastPad].map (fun r => regRead r (State.resetWith w)) =
      [0x43525950#32, 0x00000001#32, 0#32, 0#32, 0#32, 0#32, 0#32, 0#32, 0#32, 0#32, 0#32, 0#32, 0x00000060#32,
       0x00000200#32, 0#32, 0#32, 0#32, 0#32, 0x00000060#32, 0x00000200#32, 0x00000630#32, BitVec.ofNat 32 w.bits,
       0#32]) ∧
    (State.resetWith w).seg = { cfg := { scheme := .none, w := .w32, lenBe := true, dbit := false, blockBits := 512 },
                                processed := 0#64, finalized := false, lastPad := 0#12 } ∧
    (State.resetWith w).mode = { chain := List.replicate w.bytes 0#8, ivValid := false,
                                 nonce := List.replicate w.halfBytes 0#8, ctrInit := 0, ctr := 0, ctrValid := false,
                                 lastPad := 0#32 } ∧
    (∀ a : Nat, Memory.byte? (State.resetWith w).dbuf a = none) ∧
    (State.resetWith w).busy = false ∧ portIdle (State.resetWith w) ∧ (State.resetWith w).irq = false ∧
    State.reset = State.resetWith Config.primWidth

/-- A hardware reset, and a soft reset of an idle block, give the reset state. Rules: R600, R602 (derived). -/
def Obligations.ResetsFromAnyState : Prop :=
  ∀ (s : State) (rest : List Event),
    (s.agenda = .hardReset :: rest → ∃ t, step s = .next t ∧ t.irq = false ∧ primEvent t = t ∧
      t = { State.resetWith s.primWidth with
        agenda := rest, rdata := s.rdata, draws := s.draws + 1,
        port := { outstanding := none, answered := 0, trace := s.port.trace } }) ∧
    (∀ w : Word, s.agenda = .write 0x008#13 w :: rest → w.getLsbD 1 = true → s.busy = false →
      step s = .next { State.resetWith s.primWidth with
        dbuf := s.dbuf, agenda := rest, rdata := s.rdata, draws := s.draws + 1,
        port := { outstanding := none, answered := 0, trace := s.port.trace } })

/-- A soft reset during a command abandons it, and only its destination range may be lost (which range: log 9).
Rules: R603, R602 (derived). -/
def Obligations.SoftResetAbandonsTheCommand : Prop :=
  ∀ (s : State) (rest : List Event) (w : Word), s.busy = true → s.agenda = .write 0x008#13 w :: rest →
    w.getLsbD 1 = true →
    ∃ t, step s = .next t ∧ t.done = false ∧
      { t with dbuf := [], draws := 0, port := PrimPort.reset } =
        { State.resetWith s.primWidth with agenda := rest, rdata := s.rdata } ∧
      (runningDest s = none → ∀ x, Memory.byte? t.dbuf x = Memory.byte? s.dbuf x) ∧
      (∀ a n, runningDest s = some (a, n) → sameOutside s t a n ∧
        ∀ x, Memory.byte? t.dbuf x = Memory.byte? s.dbuf x ∨ Memory.byte? t.dbuf x = none) ∧
      (∀ (va : VReg) (bo : BitOrder), decode s.cmd = .ok (.bvStb va bo) →
        s.arg0.toNat + ((s.vreg va).size + 7) / 8 ≤ 4096 →
        runningDest s = some (s.arg0.toNat, ((s.vreg va).size + 7) / 8)) ∧
      (∀ (va : VReg) (big : Bool), decode s.cmd = .ok (.bvPack va big) →
        s.arg0.toNat + ((s.vreg va).size + 7) / 8 ≤ 4096 →
        runningDest s = some (s.arg0.toNat, ((s.vreg va).size + 7) / 8)) ∧
      ((decode s.cmd = .ok .modeGetiv ∨ decode s.cmd = .ok .modeGetctr) →
        s.arg0.toNat + s.primWidth.bytes ≤ 4096 → runningDest s = some (s.arg0.toNat, s.primWidth.bytes)) ∧
      (∀ (pad decl : Bool) (n : Nat), decode s.cmd = .ok (.segFeed pad decl) → s.seg.cfg.legal = true →
        s.seg.finalized = false → s.arg0.toNat + s.arg1.toNat ≤ 4096 → feedBits decl s ≤ 8 * s.arg1.toNat →
        (pad = false → feedBits decl s % s.seg.cfg.blockBits = 0) →
        (pad = true → s.seg.cfg.scheme = .pkcs7 ∨ s.seg.cfg.scheme = .x923 →
          feedBits decl s % s.seg.cfg.blockBits % 8 = 0) →
        n = (feedBits decl s + (if pad then (padTail s.seg.cfg
            ((feedMsg decl s).drop (feedBits decl s / s.seg.cfg.blockBits * s.seg.cfg.blockBits))
            (s.seg.processed + BitVec.ofNat 64 (feedBits decl s)).toNat).padBits else 0) + 7) / 8 →
        s.arg3.toNat + n ≤ 4096 → runningDest s = some (s.arg3.toNat, n)) ∧
      (∀ n : Nat, decode s.cmd = .ok .modeEnc → modeConfigOk s → modeStateOk s →
        s.arg0.toNat + s.arg1.toNat ≤ 4096 →
        ((∃ sc, modeField s ≤ 1 ∧ schemeOfCode (s.modeCfg.extractLsb' 4 3) = some sc ∧
            (sc = .none → s.arg1.toNat % s.primWidth.bytes = 0) ∧
            n = (paddedMessage (modePadCfg s sc) s.primWidth.bytes (modeMsg s)).length) ∨
          ((modeField s = 2 ∨ modeField s = 3) ∧ s.primWidth.bytes ≤ s.arg1.toNat ∧ n = s.arg1.toNat) ∨
          (modeField s = 4 ∧ n = s.arg1.toNat)) →
        s.arg2.toNat + n ≤ 4096 → runningDest s = some (s.arg2.toNat, n)) ∧
      (decode s.cmd = .ok .modeDec → modeConfigOk s → modeStateOk s → s.arg0.toNat + s.arg1.toNat ≤ 4096 →
        (modeField s ≤ 1 → s.arg1.toNat % s.primWidth.bytes = 0) →
        ((modeField s = 2 ∨ modeField s = 3) → s.primWidth.bytes ≤ s.arg1.toNat) →
        s.arg2.toNat + s.arg1.toNat ≤ 4096 → runningDest s = some (s.arg2.toNat, s.arg1.toNat)) ∧
      (∀ i : Instr, decode s.cmd = .ok i →
        (opcodeByte i ∉ [0x12#8, 0x2D#8, 0x31#8, 0x40#8, 0x41#8, 0x43#8, 0x45#8] ∨ (raises i s ∧ i ≠ .modeDec) ∨
          (i = .modeDec ∧ (¬ modeConfigOk s ∨ ¬ modeStateOk s ∨ 4096 < s.arg0.toNat + s.arg1.toNat ∨
            (modeField s ≤ 1 ∧ s.arg1.toNat % s.primWidth.bytes ≠ 0) ∨
            ((modeField s = 2 ∨ modeField s = 3) ∧ s.arg1.toNat < s.primWidth.bytes) ∨
            4096 < s.arg2.toNat + s.arg1.toNat))) → runningDest s = none) ∧
      (∀ e, decode s.cmd = .error e → runningDest s = none)

/-- A write of CMD is accepted while idle and dropped while busy; a read returns the accepted word. Rules: R44. -/
def Obligations.CommandWordAcceptedOrDropped : Prop :=
  ∀ (s : State) (c : Word),
    (s.busy = false → hostWrite 0x010#13 c s =
      { s with cmd := c, busy := true, port := { s.port with outstanding := none, answered := 0 } }) ∧
    (s.busy = true → hostWrite 0x010#13 c s = { s with ovr := true }) ∧
    hostRead 0x010#13 s = { s with rdata := s.cmd } ∧ State.reset.cmd = 0#32

/-- What the host can do while a command runs. Rules: R110, R42, R44, R610 (derived). -/
def Obligations.BusyWindow : Prop :=
  ∀ (s : State) (w : Word), s.busy = true →
    (∀ o : HostOffset, (0x1000#13 ≤ o ∨ o ∈ [0x014#13, 0x018#13, 0x01C#13, 0x020#13, 0x030#13, 0x034#13, 0x050#13]) →
      hostWrite o w s = { s with accErr := true }) ∧
    (∀ o : HostOffset, 0x1000#13 ≤ o → hostRead o s = { s with rdata := 0#32, accErr := true }) ∧
    hostWrite 0x010#13 w s = { s with ovr := true } ∧
    (w.getLsbD 1 = false → hostWrite 0x008#13 w s = { s with ie := w.getLsbD 0 }) ∧
    (∀ (o : HostOffset) (r : HostReg), hostRegAt o.toNat = some r → hostRead o s = { s with rdata := regRead r s }) ∧
    (hostWrite 0x00C#13 w s).busy = true ∧ (hostWrite 0x00C#13 w s).cmd = s.cmd

/-- Misaligned and unmapped accesses and writes of read-only registers set ACCERR and do nothing else. Rules: R103,
R105. -/
def Obligations.RefusedAccesses : Prop :=
  ∀ (s : State) (w : Word) (o : HostOffset),
    ((o.extractLsb' 0 2 ≠ 0#2 ∨ (0x05C#13 ≤ o ∧ o ≤ 0xFFC#13)) →
      hostRead o s = { s with rdata := 0#32, accErr := true } ∧ hostWrite o w s = { s with accErr := true }) ∧
    (o ∈ [0x000#13, 0x004#13, 0x024#13, 0x028#13, 0x02C#13, 0x038#13, 0x03C#13, 0x040#13, 0x044#13, 0x048#13,
          0x04C#13, 0x054#13, 0x058#13] → hostWrite o w s = { s with accErr := true }) ∧
    hostRead 0x010#13 s = { s with rdata := s.cmd }

/-- STATUS, CTRL, CMD, the argument and the configuration registers: what a read returns and a write stores. Rules:
R43, R45, R500, R514, R35, R42, R46, R47, R52 (derived). -/
def Obligations.StatusAndConfigurationRegisters : Prop :=
  ∀ (s : State) (w : Word),
    ((regRead .status s).getLsbD 0 = s.busy ∧ (regRead .status s).getLsbD 1 = s.done ∧
     (regRead .status s).getLsbD 2 = s.err ∧ (regRead .status s).getLsbD 3 = s.ovr ∧
     (regRead .status s).getLsbD 4 = s.accErr ∧ (regRead .status s).extractLsb' 8 4 = s.errCode.bits ∧
     (regRead .status s).getLsbD 16 = s.seg.finalized ∧ (regRead .status s).getLsbD 17 = s.mode.ivValid ∧
     (regRead .status s).getLsbD 18 = s.mode.ctrValid ∧ regRead .status s &&& 0xFFF8F0E0#32 = 0#32) ∧
    [ErrCode.none, .illegal, .index, .sizeMismatch, .padding, .length, .type, .address, .overflow, .config,
      .state].map ErrCode.bits = [0#4, 1#4, 2#4, 3#4, 4#4, 5#4, 6#4, 7#4, 8#4, 9#4, 10#4] ∧
    (regRead .ctrl s = (if s.ie then 1#32 else 0#32) ∧ regRead .cmd s = s.cmd ∧ regRead .arg0 s = s.arg0 ∧
     regRead .arg1 s = s.arg1 ∧ regRead .arg2 s = s.arg2 ∧ regRead .arg3 s = s.arg3 ∧
     regRead .segCfg s = s.segCfg ∧ (regRead .segBlkBits s).toNat = s.segBlkBits.toNat ∧
     regRead .modeCfg s = s.modeCfg) ∧
    hostWrite 0x00C#13 w s =
      { s with
        done := s.done && !w.getLsbD 1, err := s.err && !w.getLsbD 2, ovr := s.ovr && !w.getLsbD 3,
        accErr := s.accErr && !w.getLsbD 4,
        errCode := if w.getLsbD 2 then .none else s.errCode,
        errSub := if w.getLsbD 2 then 0#8 else s.errSub, errChk := if w.getLsbD 2 then 0#8 else s.errChk } ∧
    (s.busy = false →
      hostWrite 0x014#13 w s = { s with arg0 := w } ∧ hostWrite 0x018#13 w s = { s with arg1 := w } ∧
      hostWrite 0x01C#13 w s = { s with arg2 := w } ∧ hostWrite 0x020#13 w s = { s with arg3 := w } ∧
      hostWrite 0x030#13 w s = { s with segCfg := w &&& 0x000000F7#32 } ∧
      hostWrite 0x034#13 w s = { s with segBlkBits := w.setWidth 11 } ∧
      hostWrite 0x050#13 w s = { s with modeCfg := w &&& 0x00000F77#32 } ∧
      (w.getLsbD 1 = false → hostWrite 0x008#13 w s = { s with ie := w.getLsbD 0 }))

/-- The host's window on DBUF: little-endian lanes, read after write. Rules: R101. -/
def Obligations.DataBufferWindow : Prop :=
  ∀ (s : State) (k : Nat) (w : Word), s.busy = false → k < 1024 →
    (∃ t, hostWrite (BitVec.ofNat 13 (0x1000 + 4 * k)) w s = t ∧
      (∀ j, j < 4 → Memory.byte? t.dbuf (4 * k + j) = some (w.extractLsb' (8 * j) 8)) ∧
      sameOutside s t (4 * k) 4 ∧ { t with dbuf := s.dbuf } = s ∧
      (hostRead (BitVec.ofNat 13 (0x1000 + 4 * k)) t).rdata = w) ∧
    (∀ j, j < 4 → (hostRead (BitVec.ofNat 13 (0x1000 + 4 * k)) s).rdata.extractLsb' (8 * j) 8 = s.byteAt (4 * k + j)) ∧
    { hostRead (BitVec.ofNat 13 (0x1000 + 4 * k)) s with rdata := s.rdata, draws := s.draws } = s

/-- NOP, SEG and MODE commands neither read nor write a V register, and the host's accesses write none. Rules: R34,
R31 (derived). -/
def Obligations.OnlyBvCommandsTouchV : Prop :=
  (∀ (i : Instr) (s t : State) (x : Vector BvReg 8), (opcodeByte i < 0x10#8 ∨ 0x30#8 ≤ opcodeByte i) →
    exec i s = .next t → t.v = s.v ∧ exec i { s with v := x } = .next { t with v := x }) ∧
  (∀ (s : State) (o : HostOffset) (w : Word), (hostRead o s).v = s.v ∧
    ((o ≠ 0x008#13 ∨ w.getLsbD 1 = false) → (hostWrite o w s).v = s.v))

/-- The active segmenter changes only by SEG commands and resets; it leaves Finalized only by SEG.RESET or a reset.
Rules: R61, R62, R71, R307 (derived). -/
def Obligations.SegmenterChangesOnlyByItsCommands : Prop :=
  ∀ s t : State, step s = .next t →
    (t.seg.cfg = s.seg.cfg ∨ runs s .segReset ∨ resetsNext s) ∧
    (t.seg = s.seg ∨ runs s .segReset ∨ (∃ pad decl, runs s (.segFeed pad decl)) ∨ resetsNext s) ∧
    (s.seg.finalized = true → t.seg.finalized = true ∨ runs s .segReset ∨ resetsNext s)

/-- Which steps can change the chain value, the nonce, and the counter. Rules: R71. -/
def Obligations.ModeStateChangesOnlyByItsCommands : Prop :=
  (∀ s t : State, step s = .next t →
    (t.mode.chain = s.mode.chain ∨ runs s .modeSetiv ∨
      (∃ i, (i = .modeEnc ∨ i = .modeDec) ∧ runs s i ∧ succeeds i s ∧ (modeField s = 1 ∨ modeField s = 3)) ∨
      resetsNext s) ∧
    (t.mode.nonce = s.mode.nonce ∧ t.mode.ctrInit = s.mode.ctrInit ∨ runs s .modeSetctr ∨ resetsNext s) ∧
    (t.mode.ctr = s.mode.ctr ∨ runs s .modeSetctr ∨ runs s .ctrReset ∨
      (∃ i, (i = .modeEnc ∨ i = .modeDec) ∧ runs s i ∧ succeeds i s ∧ modeField s = 4) ∨ resetsNext s)) ∧
  (∀ (i : Instr) (s t : State), 0x40#8 ≤ opcodeByte i → exec i s = .next t → t.seg = s.seg)

/-- The PRIM port: what its events do, a hang is a run that does not end, and a command completes under PRIM_LIVE.
Rules: R440, R441, R442, R180, R606, R613, R620 (derived). -/
def Obligations.PrimitivePortAndLiveness : Prop :=
  (∀ (s : State) (i : Instr), s.busy = true → decode s.cmd = .ok i →
    callsOf i (primEvent s) = callsOf i s ∧
    (∀ c, s.port.outstanding = some c →
      primEvent s = { s with port := { s.port with outstanding := none, answered := s.port.answered + 1 } }) ∧
    (∀ c, s.port.outstanding = none → (callsOf i s)[s.port.answered]? = some c →
      primEvent s = { s with port := { s.port with outstanding := some c, trace := s.port.trace ++ [c] } }) ∧
    (s.port.outstanding = none → (callsOf i s).length ≤ s.port.answered → primEvent s = s)) ∧
  (∀ (s t : State) (i : Instr) (q : PrimPort), exec i s = .next t → primLive i s →
    primLive i { s with port := q } →
    exec i { s with port := q } = .next { t with port := { t.port with trace := q.trace } }) ∧
  (∀ (s : State) (i : Instr), s.busy = true → decode s.cmd = .ok i → callsOf i s ≠ [] → ¬ primLive i s →
    noReset s.agenda → Event.prim ∉ s.agenda →
    ∀ n, (runSteps n s).busy = true ∧ (runSteps n s).cmd = s.cmd ∧ ¬ primLive i (runSteps n s) ∧
      ((runSteps n s).done = true → s.done = true)) ∧
  (∀ (s : State) (i : Instr), s.busy = true → decode s.cmd = .ok i → portIdle s → primLiveRun i s →
    ∃ n, (runSteps n s).busy = false ∧ (runSteps n s).done = true)

/-- BV.LDI: the 64-bit immediate, sized by ARG2 or by its own length. Rules: R205. -/
def Obligations.LdiLoads : Prop :=
  ∀ (s : State) (vd : VReg),
    (s.arg2.toNat ≤ 1024 → exec (.bvLdi vd true) s = .next (completed { s with
      v := s.v.set vd { val := (s.arg1.toNat * 2 ^ 32 + s.arg0.toNat) % 2 ^ s.arg2.toNat, size := s.arg2.toNat } })) ∧
    (1024 < s.arg2.toNat → exec (.bvLdi vd true) s = .next (raised s .overflow 1#8)) ∧
    (∃ n, exec (.bvLdi vd false) s = .next (completed { s with
        v := s.v.set vd { val := s.arg1.toNat * 2 ^ 32 + s.arg0.toNat, size := n } }) ∧
      s.arg1.toNat * 2 ^ 32 + s.arg0.toNat < 2 ^ n ∧
      ∀ m, m < n → 2 ^ m ≤ s.arg1.toNat * 2 ^ 32 + s.arg0.toNat)

/-- BV.LDBITS: one bit per byte, checked in order. Rules: R206. -/
def Obligations.LdbitsLoads : Prop :=
  ∀ (s : State) (vd : VReg),
    (4096 < s.arg0.toNat + s.arg1.toNat →
      ∃ d, exec (.bvLdbits vd) s = .next { raised s .address 1#8 with draws := d }) ∧
    (s.arg0.toNat + s.arg1.toNat ≤ 4096 → 1024 < s.arg1.toNat →
      ∃ d, exec (.bvLdbits vd) s = .next { raised s .overflow 1#8 with draws := d }) ∧
    (s.arg0.toNat + s.arg1.toNat ≤ 4096 → s.arg1.toNat ≤ 1024 →
      (∃ k, k < s.arg1.toNat ∧ s.byteAt (s.arg0.toNat + k) ≠ 0#8 ∧ s.byteAt (s.arg0.toNat + k) ≠ 1#8) →
      ∃ d, exec (.bvLdbits vd) s = .next { raised s .type 1#8 with draws := d }) ∧
    (s.arg0.toNat + s.arg1.toNat ≤ 4096 → s.arg1.toNat ≤ 1024 →
      (∀ k, k < s.arg1.toNat → s.byteAt (s.arg0.toNat + k) = 0#8 ∨ s.byteAt (s.arg0.toNat + k) = 1#8) →
      ∃ d val, exec (.bvLdbits vd) s = .next { completed { s with
          v := s.v.set vd { val := val, size := s.arg1.toNat } } with draws := d } ∧
        val < 2 ^ s.arg1.toNat ∧
        ∀ k, k < s.arg1.toNat → val.testBit k = decide (s.byteAt (s.arg0.toNat + k) = 1#8))

/-- NOP, BV.MOV, BV.SIZE, BV.RDW. Rules: R185, R207, R208, R209. -/
def Obligations.NopCopyAndReadBack : Prop :=
  ∀ (s : State) (vd va : VReg),
    exec .nop s = .next (completed s) ∧
    exec (.bvMov vd va) s = .next (completed { s with v := s.v.set vd s.v[va] }) ∧
    exec (.bvSize va) s = .next (completed { s with result0 := BitVec.ofNat 32 s.v[va].size }) ∧
    exec (.bvRdw va) s =
      .next (completed { s with result0 := BitVec.ofNat 32 (s.v[va].val / 2 ^ (32 * s.arg0.toNat) % 2 ^ 32) })

/-- BV.LDB in the three bit orders, sized and unsized. Rules: R210. -/
def Obligations.LdbLoads : Prop :=
  ∀ (s : State) (vd : VReg) (bo : BitOrder) (sz : Bool) (size : Nat), bo ≠ .reserved →
    size = (if sz then s.arg2.toNat else 8 * s.arg1.toNat) →
    (4096 < s.arg0.toNat + s.arg1.toNat →
      ∃ d, exec (.bvLdb vd bo sz) s = .next { raised s .address 1#8 with draws := d }) ∧
    (s.arg0.toNat + s.arg1.toNat ≤ 4096 → 8 * s.arg1.toNat < size →
      ∃ d, exec (.bvLdb vd bo sz) s = .next { raised s .sizeMismatch 3#8 with draws := d }) ∧
    (s.arg0.toNat + s.arg1.toNat ≤ 4096 → size ≤ 8 * s.arg1.toNat → 1024 < size →
      ∃ d, exec (.bvLdb vd bo sz) s = .next { raised s .overflow 1#8 with draws := d }) ∧
    (s.arg0.toNat + s.arg1.toNat ≤ 4096 → size ≤ 8 * s.arg1.toNat → size ≤ 1024 →
      ∃ d val, exec (.bvLdb vd bo sz) s = .next { completed { s with
          v := s.v.set vd { val := val, size := size } } with draws := d } ∧
        val < 2 ^ size ∧
        ∀ j, j < size →
          val.testBit j = loadedBit bo s.arg1.toNat (fun k => s.byteAt (s.arg0.toNat + k)) j)

/-- BV.STB in the three bit orders. Rules: R213. -/
def Obligations.StbStores : Prop :=
  ∀ (s : State) (va : VReg) (bo : BitOrder) (k : Nat), bo ≠ .reserved → k = ((s.v[va]).size + 7) / 8 →
    (4096 < s.arg0.toNat + k → exec (.bvStb va bo) s = .next (raised s .address 1#8)) ∧
    (s.arg0.toNat + k ≤ 4096 → ∃ t, exec (.bvStb va bo) s = .next t ∧
      (∀ i, i < k → ∃ b : Byte, Memory.byte? t.dbuf (s.arg0.toNat + i) = some b ∧
        ∀ q, q < 8 → b.getLsbD q = storedBit bo k (s.v[va]).val i q) ∧
      sameOutside s t s.arg0.toNat k ∧
      { t with dbuf := s.dbuf } = completed { s with result0 := BitVec.ofNat 32 k })

/-- BV.PACK and BV.UNPACK: the 8-bit groups of a value, lowest first or reversed. Rules: R250, R251. -/
def Obligations.PackAndUnpack : Prop :=
  (∀ (s : State) (va : VReg) (big : Bool) (g : Nat), g = ((s.v[va]).size + 7) / 8 →
    (4096 < s.arg0.toNat + g → exec (.bvPack va big) s = .next (raised s .address 1#8)) ∧
    (s.arg0.toNat + g ≤ 4096 → ∃ t, exec (.bvPack va big) s = .next t ∧
      (∀ i, i < g → Memory.byte? t.dbuf (s.arg0.toNat + i) =
        some (BitVec.ofNat 8 ((s.v[va]).val / 2 ^ (8 * (if big then g - 1 - i else i)) % 256))) ∧
      sameOutside s t s.arg0.toNat g ∧
      { t with dbuf := s.dbuf } = completed { s with result0 := BitVec.ofNat 32 g })) ∧
  (∀ (s : State) (vd : VReg) (big : Bool),
    (4096 < s.arg0.toNat + s.arg1.toNat →
      ∃ d, exec (.bvUnpack vd big) s = .next { raised s .address 1#8 with draws := d }) ∧
    (s.arg0.toNat + s.arg1.toNat ≤ 4096 → 128 < s.arg1.toNat →
      ∃ d, exec (.bvUnpack vd big) s = .next { raised s .overflow 1#8 with draws := d }) ∧
    (s.arg0.toNat + s.arg1.toNat ≤ 4096 → s.arg1.toNat ≤ 128 →
      ∃ d val, exec (.bvUnpack vd big) s = .next { completed { s with
          v := s.v.set vd { val := val, size := 8 * s.arg1.toNat },
          result0 := BitVec.ofNat 32 (8 * s.arg1.toNat) } with draws := d } ∧
        val < 2 ^ (8 * s.arg1.toNat) ∧
        ∀ j, j < 8 * s.arg1.toNat →
          val.testBit j = loadedBit (if big then .bigEndian else .littleEndian) s.arg1.toNat
            (fun k => s.byteAt (s.arg0.toNat + k)) j))

/-- BV.LDB then BV.STB writes the bytes back, and BV.STB then BV.LDB restores the register. Rules: R212. -/
def Obligations.LoadStoreRoundTrip : Prop :=
  (∀ (s : State) (vd : VReg) (bo : BitOrder), bo ≠ .reserved →
    s.arg0.toNat + s.arg1.toNat ≤ 4096 → s.arg1.toNat ≤ 128 →
    ∃ t, exec (.bvLdb vd bo false) s = .next t ∧
      ∀ dst : Word, dst.toNat + s.arg1.toNat ≤ 4096 →
        ∃ u, exec (.bvStb vd bo) { t with arg0 := dst } = .next u ∧ u.err = s.err ∧
          holds u dst.toNat (s.memRead s.arg0.toNat s.arg1.toNat)) ∧
  (∀ (s : State) (va vd : VReg) (bo : BitOrder), bo ≠ .reserved →
    (s.vreg va).wf → (s.vreg va).size % 8 = 0 → s.arg0.toNat + (s.vreg va).size / 8 ≤ 4096 →
    ∃ t u, exec (.bvStb va bo) s = .next t ∧
      exec (.bvLdb vd bo false) { t with arg1 := BitVec.ofNat 32 ((s.vreg va).size / 8) } = .next u ∧
      u.vreg vd = s.vreg va)

/-- BV.PACK is BV.STB in two of its orders, and BV.UNPACK is an unsized BV.LDB. Rules: R252. -/
def Obligations.PackIsStoreAndUnpackIsLoad : Prop :=
  (∀ (s : State) (va : VReg), exec (.bvPack va false) s = exec (.bvStb va .littleEndian) s ∧
    exec (.bvPack va true) s = exec (.bvStb va .bigEndian) s) ∧
  (∀ (s t : State) (vd : VReg) (big : Bool),
    exec (.bvLdb vd (if big then .bigEndian else .littleEndian) false) s = .next t →
    ∃ u, exec (.bvUnpack vd big) s = .next u ∧ { u with result0 := t.result0 } = t)

/-- BV.GET and BV.SET: one bit, a negative index counting from the high end. Rules: R220, R221, R223. -/
def Obligations.BitAccess : Prop :=
  ∀ (s : State) (vd va : VReg),
    (∀ j : Nat, -((s.v[va]).size : Int) ≤ s.arg0.toInt → s.arg0.toInt < (s.v[va]).size →
      (j : Int) = (if s.arg0.toInt < 0 then s.arg0.toInt + (s.v[va]).size else s.arg0.toInt) →
      exec (.bvGet vd va) s = .next (completed { s with
        v := s.v.set vd { val := ((s.v[va]).val.testBit j).toNat, size := 1 },
        result0 := BitVec.ofNat 32 ((s.v[va]).val.testBit j).toNat })) ∧
    ((s.arg0.toInt < -((s.v[va]).size : Int) ∨ ((s.v[va]).size : Int) ≤ s.arg0.toInt) →
      exec (.bvGet vd va) s = .next (raised s .index 1#8)) ∧
    ((s.arg0.toInt < -((s.v[vd]).size : Int) ∨ ((s.v[vd]).size : Int) ≤ s.arg0.toInt) →
      exec (.bvSet vd) s = .next (raised s .index 1#8)) ∧
    (-((s.v[vd]).size : Int) ≤ s.arg0.toInt → s.arg0.toInt < (s.v[vd]).size → 1 < s.arg1.toNat →
      exec (.bvSet vd) s = .next (raised s .type 2#8)) ∧
    (∀ j : Nat, -((s.v[vd]).size : Int) ≤ s.arg0.toInt → s.arg0.toInt < (s.v[vd]).size → s.arg1.toNat ≤ 1 →
      (j : Int) = (if s.arg0.toInt < 0 then s.arg0.toInt + (s.v[vd]).size else s.arg0.toInt) →
      ∃ val, exec (.bvSet vd) s = .next (completed { s with
          v := s.v.set vd { val := val, size := (s.v[vd]).size } }) ∧
        ∀ k, val.testBit k = if k = j then decide (s.arg1.toNat = 1) else (s.v[vd]).val.testBit k)

/-- BV.GETS: the bits of a slice with a step. Rules: R222. -/
def Obligations.GetsReadsASlice : Prop :=
  ∀ (s : State) (vd va : VReg) (ns ne : Bool),
    (s.arg2.toInt < 1 → exec (.bvGets vd va ns ne) s = .next (raised s .index 3#8)) ∧
    (1 ≤ s.arg2.toInt → ¬ sliceInside ns ne s.arg0 s.arg1 (s.v[va]).size →
      exec (.bvGets vd va ns ne) s = .next (raised s .index 2#8)) ∧
    (1 ≤ s.arg2.toInt → sliceInside ns ne s.arg0 s.arg1 (s.v[va]).size →
      ∃ val c : Nat, exec (.bvGets vd va ns ne) s = .next (completed { s with
          v := s.v.set vd { val := val, size := c } }) ∧
        val < 2 ^ c ∧
        (∀ k : Nat, k < c ↔
          sliceStart ns s.arg0 (s.v[va]).size + k * s.arg2.toInt < sliceStop ne s.arg1 (s.v[va]).size) ∧
        ∀ k : Nat, k < c →
          val.testBit k = (s.v[va]).val.testBit (sliceStart ns s.arg0 (s.v[va]).size + k * s.arg2.toInt).toNat)

/-- BV.SETS: the bits of a slice in place. Rules: R224. -/
def Obligations.SetsWritesASlice : Prop :=
  ∀ (s : State) (vd va : VReg) (ns ne co : Bool),
    (s.arg2.toInt < 1 → exec (.bvSets vd va ns ne co) s = .next (raised s .index 3#8)) ∧
    (1 ≤ s.arg2.toInt → ¬ sliceInside ns ne s.arg0 s.arg1 (s.v[vd]).size →
      exec (.bvSets vd va ns ne co) s = .next (raised s .index 2#8)) ∧
    (∀ c : Nat, 1 ≤ s.arg2.toInt → sliceInside ns ne s.arg0 s.arg1 (s.v[vd]).size →
      (∀ k : Nat, k < c ↔
        sliceStart ns s.arg0 (s.v[vd]).size + k * s.arg2.toInt < sliceStop ne s.arg1 (s.v[vd]).size) →
      (co = false → (s.v[va]).size ≠ c →
        exec (.bvSets vd va ns ne co) s = .next (raised s .sizeMismatch 2#8)) ∧
      ((co = true ∨ (s.v[va]).size = c) →
        ∃ val, exec (.bvSets vd va ns ne co) s = .next (completed { s with
            v := s.v.set vd { val := val, size := (s.v[vd]).size } }) ∧
          (∀ k : Nat, k < c →
            val.testBit (sliceStart ns s.arg0 (s.v[vd]).size + k * s.arg2.toInt).toNat = (s.v[va]).val.testBit k) ∧
          ∀ j : Nat, (∀ k : Nat, k < c → (j : Int) ≠ sliceStart ns s.arg0 (s.v[vd]).size + k * s.arg2.toInt) →
            val.testBit j = (s.v[vd]).val.testBit j))

/-- BV.GETS into another register and BV.SETS back with the same triple leave the register unchanged. Rules: R225,
R222, R224 (derived). -/
def Obligations.SliceMuxIdentity : Prop :=
  ∀ (s : State) (x y : VReg) (ns ne co : Bool), x ≠ y → 1 ≤ s.arg2.toInt →
    sliceInside ns ne s.arg0 s.arg1 (s.vreg x).size →
    ∃ t u, exec (.bvGets y x ns ne) s = .next t ∧ exec (.bvSets x y ns ne co) t = .next u ∧
      u.vreg x = s.vreg x ∧ u.err = s.err

/-- BV.AND, BV.OR, BV.XOR, and BV.ADD, BV.SUB modulo 2 to the larger size. Rules: R231, R232, R233, R235, R236. -/
def Obligations.BitwiseAndModularOperators : Prop :=
  (∀ (s : State) (vd va vb : VReg),
    exec (.bvAnd vd va vb) s = .next (completed { s with
      v := s.v.set vd { val := (s.v[va]).val &&& (s.v[vb]).val, size := max (s.v[va]).size (s.v[vb]).size } }) ∧
    exec (.bvOr vd va vb) s = .next (completed { s with
      v := s.v.set vd { val := (s.v[va]).val ||| (s.v[vb]).val, size := max (s.v[va]).size (s.v[vb]).size } }) ∧
    exec (.bvXor vd va vb) s = .next (completed { s with
      v := s.v.set vd { val := (s.v[va]).val ^^^ (s.v[vb]).val, size := max (s.v[va]).size (s.v[vb]).size } })) ∧
  (∀ (s : State) (vd va vb : VReg) (n : Nat), n = max (s.v[va]).size (s.v[vb]).size →
    (∃ x, exec (.bvAdd vd va vb) s = .next (completed { s with v := s.v.set vd { val := x, size := n } }) ∧
      x < 2 ^ n ∧ x ≡ (s.v[va]).val + (s.v[vb]).val [MOD 2 ^ n]) ∧
    (∃ x, exec (.bvSub vd va vb) s = .next (completed { s with v := s.v.set vd { val := x, size := n } }) ∧
      x < 2 ^ n ∧ x + (s.v[vb]).val ≡ (s.v[va]).val [MOD 2 ^ n]))

/-- A host read of a register returns its value and changes nothing, idle or busy; what the read-only registers
show. Rules: R36, R40, R41, R45, R46, R48, R49, R50, R51, R53, R54, R108 (derived). -/
def Obligations.RegisterReads : Prop :=
  ∀ s : State,
    regRead .id s = 0x43525950#32 ∧ regRead .version s = 1#32 ∧
    regRead .result0 s = s.result0 ∧ regRead .result1 s = s.result1 ∧
    (regRead .errInfo s).extractLsb' 0 8 = s.errSub ∧ (regRead .errInfo s).extractLsb' 8 8 = s.errChk ∧
    (regRead .errInfo s).extractLsb' 16 16 = 0#16 ∧
    (regRead .segPbitsHi s).toNat * 2 ^ 32 + (regRead .segPbitsLo s).toNat = s.seg.processed.toNat ∧
    (regRead .segLastPad s).toNat = s.seg.lastPad.toNat ∧
    regRead .segState s = (if s.seg.finalized then 1#32 else 0#32) ∧
    ((regRead .segAcfg s).extractLsb' 0 3 = schemeCode s.seg.cfg.scheme ∧
     8 * 2 ^ ((regRead .segAcfg s).extractLsb' 4 2).toNat = s.seg.cfg.w.bits ∧
     (regRead .segAcfg s).getLsbD 6 = s.seg.cfg.lenBe ∧ (regRead .segAcfg s).getLsbD 7 = s.seg.cfg.dbit ∧
     regRead .segAcfg s &&& 0xFFFFFF08#32 = 0#32) ∧
    [PadScheme.none, .zero, .bitpad, .pkcs7, .x923, .md, .blake].map schemeCode =
      [0#3, 1#3, 2#3, 3#3, 4#3, 5#3, 6#3] ∧
    [MdWord.w8, .w16, .w32, .w64].map MdWord.bits = [8, 16, 32, 64] ∧
    (s.seg.cfg.legal = true → (regRead .segAblkBits s).toNat = s.seg.cfg.blockBits) ∧
    (regRead .primBlkBits s).toNat = s.primWidth.bits ∧ s.primWidth.bits ∈ [64, 128, 256, 512, 1024] ∧
    regRead .modeLastPad s = s.mode.lastPad ∧
    [0x000, 0x004, 0x008, 0x00C, 0x010, 0x014, 0x018, 0x01C, 0x020, 0x024, 0x028, 0x02C, 0x030, 0x034, 0x038, 0x03C,
      0x040, 0x044, 0x048, 0x04C, 0x050, 0x054, 0x058].map hostRegAt =
      ([.id, .version, .ctrl, .status, .cmd, .arg0, .arg1, .arg2, .arg3, .result0, .result1, .errInfo, .segCfg,
        .segBlkBits, .segPbitsLo, .segPbitsHi, .segLastPad, .segState, .segAcfg, .segAblkBits, .modeCfg, .primBlkBits,
        .modeLastPad] : List HostReg).map some ∧
    (∀ (o : HostOffset) (r : HostReg), hostRegAt o.toNat = some r → hostRead o s = { s with rdata := regRead r s })

/-- BV.NOT, BV.SHL and BV.SHR by any amount. Rules: R234, R237, R238. -/
def Obligations.ComplementAndShifts : Prop :=
  ∀ (s : State) (vd va : VReg), (s.v[va]).wf →
    (∃ x, exec (.bvNot vd va) s = .next (completed { s with
        v := s.v.set vd { val := x, size := (s.v[va]).size } }) ∧
      ∀ k, x.testBit k = (decide (k < (s.v[va]).size) && !(s.v[va]).val.testBit k)) ∧
    (∃ x, exec (.bvShl vd va) s = .next (completed { s with
        v := s.v.set vd { val := x, size := (s.v[va]).size } }) ∧
      x = (s.v[va]).val * 2 ^ s.arg0.toNat % 2 ^ (s.v[va]).size ∧ ((s.v[va]).size ≤ s.arg0.toNat → x = 0)) ∧
    (∃ x, exec (.bvShr vd va) s = .next (completed { s with
        v := s.v.set vd { val := x, size := (s.v[va]).size } }) ∧
      x = (s.v[va]).val / 2 ^ s.arg0.toNat ∧ ((s.v[va]).size ≤ s.arg0.toNat → x = 0))

/-- BV.CAT, BV.ZEXT and BV.SEXT. Rules: R240, R241, R242. -/
def Obligations.ConcatenationAndExtension : Prop :=
  ∀ (s : State) (vd va vb : VReg),
    ((s.v[va]).size + (s.v[vb]).size ≤ 1024 → exec (.bvCat vd va vb) s = .next (completed { s with
      v := s.v.set vd { val := (s.v[va]).val + (s.v[vb]).val * 2 ^ (s.v[va]).size,
                        size := (s.v[va]).size + (s.v[vb]).size } })) ∧
    (1024 < (s.v[va]).size + (s.v[vb]).size → exec (.bvCat vd va vb) s = .next (raised s .overflow 1#8)) ∧
    (s.arg0.toNat ≤ (s.v[vd]).size →
      exec (.bvZext vd) s = .next (completed s) ∧ exec (.bvSext vd) s = .next (completed s)) ∧
    ((s.v[vd]).size < s.arg0.toNat → 1024 < s.arg0.toNat →
      exec (.bvZext vd) s = .next (raised s .overflow 1#8) ∧
      exec (.bvSext vd) s = .next (raised s .overflow 1#8)) ∧
    ((s.v[vd]).wf → (s.v[vd]).size < s.arg0.toNat → s.arg0.toNat ≤ 1024 →
      exec (.bvZext vd) s = .next (completed { s with
        v := s.v.set vd { val := (s.v[vd]).val, size := s.arg0.toNat } }) ∧
      ∃ x, exec (.bvSext vd) s = .next (completed { s with v := s.v.set vd { val := x, size := s.arg0.toNat } }) ∧
        ∀ k, x.testBit k = if k < (s.v[vd]).size then (s.v[vd]).val.testBit k
          else decide (k < s.arg0.toNat) && decide (0 < (s.v[vd]).size) &&
            (s.v[vd]).val.testBit ((s.v[vd]).size - 1))

/-- BV.HW and BV.HD count 1 bits. Rules: R245, R246. -/
def Obligations.HammingCounts : Prop :=
  ∀ (s : State) (va vb : VReg), (s.v[va]).wf → (s.v[vb]).wf →
    exec (.bvHw va) s = .next (completed { s with
      result0 := BitVec.ofNat 32 ((Finset.range (s.v[va]).size).filter (fun k => (s.v[va]).val.testBit k = true)).card }) ∧
    ((s.v[va]).size = (s.v[vb]).size → exec (.bvHd va vb) s = .next (completed { s with
      result0 := BitVec.ofNat 32 ((Finset.range (s.v[va]).size).filter
        (fun k => (s.v[va]).val.testBit k ≠ (s.v[vb]).val.testBit k)).card })) ∧
    ((s.v[va]).size ≠ (s.v[vb]).size → exec (.bvHd va vb) s = .next (raised s .sizeMismatch 1#8))

/-- SEG.RESET checks the configuration and begins a new message. Rules: R303. -/
def Obligations.SegResetLatches : Prop :=
  ∀ (s : State) (sc w bb : Nat), sc = (s.segCfg.extractLsb' 0 3).toNat →
    w = 8 * 2 ^ (s.segCfg.extractLsb' 4 2).toNat → bb = s.segBlkBits.toNat →
    (sc = 7 → exec .segReset s = .next (raised s .config 1#8)) ∧
    (sc ≠ 7 → ¬ (bb % 8 = 0 ∧ 8 ≤ bb ∧ bb ≤ 1024) → exec .segReset s = .next (raised s .config 2#8)) ∧
    (bb % 8 = 0 → 8 ≤ bb → bb ≤ 1024 → (sc = 5 ∧ bb < 2 * w + 1 ∨ sc = 6 ∧ bb < 2 * w + 2) →
      exec .segReset s = .next (raised s .config 3#8)) ∧
    (sc ≠ 7 → bb % 8 = 0 → 8 ≤ bb → bb ≤ 1024 → ¬ (sc = 5 ∧ bb < 2 * w + 1 ∨ sc = 6 ∧ bb < 2 * w + 2) →
      ∃ g, exec .segReset s = .next (completed { s with seg := g }) ∧
        (schemeCode g.cfg.scheme).toNat = sc ∧ g.cfg.w.bits = w ∧ g.cfg.lenBe = s.segCfg.getLsbD 6 ∧
        g.cfg.dbit = s.segCfg.getLsbD 7 ∧ g.cfg.blockBits = bb ∧
        g.processed = 0#64 ∧ g.finalized = false ∧ g.lastPad = 0#12)

/-- The errors of SEG.FEED, in their order. Rules: R305, R306, R307, R308, R309, R104 (derived). -/
def Obligations.FeedRefusals : Prop :=
  ∀ (s : State) (pad decl : Bool),
    (s.seg.finalized = true → ∃ d, exec (.segFeed pad decl) s = .next { raised s .padding 2#8 with draws := d }) ∧
    (s.seg.finalized = false → 4096 < s.arg0.toNat + s.arg1.toNat →
      ∃ d, exec (.segFeed pad decl) s = .next { raised s .address 1#8 with draws := d }) ∧
    (s.seg.finalized = false → s.arg0.toNat + s.arg1.toNat ≤ 4096 →
      (8 * s.arg1.toNat < feedBits decl s →
        ∃ d, exec (.segFeed pad decl) s = .next { raised s .padding 3#8 with draws := d }) ∧
      (feedBits decl s ≤ 8 * s.arg1.toNat → pad = false → feedBits decl s % s.seg.cfg.blockBits ≠ 0 →
        ∃ d, exec (.segFeed pad decl) s = .next { raised s .padding 1#8 with draws := d }) ∧
      (feedBits decl s ≤ 8 * s.arg1.toNat → pad = true → s.seg.cfg.scheme = .pkcs7 ∨ s.seg.cfg.scheme = .x923 →
        feedBits decl s % s.seg.cfg.blockBits % 8 ≠ 0 →
        ∃ d, exec (.segFeed pad decl) s = .next { raised s .padding 5#8 with draws := d }))

/-- SEG.FEED without padding copies whole blocks and counts their bits. Rules: R305, R308, R310, R301 (derived). -/
def Obligations.FeedWithoutPadding : Prop :=
  ∀ (s : State) (decl : Bool), s.seg.cfg.legal = true → s.seg.finalized = false →
    s.arg0.toNat + s.arg1.toNat ≤ 4096 → feedBits decl s ≤ 8 * s.arg1.toNat →
    feedBits decl s % s.seg.cfg.blockBits = 0 →
    (4096 < s.arg3.toNat + feedBits decl s / 8 →
      ∃ d, exec (.segFeed false decl) s = .next { raised s .address 1#8 with draws := d }) ∧
    (s.arg3.toNat + feedBits decl s / 8 ≤ 4096 →
      ∃ t d, exec (.segFeed false decl) s = .next t ∧
        holds t s.arg3.toNat ((s.memRead s.arg0.toNat s.arg1.toNat).take (feedBits decl s / 8)) ∧
        sameOutside s t s.arg3.toNat (feedBits decl s / 8) ∧
        { t with dbuf := s.dbuf } = { completed { s with
          seg := { s.seg with processed := s.seg.processed + BitVec.ofNat 64 (feedBits decl s) },
          result0 := BitVec.ofNat 32 (feedBits decl s / 8),
          result1 := BitVec.ofNat 32 (feedBits decl s / s.seg.cfg.blockBits) } with draws := d })

/-- SEG.FEED with padding writes the message and its padded tail, and finalizes. Rules: R305, R310, R311, R319, R301
(derived). -/
def Obligations.FeedWithPadding : Prop :=
  ∀ (s : State) (decl : Bool) (k : Nat) (T : Padded) (out : List Byte),
    s.seg.cfg.legal = true → s.seg.finalized = false →
    s.arg0.toNat + s.arg1.toNat ≤ 4096 → feedBits decl s ≤ 8 * s.arg1.toNat →
    (s.seg.cfg.scheme = .pkcs7 ∨ s.seg.cfg.scheme = .x923 → feedBits decl s % s.seg.cfg.blockBits % 8 = 0) →
    k = feedBits decl s / s.seg.cfg.blockBits →
    T = padTail s.seg.cfg ((feedMsg decl s).drop (k * s.seg.cfg.blockBits))
      (s.seg.processed + BitVec.ofNat 64 (feedBits decl s)).toNat →
    out = packBits ((feedMsg decl s).take (k * s.seg.cfg.blockBits) ++ T.bits) →
    (4096 < s.arg3.toNat + out.length →
      ∃ d, exec (.segFeed true decl) s = .next { raised s .address 1#8 with draws := d }) ∧
    (s.arg3.toNat + out.length ≤ 4096 →
      ∃ t d, exec (.segFeed true decl) s = .next t ∧ holds t s.arg3.toNat out ∧
        sameOutside s t s.arg3.toNat out.length ∧
        { t with dbuf := s.dbuf } = { completed { s with
          seg := { s.seg with processed := s.seg.processed + BitVec.ofNat 64 (feedBits decl s), finalized := true,
                              lastPad := BitVec.ofNat 12 T.padBits },
          result0 := BitVec.ofNat 32 out.length, result1 := BitVec.ofNat 32 (k + T.blocks) } with draws := d })

/-- The bit layout of each of the seven padding schemes. Rules: R312, R313, R314, R315, R316, R317, R318. -/
def Obligations.PaddingLayouts : Prop :=
  ∀ (c : PadCfg) (t : List Bool) (p : Nat), c.legal = true → t.length < c.blockBits →
    (c.scheme = .none → padTail c t p =
      { bits := t, padBits := 0, blocks := if t.length = 0 then 0 else 1 }) ∧
    (c.scheme = .zero → t.length = 0 → padTail c t p = { bits := [], padBits := 0, blocks := 0 }) ∧
    (c.scheme = .zero → 0 < t.length → padTail c t p =
      { bits := t ++ List.replicate (c.blockBits - t.length) false, padBits := c.blockBits - t.length, blocks := 1 }) ∧
    (c.scheme = .bitpad → padTail c t p =
      { bits := t ++ [true] ++ List.replicate (c.blockBits - t.length - 1) false,
        padBits := c.blockBits - t.length, blocks := 1 }) ∧
    (∀ n : Nat, t.length % 8 = 0 → 8 * n + t.length = c.blockBits →
      (c.scheme = .pkcs7 → packBits (padTail c t p).bits = packBits t ++ List.replicate n (BitVec.ofNat 8 n) ∧
        t <+: (padTail c t p).bits ∧ (padTail c t p).padBits = 8 * n ∧ (padTail c t p).blocks = 1) ∧
      (c.scheme = .x923 →
        packBits (padTail c t p).bits = packBits t ++ List.replicate (n - 1) 0#8 ++ [BitVec.ofNat 8 n] ∧
        t <+: (padTail c t p).bits ∧ (padTail c t p).padBits = 8 * n ∧ (padTail c t p).blocks = 1)) ∧
    (∀ (z tb : Nat) (lb : List Byte), lb.length = 2 * c.w.bits / 8 →
      (if c.lenBe then intBe lb else intLe lb) = p % 2 ^ (2 * c.w.bits) →
      (c.scheme = .md → tb = (if t.length + 1 + 2 * c.w.bits ≤ c.blockBits then 1 else 2) →
        t.length + 1 + z + 2 * c.w.bits = tb * c.blockBits →
        padTail c t p = { bits := t ++ [true] ++ List.replicate z false ++ streamBits lb,
                          padBits := 1 + z + 2 * c.w.bits, blocks := tb }) ∧
      (c.scheme = .blake → tb = (if t.length + 2 + 2 * c.w.bits ≤ c.blockBits then 1 else 2) →
        t.length + 2 + z + 2 * c.w.bits = tb * c.blockBits →
        padTail c t p = { bits := t ++ [true] ++ List.replicate z false ++ [c.dbit] ++ streamBits lb,
                          padBits := 2 + z + 2 * c.w.bits, blocks := tb }))

/-- SEG.UNPAD answers the message length in bits and bytes. Rules: R320. -/
def Obligations.UnpadAnswersTheLength : Prop :=
  ∀ s : State,
    (4096 < s.arg0.toNat + s.arg1.toNat →
      ∃ d, exec .segUnpad s = .next { raised s .address 1#8 with draws := d }) ∧
    (∀ l, s.arg0.toNat + s.arg1.toNat ≤ 4096 →
      unpad s.seg.cfg (s.memRead s.arg0.toNat s.arg1.toNat) s.seg.lastPad.toNat = .ok l →
      ∃ d, exec .segUnpad s = .next { completed { s with
        result0 := BitVec.ofNat 32 l, result1 := BitVec.ofNat 32 ((l + 7) / 8) } with draws := d }) ∧
    (∀ e, s.arg0.toNat + s.arg1.toNat ≤ 4096 →
      unpad s.seg.cfg (s.memRead s.arg0.toNat s.arg1.toNat) s.seg.lastPad.toNat = .error e →
      ∃ d, exec .segUnpad s = .next { raised s e.code e.sub with draws := d })

/-- What each scheme's unpad function accepts, and the length it answers (PADDING 4 for ZERO: log 13). Rules: R321,
R322, R323, R324, R325, R326, R327 (derived). -/
def Obligations.UnpadRules : Prop :=
  ∀ (c : PadCfg) (b : List Byte) (lp f lo : Nat), c.legal = true → f = 2 * c.w.bits →
    lo = 8 * b.length - min 2 (b.length / (c.blockBits / 8)) * c.blockBits →
    (c.scheme = .none → unpad c b lp = .ok (8 * b.length)) ∧
    (c.scheme = .zero → (lp ≤ 8 * b.length ∧ ∀ j, 8 * b.length - lp ≤ j → j < 8 * b.length → streamBit b j = false) →
      unpad c b lp = .ok (8 * b.length - lp)) ∧
    (c.scheme = .zero →
      ¬ (lp ≤ 8 * b.length ∧ ∀ j, 8 * b.length - lp ≤ j → j < 8 * b.length → streamBit b j = false) →
      unpad c b lp = .error { code := .padding, sub := 4#8 }) ∧
    (c.scheme ≠ .none → c.scheme ≠ .zero → ¬ (c.blockBits / 8 ≤ b.length ∧ b.length % (c.blockBits / 8) = 0) →
      unpad c b lp = .error { code := .padding, sub := 4#8 }) ∧
    (c.blockBits / 8 ≤ b.length → b.length % (c.blockBits / 8) = 0 →
      (∀ from' upto, (c.scheme = .bitpad ∧ from' = 8 * b.length - c.blockBits ∧ upto = 8 * b.length ∨
          c.scheme = .md ∧ from' = lo ∧ upto = 8 * b.length - f ∨
          c.scheme = .blake ∧ from' = lo ∧ upto = 8 * b.length - f - 1 ∧
            streamBit b (8 * b.length - f - 1) = c.dbit) →
        (∀ j, from' ≤ j → j < upto → streamBit b j = true →
          (∀ i, j < i → i < upto → streamBit b i = false) → unpad c b lp = .ok j) ∧
        ((∀ j, from' ≤ j → j < upto → streamBit b j = false) →
          unpad c b lp = .error { code := .padding, sub := 4#8 })) ∧
      (c.scheme = .blake → streamBit b (8 * b.length - f - 1) ≠ c.dbit →
        unpad c b lp = .error { code := .padding, sub := 4#8 }) ∧
      (∀ n : Nat, n = (b.getD (b.length - 1) 0#8).toNat →
        (c.scheme = .pkcs7 → (1 ≤ n ∧ n ≤ c.blockBits / 8 ∧
            ∀ j, b.length - n ≤ j → j < b.length → (b.getD j 0#8).toNat = n) →
          unpad c b lp = .ok (8 * (b.length - n))) ∧
        (c.scheme = .pkcs7 → ¬ (1 ≤ n ∧ n ≤ c.blockBits / 8 ∧
            ∀ j, b.length - n ≤ j → j < b.length → (b.getD j 0#8).toNat = n) →
          unpad c b lp = .error { code := .padding, sub := 4#8 }) ∧
        (c.scheme = .x923 → (1 ≤ n ∧ n ≤ c.blockBits / 8) → unpad c b lp = .ok (8 * (b.length - n))) ∧
        (c.scheme = .x923 → ¬ (1 ≤ n ∧ n ≤ c.blockBits / 8) →
          unpad c b lp = .error { code := .padding, sub := 4#8 })))

/-- SEG.UNPAD of what a padded SEG.FEED wrote gives the message length back. Rules: R328. -/
def Obligations.PaddingInverse : Prop :=
  ∀ (s t : State) (decl : Bool), s.seg.cfg.legal = true → s.seg.finalized = false →
    exec (.segFeed true decl) s = .next t → t.seg.finalized = true →
    ∃ u, exec .segUnpad { t with arg0 := s.arg3, arg1 := t.result0 } = .next u ∧ u.err = t.err ∧ u.seg = t.seg ∧
      u.result0 = BitVec.ofNat 32 (if s.seg.cfg.scheme = .none then 8 * ((feedBits decl s + 7) / 8)
        else feedBits decl s) ∧
      u.result1 = BitVec.ofNat 32 ((feedBits decl s + 7) / 8)

/-- Feeding whole blocks first and the rest with padding equals one padded feed of the whole message. Rules: R329,
R305, R308, R310 (derived). -/
def Obligations.IncrementalFeed : Prop :=
  ∀ (s w : State) (decl : Bool) (n1 n2 l2 : Nat), s.seg.cfg.legal = true → s.seg.finalized = false →
    8 * n1 % s.seg.cfg.blockBits = 0 → s.arg1.toNat = n1 + n2 → l2 ≤ 8 * n2 →
    (decl = true → s.arg2.toNat = 8 * n1 + l2) →
    (∀ k, k < n1 + n2 → Memory.byte? s.dbuf (s.arg0.toNat + k) ≠ none) →
    (s.arg3.toNat + n1 ≤ s.arg0.toNat + n1 ∨ s.arg0.toNat + n1 + n2 ≤ s.arg3.toNat) →
    exec (.segFeed true decl) s = .next w → w.seg.finalized = true →
    ∃ t u, exec (.segFeed false false) { s with arg1 := BitVec.ofNat 32 n1 } = .next t ∧
      exec (.segFeed true decl) { t with
        arg0 := BitVec.ofNat 32 (s.arg0.toNat + n1), arg1 := BitVec.ofNat 32 n2, arg2 := BitVec.ofNat 32 l2,
        arg3 := BitVec.ofNat 32 (s.arg3.toNat + n1) } = .next u ∧
      t.err = s.err ∧ u.err = s.err ∧ u.seg = w.seg ∧
      ∀ x, Memory.byte? u.dbuf x = Memory.byte? w.dbuf x

/-- The configuration, state and source checks of MODE.ENC and MODE.DEC, in their order. Rules: R401, R402, R404
(derived). -/
def Obligations.ModeRefusals : Prop :=
  ∀ (i : Instr) (s : State), (i = .modeEnc ∨ i = .modeDec) →
    (5 ≤ modeField s → ∃ d, exec i s = .next { raised s .config 4#8 with draws := d }) ∧
    (modeField s ≤ 1 → padField s = 7 → ∃ d, exec i s = .next { raised s .config 5#8 with draws := d }) ∧
    (modeField s ≤ 1 → (padField s = 5 ∧ s.primWidth.bits < modeSuffixBits s + 1 ∨
        padField s = 6 ∧ s.primWidth.bits < modeSuffixBits s + 2) →
      ∃ d, exec i s = .next { raised s .config 6#8 with draws := d }) ∧
    (modeConfigOk s → (modeField s = 1 ∨ modeField s = 3) → s.mode.ivValid = false →
      ∃ d, exec i s = .next { raised s .state 1#8 with draws := d }) ∧
    (modeField s = 4 → s.mode.ctrValid = false → ∃ d, exec i s = .next { raised s .state 2#8 with draws := d }) ∧
    (modeConfigOk s → modeStateOk s → 4096 < s.arg0.toNat + s.arg1.toNat →
      ∃ d, exec i s = .next { raised s .address 1#8 with draws := d })

/-- The length and destination checks of MODE.ENC and MODE.DEC. Rules: R403, R404, R405, R408, R410, R411, R435
(derived). -/
def Obligations.ModeLengthRefusals : Prop :=
  ∀ s : State, modeConfigOk s → modeStateOk s → s.arg0.toNat + s.arg1.toNat ≤ 4096 →
    (modeField s ≤ 1 → padField s = 0 → s.arg1.toNat % s.primWidth.bytes ≠ 0 →
      ∃ d, exec .modeEnc s = .next { raised s .sizeMismatch 5#8 with draws := d }) ∧
    (∀ sc, modeField s ≤ 1 → schemeOfCode (s.modeCfg.extractLsb' 4 3) = some sc →
      (sc = .none → s.arg1.toNat % s.primWidth.bytes = 0) →
      4096 < s.arg2.toNat + (paddedMessage (modePadCfg s sc) s.primWidth.bytes (modeMsg s)).length →
      ∃ d, exec .modeEnc s = .next { raised s .address 1#8 with draws := d }) ∧
    (modeField s ≤ 1 → s.arg1.toNat % s.primWidth.bytes ≠ 0 →
      ∃ d, exec .modeDec s = .next { raised s .length 1#8 with draws := d }) ∧
    (modeField s ≤ 1 → s.arg1.toNat % s.primWidth.bytes = 0 → 4096 < s.arg2.toNat + s.arg1.toNat →
      ∃ d, exec .modeDec s = .next { raised s .address 1#8 with draws := d }) ∧
    (∀ i, i = .modeEnc ∨ i = .modeDec →
      ((modeField s = 2 ∨ modeField s = 3) → s.arg1.toNat < s.primWidth.bytes →
        ∃ d, exec i s = .next { raised s .length 2#8 with draws := d }) ∧
      ((modeField s = 2 ∨ modeField s = 3) → s.primWidth.bytes ≤ s.arg1.toNat →
        4096 < s.arg2.toNat + s.arg1.toNat → ∃ d, exec i s = .next { raised s .address 1#8 with draws := d }) ∧
      (modeField s = 4 → 4096 < s.arg2.toNat + s.arg1.toNat →
        ∃ d, exec i s = .next { raised s .address 1#8 with draws := d }))

/-- MODE.ENC in ECB and CBC: the padded blocks encrypted, in CBC chained, forward. Rules: R403, R404, R407, R409,
R442, R613 (derived). -/
def Obligations.EcbAndCbcEncrypt : Prop :=
  ∀ (s : State) (sc : PadScheme) (Q : List Byte) (m : Nat), modeField s ≤ 1 →
    modeConfigOk s → modeStateOk s → s.arg0.toNat + s.arg1.toNat ≤ 4096 → primLive .modeEnc s →
    schemeOfCode (s.modeCfg.extractLsb' 4 3) = some sc → (sc = .none → s.arg1.toNat % s.primWidth.bytes = 0) →
    Q = paddedMessage (modePadCfg s sc) s.primWidth.bytes (modeMsg s) → m = Q.length / s.primWidth.bytes →
    s.arg2.toNat + Q.length ≤ 4096 →
    ∃ (t : State) (C : List Byte) (inp : Nat → List Byte), exec .modeEnc s = .next t ∧
      C.length = Q.length ∧ Q.length = m * s.primWidth.bytes ∧
      (∀ i, i < m → inp i = (if modeField s = 0 then block s.primWidth.bytes Q i
        else xorBytes (block s.primWidth.bytes Q i) (blockBefore s.primWidth.bytes s.mode.chain C i))) ∧
      (∀ i, i < m → block s.primWidth.bytes C i = (attachedPrim s.primWidth).enc (inp i)) ∧
      holds t s.arg2.toNat C ∧ sameOutside s t s.arg2.toNat C.length ∧
      t.port.trace = s.port.trace ∧ callsOf .modeEnc s = (List.range m).map (fun i => encCall (inp i)) ∧ portIdle t ∧
      { t with dbuf := s.dbuf, draws := s.draws, port := s.port } = { s with
        busy := false, done := true,
        result0 := BitVec.ofNat 32 C.length, result1 := BitVec.ofNat 32 m,
        mode := { s.mode with
          chain := if modeField s = 0 then s.mode.chain else blockBefore s.primWidth.bytes s.mode.chain C m,
          lastPad := BitVec.ofNat 32 (8 * Q.length - 8 * s.arg1.toNat) } }

/-- MODE.DEC in ECB and CBC: the blocks decrypted, unchained, and the padding removed. Rules: R404, R405, R406,
R408, R410, R442, R613 (derived). -/
def Obligations.EcbAndCbcDecrypt : Prop :=
  ∀ (s : State) (sc : PadScheme) (m : Nat) (Q : List Byte) (calls : List PrimCall), modeField s ≤ 1 →
    modeConfigOk s → modeStateOk s → s.arg0.toNat + s.arg1.toNat ≤ 4096 → primLive .modeDec s →
    schemeOfCode (s.modeCfg.extractLsb' 4 3) = some sc →
    s.arg1.toNat = m * s.primWidth.bytes → s.arg2.toNat + s.arg1.toNat ≤ 4096 →
    Q = ((List.range m).map (fun i => if modeField s = 0
        then (attachedPrim s.primWidth).dec (block s.primWidth.bytes (modeMsg s) i)
        else xorBytes ((attachedPrim s.primWidth).dec (block s.primWidth.bytes (modeMsg s) i))
          (blockBefore s.primWidth.bytes s.mode.chain (modeMsg s) i))).flatten →
    calls = ((if modeField s = 0 then List.range m else (List.range m).reverse).map
        (fun i => decCall (block s.primWidth.bytes (modeMsg s) i))) →
    callsOf .modeDec s = calls ∧
    (∀ l, unpad (modePadCfg s sc) Q s.mode.lastPad.toNat = .ok l → l % 8 = 0 →
      ∃ t, exec .modeDec s = .next t ∧ holds t s.arg2.toNat (Q.take (l / 8)) ∧
        sameOutside s t s.arg2.toNat (l / 8) ∧ t.port.trace = s.port.trace ∧ portIdle t ∧
        { t with dbuf := s.dbuf, draws := s.draws, port := s.port } = { s with
          busy := false, done := true, result0 := BitVec.ofNat 32 (l / 8), result1 := BitVec.ofNat 32 m,
          mode := { s.mode with
            chain := if modeField s = 0 then s.mode.chain
              else blockBefore s.primWidth.bytes s.mode.chain (modeMsg s) m } }) ∧
    (∀ e, (unpad (modePadCfg s sc) Q s.mode.lastPad.toNat = .error e ∨
        ∃ l, unpad (modePadCfg s sc) Q s.mode.lastPad.toNat = .ok l ∧ l % 8 ≠ 0 ∧
          e = { code := .padding, sub := 6#8 }) →
      ∃ d, exec .modeDec s = .next { raised s e.code e.sub with draws := d })

/-- MODE.ENC with ciphertext stealing, short last block. Rules: R404, R411, R413, R415, R442, R613 (derived). -/
def Obligations.StealingEncrypts : Prop :=
  ∀ (s : State) (m d : Nat), (modeField s = 2 ∨ modeField s = 3) → modeStateOk s →
    s.arg0.toNat + s.arg1.toNat ≤ 4096 → s.arg2.toNat + s.arg1.toNat ≤ 4096 → primLive .modeEnc s →
    2 ≤ m → 0 < d → d < s.primWidth.bytes → s.arg1.toNat = (m - 1) * s.primWidth.bytes + d →
    ∃ (t : State) (C Z full : List Byte) (inp : Nat → List Byte), exec .modeEnc s = .next t ∧
      C.length = (m - 2) * s.primWidth.bytes ∧
      (∀ i, i ≤ m - 2 → inp i = (if modeField s = 2 then block s.primWidth.bytes (modeMsg s) i
        else xorBytes (block s.primWidth.bytes (modeMsg s) i) (blockBefore s.primWidth.bytes s.mode.chain C i))) ∧
      (∀ i, i < m - 2 → block s.primWidth.bytes C i = (attachedPrim s.primWidth).enc (inp i)) ∧
      Z = (attachedPrim s.primWidth).enc (inp (m - 2)) ∧
      inp (m - 1) = (if modeField s = 2 then block s.primWidth.bytes (modeMsg s) (m - 1) ++ Z.drop d
        else xorBytes Z (block s.primWidth.bytes (modeMsg s) (m - 1)
          ++ List.replicate (s.primWidth.bytes - d) 0#8)) ∧
      full = (attachedPrim s.primWidth).enc (inp (m - 1)) ∧
      holds t s.arg2.toNat (C ++ full ++ Z.take d) ∧ (C ++ full ++ Z.take d).length = s.arg1.toNat ∧
      sameOutside s t s.arg2.toNat s.arg1.toNat ∧
      t.port.trace = s.port.trace ∧ callsOf .modeEnc s = (List.range m).map (fun i => encCall (inp i)) ∧ portIdle t ∧
      { t with dbuf := s.dbuf, draws := s.draws, port := s.port } = { s with
        busy := false, done := true, result0 := s.arg1, result1 := BitVec.ofNat 32 m,
        mode := { s.mode with chain := if modeField s = 2 then s.mode.chain else full } }

/-- MODE.DEC with ciphertext stealing, short last block. Rules: R405, R411, R414, R415, R442, R613 (derived). -/
def Obligations.StealingDecrypts : Prop :=
  ∀ (s : State) (m d : Nat) (full short Y rebuilt front : List Byte) (calls : List PrimCall),
    (modeField s = 2 ∨ modeField s = 3) → modeStateOk s → s.mode.chain.length = s.primWidth.bytes →
    s.arg0.toNat + s.arg1.toNat ≤ 4096 → s.arg2.toNat + s.arg1.toNat ≤ 4096 → primLive .modeDec s →
    2 ≤ m → 0 < d → d < s.primWidth.bytes → s.arg1.toNat = (m - 1) * s.primWidth.bytes + d →
    full = block s.primWidth.bytes (modeMsg s) (m - 2) → short = block s.primWidth.bytes (modeMsg s) (m - 1) →
    Y = (attachedPrim s.primWidth).dec full → rebuilt = short ++ Y.drop d →
    front = ((List.range (m - 2)).map (fun i => if modeField s = 2
        then (attachedPrim s.primWidth).dec (block s.primWidth.bytes (modeMsg s) i)
        else xorBytes ((attachedPrim s.primWidth).dec (block s.primWidth.bytes (modeMsg s) i))
          (blockBefore s.primWidth.bytes s.mode.chain (modeMsg s) i))).flatten →
    calls = (if modeField s = 2
      then (List.range (m - 2)).map (fun i => decCall (block s.primWidth.bytes (modeMsg s) i))
        ++ [decCall full, decCall rebuilt]
      else [decCall full, decCall rebuilt]
        ++ (List.range (m - 2)).reverse.map (fun i => decCall (block s.primWidth.bytes (modeMsg s) i))) →
    ∃ (t : State) (P : List Byte), exec .modeDec s = .next t ∧
      P = (if modeField s = 2 then front ++ (attachedPrim s.primWidth).dec rebuilt ++ Y.take d
        else front
          ++ xorBytes ((attachedPrim s.primWidth).dec rebuilt)
            (blockBefore s.primWidth.bytes s.mode.chain (modeMsg s) (m - 2))
          ++ xorBytes (Y.take d) short) ∧
      P.length = s.arg1.toNat ∧ holds t s.arg2.toNat P ∧ sameOutside s t s.arg2.toNat s.arg1.toNat ∧
      t.port.trace = s.port.trace ∧ callsOf .modeDec s = calls ∧ portIdle t ∧
      { t with dbuf := s.dbuf, draws := s.draws, port := s.port } = { s with
        busy := false, done := true, result0 := s.arg1, result1 := BitVec.ofNat 32 m,
        mode := { s.mode with chain := if modeField s = 2 then s.mode.chain else full } }

/-- A CTS command on whole blocks is the unpadded ECB or CBC command. Rules: R411, R415, R401 (derived). -/
def Obligations.StealingOfWholeBlocksIsPlain : Prop :=
  ∀ (i : Instr) (s t : State), (i = .modeEnc ∨ i = .modeDec) → (modeField s = 2 ∨ modeField s = 3) →
    0 < s.arg1.toNat → s.arg1.toNat % s.primWidth.bytes = 0 →
    exec i { s with modeCfg := if modeField s = 2 then 0#32 else 1#32 } = .next t →
    ∃ u, exec i s = .next u ∧ u.mode.lastPad = s.mode.lastPad ∧
      { u with modeCfg := t.modeCfg, mode := { u.mode with lastPad := t.mode.lastPad } } = t

/-- MODE.ENC and MODE.DEC in CTR: the keystream of the counter blocks. Rules: R404, R405, R431, R435, R436, R442,
R613 (derived). -/
def Obligations.CtrEncryptsAndDecrypts : Prop :=
  ∀ (i : Instr) (s : State) (m : Nat) (ctrBlk : Nat → List Byte), (i = .modeEnc ∨ i = .modeDec) →
    modeField s = 4 → s.mode.ctrValid = true → s.mode.ctr < 2 ^ (8 * s.primWidth.halfBytes) →
    s.arg0.toNat + s.arg1.toNat ≤ 4096 → s.arg2.toNat + s.arg1.toNat ≤ 4096 → primLive i s →
    m = (s.arg1.toNat + s.primWidth.bytes - 1) / s.primWidth.bytes →
    (∀ k, ctrBlk k = s.mode.nonce
      ++ beBytes s.primWidth.halfBytes ((s.mode.ctr + k) % 2 ^ (8 * s.primWidth.halfBytes))) →
    ∃ (t : State) (out : List Byte), exec i s = .next t ∧
      out = ((List.range m).map (fun k =>
        xorBytes (block s.primWidth.bytes (modeMsg s) k) ((attachedPrim s.primWidth).enc (ctrBlk k)))).flatten ∧
      out.length = s.arg1.toNat ∧ holds t s.arg2.toNat out ∧ sameOutside s t s.arg2.toNat s.arg1.toNat ∧
      t.port.trace = s.port.trace ∧ callsOf i s = (List.range m).map (fun k => encCall (ctrBlk k)) ∧ portIdle t ∧
      { t with dbuf := s.dbuf, draws := s.draws, port := s.port } = { s with
        busy := false, done := true, result0 := s.arg1, result1 := BitVec.ofNat 32 m,
        mode := { s.mode with ctr := (s.mode.ctr + m) % 2 ^ (8 * s.primWidth.halfBytes) } }

/-- MODE.SETIV and MODE.GETIV. Rules: R425, R426. -/
def Obligations.IvCommands : Prop :=
  ∀ s : State,
    (4096 < s.arg0.toNat + s.arg1.toNat →
      ∃ d, exec .modeSetiv s = .next { raised s .address 1#8 with draws := d }) ∧
    (s.arg0.toNat + s.arg1.toNat ≤ 4096 → s.arg1.toNat ≠ s.primWidth.bytes →
      ∃ d, exec .modeSetiv s = .next { raised s .sizeMismatch 4#8 with draws := d }) ∧
    (s.arg0.toNat + s.arg1.toNat ≤ 4096 → s.arg1.toNat = s.primWidth.bytes →
      ∃ d, exec .modeSetiv s = .next { completed { s with
        mode := { s.mode with chain := s.memRead s.arg0.toNat s.arg1.toNat, ivValid := true } } with draws := d }) ∧
    (4096 < s.arg0.toNat + s.primWidth.bytes → exec .modeGetiv s = .next (raised s .address 1#8)) ∧
    (s.mode.chain.length = s.primWidth.bytes → s.arg0.toNat + s.primWidth.bytes ≤ 4096 →
      ∃ t, exec .modeGetiv s = .next t ∧ holds t s.arg0.toNat s.mode.chain ∧
        sameOutside s t s.arg0.toNat s.primWidth.bytes ∧
        { t with dbuf := s.dbuf } = completed { s with result0 := BitVec.ofNat 32 s.primWidth.bytes })

/-- MODE.SETCTR, MODE.GETCTR and CTR.RESET. Rules: R432, R433, R434. -/
def Obligations.CounterCommands : Prop :=
  ∀ s : State,
    (4096 < s.arg0.toNat + s.arg1.toNat →
      ∃ d, exec .modeSetctr s = .next { raised s .address 1#8 with draws := d }) ∧
    (s.arg0.toNat + s.arg1.toNat ≤ 4096 → s.arg1.toNat ≠ s.primWidth.bytes →
      ∃ d, exec .modeSetctr s = .next { raised s .sizeMismatch 4#8 with draws := d }) ∧
    (s.arg0.toNat + s.arg1.toNat ≤ 4096 → s.arg1.toNat = s.primWidth.bytes →
      ∃ d, exec .modeSetctr s = .next { completed { s with
        mode := { s.mode with
          nonce := s.memRead s.arg0.toNat s.primWidth.halfBytes,
          ctrInit := intBe (s.memRead (s.arg0.toNat + s.primWidth.halfBytes) s.primWidth.halfBytes),
          ctr := intBe (s.memRead (s.arg0.toNat + s.primWidth.halfBytes) s.primWidth.halfBytes),
          ctrValid := true } } with draws := d }) ∧
    (4096 < s.arg0.toNat + s.primWidth.bytes → exec .modeGetctr s = .next (raised s .address 1#8)) ∧
    (s.mode.nonce.length = s.primWidth.halfBytes → s.arg0.toNat + s.primWidth.bytes ≤ 4096 →
      ∃ t, exec .modeGetctr s = .next t ∧ holds t s.arg0.toNat s.mode.nonce ∧
        (∀ k, k < s.primWidth.halfBytes → Memory.byte? t.dbuf (s.arg0.toNat + s.primWidth.halfBytes + k) =
          some (BitVec.ofNat 8 (s.mode.ctr / 256 ^ (s.primWidth.halfBytes - 1 - k)))) ∧
        sameOutside s t s.arg0.toNat s.primWidth.bytes ∧
        { t with dbuf := s.dbuf } = completed { s with result0 := BitVec.ofNat 32 s.primWidth.bytes }) ∧
    exec .ctrReset s = .next (completed { s with mode := { s.mode with ctr := s.mode.ctrInit } })

/-- MODE.DEC of what MODE.ENC wrote gives the message back in ECB and CBC, for an invertible primitive. Rules: R407,
R408, R409, R410, R441, R613 (derived). -/
def Obligations.EcbAndCbcRoundTrip : Prop :=
  ∀ (P : Prim) (s t : State), P.bytes = s.primWidth.bytes → P.blockSized → P.inverse → modeField s ≤ 1 →
    s.mode.chain.length = s.primWidth.bytes → s.err = false →
    s.port.answeredAll (plannedCalls (encPlan P s)) = true → runMode s (encPlan P s) = .next t → t.err = false →
    ∀ (dst : Word) (q : PrimPort) (r : State), dst.toNat + t.result0.toNat ≤ 4096 →
      r = { t with arg0 := s.arg2, arg1 := t.result0, arg2 := dst, port := q,
                   mode := { t.mode with chain := s.mode.chain } } →
      q.answeredAll (plannedCalls (decPlan P r)) = true →
      ∃ u, runMode r (decPlan P r) = .next u ∧ u.err = false ∧ u.busy = false ∧ u.result0 = s.arg1 ∧
        holds u dst.toNat (modeMsg s)

/-- CTS keeps the length, and MODE.DEC undoes MODE.ENC. Rules: R416. -/
def Obligations.StealingLaws : Prop :=
  ∀ (P : Prim) (s : State), P.bytes = s.primWidth.bytes → P.blockSized → P.inverse →
    (modeField s = 2 ∨ modeField s = 3) → modeStateOk s → s.mode.chain.length = s.primWidth.bytes →
    s.primWidth.bytes ≤ s.arg1.toNat →
    s.arg0.toNat + s.arg1.toNat ≤ 4096 → s.arg2.toNat + s.arg1.toNat ≤ 4096 →
    s.port.answeredAll (plannedCalls (encPlan P s)) = true →
    ∃ t, runMode s (encPlan P s) = .next t ∧ t.err = s.err ∧ t.busy = false ∧ t.result0 = s.arg1 ∧
      (∀ k, k < s.arg1.toNat → Memory.byte? t.dbuf (s.arg2.toNat + k) ≠ none) ∧
      sameOutside s t s.arg2.toNat s.arg1.toNat ∧
      ∀ (dst : Word) (q : PrimPort) (r : State), dst.toNat + s.arg1.toNat ≤ 4096 →
        r = { t with arg0 := s.arg2, arg2 := dst, port := q, mode := { t.mode with chain := s.mode.chain } } →
        q.answeredAll (plannedCalls (decPlan P r)) = true →
        ∃ u, runMode r (decPlan P r) = .next u ∧ u.err = s.err ∧ u.busy = false ∧ u.result0 = s.arg1 ∧
          holds u dst.toNat (modeMsg s)

/-- CTR: reproducibility, repeat and prefix, for any primitive. Rules: R437. -/
def Obligations.CounterModeLaws : Prop :=
  (∀ s : State, modeField s = 4 → s.mode.ctrValid = true → s.mode.ctr = s.mode.ctrInit →
    s.arg0.toNat + s.arg1.toNat ≤ 4096 → s.arg2.toNat + s.arg1.toNat ≤ 4096 → primLive .modeEnc s →
    ∃ t r, exec .modeEnc s = .next t ∧ exec .ctrReset t = .next r ∧ t.err = s.err ∧ t.busy = false ∧
      ∀ (dst : Word) (q : PrimPort) (v : State), dst.toNat + s.arg1.toNat ≤ 4096 →
        v = { r with arg0 := s.arg2, arg2 := dst, port := q } → primLive .modeDec v →
        ∃ u, exec .modeDec v = .next u ∧ u.err = s.err ∧ u.busy = false ∧ holds u dst.toNat (modeMsg s)) ∧
  (∀ s s' : State, modeField s = 4 → modeField s' = 4 → s.mode.ctrValid = true → s'.mode.ctrValid = true →
    s.primWidth = s'.primWidth → s.mode.nonce = s'.mode.nonce → s.mode.ctr = s'.mode.ctr →
    s.arg0.toNat + s.arg1.toNat ≤ 4096 → s.arg2.toNat + s.arg1.toNat ≤ 4096 →
    s'.arg0.toNat + s'.arg1.toNat ≤ 4096 → s'.arg2.toNat + s'.arg1.toNat ≤ 4096 →
    primLive .modeEnc s → primLive .modeEnc s' → modeMsg s <+: modeMsg s' →
    ∃ (t t' : State) (C C' : List Byte), exec .modeEnc s = .next t ∧ exec .modeEnc s' = .next t' ∧
      C.length = s.arg1.toNat ∧ C'.length = s'.arg1.toNat ∧ holds t s.arg2.toNat C ∧ holds t' s'.arg2.toNat C' ∧
      C <+: C')

end Statements
end

