-- ==== Sys2Proof/Laws/Bytes.lean ====
section
/-! SUPPORT. The laws of the conversions between integers, byte strings and bit strings: lengths, bits, and which of
them undo each other. -/

namespace Sys2Proof.Machine

/-! Numbers. -/

theorem and_mask (v s : Nat) : v &&& mask s = v % 2 ^ s := by
  rw [mask, Nat.and_two_pow_sub_one_eq_mod]

theorem testBit_mask (s k : Nat) : (mask s).testBit k = decide (k < s) := Nat.testBit_two_pow_sub_one s k

theorem lt_two_pow_bitlen (v : Nat) : v < 2 ^ bitlen v := by
  unfold bitlen
  split
  · simp [*]
  · exact Nat.lt_log2_self

theorem two_pow_le_of_lt_bitlen {v m : Nat} (h : m < bitlen v) : 2 ^ m ≤ v := by
  unfold bitlen at h
  split at h
  · omega
  · rename_i hne
    exact (Nat.pow_le_pow_right (by norm_num) (by omega : m ≤ Nat.log2 v)).trans (Nat.log2_self_le hne)

/-- Bit `j` of a number set to `x`: that bit is `x`, every other bit stays. -/
theorem testBit_setBit (v j : Nat) (x : Bool) (k : Nat) :
    (setBit v j x).testBit k = if k = j then x else v.testBit k := by
  unfold setBit
  by_cases h : k = j
  · subst h
    cases x <;> simp [Nat.testBit_or, Nat.testBit_xor]
  · cases x <;> simp [Nat.testBit_or, Nat.testBit_xor, h, Ne.symm h]

/-! Bits. -/

theorem natOfBits_lt : ∀ l : List Bool, natOfBits l < 2 ^ l.length
  | [] => by simp [natOfBits]
  | b :: bs => by
    have h := natOfBits_lt bs
    have hb : b.toNat ≤ 1 := Bool.toNat_le b
    simp only [natOfBits, List.length_cons, pow_succ]
    omega

/-- Bit `k` of the number a list of bits stands for is its element `k`. -/
theorem testBit_natOfBits : ∀ (l : List Bool) (k : Nat), (natOfBits l).testBit k = l.getD k false
  | [], k => by simp [natOfBits]
  | b :: bs, 0 => by cases b <;> simp [natOfBits, Nat.testBit_zero, Nat.add_mod]
  | b :: bs, k + 1 => by
    have h : (b.toNat + 2 * natOfBits bs) / 2 = natOfBits bs := by
      have := Bool.toNat_le b
      omega
    rw [natOfBits, Nat.testBit_succ, h, testBit_natOfBits bs k]
    simp

@[simp] theorem length_bitsOfNat (v n : Nat) : (bitsOfNat v n).length = n := by simp [bitsOfNat]

@[simp] theorem length_byteBits (b : Byte) : (byteBits b).length = 8 := by simp [byteBits]

@[simp] theorem length_streamBits : ∀ b : List Byte, (streamBits b).length = 8 * b.length
  | [] => rfl
  | b :: bs => by
    have := length_streamBits bs
    simp only [streamBits, List.flatMap_cons, List.length_append, List.length_cons, length_byteBits] at this ⊢
    omega

@[simp] theorem streamBits_nil : streamBits [] = [] := rfl

@[simp] theorem streamBits_cons (b : Byte) (bs : List Byte) : streamBits (b :: bs) = byteBits b ++ streamBits bs := rfl

theorem streamBits_append (a b : List Byte) : streamBits (a ++ b) = streamBits a ++ streamBits b := by
  simp [streamBits]

theorem getElem_byteBits (b : Byte) (j : Nat) (h : j < (byteBits b).length) : (byteBits b)[j] = b.getLsbD (7 - j) := by
  simp [byteBits]

/-- Stream bit `j` is bit `7 - j % 8` of byte `j / 8`. -/
theorem getD_streamBits : ∀ (b : List Byte) (j : Nat), j < 8 * b.length →
    (streamBits b).getD j false = (b.getD (j / 8) 0#8).getLsbD (7 - j % 8)
  | [], j, h => by simp at h
  | b :: bs, j, h => by
    rw [streamBits_cons]
    by_cases hj : j < 8
    · rw [List.getD_append _ _ _ _ (by simpa using hj)]
      rw [List.getD_eq_getElem _ _ (by simpa using hj), getElem_byteBits]
      simp [Nat.div_eq_of_lt hj, Nat.mod_eq_of_lt hj]
    · rw [List.getD_append_right _ _ _ _ (by simp; omega)]
      simp only [length_byteBits]
      rw [getD_streamBits bs (j - 8) (by simp at h; omega)]
      have h1 : j / 8 = (j - 8) / 8 + 1 := by omega
      have h2 : j % 8 = (j - 8) % 8 := by omega
      rw [h1, h2]; simp

theorem byteOfBits_byteBits (b : Byte) : byteOfBits (byteBits b) = b := by
  revert b; decide +kernel

theorem byteBits_byteOfBits {s : List Bool} (h : s.length = 8) : byteBits (byteOfBits s) = s := by
  match s, h with
  | [a, b, c, d, e, f, g, i], _ => revert a b c d e f g i; decide +kernel

@[simp] theorem length_packBits (s : List Bool) : (packBits s).length = (s.length + 7) / 8 := by
  simp [packBits, ceilDiv]

@[simp] theorem packBits_nil : packBits [] = [] := rfl

/-- The first byte of a bit string of at least eight bits. -/
theorem packBits_append_of_length_eq {s : List Bool} (h : s.length = 8) (t : List Bool) :
    packBits (s ++ t) = byteOfBits s :: packBits t := by
  have hl : ceilDiv (s ++ t).length 8 = ceilDiv t.length 8 + 1 := by
    simp only [ceilDiv, List.length_append, h]; omega
  unfold packBits
  rw [hl, List.range_succ_eq_map, List.map_cons, List.map_map]
  congr 1
  · rw [Nat.mul_zero, List.drop_zero, ← h, List.take_left]
  · apply List.map_congr_left
    intro i _
    simp only [Function.comp]
    rw [show 8 * (i + 1) = s.length + 8 * i by omega, List.drop_append,
      List.drop_eq_nil_of_le (Nat.le_add_right _ _), List.nil_append, Nat.add_sub_cancel_left]

/-- `bytes(bits(b)) = b` (00_scope R15). -/
@[simp] theorem packBits_streamBits : ∀ b : List Byte, packBits (streamBits b) = b
  | [] => rfl
  | b :: bs => by
    rw [streamBits_cons, packBits_append_of_length_eq (length_byteBits b), byteOfBits_byteBits,
      packBits_streamBits bs]

/-- A bit string of whole bytes comes back from its bytes. -/
theorem streamBits_packBits : ∀ (n : Nat) {s : List Bool}, s.length = 8 * n → streamBits (packBits s) = s
  | 0, s, h => by
    have : s = [] := List.length_eq_zero_iff.mp (by omega)
    subst this; rfl
  | n + 1, s, h => by
    have h1 : (s.take 8).length = 8 := by simp; omega
    have h2 : (s.drop 8).length = 8 * n := by simp; omega
    conv_lhs => rw [← List.take_append_drop 8 s]
    rw [packBits_append_of_length_eq h1, streamBits_cons, byteBits_byteOfBits h1, streamBits_packBits n h2,
      List.take_append_drop]

/-- The bytes of whole bytes followed by more bits. -/
theorem packBits_append : ∀ (n : Nat) {s : List Bool} (t : List Bool), s.length = 8 * n →
    packBits (s ++ t) = packBits s ++ packBits t
  | 0, s, t, h => by
    have : s = [] := List.length_eq_zero_iff.mp (by omega)
    subst this; rfl
  | n + 1, s, t, h => by
    have h1 : (s.take 8).length = 8 := by simp; omega
    have h2 : (s.drop 8).length = 8 * n := by simp; omega
    conv_lhs => rw [← List.take_append_drop 8 s]
    conv_rhs => rw [← List.take_append_drop 8 s]
    rw [List.append_assoc, packBits_append_of_length_eq h1, packBits_append n t h2,
      packBits_append_of_length_eq h1, List.cons_append]

/-! Byte strings as integers. -/

theorem intLe_lt : ∀ b : List Byte, intLe b < 2 ^ (8 * b.length)
  | [] => by simp [intLe]
  | b :: bs => by
    have h := intLe_lt bs
    have hb : b.toNat < 256 := b.isLt
    simp only [intLe, List.length_cons, Nat.mul_add, Nat.mul_one, pow_add]
    norm_num at *
    omega

theorem testBit_intLe : ∀ (b : List Byte) (j : Nat), (intLe b).testBit j = (b.getD (j / 8) 0#8).getLsbD (j % 8)
  | [], j => by simp [intLe]
  | b :: bs, j => by
    have hb : b.toNat < 2 ^ 8 := b.isLt
    rw [intLe, show b.toNat + 256 * intLe bs = 2 ^ 8 * intLe bs + b.toNat by ring,
      Nat.testBit_two_pow_mul_add _ hb]
    by_cases hj : j < 8
    · simp [hj, Nat.div_eq_of_lt hj, Nat.mod_eq_of_lt hj, BitVec.getLsbD]
    · have h1 : j / 8 = (j - 8) / 8 + 1 := by omega
      have h2 : j % 8 = (j - 8) % 8 := by omega
      rw [if_neg hj, testBit_intLe bs, h1, h2]; simp

theorem intBe_lt (b : List Byte) : intBe b < 2 ^ (8 * b.length) := by
  have := intLe_lt b.reverse
  simpa [intBe] using this

@[simp] theorem length_leBytes (k v : Nat) : (leBytes k v).length = k := by simp [leBytes]

@[simp] theorem length_beBytes (k v : Nat) : (beBytes k v).length = k := by simp [beBytes]

theorem getElem_leBytes (k v i : Nat) (h : i < (leBytes k v).length) :
    (leBytes k v)[i] = BitVec.ofNat 8 (v >>> (8 * i)) := by
  simp [leBytes]

theorem getElem_beBytes (k v i : Nat) (h : i < (beBytes k v).length) :
    (beBytes k v)[i] = BitVec.ofNat 8 (v >>> (8 * (k - 1 - i))) := by
  have hk : i < k := by simpa using h
  simp only [beBytes]
  rw [List.getElem_reverse]
  simp [leBytes]

/-- `le_k(int_le(b)) = b` (00_scope R16). -/
theorem leBytes_intLe (b : List Byte) : leBytes b.length (intLe b) = b := by
  apply List.ext_getElem
  · simp
  · intro i h1 h2
    rw [getElem_leBytes]
    apply BitVec.eq_of_getLsbD_eq
    intro j hj
    rw [BitVec.getLsbD_ofNat, Nat.testBit_shiftRight, testBit_intLe]
    have h3 : (8 * i + j) / 8 = i := by omega
    have h4 : (8 * i + j) % 8 = j := by omega
    rw [h3, h4, List.getD_eq_getElem _ _ h2]
    simp [hj]

/-- `be_k(int_be(b)) = b` (00_scope R16). -/
theorem beBytes_intBe (b : List Byte) : beBytes b.length (intBe b) = b := by
  have h := leBytes_intLe b.reverse
  rw [List.length_reverse] at h
  rw [beBytes, intBe, h, List.reverse_reverse]

theorem testBit_intLe_leBytes (k v j : Nat) : (intLe (leBytes k v)).testBit j = (decide (j < 8 * k) && v.testBit j) := by
  rw [testBit_intLe]
  by_cases h : j < 8 * k
  · have h1 : j / 8 < (leBytes k v).length := by simp; omega
    rw [List.getD_eq_getElem _ _ h1, getElem_leBytes, BitVec.getLsbD_ofNat, Nat.testBit_shiftRight,
      show 8 * (j / 8) + j % 8 = j by omega]
    simp [h, Nat.mod_lt]
  · have h1 : (leBytes k v).length ≤ j / 8 := by simp; omega
    rw [List.getD_eq_default _ _ h1]
    simp [h]

/-- `int_le(le_k(v)) = v mod 256^k` (00_scope R16). -/
theorem intLe_leBytes (k v : Nat) : intLe (leBytes k v) = v % 2 ^ (8 * k) := by
  apply Nat.eq_of_testBit_eq
  intro j
  rw [testBit_intLe_leBytes, Nat.testBit_mod_two_pow]

/-- `int_be(be_k(v)) = v mod 256^k` (00_scope R16). -/
theorem intBe_beBytes (k v : Nat) : intBe (beBytes k v) = v % 2 ^ (8 * k) := by
  rw [intBe, beBytes, List.reverse_reverse, intLe_leBytes]

/-! Blocks. -/

theorem xorBytes_length (a b : List Byte) : (xorBytes a b).length = min a.length b.length := by simp [xorBytes]

/-- Exclusive or with the same string twice gives the first string back, as far as both reach. -/
theorem xorBytes_xorBytes : ∀ (a b : List Byte), a.length ≤ b.length → xorBytes (xorBytes a b) b = a
  | [], b, _ => by simp [xorBytes]
  | x :: xs, [], h => by simp at h
  | x :: xs, y :: ys, h => by
    have ih := xorBytes_xorBytes xs ys (by simpa using h)
    simp only [xorBytes, List.zipWith_cons_cons] at ih ⊢
    rw [ih, BitVec.xor_assoc, BitVec.xor_self, BitVec.xor_zero]

theorem length_blocksOf (B : Nat) (x : List Byte) : (blocksOf B x).length = ceilDiv x.length B := by simp [blocksOf]

theorem getElem_blocksOf (B : Nat) (x : List Byte) (i : Nat) (h : i < (blocksOf B x).length) :
    (blocksOf B x)[i] = (x.drop (i * B)).take B := by
  simp [blocksOf]

/-- A string of whole blocks, cut and joined again. -/
theorem blocksOf_append {B : Nat} (hB : 0 < B) {p : List Byte} (hp : p.length = B) (x : List Byte) :
    blocksOf B (p ++ x) = p :: blocksOf B x := by
  have hl : ceilDiv (p ++ x).length B = ceilDiv x.length B + 1 := by
    simp only [ceilDiv, List.length_append, hp]
    rw [show B + x.length + B - 1 = (x.length + B - 1) + B by omega, Nat.add_div_right _ hB]
  unfold blocksOf
  rw [hl, List.range_succ_eq_map, List.map_cons, List.map_map]
  congr 1
  · rw [Nat.zero_mul, List.drop_zero, ← hp, List.take_left]
  · apply List.map_congr_left
    intro i _
    simp only [Function.comp]
    rw [show (i + 1) * B = p.length + i * B by rw [hp]; ring, List.drop_append,
      List.drop_eq_nil_of_le (Nat.le_add_right _ _), List.nil_append, Nat.add_sub_cancel_left]

end Sys2Proof.Machine
end

