-- ==== Sys2Proof/Laws/Memory.lean ====
section
/-! SUPPORT. The laws of `DBUF` as a list of written bytes: a read after a write, and that every operation keeps the
canonical form. -/

namespace Sys2Proof.Machine

theorem Memory.risesFrom_mono {lo lo' : Nat} (h : lo' ≤ lo) :
    ∀ {m : Memory}, Memory.risesFrom lo m = true → Memory.risesFrom lo' m = true
  | [], _ => rfl
  | (a, b) :: m, hm => by
    simp only [Memory.risesFrom, Bool.and_eq_true, decide_eq_true_eq] at hm ⊢
    exact ⟨h.trans hm.1, hm.2⟩

theorem Memory.byte?_eq_none_of_risesFrom {lo a : Nat} (h : a < lo) :
    ∀ {m : Memory}, Memory.risesFrom lo m = true → Memory.byte? m a = none
  | [], _ => rfl
  | (k, b) :: m, hm => by
    simp only [Memory.risesFrom, Bool.and_eq_true, decide_eq_true_eq] at hm
    have hne : a ≠ k := by omega
    simp only [Memory.byte?, hne, if_false]
    exact Memory.byte?_eq_none_of_risesFrom (lo := k + 1) (by omega) hm.2

/-- A read after a write of one byte, on any list: the written address reads the byte, every other address as before. -/
theorem Memory.byte?_setByte (a : Nat) (b : Byte) (a' : Nat) :
    ∀ m : Memory, Memory.byte? (Memory.setByte m a b) a' = if a' = a then some b else Memory.byte? m a'
  | [] => by simp [Memory.setByte, Memory.byte?]
  | (k, c) :: m => by
    by_cases h1 : a < k
    · by_cases h3 : a' = a <;> simp [Memory.setByte, Memory.byte?, h1, h3]
    · by_cases h2 : a = k
      · subst h2
        by_cases h3 : a' = a <;> simp [Memory.setByte, Memory.byte?, h3]
      · by_cases h3 : a' = k
        · subst h3
          simp [Memory.setByte, Memory.byte?, h1, h2, Ne.symm h2]
        · simp [Memory.setByte, Memory.byte?, h1, h2, h3, Memory.byte?_setByte a b a' m]

theorem Memory.risesFrom_setByte {lo a : Nat} (h : lo ≤ a) (b : Byte) :
    ∀ {m : Memory}, Memory.risesFrom lo m = true → ∀ {lo' : Nat}, lo' ≤ lo →
      Memory.risesFrom lo' (Memory.setByte m a b) = true
  | [], _, lo', hlo => by
    simp only [Memory.setByte, Memory.risesFrom, Bool.and_true, decide_eq_true_eq]
    exact hlo.trans h
  | (k, c) :: m, hm, lo', hlo => by
    simp only [Memory.risesFrom, Bool.and_eq_true, decide_eq_true_eq] at hm
    obtain ⟨hk, hm⟩ := hm
    simp only [Memory.setByte]
    split_ifs with h1 h2
    · simp only [Memory.risesFrom, Bool.and_eq_true, decide_eq_true_eq]
      exact ⟨hlo.trans h, h1, hm⟩
    · subst h2
      simp only [Memory.risesFrom, Bool.and_eq_true, decide_eq_true_eq]
      exact ⟨hlo.trans h, hm⟩
    · simp only [Memory.risesFrom, Bool.and_eq_true, decide_eq_true_eq]
      exact ⟨hlo.trans hk, Memory.risesFrom_setByte (by omega) b hm (Nat.le_refl _)⟩

theorem Memory.mem_setByte {a : Nat} {b : Byte} :
    ∀ {m : Memory} {c : Host.Cell}, c ∈ Memory.setByte m a b → c = (a, b) ∨ c ∈ m
  | [], c, h => by simpa [Memory.setByte] using h
  | (k, d) :: m, c, h => by
    simp only [Memory.setByte] at h
    split_ifs at h with h1 h2
    · simpa using h
    · rcases List.mem_cons.mp h with h | h
      · exact .inl h
      · exact .inr (List.mem_cons_of_mem _ h)
    · rcases List.mem_cons.mp h with h | h
      · exact .inr (h ▸ List.mem_cons_self)
      · rcases Memory.mem_setByte h with h | h
        · exact .inl h
        · exact .inr (List.mem_cons_of_mem _ h)

theorem Memory.wf_iff {m : Memory} :
    Memory.wf m = true ↔ Memory.risesFrom 0 m = true ∧ ∀ c ∈ m, c.1 < Config.dbufBytes := by
  simp [Memory.wf, Bool.and_eq_true, List.all_eq_true]

/-- A write of one byte inside `DBUF` keeps the canonical form. -/
theorem Memory.wf_setByte {m : Memory} (hm : Memory.wf m = true) {a : Nat} (ha : a < Config.dbufBytes) (b : Byte) :
    Memory.wf (Memory.setByte m a b) = true := by
  rw [Memory.wf_iff] at hm ⊢
  refine ⟨Memory.risesFrom_setByte (Nat.zero_le a) b hm.1 (Nat.le_refl 0), fun c hc => ?_⟩
  rcases Memory.mem_setByte hc with rfl | hc
  · exact ha
  · exact hm.2 c hc

/-- A write of a byte string in range keeps the canonical form. -/
theorem Memory.wf_setBytes : ∀ (bs : List Byte) {m : Memory} {a : Nat},
    Memory.wf m = true → inRange a bs.length = true → Memory.wf (Memory.setBytes m a bs) = true
  | [], _, _, hm, _ => hm
  | b :: bs, m, a, hm, hr => by
    simp only [inRange, List.length_cons, decide_eq_true_eq] at hr
    refine Memory.wf_setBytes bs (Memory.wf_setByte hm (by omega) b) ?_
    simp only [inRange, decide_eq_true_eq]
    omega

/-- A read after a write of a byte string: byte `i` of it at `a + i`, every other address as before. -/
theorem Memory.byte?_setBytes : ∀ (bs : List Byte) (m : Memory) (a a' : Nat),
    Memory.byte? (Memory.setBytes m a bs) a' =
      if a ≤ a' then (if h : a' - a < bs.length then some bs[a' - a] else Memory.byte? m a') else Memory.byte? m a'
  | [], m, a, a' => by simp [Memory.setBytes]
  | b :: bs, m, a, a' => by
    rw [Memory.setBytes, Memory.byte?_setBytes bs, Memory.byte?_setByte]
    by_cases h1 : a' = a
    · subst h1; simp [show ¬ a' + 1 ≤ a' by omega]
    · by_cases h2 : a ≤ a'
      · have h3 : a + 1 ≤ a' := by omega
        have h4 : a' - a = (a' - (a + 1)) + 1 := by omega
        simp only [h2, h3, if_true, h1, if_false, h4, List.length_cons, Nat.add_lt_add_iff_right,
          List.getElem_cons_succ]
      · simp [h2, h1, show ¬ a + 1 ≤ a' by omega]

/-- Outside the written range every address reads as before. -/
theorem Memory.byte?_setBytes_of_not_mem {bs : List Byte} {m : Memory} {a a' : Nat}
    (h : a' < a ∨ a + bs.length ≤ a') : Memory.byte? (Memory.setBytes m a bs) a' = Memory.byte? m a' := by
  rw [Memory.byte?_setBytes]
  split_ifs with h1 h2
  · omega
  · rfl
  · rfl

/-- Inside the written range an address reads its byte. -/
theorem Memory.byte?_setBytes_of_mem {bs : List Byte} {m : Memory} {a i : Nat} (h : i < bs.length) :
    Memory.byte? (Memory.setBytes m a bs) (a + i) = some bs[i] := by
  rw [Memory.byte?_setBytes]
  simp [h]

@[simp] theorem Memory.length_bytes (m : Memory) (draw a n : Nat) : (Memory.bytes m draw a n).length = n := by
  simp [Memory.bytes]

@[simp] theorem Memory.getElem_bytes (m : Memory) (draw a n i : Nat) (h : i < (Memory.bytes m draw a n).length) :
    (Memory.bytes m draw a n)[i] = Memory.byteOr m draw (a + i) := by
  simp [Memory.bytes]

theorem Memory.byteOr_of_byte? {m : Memory} {draw a : Nat} {b : Byte} (h : Memory.byte? m a = some b) :
    Memory.byteOr m draw a = b := by
  simp [Memory.byteOr, h]

/-- A byte string reads back as it was written, whatever the draw. -/
theorem Memory.bytes_setBytes (m : Memory) (draw a : Nat) (bs : List Byte) :
    Memory.bytes (Memory.setBytes m a bs) draw a bs.length = bs := by
  apply List.ext_getElem
  · simp
  · intro i h1 h2
    rw [Memory.getElem_bytes]
    exact Memory.byteOr_of_byte? (Memory.byte?_setBytes_of_mem h2)

theorem Memory.risesFrom_filter (p : Host.Cell → Bool) :
    ∀ {lo : Nat} {m : Memory}, Memory.risesFrom lo m = true → Memory.risesFrom lo (m.filter p) = true
  | _, [], _ => rfl
  | lo, (a, b) :: m, hm => by
    simp only [Memory.risesFrom, Bool.and_eq_true, decide_eq_true_eq] at hm
    rw [List.filter_cons]
    split_ifs
    · simp only [Memory.risesFrom, Bool.and_eq_true, decide_eq_true_eq]
      exact ⟨hm.1, Memory.risesFrom_filter p hm.2⟩
    · exact Memory.risesFrom_mono (by omega) (Memory.risesFrom_filter p hm.2)

/-- What a soft reset does to `DBUF` keeps the canonical form. -/
theorem Memory.wf_scramble {m : Memory} (hm : Memory.wf m = true) (draw a n : Nat) :
    Memory.wf (Memory.scramble m draw a n) = true := by
  rw [Memory.wf_iff] at hm ⊢
  exact ⟨Memory.risesFrom_filter _ hm.1, fun c hc => hm.2 c (List.mem_of_mem_filter hc)⟩

end Sys2Proof.Machine
end

