-- ==== Sys2Proof/Laws/State.lean ====
section
/-! SUPPORT. One lemma per field per update of State, each true by computation, so that no proof unfolds a record
update. Written by a script from the fields of State and the updates of Machine/Ops.lean, Flags.lean and Engine.lean. -/

namespace Sys2Proof.Machine

variable (s : State)

@[simp] theorem State.setV_v (r : VReg) (x : BvReg) : (s.setV r x).v = s.v.set r x := rfl
@[simp] theorem State.setV_arg0 (r : VReg) (x : BvReg) : (s.setV r x).arg0 = s.arg0 := rfl
@[simp] theorem State.setV_arg1 (r : VReg) (x : BvReg) : (s.setV r x).arg1 = s.arg1 := rfl
@[simp] theorem State.setV_arg2 (r : VReg) (x : BvReg) : (s.setV r x).arg2 = s.arg2 := rfl
@[simp] theorem State.setV_arg3 (r : VReg) (x : BvReg) : (s.setV r x).arg3 = s.arg3 := rfl
@[simp] theorem State.setV_result0 (r : VReg) (x : BvReg) : (s.setV r x).result0 = s.result0 := rfl
@[simp] theorem State.setV_result1 (r : VReg) (x : BvReg) : (s.setV r x).result1 = s.result1 := rfl
@[simp] theorem State.setV_ie (r : VReg) (x : BvReg) : (s.setV r x).ie = s.ie := rfl
@[simp] theorem State.setV_busy (r : VReg) (x : BvReg) : (s.setV r x).busy = s.busy := rfl
@[simp] theorem State.setV_done (r : VReg) (x : BvReg) : (s.setV r x).done = s.done := rfl
@[simp] theorem State.setV_err (r : VReg) (x : BvReg) : (s.setV r x).err = s.err := rfl
@[simp] theorem State.setV_ovr (r : VReg) (x : BvReg) : (s.setV r x).ovr = s.ovr := rfl
@[simp] theorem State.setV_accErr (r : VReg) (x : BvReg) : (s.setV r x).accErr = s.accErr := rfl
@[simp] theorem State.setV_errCode (r : VReg) (x : BvReg) : (s.setV r x).errCode = s.errCode := rfl
@[simp] theorem State.setV_errSub (r : VReg) (x : BvReg) : (s.setV r x).errSub = s.errSub := rfl
@[simp] theorem State.setV_errChk (r : VReg) (x : BvReg) : (s.setV r x).errChk = s.errChk := rfl
@[simp] theorem State.setV_cmd (r : VReg) (x : BvReg) : (s.setV r x).cmd = s.cmd := rfl
@[simp] theorem State.setV_segCfg (r : VReg) (x : BvReg) : (s.setV r x).segCfg = s.segCfg := rfl
@[simp] theorem State.setV_segBlkBits (r : VReg) (x : BvReg) : (s.setV r x).segBlkBits = s.segBlkBits := rfl
@[simp] theorem State.setV_modeCfg (r : VReg) (x : BvReg) : (s.setV r x).modeCfg = s.modeCfg := rfl
@[simp] theorem State.setV_primWidth (r : VReg) (x : BvReg) : (s.setV r x).primWidth = s.primWidth := rfl
@[simp] theorem State.setV_seg (r : VReg) (x : BvReg) : (s.setV r x).seg = s.seg := rfl
@[simp] theorem State.setV_mode (r : VReg) (x : BvReg) : (s.setV r x).mode = s.mode := rfl
@[simp] theorem State.setV_dbuf (r : VReg) (x : BvReg) : (s.setV r x).dbuf = s.dbuf := rfl
@[simp] theorem State.setV_port (r : VReg) (x : BvReg) : (s.setV r x).port = s.port := rfl
@[simp] theorem State.setV_agenda (r : VReg) (x : BvReg) : (s.setV r x).agenda = s.agenda := rfl
@[simp] theorem State.setV_rdata (r : VReg) (x : BvReg) : (s.setV r x).rdata = s.rdata := rfl
@[simp] theorem State.setV_draws (r : VReg) (x : BvReg) : (s.setV r x).draws = s.draws := rfl

@[simp] theorem State.setResult0_v (n : Nat) : (s.setResult0 n).v = s.v := rfl
@[simp] theorem State.setResult0_arg0 (n : Nat) : (s.setResult0 n).arg0 = s.arg0 := rfl
@[simp] theorem State.setResult0_arg1 (n : Nat) : (s.setResult0 n).arg1 = s.arg1 := rfl
@[simp] theorem State.setResult0_arg2 (n : Nat) : (s.setResult0 n).arg2 = s.arg2 := rfl
@[simp] theorem State.setResult0_arg3 (n : Nat) : (s.setResult0 n).arg3 = s.arg3 := rfl
@[simp] theorem State.setResult0_result0 (n : Nat) : (s.setResult0 n).result0 = BitVec.ofNat 32 n := rfl
@[simp] theorem State.setResult0_result1 (n : Nat) : (s.setResult0 n).result1 = s.result1 := rfl
@[simp] theorem State.setResult0_ie (n : Nat) : (s.setResult0 n).ie = s.ie := rfl
@[simp] theorem State.setResult0_busy (n : Nat) : (s.setResult0 n).busy = s.busy := rfl
@[simp] theorem State.setResult0_done (n : Nat) : (s.setResult0 n).done = s.done := rfl
@[simp] theorem State.setResult0_err (n : Nat) : (s.setResult0 n).err = s.err := rfl
@[simp] theorem State.setResult0_ovr (n : Nat) : (s.setResult0 n).ovr = s.ovr := rfl
@[simp] theorem State.setResult0_accErr (n : Nat) : (s.setResult0 n).accErr = s.accErr := rfl
@[simp] theorem State.setResult0_errCode (n : Nat) : (s.setResult0 n).errCode = s.errCode := rfl
@[simp] theorem State.setResult0_errSub (n : Nat) : (s.setResult0 n).errSub = s.errSub := rfl
@[simp] theorem State.setResult0_errChk (n : Nat) : (s.setResult0 n).errChk = s.errChk := rfl
@[simp] theorem State.setResult0_cmd (n : Nat) : (s.setResult0 n).cmd = s.cmd := rfl
@[simp] theorem State.setResult0_segCfg (n : Nat) : (s.setResult0 n).segCfg = s.segCfg := rfl
@[simp] theorem State.setResult0_segBlkBits (n : Nat) : (s.setResult0 n).segBlkBits = s.segBlkBits := rfl
@[simp] theorem State.setResult0_modeCfg (n : Nat) : (s.setResult0 n).modeCfg = s.modeCfg := rfl
@[simp] theorem State.setResult0_primWidth (n : Nat) : (s.setResult0 n).primWidth = s.primWidth := rfl
@[simp] theorem State.setResult0_seg (n : Nat) : (s.setResult0 n).seg = s.seg := rfl
@[simp] theorem State.setResult0_mode (n : Nat) : (s.setResult0 n).mode = s.mode := rfl
@[simp] theorem State.setResult0_dbuf (n : Nat) : (s.setResult0 n).dbuf = s.dbuf := rfl
@[simp] theorem State.setResult0_port (n : Nat) : (s.setResult0 n).port = s.port := rfl
@[simp] theorem State.setResult0_agenda (n : Nat) : (s.setResult0 n).agenda = s.agenda := rfl
@[simp] theorem State.setResult0_rdata (n : Nat) : (s.setResult0 n).rdata = s.rdata := rfl
@[simp] theorem State.setResult0_draws (n : Nat) : (s.setResult0 n).draws = s.draws := rfl

@[simp] theorem State.setResult1_v (n : Nat) : (s.setResult1 n).v = s.v := rfl
@[simp] theorem State.setResult1_arg0 (n : Nat) : (s.setResult1 n).arg0 = s.arg0 := rfl
@[simp] theorem State.setResult1_arg1 (n : Nat) : (s.setResult1 n).arg1 = s.arg1 := rfl
@[simp] theorem State.setResult1_arg2 (n : Nat) : (s.setResult1 n).arg2 = s.arg2 := rfl
@[simp] theorem State.setResult1_arg3 (n : Nat) : (s.setResult1 n).arg3 = s.arg3 := rfl
@[simp] theorem State.setResult1_result0 (n : Nat) : (s.setResult1 n).result0 = s.result0 := rfl
@[simp] theorem State.setResult1_result1 (n : Nat) : (s.setResult1 n).result1 = BitVec.ofNat 32 n := rfl
@[simp] theorem State.setResult1_ie (n : Nat) : (s.setResult1 n).ie = s.ie := rfl
@[simp] theorem State.setResult1_busy (n : Nat) : (s.setResult1 n).busy = s.busy := rfl
@[simp] theorem State.setResult1_done (n : Nat) : (s.setResult1 n).done = s.done := rfl
@[simp] theorem State.setResult1_err (n : Nat) : (s.setResult1 n).err = s.err := rfl
@[simp] theorem State.setResult1_ovr (n : Nat) : (s.setResult1 n).ovr = s.ovr := rfl
@[simp] theorem State.setResult1_accErr (n : Nat) : (s.setResult1 n).accErr = s.accErr := rfl
@[simp] theorem State.setResult1_errCode (n : Nat) : (s.setResult1 n).errCode = s.errCode := rfl
@[simp] theorem State.setResult1_errSub (n : Nat) : (s.setResult1 n).errSub = s.errSub := rfl
@[simp] theorem State.setResult1_errChk (n : Nat) : (s.setResult1 n).errChk = s.errChk := rfl
@[simp] theorem State.setResult1_cmd (n : Nat) : (s.setResult1 n).cmd = s.cmd := rfl
@[simp] theorem State.setResult1_segCfg (n : Nat) : (s.setResult1 n).segCfg = s.segCfg := rfl
@[simp] theorem State.setResult1_segBlkBits (n : Nat) : (s.setResult1 n).segBlkBits = s.segBlkBits := rfl
@[simp] theorem State.setResult1_modeCfg (n : Nat) : (s.setResult1 n).modeCfg = s.modeCfg := rfl
@[simp] theorem State.setResult1_primWidth (n : Nat) : (s.setResult1 n).primWidth = s.primWidth := rfl
@[simp] theorem State.setResult1_seg (n : Nat) : (s.setResult1 n).seg = s.seg := rfl
@[simp] theorem State.setResult1_mode (n : Nat) : (s.setResult1 n).mode = s.mode := rfl
@[simp] theorem State.setResult1_dbuf (n : Nat) : (s.setResult1 n).dbuf = s.dbuf := rfl
@[simp] theorem State.setResult1_port (n : Nat) : (s.setResult1 n).port = s.port := rfl
@[simp] theorem State.setResult1_agenda (n : Nat) : (s.setResult1 n).agenda = s.agenda := rfl
@[simp] theorem State.setResult1_rdata (n : Nat) : (s.setResult1 n).rdata = s.rdata := rfl
@[simp] theorem State.setResult1_draws (n : Nat) : (s.setResult1 n).draws = s.draws := rfl

@[simp] theorem State.memWrite_v (a : Nat) (b : List Byte) : (s.memWrite a b).v = s.v := rfl
@[simp] theorem State.memWrite_arg0 (a : Nat) (b : List Byte) : (s.memWrite a b).arg0 = s.arg0 := rfl
@[simp] theorem State.memWrite_arg1 (a : Nat) (b : List Byte) : (s.memWrite a b).arg1 = s.arg1 := rfl
@[simp] theorem State.memWrite_arg2 (a : Nat) (b : List Byte) : (s.memWrite a b).arg2 = s.arg2 := rfl
@[simp] theorem State.memWrite_arg3 (a : Nat) (b : List Byte) : (s.memWrite a b).arg3 = s.arg3 := rfl
@[simp] theorem State.memWrite_result0 (a : Nat) (b : List Byte) : (s.memWrite a b).result0 = s.result0 := rfl
@[simp] theorem State.memWrite_result1 (a : Nat) (b : List Byte) : (s.memWrite a b).result1 = s.result1 := rfl
@[simp] theorem State.memWrite_ie (a : Nat) (b : List Byte) : (s.memWrite a b).ie = s.ie := rfl
@[simp] theorem State.memWrite_busy (a : Nat) (b : List Byte) : (s.memWrite a b).busy = s.busy := rfl
@[simp] theorem State.memWrite_done (a : Nat) (b : List Byte) : (s.memWrite a b).done = s.done := rfl
@[simp] theorem State.memWrite_err (a : Nat) (b : List Byte) : (s.memWrite a b).err = s.err := rfl
@[simp] theorem State.memWrite_ovr (a : Nat) (b : List Byte) : (s.memWrite a b).ovr = s.ovr := rfl
@[simp] theorem State.memWrite_accErr (a : Nat) (b : List Byte) : (s.memWrite a b).accErr = s.accErr := rfl
@[simp] theorem State.memWrite_errCode (a : Nat) (b : List Byte) : (s.memWrite a b).errCode = s.errCode := rfl
@[simp] theorem State.memWrite_errSub (a : Nat) (b : List Byte) : (s.memWrite a b).errSub = s.errSub := rfl
@[simp] theorem State.memWrite_errChk (a : Nat) (b : List Byte) : (s.memWrite a b).errChk = s.errChk := rfl
@[simp] theorem State.memWrite_cmd (a : Nat) (b : List Byte) : (s.memWrite a b).cmd = s.cmd := rfl
@[simp] theorem State.memWrite_segCfg (a : Nat) (b : List Byte) : (s.memWrite a b).segCfg = s.segCfg := rfl
@[simp] theorem State.memWrite_segBlkBits (a : Nat) (b : List Byte) : (s.memWrite a b).segBlkBits = s.segBlkBits := rfl
@[simp] theorem State.memWrite_modeCfg (a : Nat) (b : List Byte) : (s.memWrite a b).modeCfg = s.modeCfg := rfl
@[simp] theorem State.memWrite_primWidth (a : Nat) (b : List Byte) : (s.memWrite a b).primWidth = s.primWidth := rfl
@[simp] theorem State.memWrite_seg (a : Nat) (b : List Byte) : (s.memWrite a b).seg = s.seg := rfl
@[simp] theorem State.memWrite_mode (a : Nat) (b : List Byte) : (s.memWrite a b).mode = s.mode := rfl
@[simp] theorem State.memWrite_dbuf (a : Nat) (b : List Byte) : (s.memWrite a b).dbuf = Memory.setBytes s.dbuf a b := rfl
@[simp] theorem State.memWrite_port (a : Nat) (b : List Byte) : (s.memWrite a b).port = s.port := rfl
@[simp] theorem State.memWrite_agenda (a : Nat) (b : List Byte) : (s.memWrite a b).agenda = s.agenda := rfl
@[simp] theorem State.memWrite_rdata (a : Nat) (b : List Byte) : (s.memWrite a b).rdata = s.rdata := rfl
@[simp] theorem State.memWrite_draws (a : Nat) (b : List Byte) : (s.memWrite a b).draws = s.draws := rfl

@[simp] theorem State.nextDraw_v : (s.nextDraw).v = s.v := rfl
@[simp] theorem State.nextDraw_arg0 : (s.nextDraw).arg0 = s.arg0 := rfl
@[simp] theorem State.nextDraw_arg1 : (s.nextDraw).arg1 = s.arg1 := rfl
@[simp] theorem State.nextDraw_arg2 : (s.nextDraw).arg2 = s.arg2 := rfl
@[simp] theorem State.nextDraw_arg3 : (s.nextDraw).arg3 = s.arg3 := rfl
@[simp] theorem State.nextDraw_result0 : (s.nextDraw).result0 = s.result0 := rfl
@[simp] theorem State.nextDraw_result1 : (s.nextDraw).result1 = s.result1 := rfl
@[simp] theorem State.nextDraw_ie : (s.nextDraw).ie = s.ie := rfl
@[simp] theorem State.nextDraw_busy : (s.nextDraw).busy = s.busy := rfl
@[simp] theorem State.nextDraw_done : (s.nextDraw).done = s.done := rfl
@[simp] theorem State.nextDraw_err : (s.nextDraw).err = s.err := rfl
@[simp] theorem State.nextDraw_ovr : (s.nextDraw).ovr = s.ovr := rfl
@[simp] theorem State.nextDraw_accErr : (s.nextDraw).accErr = s.accErr := rfl
@[simp] theorem State.nextDraw_errCode : (s.nextDraw).errCode = s.errCode := rfl
@[simp] theorem State.nextDraw_errSub : (s.nextDraw).errSub = s.errSub := rfl
@[simp] theorem State.nextDraw_errChk : (s.nextDraw).errChk = s.errChk := rfl
@[simp] theorem State.nextDraw_cmd : (s.nextDraw).cmd = s.cmd := rfl
@[simp] theorem State.nextDraw_segCfg : (s.nextDraw).segCfg = s.segCfg := rfl
@[simp] theorem State.nextDraw_segBlkBits : (s.nextDraw).segBlkBits = s.segBlkBits := rfl
@[simp] theorem State.nextDraw_modeCfg : (s.nextDraw).modeCfg = s.modeCfg := rfl
@[simp] theorem State.nextDraw_primWidth : (s.nextDraw).primWidth = s.primWidth := rfl
@[simp] theorem State.nextDraw_seg : (s.nextDraw).seg = s.seg := rfl
@[simp] theorem State.nextDraw_mode : (s.nextDraw).mode = s.mode := rfl
@[simp] theorem State.nextDraw_dbuf : (s.nextDraw).dbuf = s.dbuf := rfl
@[simp] theorem State.nextDraw_port : (s.nextDraw).port = s.port := rfl
@[simp] theorem State.nextDraw_agenda : (s.nextDraw).agenda = s.agenda := rfl
@[simp] theorem State.nextDraw_rdata : (s.nextDraw).rdata = s.rdata := rfl
@[simp] theorem State.nextDraw_draws : (s.nextDraw).draws = s.draws + 1 := rfl

@[simp] theorem State.complete_v : (s.complete).v = s.v := rfl
@[simp] theorem State.complete_arg0 : (s.complete).arg0 = s.arg0 := rfl
@[simp] theorem State.complete_arg1 : (s.complete).arg1 = s.arg1 := rfl
@[simp] theorem State.complete_arg2 : (s.complete).arg2 = s.arg2 := rfl
@[simp] theorem State.complete_arg3 : (s.complete).arg3 = s.arg3 := rfl
@[simp] theorem State.complete_result0 : (s.complete).result0 = s.result0 := rfl
@[simp] theorem State.complete_result1 : (s.complete).result1 = s.result1 := rfl
@[simp] theorem State.complete_ie : (s.complete).ie = s.ie := rfl
@[simp] theorem State.complete_busy : (s.complete).busy = false := rfl
@[simp] theorem State.complete_done : (s.complete).done = true := rfl
@[simp] theorem State.complete_err : (s.complete).err = s.err := rfl
@[simp] theorem State.complete_ovr : (s.complete).ovr = s.ovr := rfl
@[simp] theorem State.complete_accErr : (s.complete).accErr = s.accErr := rfl
@[simp] theorem State.complete_errCode : (s.complete).errCode = s.errCode := rfl
@[simp] theorem State.complete_errSub : (s.complete).errSub = s.errSub := rfl
@[simp] theorem State.complete_errChk : (s.complete).errChk = s.errChk := rfl
@[simp] theorem State.complete_cmd : (s.complete).cmd = s.cmd := rfl
@[simp] theorem State.complete_segCfg : (s.complete).segCfg = s.segCfg := rfl
@[simp] theorem State.complete_segBlkBits : (s.complete).segBlkBits = s.segBlkBits := rfl
@[simp] theorem State.complete_modeCfg : (s.complete).modeCfg = s.modeCfg := rfl
@[simp] theorem State.complete_primWidth : (s.complete).primWidth = s.primWidth := rfl
@[simp] theorem State.complete_seg : (s.complete).seg = s.seg := rfl
@[simp] theorem State.complete_mode : (s.complete).mode = s.mode := rfl
@[simp] theorem State.complete_dbuf : (s.complete).dbuf = s.dbuf := rfl
@[simp] theorem State.complete_port : (s.complete).port = s.port.idle := rfl
@[simp] theorem State.complete_agenda : (s.complete).agenda = s.agenda := rfl
@[simp] theorem State.complete_rdata : (s.complete).rdata = s.rdata := rfl
@[simp] theorem State.complete_draws : (s.complete).draws = s.draws := rfl

@[simp] theorem State.raise_v (e : CmdError) : (s.raise e).v = s.v := rfl
@[simp] theorem State.raise_arg0 (e : CmdError) : (s.raise e).arg0 = s.arg0 := rfl
@[simp] theorem State.raise_arg1 (e : CmdError) : (s.raise e).arg1 = s.arg1 := rfl
@[simp] theorem State.raise_arg2 (e : CmdError) : (s.raise e).arg2 = s.arg2 := rfl
@[simp] theorem State.raise_arg3 (e : CmdError) : (s.raise e).arg3 = s.arg3 := rfl
@[simp] theorem State.raise_result0 (e : CmdError) : (s.raise e).result0 = s.result0 := rfl
@[simp] theorem State.raise_result1 (e : CmdError) : (s.raise e).result1 = s.result1 := rfl
@[simp] theorem State.raise_ie (e : CmdError) : (s.raise e).ie = s.ie := rfl
@[simp] theorem State.raise_busy (e : CmdError) : (s.raise e).busy = false := rfl
@[simp] theorem State.raise_done (e : CmdError) : (s.raise e).done = true := rfl
@[simp] theorem State.raise_err (e : CmdError) : (s.raise e).err = true := rfl
@[simp] theorem State.raise_ovr (e : CmdError) : (s.raise e).ovr = s.ovr := rfl
@[simp] theorem State.raise_accErr (e : CmdError) : (s.raise e).accErr = s.accErr := rfl
@[simp] theorem State.raise_errCode (e : CmdError) : (s.raise e).errCode = e.code := rfl
@[simp] theorem State.raise_errSub (e : CmdError) : (s.raise e).errSub = e.sub := rfl
@[simp] theorem State.raise_errChk (e : CmdError) : (s.raise e).errChk = opcodeOf s.cmd := rfl
@[simp] theorem State.raise_cmd (e : CmdError) : (s.raise e).cmd = s.cmd := rfl
@[simp] theorem State.raise_segCfg (e : CmdError) : (s.raise e).segCfg = s.segCfg := rfl
@[simp] theorem State.raise_segBlkBits (e : CmdError) : (s.raise e).segBlkBits = s.segBlkBits := rfl
@[simp] theorem State.raise_modeCfg (e : CmdError) : (s.raise e).modeCfg = s.modeCfg := rfl
@[simp] theorem State.raise_primWidth (e : CmdError) : (s.raise e).primWidth = s.primWidth := rfl
@[simp] theorem State.raise_seg (e : CmdError) : (s.raise e).seg = s.seg := rfl
@[simp] theorem State.raise_mode (e : CmdError) : (s.raise e).mode = s.mode := rfl
@[simp] theorem State.raise_dbuf (e : CmdError) : (s.raise e).dbuf = s.dbuf := rfl
@[simp] theorem State.raise_port (e : CmdError) : (s.raise e).port = s.port.idle := rfl
@[simp] theorem State.raise_agenda (e : CmdError) : (s.raise e).agenda = s.agenda := rfl
@[simp] theorem State.raise_rdata (e : CmdError) : (s.raise e).rdata = s.rdata := rfl
@[simp] theorem State.raise_draws (e : CmdError) : (s.raise e).draws = s.draws := rfl

@[simp] theorem State.clearErr_v : (s.clearErr).v = s.v := rfl
@[simp] theorem State.clearErr_arg0 : (s.clearErr).arg0 = s.arg0 := rfl
@[simp] theorem State.clearErr_arg1 : (s.clearErr).arg1 = s.arg1 := rfl
@[simp] theorem State.clearErr_arg2 : (s.clearErr).arg2 = s.arg2 := rfl
@[simp] theorem State.clearErr_arg3 : (s.clearErr).arg3 = s.arg3 := rfl
@[simp] theorem State.clearErr_result0 : (s.clearErr).result0 = s.result0 := rfl
@[simp] theorem State.clearErr_result1 : (s.clearErr).result1 = s.result1 := rfl
@[simp] theorem State.clearErr_ie : (s.clearErr).ie = s.ie := rfl
@[simp] theorem State.clearErr_busy : (s.clearErr).busy = s.busy := rfl
@[simp] theorem State.clearErr_done : (s.clearErr).done = s.done := rfl
@[simp] theorem State.clearErr_err : (s.clearErr).err = false := rfl
@[simp] theorem State.clearErr_ovr : (s.clearErr).ovr = s.ovr := rfl
@[simp] theorem State.clearErr_accErr : (s.clearErr).accErr = s.accErr := rfl
@[simp] theorem State.clearErr_errCode : (s.clearErr).errCode = .none := rfl
@[simp] theorem State.clearErr_errSub : (s.clearErr).errSub = 0#8 := rfl
@[simp] theorem State.clearErr_errChk : (s.clearErr).errChk = 0#8 := rfl
@[simp] theorem State.clearErr_cmd : (s.clearErr).cmd = s.cmd := rfl
@[simp] theorem State.clearErr_segCfg : (s.clearErr).segCfg = s.segCfg := rfl
@[simp] theorem State.clearErr_segBlkBits : (s.clearErr).segBlkBits = s.segBlkBits := rfl
@[simp] theorem State.clearErr_modeCfg : (s.clearErr).modeCfg = s.modeCfg := rfl
@[simp] theorem State.clearErr_primWidth : (s.clearErr).primWidth = s.primWidth := rfl
@[simp] theorem State.clearErr_seg : (s.clearErr).seg = s.seg := rfl
@[simp] theorem State.clearErr_mode : (s.clearErr).mode = s.mode := rfl
@[simp] theorem State.clearErr_dbuf : (s.clearErr).dbuf = s.dbuf := rfl
@[simp] theorem State.clearErr_port : (s.clearErr).port = s.port := rfl
@[simp] theorem State.clearErr_agenda : (s.clearErr).agenda = s.agenda := rfl
@[simp] theorem State.clearErr_rdata : (s.clearErr).rdata = s.rdata := rfl
@[simp] theorem State.clearErr_draws : (s.clearErr).draws = s.draws := rfl

@[simp] theorem State.refuseAccess_v : (s.refuseAccess).v = s.v := rfl
@[simp] theorem State.refuseAccess_arg0 : (s.refuseAccess).arg0 = s.arg0 := rfl
@[simp] theorem State.refuseAccess_arg1 : (s.refuseAccess).arg1 = s.arg1 := rfl
@[simp] theorem State.refuseAccess_arg2 : (s.refuseAccess).arg2 = s.arg2 := rfl
@[simp] theorem State.refuseAccess_arg3 : (s.refuseAccess).arg3 = s.arg3 := rfl
@[simp] theorem State.refuseAccess_result0 : (s.refuseAccess).result0 = s.result0 := rfl
@[simp] theorem State.refuseAccess_result1 : (s.refuseAccess).result1 = s.result1 := rfl
@[simp] theorem State.refuseAccess_ie : (s.refuseAccess).ie = s.ie := rfl
@[simp] theorem State.refuseAccess_busy : (s.refuseAccess).busy = s.busy := rfl
@[simp] theorem State.refuseAccess_done : (s.refuseAccess).done = s.done := rfl
@[simp] theorem State.refuseAccess_err : (s.refuseAccess).err = s.err := rfl
@[simp] theorem State.refuseAccess_ovr : (s.refuseAccess).ovr = s.ovr := rfl
@[simp] theorem State.refuseAccess_accErr : (s.refuseAccess).accErr = true := rfl
@[simp] theorem State.refuseAccess_errCode : (s.refuseAccess).errCode = s.errCode := rfl
@[simp] theorem State.refuseAccess_errSub : (s.refuseAccess).errSub = s.errSub := rfl
@[simp] theorem State.refuseAccess_errChk : (s.refuseAccess).errChk = s.errChk := rfl
@[simp] theorem State.refuseAccess_cmd : (s.refuseAccess).cmd = s.cmd := rfl
@[simp] theorem State.refuseAccess_segCfg : (s.refuseAccess).segCfg = s.segCfg := rfl
@[simp] theorem State.refuseAccess_segBlkBits : (s.refuseAccess).segBlkBits = s.segBlkBits := rfl
@[simp] theorem State.refuseAccess_modeCfg : (s.refuseAccess).modeCfg = s.modeCfg := rfl
@[simp] theorem State.refuseAccess_primWidth : (s.refuseAccess).primWidth = s.primWidth := rfl
@[simp] theorem State.refuseAccess_seg : (s.refuseAccess).seg = s.seg := rfl
@[simp] theorem State.refuseAccess_mode : (s.refuseAccess).mode = s.mode := rfl
@[simp] theorem State.refuseAccess_dbuf : (s.refuseAccess).dbuf = s.dbuf := rfl
@[simp] theorem State.refuseAccess_port : (s.refuseAccess).port = s.port := rfl
@[simp] theorem State.refuseAccess_agenda : (s.refuseAccess).agenda = s.agenda := rfl
@[simp] theorem State.refuseAccess_rdata : (s.refuseAccess).rdata = s.rdata := rfl
@[simp] theorem State.refuseAccess_draws : (s.refuseAccess).draws = s.draws := rfl

@[simp] theorem State.accept_v (c : Word) : (s.accept c).v = s.v := rfl
@[simp] theorem State.accept_arg0 (c : Word) : (s.accept c).arg0 = s.arg0 := rfl
@[simp] theorem State.accept_arg1 (c : Word) : (s.accept c).arg1 = s.arg1 := rfl
@[simp] theorem State.accept_arg2 (c : Word) : (s.accept c).arg2 = s.arg2 := rfl
@[simp] theorem State.accept_arg3 (c : Word) : (s.accept c).arg3 = s.arg3 := rfl
@[simp] theorem State.accept_result0 (c : Word) : (s.accept c).result0 = s.result0 := rfl
@[simp] theorem State.accept_result1 (c : Word) : (s.accept c).result1 = s.result1 := rfl
@[simp] theorem State.accept_ie (c : Word) : (s.accept c).ie = s.ie := rfl
@[simp] theorem State.accept_busy (c : Word) : (s.accept c).busy = true := rfl
@[simp] theorem State.accept_done (c : Word) : (s.accept c).done = s.done := rfl
@[simp] theorem State.accept_err (c : Word) : (s.accept c).err = s.err := rfl
@[simp] theorem State.accept_ovr (c : Word) : (s.accept c).ovr = s.ovr := rfl
@[simp] theorem State.accept_accErr (c : Word) : (s.accept c).accErr = s.accErr := rfl
@[simp] theorem State.accept_errCode (c : Word) : (s.accept c).errCode = s.errCode := rfl
@[simp] theorem State.accept_errSub (c : Word) : (s.accept c).errSub = s.errSub := rfl
@[simp] theorem State.accept_errChk (c : Word) : (s.accept c).errChk = s.errChk := rfl
@[simp] theorem State.accept_cmd (c : Word) : (s.accept c).cmd = c := rfl
@[simp] theorem State.accept_segCfg (c : Word) : (s.accept c).segCfg = s.segCfg := rfl
@[simp] theorem State.accept_segBlkBits (c : Word) : (s.accept c).segBlkBits = s.segBlkBits := rfl
@[simp] theorem State.accept_modeCfg (c : Word) : (s.accept c).modeCfg = s.modeCfg := rfl
@[simp] theorem State.accept_primWidth (c : Word) : (s.accept c).primWidth = s.primWidth := rfl
@[simp] theorem State.accept_seg (c : Word) : (s.accept c).seg = s.seg := rfl
@[simp] theorem State.accept_mode (c : Word) : (s.accept c).mode = s.mode := rfl
@[simp] theorem State.accept_dbuf (c : Word) : (s.accept c).dbuf = s.dbuf := rfl
@[simp] theorem State.accept_port (c : Word) : (s.accept c).port = s.port.idle := rfl
@[simp] theorem State.accept_agenda (c : Word) : (s.accept c).agenda = s.agenda := rfl
@[simp] theorem State.accept_rdata (c : Word) : (s.accept c).rdata = s.rdata := rfl
@[simp] theorem State.accept_draws (c : Word) : (s.accept c).draws = s.draws := rfl

/-! The register file. -/

/-- Reading a register after a write of one. -/
theorem State.vreg_setV (r q : VReg) (x : BvReg) : (s.setV r x).vreg q = if r = q then x else s.vreg q := by
  simp only [State.vreg, State.setV, Fin.getElem_fin, Vector.getElem_set, Fin.ext_iff]

@[simp] theorem State.vreg_setV_self (r : VReg) (x : BvReg) : (s.setV r x).vreg r = x := by
  simp [State.vreg_setV]

@[simp] theorem State.vreg_setV_ne {r q : VReg} (h : r ≠ q) (x : BvReg) : (s.setV r x).vreg q = s.vreg q := by
  simp [State.vreg_setV, h]

@[simp] theorem State.vreg_setResult0 (n : Nat) (q : VReg) : (s.setResult0 n).vreg q = s.vreg q := rfl
@[simp] theorem State.vreg_setResult1 (n : Nat) (q : VReg) : (s.setResult1 n).vreg q = s.vreg q := rfl
@[simp] theorem State.vreg_memWrite (a : Nat) (b : List Byte) (q : VReg) : (s.memWrite a b).vreg q = s.vreg q := rfl
@[simp] theorem State.vreg_nextDraw (q : VReg) : (s.nextDraw).vreg q = s.vreg q := rfl
@[simp] theorem State.vreg_complete (q : VReg) : (s.complete).vreg q = s.vreg q := rfl
@[simp] theorem State.vreg_raise (e : CmdError) (q : VReg) : (s.raise e).vreg q = s.vreg q := rfl
@[simp] theorem State.vreg_clearErr (q : VReg) : (s.clearErr).vreg q = s.vreg q := rfl
@[simp] theorem State.vreg_refuseAccess (q : VReg) : (s.refuseAccess).vreg q = s.vreg q := rfl
@[simp] theorem State.vreg_accept (c : Word) (q : VReg) : (s.accept c).vreg q = s.vreg q := rfl

/-! The port. -/

@[simp] theorem PrimPort.idle_outstanding (p : PrimPort) : p.idle.outstanding = none := rfl
@[simp] theorem PrimPort.idle_answered (p : PrimPort) : p.idle.answered = 0 := rfl
@[simp] theorem PrimPort.idle_trace (p : PrimPort) : p.idle.trace = p.trace := rfl
@[simp] theorem PrimPort.idle_idle (p : PrimPort) : p.idle.idle = p.idle := rfl
@[simp] theorem PrimPort.answerAll_trace (p : PrimPort) (c : List PrimCall) :
    (p.answerAll c).trace = p.trace ++ c := rfl
@[simp] theorem PrimPort.answerAll_answered (p : PrimPort) (c : List PrimCall) :
    (p.answerAll c).answered = c.length := rfl
@[simp] theorem PrimPort.answerAll_outstanding (p : PrimPort) (c : List PrimCall) :
    (p.answerAll c).outstanding = none := rfl

end Sys2Proof.Machine
end

