-- ==== Sys2Proof/Laws/Ops.lean ====
section
/-! SUPPORT. One lemma per shared operation that says once what it can do: checks, the two ways a command ends, and a
MODE command's run. Later proofs cite these instead of unfolding the operations. -/

namespace Sys2Proof.Machine

/-! Checks. -/

@[simp] theorem check_eq_ok {c : Bool} {code : ErrCode} {sub : BitVec 8} {u : Unit} :
    check c code sub = .ok u ↔ c = true := by
  cases c <;> simp [check]

theorem check_eq_error {c : Bool} {code : ErrCode} {sub : BitVec 8} {e : CmdError} :
    check c code sub = .error e ↔ c = false ∧ e = { code := code, sub := sub } := by
  cases c <;> simp [check, eq_comm]

/-- A computation that goes on after a check is the rest where the check holds, its error where it fails. -/
theorem check_bind {α : Type} (c : Bool) (code : ErrCode) (sub : BitVec 8) (f : Unit → Except CmdError α) :
    (check c code sub >>= f) = if c then f () else .error { code := code, sub := sub } := by
  cases c <;> rfl

theorem checkRange_bind {α : Type} (a n : Nat) (f : Unit → Except CmdError α) :
    (checkRange a n >>= f) = if inRange a n then f () else .error { code := .address, sub := 1#8 } :=
  check_bind _ _ _ f

theorem checkSize_bind {α : Type} (n : Nat) (f : Unit → Except CmdError α) :
    (checkSize n >>= f) = if n ≤ Config.bvW then f () else .error { code := .overflow, sub := 1#8 } := by
  rw [checkSize, check_bind]; simp

@[simp] theorem inRange_iff {a n : Nat} : inRange a n = true ↔ a + n ≤ 4096 := by
  rw [inRange, decide_eq_true_iff]; rfl

@[simp] theorem Except.map_eq_ok_iff {ε α β : Type} {f : α → β} {r : Except ε α} {b : β} :
    r.map f = .ok b ↔ ∃ a, r = .ok a ∧ f a = b := by
  cases r <;> simp [Except.map]

@[simp] theorem Except.map_eq_error_iff {ε α β : Type} {f : α → β} {r : Except ε α} {e : ε} :
    r.map f = .error e ↔ r = .error e := by
  cases r <;> simp [Except.map]

/-! The two ends of a command. -/

@[simp] theorem finish_ok (s t : State) : finish s (.ok t) = .next t.complete := rfl
@[simp] theorem finish_error (s : State) (e : CmdError) : finish s (.error e) = .next (s.raise e) := rfl
@[simp] theorem finishRead_ok (s t : State) : finishRead s (.ok t) = .next t.nextDraw.complete := rfl
@[simp] theorem finishRead_error (s : State) (e : CmdError) :
    finishRead s (.error e) = .next (s.nextDraw.raise e) := rfl

/-- Everything `finish` can answer: the completion of the writes, or the error completion. -/
theorem finish_cases {s t : State} {r : Except CmdError State} (h : finish s r = .next t) :
    (∃ u, r = .ok u ∧ t = u.complete) ∨ (∃ e, r = .error e ∧ t = s.raise e) := by
  cases r with
  | ok u => exact .inl ⟨u, rfl, by simpa using h.symm⟩
  | error e => exact .inr ⟨e, rfl, by simpa using h.symm⟩

/-- Everything `finishRead` can answer. -/
theorem finishRead_cases {s t : State} {r : Except CmdError State} (h : finishRead s r = .next t) :
    (∃ u, r = .ok u ∧ t = u.nextDraw.complete) ∨ (∃ e, r = .error e ∧ t = s.nextDraw.raise e) := by
  cases r with
  | ok u => exact .inl ⟨u, rfl, by simpa using h.symm⟩
  | error e => exact .inr ⟨e, rfl, by simpa using h.symm⟩

/-- When a primitive has answered every call of a list. -/
@[simp] theorem PrimPort.answeredAll_iff {p : PrimPort} {calls : List PrimCall} :
    p.answeredAll calls = true ↔ p.outstanding = none ∧ calls.length ≤ p.answered := by
  simp [PrimPort.answeredAll]

theorem PrimPort.answerAll_answeredAll (p : PrimPort) (calls : List PrimCall) :
    (p.answerAll calls).answeredAll calls = true := by simp

/-- With every call answered, a MODE command ends as any command that reads `DBUF`. -/
theorem runMode_answered {s : State} {p : ModePlan} (h : s.port.answeredAll p.calls = true) :
    runMode s (.ok p) = finishRead s (p.result.map (s.applyMode p)) := if_pos h

/-- Without, it waits. -/
theorem runMode_waiting {s : State} {p : ModePlan} (h : s.port.answeredAll p.calls = false) :
    runMode s (.ok p) = .next s := if_neg (by simp [h])

/-- Everything a MODE command's run can answer: an error before the first call, the wait for an answer, an error after
the calls, or its writes. -/
theorem runMode_cases {s t : State} {r : Except CmdError ModePlan} (h : runMode s r = .next t) :
    (∃ e, r = .error e ∧ t = s.nextDraw.raise e) ∨
    (∃ p, r = .ok p ∧ s.port.answeredAll p.calls = false ∧ t = s) ∨
    (∃ p e, r = .ok p ∧ s.port.answeredAll p.calls = true ∧ p.result = .error e ∧ t = s.nextDraw.raise e) ∨
    (∃ p w, r = .ok p ∧ s.port.answeredAll p.calls = true ∧ p.result = .ok w ∧
      t = (s.applyMode p w).nextDraw.complete) := by
  cases r with
  | error e => exact .inl ⟨e, rfl, (Host.Outcome.next.inj h).symm⟩
  | ok p =>
    refine .inr ?_
    cases ha : s.port.answeredAll p.calls with
    | false => exact .inl ⟨p, rfl, ha, by rw [runMode_waiting ha] at h; exact (Host.Outcome.next.inj h).symm⟩
    | true =>
      rw [runMode_answered ha] at h
      refine .inr ?_
      cases hp : p.result with
      | error e => rw [hp] at h; exact .inl ⟨p, e, rfl, ha, hp, (Host.Outcome.next.inj h).symm⟩
      | ok w => rw [hp] at h; exact .inr ⟨p, w, rfl, ha, hp, (Host.Outcome.next.inj h).symm⟩

/-- Every command answers a next state: crysp-core never stops. -/
theorem finish_next (s : State) (r : Except CmdError State) : ∃ t, finish s r = .next t := by
  cases r <;> exact ⟨_, rfl⟩

/-! Memory through the state. -/

@[simp] theorem State.length_memRead (s : State) (a n : Nat) : (s.memRead a n).length = n := by
  simp [State.memRead]

theorem State.getElem_memRead (s : State) (a n i : Nat) (h : i < (s.memRead a n).length) :
    (s.memRead a n)[i] = s.byteAt (a + i) := by
  simp [State.memRead, State.byteAt]

end Sys2Proof.Machine
end

