-- ==== Sys2Proof/Laws/Operands.lean ====
section
/-! SUPPORT. The operand forms: what an index, a slice and a bit order come to, each in one lemma. -/

namespace Sys2Proof.Machine

/-! Indices. -/

theorem normIndex_ok {i : Int} {n j : Nat} (h1 : -(n : Int) ≤ i) (h2 : i < n)
    (hj : (j : Int) = if i < 0 then i + n else i) : normIndex i n = .ok j := by
  unfold normIndex
  rw [if_pos ⟨h1, h2⟩, ← hj]
  simp

theorem normIndex_error {i : Int} {n : Nat} (h : i < -(n : Int) ∨ (n : Int) ≤ i) :
    normIndex i n = .error { code := .index, sub := 1#8 } := by
  unfold normIndex
  rw [if_neg (by omega)]

/-! Slices. -/

/-- The count of indices of a slice: index `k` is below the stop exactly when `k` is below the count. -/
theorem lt_ceilDiv_iff {d step k : Nat} (h : 1 ≤ step) : k < ceilDiv d step ↔ k * step < d := by
  unfold ceilDiv
  rw [Nat.lt_div_iff_mul_lt (by omega), Nat.mul_comm]
  omega

/-- Everything slice normalisation can answer, in terms of the normalised bounds. -/
theorem sliceOf_eq (ns ne : Bool) (a0 a1 a2 : Word) (n : Nat) :
    sliceOf ns ne a0 a1 a2 n =
      if a2.toInt < 1 then .error { code := .index, sub := 3#8 }
      else if 0 ≤ sliceStart ns a0 n ∧ sliceStart ns a0 n ≤ sliceStop ne a1 n ∧ sliceStop ne a1 n ≤ n then
        .ok { st := (sliceStart ns a0 n).toNat, step := a2.toInt.toNat,
              count := ceilDiv (sliceStop ne a1 n - sliceStart ns a0 n).toNat a2.toInt.toNat }
      else .error { code := .index, sub := 2#8 } := by
  have hst : fromHighEnd (if ns then 0 else a0.toInt) n = sliceStart ns a0 n := by
    cases ns <;> simp [fromHighEnd, sliceStart]
  have hsp : fromHighEnd (if ne then (n : Int) else a1.toInt) n = sliceStop ne a1 n := by
    cases ne <;> simp [fromHighEnd, sliceStop]
  unfold sliceOf
  simp only [check_bind, hst, hsp, decide_eq_true_eq, Bool.and_eq_true]
  by_cases h : a2.toInt < 1
  · rw [if_neg (by omega), if_pos h]
  · rw [if_pos (by omega), if_neg h]
    by_cases h2 : 0 ≤ sliceStart ns a0 n ∧ sliceStart ns a0 n ≤ sliceStop ne a1 n ∧ sliceStop ne a1 n ≤ n
    · rw [if_pos ⟨⟨h2.1, h2.2.1⟩, h2.2.2⟩, if_pos h2]; rfl
    · rw [if_neg (fun h3 => h2 ⟨h3.1.1, h3.1.2, h3.2⟩), if_neg h2]

/-- Bit `k` of what a slice reads is the bit at its `k`-th index. -/
theorem Slice.testBit_read (x : Slice) (v k : Nat) :
    (x.read v).testBit k = (decide (k < x.count) && v.testBit (x.index k)) := by
  unfold Slice.read
  rw [testBit_natOfBits]
  by_cases h : k < x.count
  · rw [List.getD_eq_getElem _ _ (by simpa using h)]; simp [h]
  · rw [List.getD_eq_default _ _ (by simp; omega)]; simp [h]

theorem Slice.read_lt (x : Slice) (v : Nat) : x.read v < 2 ^ x.count := by
  have := natOfBits_lt ((List.range x.count).map (fun k => v.testBit (x.index k)))
  simpa [Slice.read] using this

/-- The bits a slice write leaves: bit `k` of the source at the `k`-th index, every other bit as it was. -/
theorem Slice.testBit_write (x : Slice) (hs : 1 ≤ x.step) (v w j : Nat) :
    (∀ k, k < x.count → j = x.index k → (x.write v w).testBit j = w.testBit k) ∧
    ((∀ k, k < x.count → j ≠ x.index k) → (x.write v w).testBit j = v.testBit j) := by
  have key : ∀ c, ((∀ k, k < c → j = x.index k →
      ((List.range c).foldl (fun acc k => setBit acc (x.index k) (w.testBit k)) v).testBit j = w.testBit k) ∧
      ((∀ k, k < c → j ≠ x.index k) →
      ((List.range c).foldl (fun acc k => setBit acc (x.index k) (w.testBit k)) v).testBit j = v.testBit j)) := by
    intro c
    induction c with
    | zero => exact ⟨fun k hk => by omega, fun _ => rfl⟩
    | succ c ih =>
      rw [List.range_succ, List.foldl_append]
      simp only [List.foldl_cons, List.foldl_nil, testBit_setBit]
      refine ⟨fun k hk hj => ?_, fun h => ?_⟩
      · by_cases hkc : k = c
        · rw [if_pos (hkc ▸ hj), hkc]
        · have hne : j ≠ x.index c := by
            intro he
            rw [hj] at he
            simp only [Slice.index, Nat.add_left_cancel_iff] at he
            exact hkc (Nat.eq_of_mul_eq_mul_right (by omega) he)
          rw [if_neg hne]
          exact ih.1 k (by omega) hj
      · rw [if_neg (h c (by omega))]
        exact ih.2 (fun k hk => h k (by omega))
  exact key x.count

/-! Bit orders. -/

theorem bytesToNat_lt (bo : BitOrder) (b : List Byte) : bytesToNat bo b < 2 ^ (8 * b.length) := by
  cases bo with
  | bigEndian => exact intBe_lt b
  | littleEndian => exact intLe_lt b
  | bitstream => simpa [bytesToNat] using natOfBits_lt (streamBits b)
  | reserved => simp [bytesToNat]

/-- The bit at position `j` of the integer a byte string stands for, in each bit order. -/
theorem testBit_bytesToNat (bo : BitOrder) (b : List Byte) {j : Nat} (hj : j < 8 * b.length) :
    (bytesToNat bo b).testBit j = loadedBit bo b.length (fun k => b.getD k 0#8) j := by
  cases bo with
  | bigEndian =>
    have h1 : j / 8 < b.reverse.length := by simp; omega
    rw [bytesToNat, intBe, testBit_intLe, List.getD_eq_getElem _ _ h1, List.getElem_reverse, loadedBit,
      List.getD_eq_getElem _ _ (by omega)]
  | littleEndian => exact testBit_intLe b j
  | bitstream => rw [bytesToNat, testBit_natOfBits, getD_streamBits b j hj]; rfl
  | reserved => simp [bytesToNat, loadedBit]

@[simp] theorem length_natToBytes {bo : BitOrder} (h : bo ≠ .reserved) (k v : Nat) :
    (natToBytes bo k v).length = k := by
  cases bo with
  | bigEndian => simp [natToBytes]
  | littleEndian => simp [natToBytes]
  | bitstream => simp [natToBytes]; omega
  | reserved => exact absurd rfl h

/-- Bit `q` of byte `i` of the bytes of a value, in each bit order. -/
theorem getLsbD_natToBytes {bo : BitOrder} (k v i q : Nat) (hi : i < k) (hq : q < 8)
    (h : i < (natToBytes bo k v).length) : (natToBytes bo k v)[i].getLsbD q = storedBit bo k v i q := by
  cases bo with
  | bigEndian =>
    simp only [natToBytes]
    rw [getElem_beBytes, BitVec.getLsbD_ofNat, Nat.testBit_shiftRight]
    simp [storedBit, hq]
  | littleEndian =>
    simp only [natToBytes]
    rw [getElem_leBytes, BitVec.getLsbD_ofNat, Nat.testBit_shiftRight]
    simp [storedBit, hq]
  | bitstream =>
    simp only [natToBytes] at h ⊢
    have hs : streamBits (packBits (bitsOfNat v (8 * k))) = bitsOfNat v (8 * k) :=
      streamBits_packBits k (by simp)
    have hg := getD_streamBits (packBits (bitsOfNat v (8 * k))) (8 * i + (7 - q)) (by simp; omega)
    rw [hs, show (8 * i + (7 - q)) / 8 = i by omega, show 7 - (8 * i + (7 - q)) % 8 = q by omega,
      List.getD_eq_getElem _ _ h, List.getD_eq_getElem _ _ (by simp; omega)] at hg
    rw [← hg]
    simp [bitsOfNat, storedBit]
  | reserved => simp [natToBytes] at h

/-- The bytes of the integer a byte string stands for are that byte string. -/
theorem natToBytes_bytesToNat {bo : BitOrder} (h : bo ≠ .reserved) (b : List Byte) :
    natToBytes bo b.length (bytesToNat bo b) = b := by
  cases bo with
  | bigEndian => exact beBytes_intBe b
  | littleEndian => exact leBytes_intLe b
  | bitstream =>
    have : bitsOfNat (natOfBits (streamBits b)) (8 * b.length) = streamBits b := by
      apply List.ext_getElem
      · simp
      · intro j h1 h2
        simp [bitsOfNat, testBit_natOfBits, List.getElem?_eq_getElem h2]
    rw [natToBytes, bytesToNat, this, packBits_streamBits]
  | reserved => exact absurd rfl h

/-- The integer of the `k` bytes of a value is the value modulo `256^k`. -/
theorem bytesToNat_natToBytes {bo : BitOrder} (h : bo ≠ .reserved) (k v : Nat) :
    bytesToNat bo (natToBytes bo k v) = v % 2 ^ (8 * k) := by
  cases bo with
  | bigEndian => exact intBe_beBytes k v
  | littleEndian => exact intLe_leBytes k v
  | bitstream =>
    apply Nat.eq_of_testBit_eq
    intro j
    rw [natToBytes, bytesToNat, streamBits_packBits k (by simp), testBit_natOfBits, Nat.testBit_mod_two_pow]
    by_cases hj : j < 8 * k
    · rw [List.getD_eq_getElem _ _ (by simpa using hj)]; simp [bitsOfNat, hj]
    · rw [List.getD_eq_default _ _ (by simp; omega)]; simp [hj]
  | reserved => exact absurd rfl h

end Sys2Proof.Machine
end

