-- ==== Sys2Proof/Laws/Commands.lean ====
section
/-! SUPPORT. What the shared computations of the commands can answer, each in one lemma: the two ends as Safety.lean names
them, the set-up commands' block, a feed, a padded tail, the port, and where a host access goes. -/

namespace Sys2Proof.Machine

/-! The two ends. -/

theorem State.complete_eq (s : State) : s.complete = completed s := rfl

theorem State.raise_eq (s : State) (e : CmdError) : s.raise e = raised s e.code e.sub := rfl

/-! Blocks of the mode commands. -/

/-- Everything `loadBlock` can answer. -/
theorem loadBlock_eq (s : State) :
    loadBlock s =
      if s.arg0.toNat + s.arg1.toNat ≤ 4096 then
        if s.arg1.toNat = s.primWidth.bytes then .ok (s.memRead s.arg0.toNat s.primWidth.bytes)
        else .error { code := .sizeMismatch, sub := 4#8 }
      else .error { code := .address, sub := 1#8 } := by
  unfold loadBlock
  rw [checkRange_bind]
  by_cases h : s.arg0.toNat + s.arg1.toNat ≤ 4096
  · rw [if_pos (by rw [inRange_iff]; exact h), if_pos h, check_bind]
    simp only [decide_eq_true_eq]
    split <;> rfl
  · rw [if_neg (by rw [inRange_iff]; exact h), if_neg h]

/-- Everything `storeBlock` can answer. -/
theorem storeBlock_eq (b : List Byte) (s : State) :
    storeBlock b s =
      if s.arg0.toNat + s.primWidth.bytes ≤ 4096 then
        .ok ((s.memWrite s.arg0.toNat b).setResult0 s.primWidth.bytes)
      else .error { code := .address, sub := 1#8 } := by
  unfold storeBlock
  rw [checkRange_bind]
  by_cases h : s.arg0.toNat + s.primWidth.bytes ≤ 4096
  · rw [if_pos (by rw [inRange_iff]; exact h), if_pos h]; rfl
  · rw [if_neg (by rw [inRange_iff]; exact h), if_neg h]

/-! The segmenter. -/

/-- What has passed when a feed is accepted, and what it then writes. -/
theorem feedPlan_ok {pad decl : Bool} {s : State} {p : FeedPlan} (h : feedPlan pad decl s = .ok p) :
    s.seg.finalized = false ∧ s.arg0.toNat + s.arg1.toNat ≤ 4096 ∧ feedBits decl s ≤ 8 * s.arg1.toNat ∧
    (pad = true ∨ feedBits decl s % s.seg.cfg.blockBits = 0) ∧
    (pad = true → s.seg.cfg.scheme.wholeBytes = true → feedBits decl s % s.seg.cfg.blockBits % 8 = 0) ∧
    p = feedMessage pad s.seg (feedMsg decl s) ∧ s.arg3.toNat + p.out.length ≤ 4096 := by
  unfold feedPlan at h
  rw [check_bind] at h
  split at h
  case isFalse => cases h
  case isTrue h1 =>
  rw [checkRange_bind] at h
  split at h
  case isFalse => cases h
  case isTrue h2 =>
  have hl : feedLength decl s.u1 s.u2 =
      if feedBits decl s ≤ 8 * s.arg1.toNat then .ok (feedBits decl s)
      else .error { code := .padding, sub := 3#8 } := by
    unfold feedLength feedBits
    cases decl
    · simp; rfl
    · simp only [if_true, check_bind, decide_eq_true_eq]; rfl
  rw [hl] at h
  split at h
  case isFalse => cases h
  case isTrue h3 =>
  replace h : (check (pad || decide (feedBits decl s % s.seg.cfg.blockBits = 0)) .padding 1#8 >>= _) =
    Except.ok p := h
  rw [check_bind] at h
  split at h
  case isFalse => cases h
  case isTrue h4 =>
  rw [check_bind] at h
  split at h
  case isFalse => cases h
  case isTrue h5 =>
  rw [checkRange_bind] at h
  split at h
  case isFalse => cases h
  case isTrue h6 =>
  obtain rfl : feedMessage pad s.seg (feedMsg decl s) = p := by
    simpa [pure, Except.pure, feedMsg] using h
  refine ⟨by simpa using h1, inRange_iff.mp h2, h3, by simpa using h4, fun hp hw => ?_, rfl, inRange_iff.mp h6⟩
  simpa [hp, hw] using h5

/-- A padded tail is a whole number of blocks that begins with the tail, for every scheme but `NONE`. -/
theorem padTail_blocks {c : PadCfg} {t : List Bool} {p : Nat} (hc : c.legal = true) (ht : t.length < c.blockBits)
    (hw : c.scheme.wholeBytes = true → t.length % 8 = 0) (hn : c.scheme ≠ .none) :
    t <+: (padTail c t p).bits ∧ (padTail c t p).bits.length = (padTail c t p).blocks * c.blockBits ∧
      (padTail c t p).padBits + t.length = (padTail c t p).bits.length ∧ (padTail c t p).blocks ≤ 2 := by
  have hb : c.blockBits % 8 = 0 := by
    simp only [PadCfg.legal, legalBlockBits, Bool.and_eq_true, decide_eq_true_eq] at hc
    exact hc.1.1.1
  have hN : t.length % 8 = 0 → 8 * padCount c.blockBits t + t.length = c.blockBits := by
    intro h; unfold padCount; omega
  have hfit : c.fieldFits = true := by
    simp only [PadCfg.legal, Bool.and_eq_true] at hc
    exact hc.2
  have hw8 : c.w.bits % 8 = 0 ∧ 8 ≤ c.w.bits := by cases c.w <;> simp [MdWord.bits]
  have hsuf : (streamBits (lengthSuffix c p)).length = c.fieldBits := by
    have : (lengthSuffix c p).length = c.fieldBits / 8 := by
      unfold lengthSuffix; dsimp only; split <;> simp
    rw [length_streamBits, this]; unfold PadCfg.fieldBits; omega
  unfold padTail
  cases hs : c.scheme with
  | none => exact absurd hs hn
  | zero =>
    simp only [padZero]
    split
    · rename_i h0
      have : t = [] := List.length_eq_zero_iff.mp h0
      simp [this]
    · refine ⟨List.prefix_append _ _, ?_, ?_, by simp⟩ <;> simp <;> omega
  | bitpad =>
    simp only [padBit]
    refine ⟨List.prefix_append _ _, ?_, ?_, by simp⟩ <;> simp <;> omega
  | pkcs7 =>
    have h := hN (hw (by rw [hs]; rfl))
    simp only [padPkcs7]
    refine ⟨List.prefix_append _ _, ?_, ?_, by simp⟩ <;> simp <;> omega
  | x923 =>
    have h := hN (hw (by rw [hs]; rfl))
    have h1 : 1 ≤ padCount c.blockBits t := by omega
    simp only [padX923]
    refine ⟨List.prefix_append _ _, ?_, ?_, by simp⟩ <;> simp <;> omega
  | md =>
    have hf : c.fieldBits + 1 ≤ c.blockBits := by simpa [PadCfg.fieldFits, hs] using hfit
    simp only [padMd, suffixBlocks, List.length_append, List.length_cons, List.length_replicate, hsuf]
    refine ⟨List.prefix_append _ _, ?_, ?_, ?_⟩ <;> split <;> omega
  | blake =>
    have hf : c.fieldBits + 2 ≤ c.blockBits := by simpa [PadCfg.fieldFits, hs] using hfit
    simp only [padBlake, suffixBlocks, List.length_append, List.length_cons, List.length_replicate, hsuf]
    refine ⟨List.prefix_append _ _, ?_, ?_, ?_⟩ <;> split <;> omega

/-! The port. -/

/-- Everything an event of the port can do. -/
theorem primEvent_cases (s : State) :
    primEvent s = s ∨
    (s.busy = true ∧ (∃ c, s.port.outstanding = some c) ∧
      primEvent s = { s with port := { s.port with outstanding := none, answered := s.port.answered + 1 } }) ∨
    (s.busy = true ∧ s.port.outstanding = none ∧ ∃ c, (runningCalls s)[s.port.answered]? = some c ∧
      primEvent s = { s with port := { s.port with outstanding := some c, trace := s.port.trace ++ [c] } }) := by
  unfold primEvent
  cases hb : s.busy with
  | false => exact .inl rfl
  | true =>
    simp only [if_true]
    split
    · rename_i c ho
      exact .inr (.inl ⟨trivial, ⟨c, ho⟩, rfl⟩)
    · rename_i ho
      split
      · rename_i c hc
        exact .inr (.inr ⟨trivial, ho, c, hc, rfl⟩)
      · exact .inl rfl

/-! Where a host access goes. -/

theorem targetOf_misaligned {o : HostOffset} (h : o.toNat % 4 ≠ 0) : targetOf o = .misaligned := by
  simp [targetOf, h]

theorem targetOf_dbuf {o : HostOffset} (h : o.toNat % 4 = 0) (h2 : 0x1000 ≤ o.toNat) :
    targetOf o = .dbuf (o.toNat - 0x1000) := by
  simp [targetOf, h, h2]

theorem hostRegAt_none {n : Nat} (h : 0x05C ≤ n) : hostRegAt n = none := by
  unfold hostRegAt
  split <;> first | omega | rfl

theorem hostRegAt_some {n : Nat} {r : HostReg} (h : hostRegAt n = some r) : n < 0x05C ∧ n % 4 = 0 := by
  unfold hostRegAt at h
  split at h <;> first | (constructor <;> omega) | cases h

theorem targetOf_reg {o : HostOffset} {r : HostReg} (h : hostRegAt o.toNat = some r) : targetOf o = .reg r := by
  obtain ⟨h1, h2⟩ := hostRegAt_some h
  simp [targetOf, h2, h]
  omega

theorem targetOf_unmapped {o : HostOffset} (h : o.toNat % 4 = 0) (h1 : 0x05C ≤ o.toNat) (h2 : o.toNat < 0x1000) :
    targetOf o = .unmapped := by
  simp [targetOf, h, hostRegAt_none h1]
  omega

end Sys2Proof.Machine
end

