-- ==== Sys2Proof/Laws/PerInstr.lean ====
section
/-! SUPPORT. The family `EncodesItsRow`: a command's word matches the row of the opcode map that carries the command's
mnemonic, one lemma per constructor of Instr. -/

namespace Sys2Proof.Laws.EncodesItsRow

set_option Elab.async false

/-- The mask and the match value of a command's row in spec/opcode_table.json (30_encoding R150). -/
def rowOf : Instr → Word × Word
  | .nop => (0xFFFFFFFF#32, 0x00000000#32)
  | .bvLdi _ _ => (0xFFEFF8FF#32, 0x00000010#32)
  | .bvLdb _ _ _ => (0xFF8FF8FF#32, 0x00000011#32)
  | .bvStb _ _ => (0xFFCF8FFF#32, 0x00000012#32)
  | .bvLdbits _ => (0xFFFFF8FF#32, 0x00000013#32)
  | .bvMov _ _ => (0xFFFF88FF#32, 0x00000014#32)
  | .bvSize _ => (0xFFFF8FFF#32, 0x00000015#32)
  | .bvRdw _ => (0xFFFF8FFF#32, 0x00000016#32)
  | .bvGet _ _ => (0xFFFF88FF#32, 0x00000018#32)
  | .bvSet _ => (0xFFFFF8FF#32, 0x00000019#32)
  | .bvGets _ _ _ _ => (0xFFCF88FF#32, 0x0000001A#32)
  | .bvSets _ _ _ _ _ => (0xFF8F88FF#32, 0x0000001B#32)
  | .bvAnd _ _ _ => (0xFFF888FF#32, 0x00000020#32)
  | .bvOr _ _ _ => (0xFFF888FF#32, 0x00000021#32)
  | .bvXor _ _ _ => (0xFFF888FF#32, 0x00000022#32)
  | .bvNot _ _ => (0xFFFF88FF#32, 0x00000023#32)
  | .bvAdd _ _ _ => (0xFFF888FF#32, 0x00000024#32)
  | .bvSub _ _ _ => (0xFFF888FF#32, 0x00000025#32)
  | .bvShl _ _ => (0xFFFF88FF#32, 0x00000026#32)
  | .bvShr _ _ => (0xFFFF88FF#32, 0x00000027#32)
  | .bvCat _ _ _ => (0xFFF888FF#32, 0x00000028#32)
  | .bvZext _ => (0xFFFFF8FF#32, 0x00000029#32)
  | .bvSext _ => (0xFFFFF8FF#32, 0x0000002A#32)
  | .bvHw _ => (0xFFFF8FFF#32, 0x0000002B#32)
  | .bvHd _ _ => (0xFFF88FFF#32, 0x0000002C#32)
  | .bvPack _ _ => (0xFFEF8FFF#32, 0x0000002D#32)
  | .bvUnpack _ _ => (0xFFEFF8FF#32, 0x0000002E#32)
  | .segReset => (0xFFFFFFFF#32, 0x00000030#32)
  | .segFeed _ _ => (0xFFCFFFFF#32, 0x00000031#32)
  | .segUnpad => (0xFFFFFFFF#32, 0x00000032#32)
  | .modeEnc => (0xFFFFFFFF#32, 0x00000040#32)
  | .modeDec => (0xFFFFFFFF#32, 0x00000041#32)
  | .modeSetiv => (0xFFFFFFFF#32, 0x00000042#32)
  | .modeGetiv => (0xFFFFFFFF#32, 0x00000043#32)
  | .modeSetctr => (0xFFFFFFFF#32, 0x00000044#32)
  | .modeGetctr => (0xFFFFFFFF#32, 0x00000045#32)
  | .ctrReset => (0xFFFFFFFF#32, 0x00000046#32)

/-- The word of a command has its row's bits at every position the row fixes. -/
def Statement (i : Instr) : Prop := encode i &&& (rowOf i).1 = (rowOf i).2

theorem nop : Statement .nop := by unfold Statement; decide
theorem bvLdi (vd : VReg) (sz : Bool) :
    Statement (.bvLdi vd sz) :=
  (by decide +kernel : ∀ (vd : VReg) (sz : Bool), encode (.bvLdi vd sz) &&& 0xFFEFF8FF#32 = 0x00000010#32) vd sz
theorem bvLdb (vd : VReg) (bo : BitOrder) (sz : Bool) :
    Statement (.bvLdb vd bo sz) := by
  cases bo <;> (unfold Statement; revert vd sz; decide +kernel)
theorem bvStb (va : VReg) (bo : BitOrder) :
    Statement (.bvStb va bo) := by
  cases bo <;> (unfold Statement; revert va; decide +kernel)
theorem bvLdbits (vd : VReg) :
    Statement (.bvLdbits vd) :=
  (by decide +kernel : ∀ (vd : VReg), encode (.bvLdbits vd) &&& 0xFFFFF8FF#32 = 0x00000013#32) vd
theorem bvMov (vd : VReg) (va : VReg) :
    Statement (.bvMov vd va) :=
  (by decide +kernel : ∀ (vd : VReg) (va : VReg), encode (.bvMov vd va) &&& 0xFFFF88FF#32 = 0x00000014#32) vd va
theorem bvSize (va : VReg) :
    Statement (.bvSize va) :=
  (by decide +kernel : ∀ (va : VReg), encode (.bvSize va) &&& 0xFFFF8FFF#32 = 0x00000015#32) va
theorem bvRdw (va : VReg) :
    Statement (.bvRdw va) :=
  (by decide +kernel : ∀ (va : VReg), encode (.bvRdw va) &&& 0xFFFF8FFF#32 = 0x00000016#32) va
theorem bvGet (vd : VReg) (va : VReg) :
    Statement (.bvGet vd va) :=
  (by decide +kernel : ∀ (vd : VReg) (va : VReg), encode (.bvGet vd va) &&& 0xFFFF88FF#32 = 0x00000018#32) vd va
theorem bvSet (vd : VReg) :
    Statement (.bvSet vd) :=
  (by decide +kernel : ∀ (vd : VReg), encode (.bvSet vd) &&& 0xFFFFF8FF#32 = 0x00000019#32) vd
theorem bvGets (vd : VReg) (va : VReg) (ns : Bool) (ne : Bool) :
    Statement (.bvGets vd va ns ne) :=
  (by decide +kernel : ∀ (vd : VReg) (va : VReg) (ns : Bool) (ne : Bool), encode (.bvGets vd va ns ne) &&& 0xFFCF88FF#32 = 0x0000001A#32) vd va ns ne
theorem bvSets (vd : VReg) (va : VReg) (ns : Bool) (ne : Bool) (co : Bool) :
    Statement (.bvSets vd va ns ne co) :=
  (by decide +kernel : ∀ (vd : VReg) (va : VReg) (ns : Bool) (ne : Bool) (co : Bool), encode (.bvSets vd va ns ne co) &&& 0xFF8F88FF#32 = 0x0000001B#32) vd va ns ne co
theorem bvAnd (vd : VReg) (va : VReg) (vb : VReg) :
    Statement (.bvAnd vd va vb) :=
  (by decide +kernel : ∀ (vd : VReg) (va : VReg) (vb : VReg), encode (.bvAnd vd va vb) &&& 0xFFF888FF#32 = 0x00000020#32) vd va vb
theorem bvOr (vd : VReg) (va : VReg) (vb : VReg) :
    Statement (.bvOr vd va vb) :=
  (by decide +kernel : ∀ (vd : VReg) (va : VReg) (vb : VReg), encode (.bvOr vd va vb) &&& 0xFFF888FF#32 = 0x00000021#32) vd va vb
theorem bvXor (vd : VReg) (va : VReg) (vb : VReg) :
    Statement (.bvXor vd va vb) :=
  (by decide +kernel : ∀ (vd : VReg) (va : VReg) (vb : VReg), encode (.bvXor vd va vb) &&& 0xFFF888FF#32 = 0x00000022#32) vd va vb
theorem bvNot (vd : VReg) (va : VReg) :
    Statement (.bvNot vd va) :=
  (by decide +kernel : ∀ (vd : VReg) (va : VReg), encode (.bvNot vd va) &&& 0xFFFF88FF#32 = 0x00000023#32) vd va
theorem bvAdd (vd : VReg) (va : VReg) (vb : VReg) :
    Statement (.bvAdd vd va vb) :=
  (by decide +kernel : ∀ (vd : VReg) (va : VReg) (vb : VReg), encode (.bvAdd vd va vb) &&& 0xFFF888FF#32 = 0x00000024#32) vd va vb
theorem bvSub (vd : VReg) (va : VReg) (vb : VReg) :
    Statement (.bvSub vd va vb) :=
  (by decide +kernel : ∀ (vd : VReg) (va : VReg) (vb : VReg), encode (.bvSub vd va vb) &&& 0xFFF888FF#32 = 0x00000025#32) vd va vb
theorem bvShl (vd : VReg) (va : VReg) :
    Statement (.bvShl vd va) :=
  (by decide +kernel : ∀ (vd : VReg) (va : VReg), encode (.bvShl vd va) &&& 0xFFFF88FF#32 = 0x00000026#32) vd va
theorem bvShr (vd : VReg) (va : VReg) :
    Statement (.bvShr vd va) :=
  (by decide +kernel : ∀ (vd : VReg) (va : VReg), encode (.bvShr vd va) &&& 0xFFFF88FF#32 = 0x00000027#32) vd va
theorem bvCat (vd : VReg) (va : VReg) (vb : VReg) :
    Statement (.bvCat vd va vb) :=
  (by decide +kernel : ∀ (vd : VReg) (va : VReg) (vb : VReg), encode (.bvCat vd va vb) &&& 0xFFF888FF#32 = 0x00000028#32) vd va vb
theorem bvZext (vd : VReg) :
    Statement (.bvZext vd) :=
  (by decide +kernel : ∀ (vd : VReg), encode (.bvZext vd) &&& 0xFFFFF8FF#32 = 0x00000029#32) vd
theorem bvSext (vd : VReg) :
    Statement (.bvSext vd) :=
  (by decide +kernel : ∀ (vd : VReg), encode (.bvSext vd) &&& 0xFFFFF8FF#32 = 0x0000002A#32) vd
theorem bvHw (va : VReg) :
    Statement (.bvHw va) :=
  (by decide +kernel : ∀ (va : VReg), encode (.bvHw va) &&& 0xFFFF8FFF#32 = 0x0000002B#32) va
theorem bvHd (va : VReg) (vb : VReg) :
    Statement (.bvHd va vb) :=
  (by decide +kernel : ∀ (va : VReg) (vb : VReg), encode (.bvHd va vb) &&& 0xFFF88FFF#32 = 0x0000002C#32) va vb
theorem bvPack (va : VReg) (big : Bool) :
    Statement (.bvPack va big) :=
  (by decide +kernel : ∀ (va : VReg) (big : Bool), encode (.bvPack va big) &&& 0xFFEF8FFF#32 = 0x0000002D#32) va big
theorem bvUnpack (vd : VReg) (big : Bool) :
    Statement (.bvUnpack vd big) :=
  (by decide +kernel : ∀ (vd : VReg) (big : Bool), encode (.bvUnpack vd big) &&& 0xFFEFF8FF#32 = 0x0000002E#32) vd big
theorem segReset : Statement .segReset := by unfold Statement; decide
theorem segFeed (pad : Bool) (decl : Bool) :
    Statement (.segFeed pad decl) :=
  (by decide +kernel : ∀ (pad : Bool) (decl : Bool), encode (.segFeed pad decl) &&& 0xFFCFFFFF#32 = 0x00000031#32) pad decl
theorem segUnpad : Statement .segUnpad := by unfold Statement; decide
theorem modeEnc : Statement .modeEnc := by unfold Statement; decide
theorem modeDec : Statement .modeDec := by unfold Statement; decide
theorem modeSetiv : Statement .modeSetiv := by unfold Statement; decide
theorem modeGetiv : Statement .modeGetiv := by unfold Statement; decide
theorem modeSetctr : Statement .modeSetctr := by unfold Statement; decide
theorem modeGetctr : Statement .modeGetctr := by unfold Statement; decide
theorem ctrReset : Statement .ctrReset := by unfold Statement; decide

end Sys2Proof.Laws.EncodesItsRow
end

