-- ==== Sys2Proof/Tests/Slice0.lean ====
section
/-! SUPPORT. Tests of the model and witnesses for the statements. Words, start states and expected values are those of
spec/95_test_vectors.md (the id of the row stands in the docstring) or written from the encoding of 30_encoding R140,
R146, R150. A theorem `witness_<Name>` shows states and operands that meet the hypotheses of `Obligations.<Name>`
together, clause by clause, at a boundary of each range. -/

namespace Sys2Proof.Tests

set_option Elab.async false

open Sys2Proof.Machine

/-! Helpers. -/

/-- The reset state with a 64-bit primitive, as in spec/95 section 0. -/
def st0 : State := State.resetWith .w64

/-- `s` with argument registers. -/
def withArgs (s : State) (a0 a1 a2 a3 : Word) : State := { s with arg0 := a0, arg1 := a1, arg2 := a2, arg3 := a3 }

/-- `s` with `(val, size)` in a register. -/
def withV (s : State) (r : VReg) (val size : Nat) : State := s.setV r { val := val, size := size }

/-- `s` with bytes in `DBUF`. -/
def withMem (s : State) (a : Nat) (b : List Byte) : State := s.memWrite a b

/-- `s` with a command accepted and the engine's turn next. -/
def running (s : State) (c : Word) : State := { s with cmd := c, busy := true, agenda := [.engine] }

/-- The state an outcome answers. -/
def after (o : Host.Outcome State Fault Refusal) : State :=
  match o with
  | .next t => t
  | .fault _ => st0
  | .refused _ => st0

/-- An outcome is a next state. -/
def isNext (o : Host.Outcome State Fault Refusal) : Bool :=
  match o with
  | .next _ => true
  | .fault _ => false
  | .refused _ => false

theorem next_after (o : Host.Outcome State Fault Refusal) (h : isNext o = true) : o = .next (after o) := by
  cases o with
  | next t => rfl
  | fault f => cases f
  | refused r => cases h

/-- One step from the accepted command word `c` at `s`. -/
def stepped (s : State) (c : Word) : State := after (step (running s c))

/-- The command completed without error. -/
def done (t : State) : Bool := t.done && !t.busy && !t.err

/-- The command completed with this error, and `ERRINFO` reads `info`. -/
def failed (t : State) (code : ErrCode) (info : Word) : Bool :=
  t.done && !t.busy && t.err && decide (t.errCode = code) && decide (regRead .errInfo t = info)

/-- Register `r` is `(val, size)`. -/
def vIs (t : State) (r : VReg) (val size : Nat) : Bool := decide (t.vreg r = { val := val, size := size })

/-- `DBUF` holds bytes. -/
def memIs (t : State) (a : Nat) (b : List Byte) : Bool :=
  decide ((List.range b.length).map (fun k => Memory.byte? t.dbuf (a + k)) = b.map some)

/-- The toy primitive of spec/95 section 0: exclusive or with a key. -/
def toy : Prim :=
  let f := fun x : List Byte =>
    (List.range 8).map (fun i => x.getD i 0#8 ^^^ [0xF0#8, 0xE1#8, 0xD2#8, 0xC3#8, 0xB4#8, 0xA5#8, 0x96#8, 0x87#8].getD i 0#8)
  { bytes := 8, enc := f, dec := f }

/-- `s` once the primitive has answered the calls. -/
def answeredSt (s : State) (calls : List PrimCall) : State := { s with port := s.port.answerAll calls }

/-- `s` once the primitive has answered every call that `i` makes. -/
def liveSt (i : Instr) (s : State) : State := answeredSt s (callsOf i s)

theorem answeredSt_answered (s : State) (calls : List PrimCall) : (answeredSt s calls).port.answeredAll calls = true := by
  simp [answeredSt, PrimPort.answerAll, PrimPort.answeredAll]

/-- PRIM_LIVE holds of every state once its calls are answered: the calls do not depend on the port. -/
theorem liveSt_enc (s : State) : primLive .modeEnc (liveSt .modeEnc s) := answeredSt_answered s (callsOf .modeEnc s)

theorem liveSt_dec (s : State) : primLive .modeDec (liveSt .modeDec s) := answeredSt_answered s (callsOf .modeDec s)

/-- `MODE.ENC` with the toy primitive, which answers. -/
def toyEnc (s : State) : State := after (runMode (answeredSt s (plannedCalls (encPlan toy s))) (encPlan toy s))

/-- `MODE.DEC` with the toy primitive, which answers. -/
def toyDec (s : State) : State := after (runMode (answeredSt s (plannedCalls (decPlan toy s))) (decPlan toy s))

/-! WellFormed: an ill-formed command for its one check. -/

theorem test_wf_ldb_reserved_order : (Instr.bvLdb 1 .reserved false).wellFormed = false := by decide

theorem test_wf_stb_reserved_order : (Instr.bvStb 1 .reserved).wellFormed = false := by decide

theorem test_wf_legal_orders :
    (Instr.bvLdb 1 .bitstream true).wellFormed = true ∧ (Instr.bvStb 1 .bigEndian).wellFormed = true := by decide

/-! Decoding: a word for every command, its fields written from R140, R146, R150. -/

/-- `NOP` is the zero word; `BV.XOR V1, V2, V3` bit by bit. -/
theorem test_decode_bit_by_bit :
    decode 0b00000000000000000000000000000000#32 = .ok .nop ∧
    decode 0b00000000000000110010000100100010#32 = .ok (.bvXor 1 2 3) ∧
    decode 0b00000000010100000000001100010001#32 = .ok (.bvLdb 3 .littleEndian true) ∧
    decode 0b00000000001000000000000000110001#32 = .ok (.segFeed false true) ∧
    decode 0b00000000000000000000000001000101#32 = .ok .modeGetctr := by decide

theorem test_decode_construction :
    decodeTableWord 32 0x00100710 = some (.bvLdi 7 true) ∧ decodeTableWord 32 0x00000110 = some (.bvLdi 1 false) ∧
    decodeTableWord 32 0x00600511 = some (.bvLdb 5 .bitstream true) ∧
    decodeTableWord 32 0x00206012 = some (.bvStb 6 .bitstream) ∧
    decodeTableWord 32 0x00000213 = some (.bvLdbits 2) ∧ decodeTableWord 32 0x00003414 = some (.bvMov 4 3) ∧
    decodeTableWord 32 0x00003015 = some (.bvSize 3) ∧ decodeTableWord 32 0x00001016 = some (.bvRdw 1) := by decide

theorem test_decode_access :
    decodeTableWord 32 0x00001218 = some (.bvGet 2 1) ∧ decodeTableWord 32 0x00000119 = some (.bvSet 1) ∧
    decodeTableWord 32 0x0010131A = some (.bvGets 3 1 true false) ∧
    decodeTableWord 32 0x0060211B = some (.bvSets 1 2 false true true) := by decide

theorem test_decode_operators :
    decodeTableWord 32 0x00021320 = some (.bvAnd 3 1 2) ∧ decodeTableWord 32 0x00021321 = some (.bvOr 3 1 2) ∧
    decodeTableWord 32 0x00071022 = some (.bvXor 0 1 7) ∧ decodeTableWord 32 0x00001223 = some (.bvNot 2 1) ∧
    decodeTableWord 32 0x00021324 = some (.bvAdd 3 1 2) ∧ decodeTableWord 32 0x00021325 = some (.bvSub 3 1 2) ∧
    decodeTableWord 32 0x00001226 = some (.bvShl 2 1) ∧ decodeTableWord 32 0x00001227 = some (.bvShr 2 1) ∧
    decodeTableWord 32 0x00021328 = some (.bvCat 3 1 2) ∧ decodeTableWord 32 0x00000129 = some (.bvZext 1) ∧
    decodeTableWord 32 0x0000012A = some (.bvSext 1) ∧ decodeTableWord 32 0x0000102B = some (.bvHw 1) ∧
    decodeTableWord 32 0x0002102C = some (.bvHd 1 2) ∧ decodeTableWord 32 0x0010102D = some (.bvPack 1 true) ∧
    decodeTableWord 32 0x0000022E = some (.bvUnpack 2 false) := by decide

theorem test_decode_segmenter_and_mode :
    decodeTableWord 32 0x00000030 = some .segReset ∧ decodeTableWord 32 0x00100031 = some (.segFeed true false) ∧
    decodeTableWord 32 0x00000032 = some .segUnpad ∧ decodeTableWord 32 0x00000040 = some .modeEnc ∧
    decodeTableWord 32 0x00000041 = some .modeDec ∧ decodeTableWord 32 0x00000042 = some .modeSetiv ∧
    decodeTableWord 32 0x00000043 = some .modeGetiv ∧ decodeTableWord 32 0x00000044 = some .modeSetctr ∧
    decodeTableWord 32 0x00000045 = some .modeGetctr ∧ decodeTableWord 32 0x00000046 = some .ctrReset := by decide

/-- E6 to E15: the words that do not decode, each with its `ERRINFO`. -/
theorem test_decode_errors :
    failed (stepped st0 0x00300011#32) .illegal 0x1103#32 ∧ failed (stepped st0 0x00000800#32) .illegal 0x0002#32 ∧
    failed (stepped st0 0x000000FF#32) .illegal 0xFF01#32 ∧ failed (stepped st0 0x00000017#32) .illegal 0x1701#32 ∧
    failed (stepped st0 0x00740012#32) .illegal 0x1202#32 ∧ failed (stepped st0 0x0070121A#32) .illegal 0x1A02#32 ∧
    failed (stepped st0 0x00100046#32) .illegal 0x4602#32 := by decide

/-! One step of each command. -/

/-- E1. -/
theorem test_nop : regRead .status (stepped st0 0x00000000#32) = 0x2#32 := by decide

/-- B4: truncated to 8 bits. -/
theorem test_ldi_sized : vIs (stepped (withArgs st0 0x1FF#32 0#32 8#32 0#32) 0x00100110#32) 1 0xFF 8 := by decide

/-- B3: the unsized length. -/
theorem test_ldi_unsized : vIs (stepped (withArgs st0 0#32 1#32 0#32 0#32) 0x00000110#32) 1 0x100000000 33 := by
  decide +kernel

/-- B22: stream bit `j` is vector bit `j`. -/
theorem test_ldb_bitstream :
    vIs (stepped (withArgs (withMem st0 0 [0x01#8, 0x05#8, 0x82#8]) 0#32 3#32 0#32 0#32) 0x00200111#32)
      1 0x41A080 24 := by decide

/-- B26: `SIZE_MISMATCH` 3. -/
theorem test_ldb_too_short :
    failed (stepped (withArgs (withMem st0 0 [0x01#8, 0x05#8, 0x82#8]) 0#32 3#32 0x19#32 0#32) 0x00400111#32)
      .sizeMismatch 0x1103#32 := by decide

/-- B35: the unused low bits of the last byte are 0. -/
theorem test_stb_bitstream :
    memIs (stepped (withArgs (withV st0 1 0x1FF 9) 0x10#32 0#32 0#32 0#32) 0x00201012#32) 0x10 [0xFF#8, 0x80#8] := by
  decide

/-- B33. -/
theorem test_stb_big_endian :
    memIs (stepped (withArgs (withV st0 1 0x1FF 9) 0x10#32 0#32 0#32 0#32) 0x00001012#32) 0x10 [0x01#8, 0xFF#8] := by
  decide

/-- B8. -/
theorem test_ldbits :
    vIs (stepped (withArgs (withMem st0 0 [1#8, 1#8, 0#8, 1#8]) 0#32 4#32 0#32 0#32) 0x00000213#32) 2 0xB 4 := by decide

/-- B10: `TYPE` 1. -/
theorem test_ldbits_not_a_bit :
    failed (stepped (withArgs (withMem st0 0 [1#8, 2#8, 0#8, 1#8]) 0#32 4#32 0#32 0#32) 0x00000213#32)
      .type 0x1301#32 := by decide

/-- B13. -/
theorem test_mov : vIs (stepped (withV st0 3 0x2A 6) 0x00003414#32) 4 0x2A 6 := by decide

/-- B15. -/
theorem test_size : (stepped (withV st0 3 0x2A 6) 0x00003015#32).result0 = 6#32 := by decide

/-- B16. -/
theorem test_rdw :
    (stepped (withArgs (withV st0 1 0x10000000005 41) 1#32 0#32 0#32 0#32) 0x00001016#32).result0 = 0x100#32 := by decide

/-- B53: index `-23` of 24 bits reads bit 1. -/
theorem test_get_negative :
    vIs (stepped (withArgs (withV st0 1 0x10582 24) 0xFFFFFFE9#32 0#32 0#32 0#32) 0x00001218#32) 2 1 1 := by decide

/-- B55: `INDEX` 1 just below the range. -/
theorem test_get_out_of_range :
    failed (stepped (withArgs (withV st0 1 0x10582 24) 0xFFFFFFE7#32 0#32 0#32 0#32) 0x00001218#32) .index 0x1801#32 := by
  decide

/-- B70. -/
theorem test_set :
    vIs (stepped (withArgs (withV st0 1 0 4) 0xFFFFFFFF#32 1#32 0#32 0#32) 0x00000119#32) 1 8 4 := by decide

/-- B74: the index is checked before the value. -/
theorem test_set_order :
    failed (stepped (withArgs (withV st0 1 0 4) 4#32 2#32 0#32 0#32) 0x00000119#32) .index 0x1901#32 := by decide

/-- B60: source bits 1, 3, 5, 7. -/
theorem test_gets_step :
    vIs (stepped (withArgs (withV st0 1 0xB5 8) 1#32 8#32 2#32 0#32) 0x0000121A#32) 2 0xC 4 := by decide

/-- B62: `NE` with a negative start. -/
theorem test_gets_ne :
    vIs (stepped (withArgs (withV st0 1 0xB5 8) 0xFFFFFFFD#32 0#32 1#32 0#32) 0x0020121A#32) 2 5 3 := by decide

/-- B78: bits 0, 2, 4, 6 cleared. -/
theorem test_sets_step :
    vIs (stepped (withArgs (withV (withV st0 1 0xFF 8) 2 0 4) 0#32 8#32 2#32 0#32) 0x0000211B#32) 1 0xAA 8 := by decide

/-- B77: `SIZE_MISMATCH` 2. -/
theorem test_sets_mismatch :
    failed (stepped (withArgs (withV (withV st0 1 0 8) 2 0x1F 5) 2#32 4#32 1#32 0#32) 0x0000211B#32)
      .sizeMismatch 0x1B02#32 := by decide

/-- B90, B91, B93: the bitwise operators on unequal sizes. -/
theorem test_bitwise :
    vIs (stepped (withV (withV st0 1 0xF0 8) 2 3 2) 0x00021320#32) 3 0 8 ∧
    vIs (stepped (withV (withV st0 1 0xF0 8) 2 3 2) 0x00021321#32) 3 0xF3 8 ∧
    vIs (stepped (withV (withV st0 1 0xF0 8) 2 3 2) 0x00021322#32) 3 0xF3 8 := by decide

/-- B96. -/
theorem test_not : vIs (stepped (withV st0 1 5 4) 0x00001223#32) 2 0xA 4 := by decide

/-- B101: the destination is a source, the carry is discarded. -/
theorem test_add : vIs (stepped (withV (withV st0 1 1 1) 2 1 1) 0x00021124#32) 1 0 1 := by decide

/-- B104. -/
theorem test_sub : vIs (stepped (withV (withV st0 1 5 3) 2 0x10 8) 0x00021325#32) 3 0xF5 8 := by decide

/-- B106, B109. -/
theorem test_shl :
    vIs (stepped (withArgs (withV st0 1 0xB 4) 1#32 0#32 0#32 0#32) 0x00001226#32) 2 6 4 ∧
    vIs (stepped (withArgs (withV st0 1 0xB 4) 0xFFFFFFFF#32 0#32 0#32 0#32) 0x00001226#32) 2 0 4 := by decide

/-- B111. -/
theorem test_shr :
    vIs (stepped (withArgs (withV st0 1 0xB 4) 3#32 0#32 0#32 0#32) 0x00001227#32) 2 1 4 := by decide

/-- B120: `VA` is the low part. -/
theorem test_cat : vIs (stepped (withV (withV st0 1 5 4) 2 3 2) 0x00021328#32) 3 0x35 6 := by decide

/-- B123: `OVERFLOW` 1. -/
theorem test_cat_overflow :
    failed (stepped (withV (withV st0 1 0 1000) 2 0 25) 0x00021328#32) .overflow 0x2801#32 := by decide

/-- B125. -/
theorem test_zext : vIs (stepped (withArgs (withV st0 1 5 4) 8#32 0#32 0#32 0#32) 0x00000129#32) 1 5 8 := by decide

/-- B129, B131. -/
theorem test_sext :
    vIs (stepped (withArgs (withV st0 1 0xA 4) 8#32 0#32 0#32 0#32) 0x0000012A#32) 1 0xFA 8 ∧
    vIs (stepped (withArgs st0 4#32 0#32 0#32 0#32) 0x0000012A#32) 1 0 4 := by decide

/-- B134. -/
theorem test_hw : (stepped (withV st0 1 0x10582 24) 0x0000102B#32).result0 = 5#32 := by decide

/-- B136. -/
theorem test_hd : (stepped (withV (withV st0 1 0xF0 8) 2 0xFF 8) 0x0002102C#32).result0 = 4#32 := by decide

/-- B137: `SIZE_MISMATCH` 1. -/
theorem test_hd_mismatch :
    failed (stepped (withV (withV st0 1 0xF0 8) 2 3 2) 0x0002102C#32) .sizeMismatch 0x2C01#32 := by decide

/-- B38, B39. -/
theorem test_pack :
    memIs (stepped (withArgs (withV st0 1 0x10582 24) 0x10#32 0#32 0#32 0#32) 0x0000102D#32) 0x10
      [0x82#8, 0x05#8, 0x01#8] ∧
    memIs (stepped (withArgs (withV st0 1 0x10582 24) 0x10#32 0#32 0#32 0#32) 0x0010102D#32) 0x10
      [0x01#8, 0x05#8, 0x82#8] := by decide

/-- B42. -/
theorem test_unpack :
    vIs (stepped (withArgs (withMem st0 0 [0x82#8, 0x05#8, 0x01#8]) 0#32 3#32 0#32 0#32) 0x0010022E#32)
      2 0x820501 24 := by decide

/-- SE19: `MD` with `w = 16` fits in 40 bits. -/
theorem test_seg_reset :
    regRead .segAcfg (stepped { st0 with segCfg := 0x55#32, segBlkBits := 40#11 } 0x00000030#32) = 0x55#32 := by decide

/-- SE17: `CONFIG` 3. -/
theorem test_seg_reset_config :
    failed (stepped { st0 with segCfg := 0x65#32, segBlkBits := 64#11 } 0x00000030#32) .config 0x3003#32 := by decide

/-- A segmenter of 64-bit blocks just after `SEG.RESET`, with word size 8. -/
def segSt (sc : PadScheme) (dbit : Bool) : State :=
  { st0 with seg := { st0.seg with cfg := { scheme := sc, w := .w8, lenBe := true, dbit := dbit, blockBits := 64 } } }

/-- S11, spec/95 section 1.3. -/
theorem test_seg_feed_pkcs7 :
    memIs (stepped (withArgs (withMem (segSt .pkcs7 false) 0 (List.replicate 5 0x41#8)) 0#32 5#32 0#32 0x400#32)
      0x00100031#32) 0x400 [0x41#8, 0x41#8, 0x41#8, 0x41#8, 0x41#8, 3#8, 3#8, 3#8] := by decide +kernel

/-- S24: one bit of room, the sentinel and the domain bit go to two blocks. -/
theorem test_seg_feed_blake :
    memIs (stepped (withArgs (withMem (segSt .blake true) 0 [0xA5#8, 0xFF#8, 0#8, 0#8, 0#8, 0xA8#8])
      0#32 6#32 47#32 0x400#32) 0x00300031#32) 0x400
      ([0xA5#8, 0xFF#8, 0#8, 0#8, 0#8, 0xA9#8] ++ List.replicate 7 0#8 ++ [1#8, 0#8, 0x2F#8]) := by decide +kernel

/-- SU9. -/
theorem test_seg_unpad :
    (stepped (withArgs (withMem (segSt .bitpad false) 0x400 (List.replicate 8 0x41#8)) 0x400#32 8#32 0#32 0#32)
      0x00000032#32).result0 = 63#32 := by decide +kernel

/-- SU13: the domain bit is wrong. -/
theorem test_seg_unpad_domain_bit :
    failed (stepped (withArgs (withMem (segSt .blake true) 0x400 [0x41#8, 0x41#8, 0x41#8, 0x41#8, 0x41#8, 0x80#8, 0#8, 0x28#8])
      0x400#32 8#32 0#32 0#32) 0x00000032#32) .padding 0x3204#32 := by decide +kernel

/-- The message of spec/95 section 5 at 0. -/
def hello : State :=
  withMem st0 0 [0x48#8, 0x65#8, 0x6C#8, 0x6C#8, 0x6F#8, 0x2C#8, 0x20#8, 0x77#8, 0x6F#8, 0x72#8, 0x6C#8, 0x64#8, 0x21#8]

/-- `hello` with the IV and the counter of spec/95 section 5, and the arguments of its commands. -/
def helloSt (cfg : Word) : State :=
  { withArgs hello 0#32 13#32 0x100#32 0#32 with
    modeCfg := cfg
    mode := { st0.mode with
      chain := [0x00#8, 0x11#8, 0x22#8, 0x33#8, 0x44#8, 0x55#8, 0x66#8, 0x77#8], ivValid := true
      nonce := [1#8, 2#8, 3#8, 4#8], ctrInit := 0xFFFFFFFF, ctr := 0xFFFFFFFF, ctrValid := true } }

/-- M2: CBC and PKCS#7. -/
theorem test_mode_enc_cbc :
    memIs (toyEnc (helloSt 0x631#32)) 0x100 [0xB8#8, 0x95#8, 0x9C#8, 0x9C#8, 0x9F#8, 0xDC#8, 0xD0#8, 0x87#8,
      0x27#8, 0x06#8, 0x22#8, 0x3B#8, 0x0A#8, 0x7A#8, 0x45#8, 0x03#8] := by decide +kernel

/-- M4: CBC with ciphertext stealing; the full block comes first. -/
theorem test_mode_enc_cbc_cts :
    memIs (toyEnc (helloSt 0x633#32)) 0x100 [0x27#8, 0x06#8, 0x22#8, 0x3B#8, 0x0A#8, 0x79#8, 0x46#8, 0x00#8,
      0xB8#8, 0x95#8, 0x9C#8, 0x9C#8, 0x9F#8] := by decide +kernel

/-- M8 back: the counter wraps. -/
theorem test_mode_dec_ctr :
    memIs (toyDec { withMem (helloSt 0x634#32) 0 [0xB9#8, 0x86#8, 0xBD#8, 0xAB#8, 0x24#8, 0x76#8, 0x49#8, 0x0F#8,
      0x9E#8, 0x91#8, 0xBD#8, 0xA3#8, 0x95#8] with arg2 := 0x200#32 }) 0x200
      [0x48#8, 0x65#8, 0x6C#8, 0x6C#8, 0x6F#8, 0x2C#8, 0x20#8, 0x77#8, 0x6F#8, 0x72#8, 0x6C#8, 0x64#8, 0x21#8] := by
  decide +kernel

/-- ME15: `PADDING` 6 after one call. -/
theorem test_mode_dec_padding :
    failed (toyDec (withArgs (withMem { st0 with modeCfg := 0x620#32, cmd := 0x41#32 } 0 [0xB1#8, 0xA0#8, 0x93#8, 0x82#8, 0xF5#8,
      0xE4#8, 0xD7#8, 0xC6#8]) 0#32 8#32 0x100#32 0#32)) .padding 0x4106#32 := by decide +kernel

/-- Spec/70 R613: with no answer an engine turn leaves the running command as it is. -/
theorem test_mode_waits :
    step (running (helloSt 0x631#32) 0x00000040#32) = .next { running (helloSt 0x631#32) 0x00000040#32 with agenda := [] } :=
  (next_after _ (by decide +kernel)).trans (congrArg _ (by decide +kernel))

/-- ME11: a short IV. -/
theorem test_setiv_short :
    failed (stepped (withArgs st0 0x40#32 7#32 0#32 0#32) 0x00000042#32) .sizeMismatch 0x4204#32 := by decide

theorem test_setiv :
    (stepped (withArgs (withMem st0 0x40 [0#8, 1#8, 2#8, 3#8, 4#8, 5#8, 6#8, 7#8]) 0x40#32 8#32 0#32 0#32)
      0x00000042#32).mode.chain = [0#8, 1#8, 2#8, 3#8, 4#8, 5#8, 6#8, 7#8] := by decide

/-- ME20: the reset chain. -/
theorem test_getiv :
    memIs (stepped (withArgs st0 0x300#32 0#32 0#32 0#32) 0x00000043#32) 0x300 (List.replicate 8 0#8) := by decide

/-- Spec/95 section 5.2: the counter half is big-endian. -/
theorem test_setctr :
    (stepped (withArgs (withMem st0 0x48 [0xAA#8, 0xBB#8, 0xCC#8, 0xDD#8, 0#8, 0#8, 1#8, 0xFF#8]) 0x48#32 8#32 0#32 0#32)
      0x00000044#32).mode.ctr = 0x1FF := by decide

/-- ME21. -/
theorem test_getctr :
    memIs (stepped { withArgs st0 0x300#32 0#32 0#32 0#32 with
      mode := { st0.mode with nonce := [0xAA#8, 0xBB#8, 0xCC#8, 0xDD#8], ctr := 0x101 } } 0x00000045#32) 0x300
      [0xAA#8, 0xBB#8, 0xCC#8, 0xDD#8, 0#8, 0#8, 1#8, 1#8] := by decide

/-- ME22. -/
theorem test_ctr_reset :
    (stepped { st0 with mode := { st0.mode with ctrInit := 0xFF, ctr := 0x101 } } 0x00000046#32).mode.ctr = 0xFF := by
  decide

/-- Section 3.2, host lanes: `W 0x1000, 0x44332211`. -/
theorem test_host_lanes :
    memIs (hostWrite 0x1000#13 0x44332211#32 st0) 0 [0x11#8, 0x22#8, 0x33#8, 0x44#8] := by decide

/-! Witnesses for the statements with hypotheses. -/

theorem witness_EncodedCommandsDecode :
    (Instr.bvLdb 7 .bitstream true).wellFormed = true ∧ Instr.modeEnc.wellFormed = true := by decide

theorem witness_DecodedWordsEncodeBack : decode 0x00671711#32 = .error .reservedBits ∧
    decode 0x00600711#32 = .ok (.bvLdb 7 .bitstream true) := by decide

/-- One word for each of the four outcomes, the row of the last three being that of `BV.LDB` or `BV.XOR`. -/
theorem witness_DecodeOrder :
    ((running st0 0x00000017#32).busy = true ∧ (running st0 0x00000017#32).agenda = [.engine] ∧
      ∀ r ∈ opcodeRows, r.opcode ≠ (running st0 0x00000017#32).cmd.extractLsb' 0 8) ∧
    (∃ r ∈ opcodeRows, r.opcode = (0x00008022#32).extractLsb' 0 8 ∧ 0x00008022#32 &&& r.mask ≠ r.opcode.setWidth 32) ∧
    (∃ r ∈ opcodeRows, r.opcode = (0x00300011#32).extractLsb' 0 8 ∧ 0x00300011#32 &&& r.mask = r.opcode.setWidth 32 ∧
      (r.opcode = 0x11#8 ∨ r.opcode = 0x12#8) ∧ (0x00300011#32).extractLsb' 20 2 = 3#2) ∧
    (∃ r ∈ opcodeRows, r.opcode = (0x00032122#32).extractLsb' 0 8 ∧ 0x00032122#32 &&& r.mask = r.opcode.setWidth 32 ∧
      ¬ ((r.opcode = 0x11#8 ∨ r.opcode = 0x12#8) ∧ (0x00032122#32).extractLsb' 20 2 = 3#2)) := by decide

/-- One state for each clause: a running command, a running word that does not decode, an idle turn, a write, a read, a
hardware reset, a port event, and no event. -/
theorem witness_StepRunsTheDecodedCommand :
    ((running st0 0x00003414#32).busy = true ∧ decode (running st0 0x00003414#32).cmd = .ok (.bvMov 4 3) ∧
      (running st0 0x00003414#32).agenda = [.engine]) ∧
    ((running st0 0x000000FF#32).busy = true ∧ decode (running st0 0x000000FF#32).cmd = .error .unknownOpcode ∧
      (running st0 0x000000FF#32).agenda = [.engine]) ∧
    (st0.busy = false ∧ { st0 with agenda := [.engine] }.agenda = [.engine]) ∧
    { st0 with agenda := [.write 0x1FFC#13 1#32] }.agenda = [.write 0x1FFC#13 1#32] ∧
    { st0 with agenda := [.read 0x000#13] }.agenda = [.read 0x000#13] ∧
    { st0 with agenda := [.hardReset] }.agenda = [.hardReset] ∧ { st0 with agenda := [.prim] }.agenda = [.prim] ∧
    st0.agenda = [] := by decide

/-- The output rises at a completion and at an enable; it falls at a write of `STATUS.DONE`. -/
theorem witness_InterruptRisesOnlyByCompletionOrEnable :
    (let s := { running st0 0x00000000#32 with ie := true }
     step s = .next (after (step s)) ∧ s.irq = false ∧ (after (step s)).irq = true) ∧
    (let s := { st0 with done := true, agenda := [.write 0x008#13 1#32] }
     step s = .next (after (step s)) ∧ s.irq = false ∧ (after (step s)).irq = true) ∧
    (let s := { st0 with done := true, ie := true, agenda := [.write 0x00C#13 2#32] }
     step s = .next (after (step s)) ∧ s.irq = true ∧ (after (step s)).irq = false) := by
  refine ⟨⟨rfl, ?_⟩, ⟨rfl, ?_⟩, ⟨rfl, ?_⟩⟩ <;> decide

/-- The reset state meets the invariant, and it has a next state. -/
theorem witness_EveryStepKeepsTheInvariant : st0.Inv ∧ step (stepped st0 0x00000000#32) = .next (stepped st0 0x00000000#32) := by
  refine ⟨⟨by decide, by decide, by decide, by decide, by decide, by decide, by decide, by decide, by decide, by decide,
    fun _ => by decide, ?_, fun _ => ?_⟩, rfl⟩
  · intro h
    exact absurd h (by decide)
  · unfold portIdle
    decide

theorem witness_ResetsFromAnyState :
    { st0 with agenda := [.hardReset] }.agenda = [.hardReset] ∧
    ({ st0 with agenda := [.write 0x008#13 2#32] }.agenda = [.write 0x008#13 2#32] ∧ (2#32).getLsbD 1 = true ∧
      { st0 with agenda := [.write 0x008#13 2#32] }.busy = false) := by decide

/-- A running `BV.STB`, `BV.PACK` and `MODE.GETIV` whose range ends at 4096; a running `NOP`; a `BV.STB` one byte
further, which would raise; and a word that does not decode. -/
theorem witness_SoftResetAbandonsTheCommand :
    (let s := { running (withArgs (withV st0 1 0x1FF 9) 0xFFE#32 0#32 0#32 0#32) 0x00001012#32 with
        agenda := [.write 0x008#13 2#32] }
     s.busy = true ∧ s.agenda = [.write 0x008#13 2#32] ∧ (2#32).getLsbD 1 = true ∧
      decode s.cmd = .ok (.bvStb 1 .bigEndian) ∧ s.arg0.toNat + ((s.vreg 1).size + 7) / 8 = 4096 ∧
      runningDest s = some (4094, 2)) ∧
    (let s := running (withArgs (withV st0 1 0x1FF 9) 0xFFE#32 0#32 0#32 0#32) 0x0010102D#32
     decode s.cmd = .ok (.bvPack 1 true) ∧ s.arg0.toNat + ((s.vreg 1).size + 7) / 8 = 4096) ∧
    (let s := running (withArgs st0 0xFF8#32 0#32 0#32 0#32) 0x00000043#32
     decode s.cmd = .ok .modeGetiv ∧ s.arg0.toNat + s.primWidth.bytes = 4096) ∧
    (decode 0x00000000#32 = .ok .nop ∧ runningDest (running st0 0x00000000#32) = none ∧
      opcodeByte .nop ∉ [0x12#8, 0x2D#8, 0x31#8, 0x40#8, 0x41#8, 0x43#8, 0x45#8]) ∧
    (let s := running (withArgs (withV st0 1 0x1FF 9) 0xFFF#32 0#32 0#32 0#32) 0x00001012#32
     decode s.cmd = .ok (.bvStb 1 .bigEndian) ∧ raises (.bvStb 1 .bigEndian) s ∧ Instr.bvStb 1 .bigEndian ≠ .modeDec ∧
      runningDest s = none) ∧
    decode 0x000000FF#32 = .error .unknownOpcode := by
  refine ⟨by decide, by decide, by decide, by decide, ⟨by decide, ⟨_, rfl, by decide⟩, by decide, by decide⟩, by decide⟩

/-- `SEG.FEED` of one whole block to 4088, and of 5 bytes under PKCS#7 to 4088: 24 bits of padding. -/
theorem witness_SoftResetAbandonsTheFeed :
    (let s := running (withArgs (segSt .md false) 4088#32 8#32 0#32 4088#32) 0x00000031#32
     decode s.cmd = .ok (.segFeed false false) ∧ s.seg.cfg.legal = true ∧ s.seg.finalized = false ∧
      s.arg0.toNat + s.arg1.toNat ≤ 4096 ∧ feedBits false s ≤ 8 * s.arg1.toNat ∧
      feedBits false s % s.seg.cfg.blockBits = 0 ∧ 8 = (feedBits false s + 0 + 7) / 8 ∧ s.arg3.toNat + 8 ≤ 4096) ∧
    (let s := running (withArgs (withMem (segSt .pkcs7 false) 0 (List.replicate 5 0x41#8)) 0#32 5#32 0#32 4088#32)
        0x00100031#32
     decode s.cmd = .ok (.segFeed true false) ∧ s.seg.cfg.legal = true ∧ s.seg.finalized = false ∧
      s.arg0.toNat + s.arg1.toNat ≤ 4096 ∧ feedBits false s ≤ 8 * s.arg1.toNat ∧
      feedBits false s % s.seg.cfg.blockBits % 8 = 0 ∧
      8 = (feedBits false s + (padTail s.seg.cfg ((feedMsg false s).drop 0)
        (s.seg.processed + BitVec.ofNat 64 (feedBits false s)).toNat).padBits + 7) / 8 ∧
      s.arg3.toNat + 8 ≤ 4096 ∧ runningDest s = some (4088, 8)) := by decide +kernel

theorem witness_CommandWordAcceptedOrDropped : st0.busy = false ∧ (running st0 0x00000000#32).busy = true := by decide

/-- The two ends of the `DBUF` window, an argument register, and a `CTRL` write without `SOFTRST`. -/
theorem witness_BusyWindow :
    (running st0 0x00000000#32).busy = true ∧ 0x1000#13 ≤ 0x1000#13 ∧ 0x1000#13 ≤ 0x1FFF#13 ∧
    0x014#13 ∈ [0x014#13, 0x018#13, 0x01C#13, 0x020#13, 0x030#13, 0x034#13, 0x050#13] ∧
    (1#32).getLsbD 1 = false ∧ hostRegAt (0x058#13).toNat = some .modeLastPad := by decide

theorem witness_RefusedAccesses :
    (0x00D#13).extractLsb' 0 2 ≠ 0#2 ∧ (0x05C#13 ≤ 0x05C#13 ∧ 0x05C#13 ≤ 0xFFC#13) ∧
    (0x05C#13 ≤ 0xFFC#13 ∧ 0xFFC#13 ≤ 0xFFC#13) ∧
    0x000#13 ∈ [0x000#13, 0x004#13, 0x024#13, 0x028#13, 0x02C#13, 0x038#13, 0x03C#13, 0x040#13, 0x044#13, 0x048#13,
      0x04C#13, 0x054#13, 0x058#13] := by decide

/-- A legal configuration; the first and the last register. -/
theorem witness_RegisterReads :
    st0.seg.cfg.legal = true ∧ hostRegAt (0x000#13).toNat = some .id ∧ hostRegAt (0x058#13).toNat = some .modeLastPad := by
  decide

theorem witness_StatusAndConfigurationRegisters : st0.busy = false ∧ (0xFFFFFFFD#32).getLsbD 1 = false := by decide

/-- The last word of the window, written and read. -/
theorem witness_DataBufferWindow :
    st0.busy = false ∧ 1023 < 1024 ∧
    (hostRead 0x1FFC#13 (hostWrite 0x1FFC#13 0x44332211#32 st0)).rdata = 0x44332211#32 := by decide

theorem witness_OnlyBvCommandsTouchV :
    (opcodeByte .nop < 0x10#8 ∧ exec .nop st0 = .next (after (exec .nop st0))) ∧
    (0x30#8 ≤ opcodeByte .segReset ∧ exec .segReset st0 = .next (after (exec .segReset st0))) ∧
    (0x010#13 ≠ 0x008#13 ∨ (0#32).getLsbD 1 = false) := by
  refine ⟨⟨by decide, rfl⟩, ⟨by decide, rfl⟩, by decide⟩

theorem witness_SegmenterChangesOnlyByItsCommands :
    (let s := running (segSt .pkcs7 false) 0x00000030#32
     step s = .next (after (step s)) ∧ (after (step s)).seg ≠ s.seg) ∧
    (let s := running { st0 with seg := { st0.seg with finalized := true } } 0x00000000#32
     step s = .next (after (step s)) ∧ s.seg.finalized = true) := by
  refine ⟨⟨rfl, by decide⟩, ⟨rfl, by decide⟩⟩

theorem witness_ModeStateChangesOnlyByItsCommands :
    (let s := running (withArgs (withMem st0 0 [1#8, 0#8, 0#8, 0#8, 0#8, 0#8, 0#8, 0#8]) 0#32 8#32 0#32 0#32) 0x00000042#32
     step s = .next (after (step s)) ∧ (after (step s)).mode.chain ≠ s.mode.chain) ∧
    (0x40#8 ≤ opcodeByte .ctrReset ∧ exec .ctrReset st0 = .next (after (exec .ctrReset st0))) := by
  refine ⟨⟨rfl, by decide⟩, ⟨by decide, rfl⟩⟩

/-- A `MODE.ENC` in `ECB` with its first call taken, the next, and none left; two ports with every call answered; a
hang; and a run in which the two calls are taken and answered before the engine's turn. -/
theorem witness_PrimitivePortAndLiveness :
    (let s := running (helloSt 0x630#32) 0x00000040#32
     s.busy = true ∧ decode s.cmd = .ok .modeEnc ∧ (callsOf .modeEnc s).length = 2 ∧
      (primEvent s).port.outstanding ≠ none ∧ s.port.outstanding = none ∧ (callsOf .modeEnc s)[s.port.answered]? ≠ none ∧
      (liveSt .modeEnc s).port.outstanding = none ∧
      (callsOf .modeEnc (liveSt .modeEnc s)).length ≤ (liveSt .modeEnc s).port.answered) ∧
    (let s := helloSt 0x630#32
     exec .modeEnc (liveSt .modeEnc s) = .next (after (exec .modeEnc (liveSt .modeEnc s))) ∧
      primLive .modeEnc (liveSt .modeEnc s) ∧
      primLive .modeEnc { liveSt .modeEnc s with port := { outstanding := none, answered := 2, trace := [] } }) ∧
    (let s := { running (helloSt 0x630#32) 0x00000040#32 with agenda := [.engine, .write 0x010#13 2#32] }
     callsOf .modeEnc s ≠ [] ∧ ¬ primLive .modeEnc s ∧ noReset s.agenda ∧ Event.prim ∉ s.agenda) ∧
    (let s := { running (helloSt 0x630#32) 0x00000040#32 with agenda := [.prim, .prim, .prim, .prim, .engine] }
     portIdle s ∧ primLiveRun .modeEnc s) := by
  refine ⟨by decide +kernel, ⟨next_after _ (by decide +kernel), by decide +kernel, by decide +kernel⟩,
    ⟨by decide +kernel, by decide +kernel, ?_, by decide⟩, ⟨rfl, rfl⟩,
    [.prim, .prim, .prim, .prim], [], rfl, ?_, by decide +kernel⟩
  · intro e he
    simp only [List.mem_cons, List.not_mem_nil, or_false] at he
    rcases he with rfl | rfl
    · exact ⟨by decide, fun w h => by cases h⟩
    · exact ⟨by decide, fun w h => by cases h⟩
  · intro e he
    simp only [List.mem_cons, List.not_mem_nil, or_false, or_self] at he
    exact he ▸ ⟨by decide, fun w h => by cases h⟩

theorem witness_LdiLoads :
    (withArgs st0 0#32 0#32 1024#32 0#32).arg2.toNat ≤ 1024 ∧ 1024 < (withArgs st0 0#32 0#32 1025#32 0#32).arg2.toNat := by
  decide

/-- Out of range by one byte; 1025 bits; the byte 2; and a legal list. -/
theorem witness_LdbitsLoads :
    4096 < (withArgs st0 0xFFF#32 2#32 0#32 0#32).arg0.toNat + (withArgs st0 0xFFF#32 2#32 0#32 0#32).arg1.toNat ∧
    (let s := withArgs st0 0#32 1025#32 0#32 0#32
     s.arg0.toNat + s.arg1.toNat ≤ 4096 ∧ 1024 < s.arg1.toNat) ∧
    (let s := withArgs (withMem st0 0xFFE [1#8, 2#8]) 0xFFE#32 2#32 0#32 0#32
     s.arg0.toNat + s.arg1.toNat ≤ 4096 ∧ s.arg1.toNat ≤ 1024 ∧
      ∃ k, k < s.arg1.toNat ∧ s.byteAt (s.arg0.toNat + k) ≠ 0#8 ∧ s.byteAt (s.arg0.toNat + k) ≠ 1#8) ∧
    (let s := withArgs (withMem st0 0xFFE [1#8, 0#8]) 0xFFE#32 2#32 0#32 0#32
     s.arg0.toNat + s.arg1.toNat ≤ 4096 ∧ s.arg1.toNat ≤ 1024 ∧
      ∀ k, k < s.arg1.toNat → s.byteAt (s.arg0.toNat + k) = 0#8 ∨ s.byteAt (s.arg0.toNat + k) = 1#8) := by
  refine ⟨by decide, by decide, ⟨by decide, by decide, 1, by decide⟩, by decide⟩

/-- Each of the four outcomes, sized and unsized, at its boundary. -/
theorem witness_LdbLoads :
    BitOrder.littleEndian ≠ .reserved ∧
    4096 < (withArgs st0 0xFFF#32 2#32 0#32 0#32).arg0.toNat + (withArgs st0 0xFFF#32 2#32 0#32 0#32).arg1.toNat ∧
    (let s := withArgs st0 0#32 1#32 9#32 0#32
     s.arg0.toNat + s.arg1.toNat ≤ 4096 ∧ 8 * s.arg1.toNat < (if true then s.arg2.toNat else 8 * s.arg1.toNat)) ∧
    (let s := withArgs st0 0#32 129#32 1025#32 0#32
     s.arg0.toNat + s.arg1.toNat ≤ 4096 ∧ (if true then s.arg2.toNat else 8 * s.arg1.toNat) ≤ 8 * s.arg1.toNat ∧
      1024 < (if true then s.arg2.toNat else 8 * s.arg1.toNat)) ∧
    (let s := withArgs st0 0xF80#32 128#32 0#32 0#32
     s.arg0.toNat + s.arg1.toNat ≤ 4096 ∧ (if false then s.arg2.toNat else 8 * s.arg1.toNat) ≤ 8 * s.arg1.toNat ∧
      (if false then s.arg2.toNat else 8 * s.arg1.toNat) ≤ 1024) := by decide

theorem witness_StbStores :
    BitOrder.bitstream ≠ .reserved ∧
    4096 < (withArgs (withV st0 1 0x1FF 9) 0xFFF#32 0#32 0#32 0#32).arg0.toNat + 2 ∧
    (let s := withArgs (withV st0 1 0x1FF 9) 0xFFE#32 0#32 0#32 0#32
     2 = (s.v[(1 : VReg)].size + 7) / 8 ∧ s.arg0.toNat + 2 ≤ 4096) := by decide

theorem witness_PackAndUnpack :
    (let s := withArgs (withV st0 1 0x1FF 9) 0xFFF#32 0#32 0#32 0#32
     2 = (s.v[(1 : VReg)].size + 7) / 8 ∧ 4096 < s.arg0.toNat + 2) ∧
    (let s := withArgs (withV st0 1 0x1FF 9) 0xFFE#32 0#32 0#32 0#32
     2 = (s.v[(1 : VReg)].size + 7) / 8 ∧ s.arg0.toNat + 2 ≤ 4096) ∧
    (let s := withArgs st0 0xF80#32 129#32 0#32 0#32
     4096 < s.arg0.toNat + s.arg1.toNat) ∧
    (let s := withArgs st0 0#32 129#32 0#32 0#32
     s.arg0.toNat + s.arg1.toNat ≤ 4096 ∧ 128 < s.arg1.toNat) ∧
    (let s := withArgs st0 0xF80#32 128#32 0#32 0#32
     s.arg0.toNat + s.arg1.toNat ≤ 4096 ∧ s.arg1.toNat ≤ 128) := by decide

theorem witness_LoadStoreRoundTrip :
    BitOrder.bitstream ≠ .reserved ∧
    (let s := withArgs st0 0xF80#32 128#32 0#32 0#32
     s.arg0.toNat + s.arg1.toNat ≤ 4096 ∧ s.arg1.toNat ≤ 128 ∧ (0xF80#32).toNat + s.arg1.toNat ≤ 4096) ∧
    (let s := withArgs (withV st0 1 0x10582 24) 0xFFD#32 0#32 0#32 0#32
     (s.vreg 1).wf ∧ (s.vreg 1).size % 8 = 0 ∧ s.arg0.toNat + (s.vreg 1).size / 8 ≤ 4096) := by decide

theorem witness_PackIsStoreAndUnpackIsLoad :
    (let s := withArgs (withMem st0 0 [0x82#8, 0x05#8]) 0#32 2#32 0#32 0#32
     exec (.bvLdb 1 (if true then .bigEndian else .littleEndian) false) s =
      .next (after (exec (.bvLdb 1 .bigEndian false) s))) := rfl

/-- The two ends of the index range, one past each, and the values 1 and 2. -/
theorem witness_BitAccess :
    (let s := withArgs (withV st0 1 5 4) 0xFFFFFFFC#32 1#32 0#32 0#32
     (-(s.v[(1 : VReg)].size : Int) ≤ s.arg0.toInt) ∧ s.arg0.toInt < s.v[(1 : VReg)].size ∧
      ((0 : Nat) : Int) = (if s.arg0.toInt < 0 then s.arg0.toInt + s.v[(1 : VReg)].size else s.arg0.toInt) ∧
      s.arg1.toNat ≤ 1) ∧
    (let s := withArgs (withV st0 1 5 4) 3#32 2#32 0#32 0#32
     (-(s.v[(1 : VReg)].size : Int) ≤ s.arg0.toInt) ∧ s.arg0.toInt < s.v[(1 : VReg)].size ∧
      ((3 : Nat) : Int) = (if s.arg0.toInt < 0 then s.arg0.toInt + s.v[(1 : VReg)].size else s.arg0.toInt) ∧
      1 < s.arg1.toNat) ∧
    (let s := withArgs (withV st0 1 5 4) 4#32 0#32 0#32 0#32
     s.arg0.toInt < -(s.v[(1 : VReg)].size : Int) ∨ (s.v[(1 : VReg)].size : Int) ≤ s.arg0.toInt) ∧
    (let s := withArgs (withV st0 1 5 4) 0xFFFFFFFB#32 0#32 0#32 0#32
     s.arg0.toInt < -(s.v[(1 : VReg)].size : Int) ∨ (s.v[(1 : VReg)].size : Int) ≤ s.arg0.toInt) := by decide

/-- Step 0; a stop beyond the size; a slice with step 2 up to the size. -/
theorem witness_GetsReadsASlice :
    (withArgs st0 0#32 0#32 0#32 0#32).arg2.toInt < 1 ∧
    (let s := withArgs (withV st0 1 0xB5 8) 0#32 9#32 1#32 0#32
     1 ≤ s.arg2.toInt ∧ ¬ sliceInside false false s.arg0 s.arg1 s.v[(1 : VReg)].size) ∧
    (let s := withArgs (withV st0 1 0xB5 8) 1#32 8#32 2#32 0#32
     1 ≤ s.arg2.toInt ∧ sliceInside false false s.arg0 s.arg1 s.v[(1 : VReg)].size) := by
  unfold sliceInside
  decide

/-- As for the read; the slice `1, 3, 5, 7` has 4 indices, the source has 4 bits, then 5. -/
theorem witness_SetsWritesASlice :
    (withArgs st0 0#32 0#32 0#32 0#32).arg2.toInt < 1 ∧
    (let s := withArgs (withV st0 1 0xB5 8) 0#32 9#32 1#32 0#32
     1 ≤ s.arg2.toInt ∧ ¬ sliceInside false false s.arg0 s.arg1 s.v[(1 : VReg)].size) ∧
    (let s := withArgs (withV (withV st0 1 0xB5 8) 2 3 4) 1#32 8#32 2#32 0#32
     1 ≤ s.arg2.toInt ∧ sliceInside false false s.arg0 s.arg1 s.v[(1 : VReg)].size ∧
      (∀ k : Nat, k < 4 ↔
        sliceStart false s.arg0 s.v[(1 : VReg)].size + k * s.arg2.toInt < sliceStop false s.arg1 s.v[(1 : VReg)].size) ∧
      s.v[(2 : VReg)].size = 4) ∧
    (withV st0 2 3 5).v[(2 : VReg)].size ≠ 4 := by
  refine ⟨by decide, ?_, ⟨by decide, ?_, ?_, by decide⟩, by decide⟩
  · unfold sliceInside
    decide
  · unfold sliceInside
    decide
  · intro k
    show k < 4 ↔ (1 : Int) + (k : Int) * 2 < 8
    omega

theorem witness_SliceMuxIdentity :
    (1 : VReg) ≠ 2 ∧
    (let s := withArgs (withV st0 1 0xB5 8) 1#32 0xFFFFFFFF#32 2#32 0#32
     1 ≤ s.arg2.toInt ∧ sliceInside false false s.arg0 s.arg1 (s.vreg 1).size) := by
  unfold sliceInside
  decide

theorem witness_BitwiseAndModularOperators :
    8 = max ((withV (withV st0 1 5 3) 2 0x10 8).v[(1 : VReg)].size) ((withV (withV st0 1 5 3) 2 0x10 8).v[(2 : VReg)].size) := by
  decide

theorem witness_ComplementAndShifts :
    ((withV st0 1 0 0).v[(1 : VReg)]).wf ∧
    (let s := withArgs (withV st0 1 0xB 4) 4#32 0#32 0#32 0#32
     (s.v[(1 : VReg)]).wf ∧ s.v[(1 : VReg)].size ≤ s.arg0.toNat) := by decide

/-- 1024 and 1025 bits together; an extension to 1024 and 1025 bits; and no extension. -/
theorem witness_ConcatenationAndExtension :
    (withV (withV st0 1 0 1000) 2 0 24).v[(1 : VReg)].size + (withV (withV st0 1 0 1000) 2 0 24).v[(2 : VReg)].size ≤ 1024 ∧
    1024 < (withV (withV st0 1 0 1000) 2 0 25).v[(1 : VReg)].size + (withV (withV st0 1 0 1000) 2 0 25).v[(2 : VReg)].size ∧
    (let s := withArgs (withV st0 1 5 4) 4#32 0#32 0#32 0#32
     s.arg0.toNat ≤ s.v[(1 : VReg)].size) ∧
    (let s := withArgs (withV st0 1 5 4) 1025#32 0#32 0#32 0#32
     s.v[(1 : VReg)].size < s.arg0.toNat ∧ 1024 < s.arg0.toNat) ∧
    (let s := withArgs (withV st0 1 5 4) 1024#32 0#32 0#32 0#32
     (s.v[(1 : VReg)]).wf ∧ s.v[(1 : VReg)].size < s.arg0.toNat ∧ s.arg0.toNat ≤ 1024) := by decide

theorem witness_HammingCounts :
    (let s := withV (withV st0 1 0xF0 8) 2 0xFF 8
     (s.v[(1 : VReg)]).wf ∧ (s.v[(2 : VReg)]).wf ∧ s.v[(1 : VReg)].size = s.v[(2 : VReg)].size) ∧
    (let s := withV (withV st0 1 0xF0 8) 2 3 2
     (s.v[(1 : VReg)]).wf ∧ (s.v[(2 : VReg)]).wf ∧ s.v[(1 : VReg)].size ≠ s.v[(2 : VReg)].size) := by decide

/-- Code 7; block sizes 0, 1032 and 12; `MD` and `BLAKE` one bit too wide; `MD` that fits in 1024 bits. -/
theorem witness_SegResetLatches :
    ((0x67#32).extractLsb' 0 3).toNat = 7 ∧
    (((0x60#32).extractLsb' 0 3).toNat ≠ 7 ∧ ¬ ((0#11).toNat % 8 = 0 ∧ 8 ≤ (0#11).toNat ∧ (0#11).toNat ≤ 1024) ∧
      ¬ ((1032#11).toNat % 8 = 0 ∧ 8 ≤ (1032#11).toNat ∧ (1032#11).toNat ≤ 1024) ∧
      ¬ ((12#11).toNat % 8 = 0 ∧ 8 ≤ (12#11).toNat ∧ (12#11).toNat ≤ 1024)) ∧
    (((0x65#32).extractLsb' 0 3).toNat = 5 ∧ (64#11).toNat < 2 * (8 * 2 ^ ((0x65#32).extractLsb' 4 2).toNat) + 1) ∧
    (((0x66#32).extractLsb' 0 3).toNat = 6 ∧ (64#11).toNat < 2 * (8 * 2 ^ ((0x66#32).extractLsb' 4 2).toNat) + 2) ∧
    (((0x75#32).extractLsb' 0 3).toNat = 5 ∧ (1024#11).toNat % 8 = 0 ∧ 8 ≤ (1024#11).toNat ∧ (1024#11).toNat ≤ 1024 ∧
      ¬ ((1024#11).toNat < 2 * (8 * 2 ^ ((0x75#32).extractLsb' 4 2).toNat) + 1)) := by decide

/-- A finalized segmenter; a source ending at 4097; 17 bits of 2 bytes; a broken block; 15 bits under PKCS#7. -/
theorem witness_FeedRefusals :
    { st0.seg with finalized := true }.finalized = true ∧ (segSt .bitpad false).seg.finalized = false ∧
    4096 < (withArgs st0 4095#32 2#32 0#32 0#32).arg0.toNat + (withArgs st0 4095#32 2#32 0#32 0#32).arg1.toNat ∧
    (let s := withArgs (segSt .bitpad false) 4094#32 2#32 17#32 0#32
     s.arg0.toNat + s.arg1.toNat ≤ 4096 ∧ 8 * s.arg1.toNat < feedBits true s) ∧
    (let s := withArgs (segSt .bitpad false) 4094#32 2#32 16#32 0#32
     s.arg0.toNat + s.arg1.toNat ≤ 4096 ∧ feedBits true s ≤ 8 * s.arg1.toNat ∧
      feedBits true s % s.seg.cfg.blockBits ≠ 0) ∧
    (let s := withArgs (segSt .pkcs7 false) 4094#32 2#32 15#32 0#32
     s.arg0.toNat + s.arg1.toNat ≤ 4096 ∧ feedBits true s ≤ 8 * s.arg1.toNat ∧
      (s.seg.cfg.scheme = .pkcs7 ∨ s.seg.cfg.scheme = .x923) ∧ feedBits true s % s.seg.cfg.blockBits % 8 ≠ 0) := by decide

theorem witness_FeedWithoutPadding :
    (let s := withArgs (segSt .md false) 4088#32 8#32 0#32 4088#32
     s.seg.cfg.legal = true ∧ s.seg.finalized = false ∧ s.arg0.toNat + s.arg1.toNat ≤ 4096 ∧
      feedBits false s ≤ 8 * s.arg1.toNat ∧ feedBits false s % s.seg.cfg.blockBits = 0 ∧
      s.arg3.toNat + feedBits false s / 8 ≤ 4096) ∧
    (let s := withArgs (segSt .md false) 4088#32 8#32 0#32 4089#32
     s.seg.cfg.legal = true ∧ feedBits false s % s.seg.cfg.blockBits = 0 ∧
      4096 < s.arg3.toNat + feedBits false s / 8) := by decide

/-- Five bytes under PKCS#7 to the last block of `DBUF`, and one byte further. -/
theorem witness_FeedWithPadding :
    (let s := withArgs (withMem (segSt .pkcs7 false) 0 (List.replicate 5 0x41#8)) 0#32 5#32 0#32 4088#32
     s.seg.cfg.legal = true ∧ s.seg.finalized = false ∧ s.arg0.toNat + s.arg1.toNat ≤ 4096 ∧
      feedBits false s ≤ 8 * s.arg1.toNat ∧ feedBits false s % s.seg.cfg.blockBits % 8 = 0 ∧
      0 = feedBits false s / s.seg.cfg.blockBits ∧
      (packBits ((feedMsg false s).take 0 ++ (padTail s.seg.cfg ((feedMsg false s).drop 0)
        (s.seg.processed + BitVec.ofNat 64 (feedBits false s)).toNat).bits)).length = 8 ∧
      s.arg3.toNat + 8 ≤ 4096 ∧ 4096 < (4089#32).toNat + 8) := by decide +kernel

/-- For each scheme a tail that meets its clause: an empty tail, a tail of 7 bytes, and the tails of 47 and 48 bits at
which `MD` with `w = 8` goes from one block to two. -/
theorem witness_PaddingLayouts :
    (∀ sc ∈ [PadScheme.none, .zero, .bitpad, .pkcs7, .x923, .md, .blake],
      (segSt sc false).seg.cfg.legal = true ∧ (segSt sc false).seg.cfg.scheme = sc) ∧
    ([] : List Bool).length < 64 ∧ (List.replicate 56 true).length < 64 ∧ 8 * 1 + (List.replicate 56 true).length = 64 ∧
    [0#8, 0x2F#8].length = 2 * MdWord.w8.bits / 8 ∧ intBe [0#8, 0x2F#8] = 47 % 2 ^ (2 * MdWord.w8.bits) ∧
    47 + 1 + 0 + 2 * MdWord.w8.bits = (if 47 + 1 + 2 * MdWord.w8.bits ≤ 64 then 1 else 2) * 64 ∧
    48 + 1 + 63 + 2 * MdWord.w8.bits = (if 48 + 1 + 2 * MdWord.w8.bits ≤ 64 then 1 else 2) * 64 ∧
    46 + 2 + 0 + 2 * MdWord.w8.bits = (if 46 + 2 + 2 * MdWord.w8.bits ≤ 64 then 1 else 2) * 64 := by decide

theorem witness_UnpadAnswersTheLength :
    4096 < (withArgs st0 4092#32 8#32 0#32 0#32).arg0.toNat + (withArgs st0 4092#32 8#32 0#32 0#32).arg1.toNat ∧
    (let s := withArgs (withMem (segSt .pkcs7 false) 0 (List.replicate 8 3#8)) 0#32 8#32 0#32 0#32
     s.arg0.toNat + s.arg1.toNat ≤ 4096 ∧
      unpad s.seg.cfg (s.memRead s.arg0.toNat s.arg1.toNat) s.seg.lastPad.toNat = .ok 40) ∧
    (let s := withArgs (withMem (segSt .pkcs7 false) 0 (List.replicate 8 9#8)) 0#32 8#32 0#32 0#32
     s.arg0.toNat + s.arg1.toNat ≤ 4096 ∧
      unpad s.seg.cfg (s.memRead s.arg0.toNat s.arg1.toNat) s.seg.lastPad.toNat =
        .error { code := .padding, sub := 4#8 }) := by decide +kernel

/-- For each clause a byte string of 8 bytes that meets it: a zero region of 24 bits and a region that is not zero or
too long; 5 bytes; a sentinel and none; a right and a wrong domain bit; pad counts 8 and 9. -/
theorem witness_UnpadRules :
    (let z := [0x41#8, 0x41#8, 0x41#8, 0x41#8, 0x41#8, 0#8, 0#8, 0#8]
     (24 ≤ 8 * z.length ∧ ∀ j, 8 * z.length - 24 ≤ j → j < 8 * z.length → streamBit z j = false) ∧
     ¬ (65 ≤ 8 * z.length) ∧ streamBit z 39 = true) ∧
    ¬ (64 / 8 ≤ (List.replicate 5 0#8).length ∧ (List.replicate 5 0#8).length % (64 / 8) = 0) ∧
    (let b := [0x41#8, 0x41#8, 0x41#8, 0x41#8, 0x41#8, 0x80#8, 0#8, 0x28#8]
     64 / 8 ≤ b.length ∧ b.length % (64 / 8) = 0 ∧
     0 = 8 * b.length - min 2 (b.length / (64 / 8)) * 64 ∧
     streamBit b 40 = true ∧ (∀ i, 40 < i → i < 8 * b.length - 16 → streamBit b i = false) ∧
     streamBit b (8 * b.length - 16 - 1) = false) ∧
    (∀ j, 0 ≤ j → j < 64 - 16 → streamBit (List.replicate 8 0#8) j = false) ∧
    (let n := ((List.replicate 8 8#8).getD 7 0#8).toNat
     1 ≤ n ∧ n ≤ 64 / 8 ∧ ∀ j, 8 - n ≤ j → j < 8 → ((List.replicate 8 8#8).getD j 0#8).toNat = n) ∧
    ¬ (((List.replicate 8 9#8).getD 7 0#8).toNat ≤ 64 / 8) := by
  refine ⟨⟨⟨by decide, fun j h1 h2 => ?_⟩, by decide, by decide⟩, by decide,
    ⟨by decide, by decide, by decide, by decide, fun i h1 h2 => ?_, by decide⟩, fun j _ h => ?_,
    ⟨by decide, by decide, fun j _ h => ?_⟩, by decide⟩
  · exact (by decide : ∀ j, j < 64 → 40 ≤ j →
      streamBit [0x41#8, 0x41#8, 0x41#8, 0x41#8, 0x41#8, 0#8, 0#8, 0#8] j = false) j h2 h1
  · exact (by decide : ∀ i, i < 48 → 40 < i →
      streamBit [0x41#8, 0x41#8, 0x41#8, 0x41#8, 0x41#8, 0x80#8, 0#8, 0x28#8] i = false) i h2 h1
  · exact (by decide : ∀ j, j < 48 → streamBit (List.replicate 8 0#8) j = false) j h
  · exact (by decide : ∀ j, j < 8 → ((List.replicate 8 8#8).getD j 0#8).toNat = 8) j h

theorem witness_PaddingInverse :
    (let s := withArgs (withMem (segSt .blake true) 0 [0xA5#8, 0xFF#8, 0#8, 0#8, 0#8, 0xA8#8]) 0#32 6#32 47#32 0x400#32
     s.seg.cfg.legal = true ∧ s.seg.finalized = false ∧
      exec (.segFeed true true) s = .next (after (exec (.segFeed true true) s)) ∧
      (after (exec (.segFeed true true) s)).seg.finalized = true) := by
  refine ⟨by decide, by decide, ?_, by decide +kernel⟩
  exact next_after _ (by decide +kernel)

/-- Eleven bytes fed at once, or 8 and then 3, to a destination that begins at the source. -/
theorem witness_IncrementalFeed :
    (let s := withArgs (withMem (segSt .md false) 0 (List.replicate 11 0x41#8)) 0#32 11#32 0#32 0#32
     s.seg.cfg.legal = true ∧ s.seg.finalized = false ∧ 8 * 8 % s.seg.cfg.blockBits = 0 ∧ s.arg1.toNat = 8 + 3 ∧
      24 ≤ 8 * 3 ∧ (∀ k, k < 8 + 3 → Memory.byte? s.dbuf (s.arg0.toNat + k) ≠ none) ∧
      (s.arg3.toNat + 8 ≤ s.arg0.toNat + 8 ∨ s.arg0.toNat + 8 + 3 ≤ s.arg3.toNat) ∧
      exec (.segFeed true false) s = .next (after (exec (.segFeed true false) s)) ∧
      (after (exec (.segFeed true false) s)).seg.finalized = true) := by
  refine ⟨by decide, by decide, by decide, by decide, by decide, by decide, by decide, rfl, by decide +kernel⟩

/-- Mode 5; `PAD = 7` in ECB; `MD` and `BLAKE` with `w = 32` on 64-bit blocks; CBC without an IV; CTR without a
counter; a source ending at 4097. -/
theorem witness_ModeRefusals :
    5 ≤ modeField { st0 with modeCfg := 0x635#32 } ∧
    (modeField { st0 with modeCfg := 0x671#32 } ≤ 1 ∧ padField { st0 with modeCfg := 0x671#32 } = 7) ∧
    (let s := { st0 with modeCfg := 0x650#32 }
     modeField s ≤ 1 ∧ padField s = 5 ∧ s.primWidth.bits < modeSuffixBits s + 1) ∧
    (let s := { st0 with modeCfg := 0x660#32 }
     modeField s ≤ 1 ∧ padField s = 6 ∧ s.primWidth.bits < modeSuffixBits s + 2) ∧
    (let s := { st0 with modeCfg := 0x633#32 }
     modeConfigOk s ∧ modeField s = 3 ∧ s.mode.ivValid = false) ∧
    (modeField { st0 with modeCfg := 0x634#32 } = 4 ∧ st0.mode.ctrValid = false) ∧
    (let s := withArgs (helloSt 0x631#32) 4095#32 2#32 0#32 0#32
     modeConfigOk s ∧ modeStateOk s ∧ 4096 < s.arg0.toNat + s.arg1.toNat) := by decide

/-- The 13 bytes in CBC under PKCS#7, for a destination. -/
def padSt (a2 : Word) : State := withArgs (helloSt 0x631#32) 0#32 13#32 a2 0#32

theorem padSt_msg : modeMsg (padSt 4080#32) = modeMsg (padSt 4081#32) ∧ modeMsg (padSt 4081#32) =
    [0x48#8, 0x65#8, 0x6C#8, 0x6C#8, 0x6F#8, 0x2C#8, 0x20#8, 0x77#8, 0x6F#8, 0x72#8, 0x6C#8, 0x64#8, 0x21#8] := by
  decide +kernel

theorem padSt_cfg : modePadCfg (padSt 4080#32) .pkcs7 = modePadCfg (padSt 4081#32) .pkcs7 ∧
    (padSt 4080#32).primWidth.bytes = 8 ∧ (padSt 4081#32).primWidth.bytes = 8 := by decide

/-- They are 16 bytes with their padding. -/
theorem padSt_padded : (paddedMessage (modePadCfg (padSt 4081#32) .pkcs7) 8
    [0x48#8, 0x65#8, 0x6C#8, 0x6C#8, 0x6F#8, 0x2C#8, 0x20#8, 0x77#8, 0x6F#8, 0x72#8, 0x6C#8, 0x64#8, 0x21#8]).length
      = 16 := by decide +kernel

/-- One byte with `PAD = NONE`; a padded block that ends at 4097; 12 and 8 bytes to decrypt; CTS on 7 bytes and on 13
bytes to 4084; CTR to 4084. -/
theorem witness_ModeLengthRefusals :
    (let s := helloSt 0x600#32
     modeConfigOk s ∧ modeStateOk s ∧ s.arg0.toNat + s.arg1.toNat ≤ 4096 ∧ modeField s ≤ 1 ∧ padField s = 0 ∧
      s.arg1.toNat % s.primWidth.bytes ≠ 0) ∧
    (let s := padSt 4081#32
     modeConfigOk s ∧ modeStateOk s ∧ schemeOfCode (s.modeCfg.extractLsb' 4 3) = some .pkcs7 ∧
      4096 < s.arg2.toNat + (paddedMessage (modePadCfg s .pkcs7) s.primWidth.bytes (modeMsg s)).length) ∧
    (let s := withArgs (helloSt 0x631#32) 0#32 8#32 4089#32 0#32
     modeField s ≤ 1 ∧ s.arg1.toNat % s.primWidth.bytes = 0 ∧ 4096 < s.arg2.toNat + s.arg1.toNat) ∧
    (let s := withArgs (helloSt 0x632#32) 0#32 7#32 0#32 0#32
     modeConfigOk s ∧ modeStateOk s ∧ modeField s = 2 ∧ s.arg1.toNat < s.primWidth.bytes) ∧
    (let s := withArgs (helloSt 0x633#32) 0#32 8#32 4089#32 0#32
     modeConfigOk s ∧ modeStateOk s ∧ modeField s = 3 ∧ s.primWidth.bytes ≤ s.arg1.toNat ∧
      4096 < s.arg2.toNat + s.arg1.toNat) ∧
    (let s := withArgs (helloSt 0x634#32) 0#32 1#32 4096#32 0#32
     modeConfigOk s ∧ modeStateOk s ∧ modeField s = 4 ∧ 4096 < s.arg2.toNat + s.arg1.toNat) := by
  refine ⟨by decide, ⟨by decide, by decide, by decide, ?_⟩, by decide, by decide, by decide, by decide⟩
  rw [padSt_cfg.2.2, padSt_msg.2, padSt_padded]
  decide

/-- `MODE.ENC` under PKCS#7 (16 bytes), with stealing and in CTR, and `MODE.DEC` of a whole block and with stealing, each
to a range that ends at 4096; and a `MODE.DEC` that fails each check before its calls: mode 5, CBC without an IV, the
source range, a partial block, stealing below one block, and the destination range. -/
theorem witness_SoftResetAbandonsTheModeCommand :
    (let s := running (padSt 4080#32) 0x00000040#32
     decode s.cmd = .ok .modeEnc ∧ modeConfigOk s ∧ modeStateOk s ∧ s.arg0.toNat + s.arg1.toNat ≤ 4096 ∧
      modeField s ≤ 1 ∧ schemeOfCode (s.modeCfg.extractLsb' 4 3) = some .pkcs7 ∧ s.arg2.toNat + 16 ≤ 4096 ∧
      runningDest s = some (4080, 16)) ∧
    (let s := running (withArgs (helloSt 0x633#32) 0#32 13#32 4083#32 0#32) 0x00000040#32
     modeConfigOk s ∧ modeStateOk s ∧ modeField s = 3 ∧ s.primWidth.bytes ≤ s.arg1.toNat ∧
      s.arg2.toNat + s.arg1.toNat ≤ 4096 ∧ runningDest s = some (4083, 13)) ∧
    (let s := running (withArgs (helloSt 0x634#32) 0#32 13#32 4083#32 0#32) 0x00000040#32
     modeConfigOk s ∧ modeStateOk s ∧ modeField s = 4 ∧ runningDest s = some (4083, 13)) ∧
    (let s := running (withArgs (helloSt 0x631#32) 0#32 8#32 4088#32 0#32) 0x00000041#32
     decode s.cmd = .ok .modeDec ∧ modeConfigOk s ∧ modeStateOk s ∧ modeField s ≤ 1 ∧
      s.arg1.toNat % s.primWidth.bytes = 0 ∧ s.arg2.toNat + s.arg1.toNat ≤ 4096 ∧ runningDest s = some (4088, 8)) ∧
    (let s := running (withArgs (helloSt 0x632#32) 0#32 13#32 4084#32 0#32) 0x00000041#32
     4096 < s.arg2.toNat + s.arg1.toNat ∧ runningDest s = none) ∧
    (¬ modeConfigOk { st0 with modeCfg := 0x635#32 } ∧ ¬ modeStateOk { st0 with modeCfg := 0x631#32 } ∧
     4096 < (withArgs st0 4095#32 2#32 0#32 0#32).arg0.toNat + (withArgs st0 4095#32 2#32 0#32 0#32).arg1.toNat) ∧
    (let s := running (helloSt 0x631#32) 0x00000041#32
     modeField s ≤ 1 ∧ s.arg1.toNat % s.primWidth.bytes ≠ 0 ∧ runningDest s = none) ∧
    (let s := running (withArgs (helloSt 0x632#32) 0#32 7#32 0#32 0#32) 0x00000041#32
     modeField s = 2 ∧ s.arg1.toNat < s.primWidth.bytes ∧ runningDest s = none) :=
  ⟨by decide +kernel, by decide +kernel, by decide +kernel, by decide +kernel, by decide +kernel, by decide,
    by decide +kernel, by decide +kernel⟩

/-- The 13 bytes under PKCS#7 in CBC: two blocks, ending at 4096. -/
theorem witness_EcbAndCbcEncrypt :
    (let s := liveSt .modeEnc (padSt 4080#32)
     modeField s ≤ 1 ∧ modeConfigOk s ∧ modeStateOk s ∧ s.arg0.toNat + s.arg1.toNat ≤ 4096 ∧
      primLive .modeEnc s ∧ schemeOfCode (s.modeCfg.extractLsb' 4 3) = some .pkcs7 ∧
      2 = (paddedMessage (modePadCfg s .pkcs7) s.primWidth.bytes (modeMsg s)).length / s.primWidth.bytes ∧
      s.arg2.toNat + (paddedMessage (modePadCfg s .pkcs7) s.primWidth.bytes (modeMsg s)).length ≤ 4096) := by
  refine ⟨by decide, by decide, by decide, by decide, liveSt_enc _, by decide, ?_, ?_⟩
  · show 2 = (paddedMessage (modePadCfg (padSt 4080#32) .pkcs7) (padSt 4080#32).primWidth.bytes
      (modeMsg (padSt 4080#32))).length / (padSt 4080#32).primWidth.bytes
    rw [padSt_cfg.2.1, padSt_cfg.1, padSt_msg.1, padSt_msg.2, padSt_padded]
  · show (padSt 4080#32).arg2.toNat + (paddedMessage (modePadCfg (padSt 4080#32) .pkcs7)
      (padSt 4080#32).primWidth.bytes (modeMsg (padSt 4080#32))).length ≤ 4096
    rw [padSt_cfg.2.1, padSt_cfg.1, padSt_msg.1, padSt_msg.2, padSt_padded]
    decide

/-- Without padding two blocks, whose length is always whole bytes; with `ZERO` no block and a remembered padding of 24
bits, which is refused. Both hold whatever the primitive answers. -/
theorem witness_EcbAndCbcDecrypt :
    (let s := liveSt .modeDec (withArgs (withMem (helloSt 0x601#32) 13 [0#8, 0#8, 0#8]) 0#32 16#32 4080#32 0#32)
     modeField s ≤ 1 ∧ modeConfigOk s ∧ modeStateOk s ∧ s.arg0.toNat + s.arg1.toNat ≤ 4096 ∧
      primLive .modeDec s ∧ schemeOfCode (s.modeCfg.extractLsb' 4 3) = some .none ∧
      s.arg1.toNat = 2 * s.primWidth.bytes ∧ s.arg2.toNat + s.arg1.toNat ≤ 4096 ∧
      ∀ Q : List Byte, unpad (modePadCfg s .none) Q s.mode.lastPad.toNat = .ok (8 * Q.length) ∧ 8 * Q.length % 8 = 0) ∧
    (let s := { withArgs (helloSt 0x610#32) 0#32 0#32 0#32 0#32 with mode := { st0.mode with lastPad := 24#32 } }
     modeField s ≤ 1 ∧ modeConfigOk s ∧ modeStateOk s ∧ primLive .modeDec s ∧
      schemeOfCode (s.modeCfg.extractLsb' 4 3) = some .zero ∧ s.arg1.toNat = 0 * s.primWidth.bytes ∧
      unpad (modePadCfg s .zero) [] s.mode.lastPad.toNat = .error { code := .padding, sub := 4#8 }) := by
  refine ⟨⟨by decide, by decide, by decide, by decide, liveSt_dec _, by decide, by decide, by decide, ?_⟩, by decide +kernel⟩
  intro Q
  exact ⟨rfl, by omega⟩

/-- 13 bytes are two blocks, the last of 5 bytes, in both modes. -/
theorem witness_StealingEncrypts :
    (let s := liveSt .modeEnc (helloSt 0x632#32)
     (modeField s = 2 ∨ modeField s = 3) ∧ modeStateOk s ∧ s.mode.chain.length = s.primWidth.bytes ∧
      s.arg0.toNat + s.arg1.toNat ≤ 4096 ∧ s.arg2.toNat + s.arg1.toNat ≤ 4096 ∧ primLive .modeEnc s ∧
      5 < s.primWidth.bytes ∧ s.arg1.toNat = (2 - 1) * s.primWidth.bytes + 5) ∧
    (let s := liveSt .modeEnc (helloSt 0x633#32)
     (modeField s = 2 ∨ modeField s = 3) ∧ modeStateOk s ∧ s.mode.chain.length = s.primWidth.bytes ∧
      s.arg0.toNat + s.arg1.toNat ≤ 4096 ∧ s.arg2.toNat + s.arg1.toNat ≤ 4096 ∧ primLive .modeEnc s ∧
      5 < s.primWidth.bytes ∧ s.arg1.toNat = (2 - 1) * s.primWidth.bytes + 5) :=
  ⟨⟨by decide, by decide, by decide, by decide, by decide, liveSt_enc _, by decide, by decide⟩,
   ⟨by decide, by decide, by decide, by decide, by decide, liveSt_enc _, by decide, by decide⟩⟩

/-- The same two states: the other variables of the statement are given by its equations. -/
theorem witness_StealingDecrypts :
    (let s := liveSt .modeDec (withArgs (helloSt 0x632#32) 4083#32 13#32 4083#32 0#32)
     (modeField s = 2 ∨ modeField s = 3) ∧ modeStateOk s ∧ s.mode.chain.length = s.primWidth.bytes ∧
      s.arg0.toNat + s.arg1.toNat ≤ 4096 ∧ s.arg2.toNat + s.arg1.toNat ≤ 4096 ∧ primLive .modeDec s ∧
      5 < s.primWidth.bytes ∧ s.arg1.toNat = (2 - 1) * s.primWidth.bytes + 5) ∧
    (let s := liveSt .modeDec (withArgs (helloSt 0x633#32) 4083#32 13#32 4083#32 0#32)
     (modeField s = 2 ∨ modeField s = 3) ∧ modeStateOk s ∧ s.mode.chain.length = s.primWidth.bytes ∧
      s.arg0.toNat + s.arg1.toNat ≤ 4096 ∧ s.arg2.toNat + s.arg1.toNat ≤ 4096 ∧ primLive .modeDec s ∧
      5 < s.primWidth.bytes ∧ s.arg1.toNat = (2 - 1) * s.primWidth.bytes + 5) :=
  ⟨⟨by decide, by decide, by decide, by decide, by decide, liveSt_dec _, by decide, by decide⟩,
   ⟨by decide, by decide, by decide, by decide, by decide, liveSt_dec _, by decide, by decide⟩⟩

/-- One whole block whose call is answered: plain ECB and plain CBC complete. -/
theorem witness_StealingOfWholeBlocksIsPlain :
    (let s := answeredSt (withArgs (helloSt 0x632#32) 0#32 8#32 0x100#32 0#32) [encCall []]
     modeField s = 2 ∧ 0 < s.arg1.toNat ∧ s.arg1.toNat % s.primWidth.bytes = 0 ∧
      exec .modeEnc { s with modeCfg := if modeField s = 2 then 0#32 else 1#32 } =
        .next (after (exec .modeEnc { s with modeCfg := 0#32 })) ∧
      (after (exec .modeEnc { s with modeCfg := 0#32 })).busy = false) ∧
    (let s := answeredSt (withArgs (helloSt 0x633#32) 0#32 8#32 0x100#32 0#32) [decCall []]
     modeField s = 3 ∧ 0 < s.arg1.toNat ∧ s.arg1.toNat % s.primWidth.bytes = 0 ∧
      exec .modeDec { s with modeCfg := if modeField s = 2 then 0#32 else 1#32 } =
        .next (after (exec .modeDec { s with modeCfg := 1#32 })) ∧
      (after (exec .modeDec { s with modeCfg := 1#32 })).busy = false) := by
  exact ⟨⟨by decide, by decide, by decide, next_after _ (by decide +kernel), by decide +kernel⟩,
    ⟨by decide, by decide, by decide, next_after _ (by decide +kernel), by decide +kernel⟩⟩

/-- 13 bytes are two blocks; the counter is at its greatest value. -/
theorem witness_CtrEncryptsAndDecrypts :
    (let s := liveSt .modeEnc (helloSt 0x634#32)
     modeField s = 4 ∧ s.mode.ctrValid = true ∧ s.mode.ctr < 2 ^ (8 * s.primWidth.halfBytes) ∧
      s.arg0.toNat + s.arg1.toNat ≤ 4096 ∧ s.arg2.toNat + s.arg1.toNat ≤ 4096 ∧ primLive .modeEnc s ∧
      primLive .modeDec s ∧ 2 = (s.arg1.toNat + s.primWidth.bytes - 1) / s.primWidth.bytes) :=
  ⟨by decide, by decide, by decide, by decide, by decide, liveSt_enc _, by decide +kernel, by decide⟩

theorem witness_IvCommands :
    4096 < (withArgs st0 4089#32 8#32 0#32 0#32).arg0.toNat + (withArgs st0 4089#32 8#32 0#32 0#32).arg1.toNat ∧
    (let s := withArgs st0 4089#32 7#32 0#32 0#32
     s.arg0.toNat + s.arg1.toNat ≤ 4096 ∧ s.arg1.toNat ≠ s.primWidth.bytes) ∧
    (let s := withArgs st0 4088#32 8#32 0#32 0#32
     s.arg0.toNat + s.arg1.toNat ≤ 4096 ∧ s.arg1.toNat = s.primWidth.bytes ∧
      s.mode.chain.length = s.primWidth.bytes ∧ s.arg0.toNat + s.primWidth.bytes ≤ 4096) ∧
    4096 < (withArgs st0 4089#32 0#32 0#32 0#32).arg0.toNat + st0.primWidth.bytes := by decide

theorem witness_CounterCommands :
    4096 < (withArgs st0 4089#32 8#32 0#32 0#32).arg0.toNat + (withArgs st0 4089#32 8#32 0#32 0#32).arg1.toNat ∧
    (let s := withArgs st0 4080#32 16#32 0#32 0#32
     s.arg0.toNat + s.arg1.toNat ≤ 4096 ∧ s.arg1.toNat ≠ s.primWidth.bytes) ∧
    (let s := withArgs st0 4088#32 8#32 0#32 0#32
     s.arg0.toNat + s.arg1.toNat ≤ 4096 ∧ s.arg1.toNat = s.primWidth.bytes ∧
      s.mode.nonce.length = s.primWidth.halfBytes ∧ s.arg0.toNat + s.primWidth.bytes ≤ 4096) ∧
    4096 < (withArgs st0 4089#32 0#32 0#32 0#32).arg0.toNat + st0.primWidth.bytes := by decide

/-- The toy primitive meets the two named properties. -/
theorem toy_blockSized : toy.blockSized := by
  intro x
  exact ⟨by simp [toy], by simp [toy]⟩

theorem toy_inverse : toy.inverse := by
  intro y hy
  have hy : y.length = 8 := hy
  match y, hy with
  | [a, b, c, d, e, f, g, h], _ => simp [toy, List.range, List.range.loop]

/-- The 13 bytes in CBC under PKCS#7, decrypted to the last bytes of `DBUF`. -/
theorem witness_EcbAndCbcRoundTrip :
    toy.blockSized ∧ toy.inverse ∧
    (let s := answeredSt (helloSt 0x631#32) (plannedCalls (encPlan toy (helloSt 0x631#32)))
     let t := after (runMode s (encPlan toy s))
     let r := { t with arg0 := s.arg2, arg1 := t.result0, arg2 := 4080#32,
                       port := { outstanding := none, answered := 2, trace := [] },
                       mode := { t.mode with chain := s.mode.chain } }
     toy.bytes = s.primWidth.bytes ∧ modeField s ≤ 1 ∧ s.mode.chain.length = s.primWidth.bytes ∧ s.err = false ∧
      s.port.answeredAll (plannedCalls (encPlan toy s)) = true ∧ runMode s (encPlan toy s) = .next t ∧ t.err = false ∧
      (4080#32).toNat + t.result0.toNat ≤ 4096 ∧ r.port.answeredAll (plannedCalls (decPlan toy r)) = true) :=
  ⟨toy_blockSized, toy_inverse, by decide, by decide, by decide, by decide, answeredSt_answered _ _,
    next_after _ (by decide +kernel), by decide +kernel, by decide +kernel, by decide +kernel⟩

theorem witness_StealingLaws :
    toy.blockSized ∧ toy.inverse ∧
    (let s := answeredSt (helloSt 0x632#32) (plannedCalls (encPlan toy (helloSt 0x632#32)))
     let t := after (runMode s (encPlan toy s))
     let r := { t with arg0 := s.arg2, arg2 := 4083#32, port := { outstanding := none, answered := 2, trace := [] },
                       mode := { t.mode with chain := s.mode.chain } }
     toy.bytes = s.primWidth.bytes ∧ (modeField s = 2 ∨ modeField s = 3) ∧ modeStateOk s ∧
      s.mode.chain.length = s.primWidth.bytes ∧ s.primWidth.bytes ≤ s.arg1.toNat ∧
      s.arg0.toNat + s.arg1.toNat ≤ 4096 ∧ s.arg2.toNat + s.arg1.toNat ≤ 4096 ∧
      s.port.answeredAll (plannedCalls (encPlan toy s)) = true ∧ (4083#32).toNat + s.arg1.toNat ≤ 4096 ∧
      r.port.answeredAll (plannedCalls (decPlan toy r)) = true) ∧
    (let s := answeredSt (helloSt 0x633#32) (plannedCalls (encPlan toy (helloSt 0x633#32)))
     let t := after (runMode s (encPlan toy s))
     let r := { t with arg0 := s.arg2, arg2 := 4083#32, port := { outstanding := none, answered := 2, trace := [] },
                       mode := { t.mode with chain := s.mode.chain } }
     toy.bytes = s.primWidth.bytes ∧ (modeField s = 2 ∨ modeField s = 3) ∧ modeStateOk s ∧
      s.mode.chain.length = s.primWidth.bytes ∧ s.primWidth.bytes ≤ s.arg1.toNat ∧
      s.arg0.toNat + s.arg1.toNat ≤ 4096 ∧ s.arg2.toNat + s.arg1.toNat ≤ 4096 ∧
      s.port.answeredAll (plannedCalls (encPlan toy s)) = true ∧ (4083#32).toNat + s.arg1.toNat ≤ 4096 ∧
      r.port.answeredAll (plannedCalls (decPlan toy r)) = true) :=
  ⟨toy_blockSized, toy_inverse, by decide +kernel, by decide +kernel⟩

/-- One state for the first law, with the decryption of what it wrote; it and a state with a shorter message for the
second. -/
theorem witness_CounterModeLaws :
    (let s := answeredSt (helloSt 0x634#32) [encCall [], encCall []]
     let r := after (exec .ctrReset (after (exec .modeEnc s)))
     let v := { r with arg0 := s.arg2, arg2 := 4083#32, port := { outstanding := none, answered := 2, trace := [] } }
     modeField s = 4 ∧ s.mode.ctrValid = true ∧ s.mode.ctr = s.mode.ctrInit ∧ s.arg0.toNat + s.arg1.toNat ≤ 4096 ∧
      s.arg2.toNat + s.arg1.toNat ≤ 4096 ∧ primLive .modeEnc s ∧ (4083#32).toNat + s.arg1.toNat ≤ 4096 ∧
      primLive .modeDec v) ∧
    (let s := answeredSt (helloSt 0x634#32) [encCall [], encCall []]
     let s1 := answeredSt (withArgs (helloSt 0x634#32) 0#32 5#32 0x200#32 0#32) [encCall []]
     modeField s1 = 4 ∧ s1.mode.ctrValid = true ∧ s1.primWidth = s.primWidth ∧ s1.mode.nonce = s.mode.nonce ∧
      s1.mode.ctr = s.mode.ctr ∧ s1.arg0.toNat + s1.arg1.toNat ≤ 4096 ∧ s1.arg2.toNat + s1.arg1.toNat ≤ 4096 ∧
      primLive .modeEnc s1 ∧ modeMsg s1 <+: modeMsg s) :=
  ⟨by decide +kernel, by decide +kernel⟩

end Sys2Proof.Tests
end

namespace Sys2Proof.Machine

/-! ## The register file of the host: reads, writes, and the registers put together from flags -/

theorem hostRead_of_reg {o : HostOffset} {r : HostReg} (h : hostRegAt o.toNat = some r) (s : State) :
    hostRead o s = { s with rdata := regRead r s } := by
  unfold hostRead
  rw [targetOf_reg h]

theorem hostWrite_of_reg {o : HostOffset} {r : HostReg} (h : hostRegAt o.toNat = some r) (w : Word) (s : State) :
    hostWrite o w s = regWrite r w s := by
  unfold hostWrite
  rw [targetOf_reg h]

theorem idleWrite_of_idle {s : State} (h : s.busy = false) (t : State) : idleWrite s t = t := by
  simp [idleWrite, h]

/-- The acknowledgement of flags as one record: a flag stays where its bit is 0, and the error goes with `ERR`. -/
theorem State.clearStatus_eq (s : State) (w : Word) :
    s.clearStatus w =
      { s with
        done := s.done && !w.getLsbD 1, err := s.err && !w.getLsbD 2, ovr := s.ovr && !w.getLsbD 3,
        accErr := s.accErr && !w.getLsbD 4,
        errCode := if w.getLsbD 2 then .none else s.errCode,
        errSub := if w.getLsbD 2 then 0#8 else s.errSub, errChk := if w.getLsbD 2 then 0#8 else s.errChk } := by
  unfold State.clearStatus State.clearErr
  cases w.getLsbD 1 <;> cases w.getLsbD 2 <;> cases w.getLsbD 3 <;> cases w.getLsbD 4 <;> simp

theorem setWidth_ofBool (b : Bool) : (BitVec.ofBool b).setWidth 32 = if b then 1#32 else 0#32 := by
  cases b <;> rfl

/-- Bit `i` of `STATUS`, by its place in the table of 10_state R43. -/
theorem State.getLsbD_statusWord (s : State) {i : Nat} (hi : i < 32) :
    s.statusWord.getLsbD i =
      if i = 0 then s.busy else if i = 1 then s.done else if i = 2 then s.err else if i = 3 then s.ovr
      else if i = 4 then s.accErr else if 8 ≤ i ∧ i < 12 then s.errCode.bits.getLsbD (i - 8)
      else if i = 16 then s.seg.finalized else if i = 17 then s.mode.ivValid
      else if i = 18 then s.mode.ctrValid else false := by
  simp only [State.statusWord, BitVec.getLsbD_append, BitVec.getLsbD_ofBool, BitVec.getLsbD_zero]
  interval_cases i <;> simp

theorem State.statusWord_reserved (s : State) : s.statusWord &&& 0xFFF8F0E0#32 = 0#32 := by
  apply BitVec.eq_of_getLsbD_eq
  intro i hi
  rw [BitVec.getLsbD_and, State.getLsbD_statusWord s hi]
  interval_cases i <;> simp

theorem State.extractLsb'_statusWord (s : State) : s.statusWord.extractLsb' 8 4 = s.errCode.bits := by
  apply BitVec.eq_of_getLsbD_eq
  intro i hi
  rw [BitVec.getLsbD_extractLsb', State.getLsbD_statusWord s (by omega)]
  interval_cases i <;> simp

theorem State.extractLsb'_errInfoWord (s : State) :
    s.errInfoWord.extractLsb' 0 8 = s.errSub ∧ s.errInfoWord.extractLsb' 8 8 = s.errChk ∧
      s.errInfoWord.extractLsb' 16 16 = 0#16 := by
  refine ⟨?_, ?_, ?_⟩ <;> apply BitVec.eq_of_getLsbD_eq <;> intro i hi <;>
    simp only [State.errInfoWord, BitVec.getLsbD_extractLsb', BitVec.getLsbD_append, BitVec.getLsbD_zero] <;>
    simp [hi, show ¬ 8 + i < 8 by omega, show ¬ 16 + i < 8 by omega, show ¬ 16 + i - 8 < 8 by omega]

/-- Bit `i` of a latched configuration in the layout of `SEG_CFG` (10_state R46, R51). -/
theorem PadCfg.getLsbD_word (c : PadCfg) {i : Nat} (hi : i < 32) :
    c.word.getLsbD i =
      if i < 3 then (schemeCode c.scheme).getLsbD i else if 4 ≤ i ∧ i < 6 then (mdWordCode c.w).getLsbD (i - 4)
      else if i = 6 then c.lenBe else if i = 7 then c.dbit else false := by
  simp only [PadCfg.word, BitVec.getLsbD_append, BitVec.getLsbD_ofBool, BitVec.getLsbD_zero]
  interval_cases i <;> simp

theorem PadCfg.extractLsb'_word (c : PadCfg) :
    c.word.extractLsb' 0 3 = schemeCode c.scheme ∧ c.word.extractLsb' 4 2 = mdWordCode c.w := by
  constructor <;> apply BitVec.eq_of_getLsbD_eq <;> intro i hi <;>
    rw [BitVec.getLsbD_extractLsb', PadCfg.getLsbD_word c (by omega)] <;> interval_cases i <;> simp

theorem PadCfg.word_reserved (c : PadCfg) : c.word &&& 0xFFFFFF08#32 = 0#32 := by
  apply BitVec.eq_of_getLsbD_eq
  intro i hi
  rw [BitVec.getLsbD_and, PadCfg.getLsbD_word c hi]
  interval_cases i <;> simp

theorem MdWord.bits_eq (w : MdWord) : 8 * 2 ^ (mdWordCode w).toNat = w.bits := by
  cases w <;> rfl

/-- The two halves of a 64-bit word, put together. -/
theorem toNat_halves (x : BitVec 64) :
    (x.extractLsb' 32 32).toNat * 2 ^ 32 + (x.extractLsb' 0 32).toNat = x.toNat := by
  have := x.isLt
  simp only [BitVec.extractLsb'_toNat, Nat.shiftRight_eq_div_pow]
  omega

theorem PadCfg.blockBits_of_legal {c : PadCfg} (h : c.legal = true) :
    c.blockBits % 8 = 0 ∧ 8 ≤ c.blockBits ∧ c.blockBits ≤ 1024 := by
  simp only [PadCfg.legal, legalBlockBits, Bool.and_eq_true, decide_eq_true_eq] at h
  exact ⟨h.1.1.1, h.1.1.2, h.1.2⟩

theorem primWidth_bits_mem (w : PrimWidth) : w.bits ∈ [64, 128, 256, 512, 1024] := by
  cases w <;> decide

@[simp] theorem State.vreg_resetWith (w : PrimWidth) (r : VReg) :
    (State.resetWith w).vreg r = { val := 0, size := 0 } := by
  simp [State.vreg, State.resetWith]

theorem State.resetWith_inv (w : PrimWidth) : (State.resetWith w).Inv where
  regs r := by rw [State.vreg_resetWith]; decide
  mem := rfl
  segCfg := show 0x60#32 &&& 0xFFFFFF08#32 = 0#32 by decide
  modeCfg := show 0x630#32 &&& 0xFFFFF088#32 = 0#32 by decide
  seg := show SegState.reset.cfg.legal = true by decide
  segLastPad := show SegState.reset.lastPad.toNat ≤ 2048 by decide
  chain := List.length_replicate
  nonce := List.length_replicate
  ctrInit := Nat.two_pow_pos _
  ctr := Nat.two_pow_pos _
  noError _ := ⟨rfl, rfl, rfl⟩
  error herr := by cases herr
  port _ := ⟨rfl, rfl⟩

/-! ## Settled: reset, reads and writes of the host's registers -/

/-- Settles O8. -/
theorem resetSatisfiesTheInvariant : Obligations.ResetSatisfiesTheInvariant :=
  ⟨State.resetWith_inv, State.resetWith_inv _⟩

/-- Settles O10. -/
theorem resetValues : Obligations.ResetValues := by
  intro w
  exact ⟨State.vreg_resetWith w, by cases w <;> decide, rfl, rfl, fun _ => rfl, rfl, ⟨rfl, rfl⟩, rfl, rfl⟩

/-- Settles O13: `CMD` is the register at offset `0x010`. -/
theorem commandWordAcceptedOrDropped : Obligations.CommandWordAcceptedOrDropped := by
  intro s c
  have hcmd : hostRegAt (0x010#13).toNat = some .cmd := rfl
  have hwrite : hostWrite 0x010#13 c s = if s.busy then { s with ovr := true } else s.accept c :=
    hostWrite_of_reg hcmd c s
  refine ⟨fun hidle => ?_, fun hbusy => ?_, hostRead_of_reg hcmd s, rfl⟩
  · rw [hwrite, hidle]; rfl
  · rw [hwrite, hbusy]; rfl

/-- Settles O16: reads by the layout of each register, writes through `hostWrite_of_reg` and `State.clearStatus_eq`. -/
theorem statusAndConfigurationRegisters : Obligations.StatusAndConfigurationRegisters := by
  intro s w
  have hstatus {i : Nat} (hi : i < 32) : (regRead .status s).getLsbD i = _ := s.getLsbD_statusWord hi
  refine ⟨⟨hstatus (by omega), hstatus (by omega), hstatus (by omega), hstatus (by omega), hstatus (by omega),
    s.extractLsb'_statusWord, hstatus (by omega), hstatus (by omega), hstatus (by omega), s.statusWord_reserved⟩,
    rfl, ⟨setWidth_ofBool s.ie, rfl, rfl, rfl, rfl, rfl, rfl, ?_, rfl⟩, ?_, fun hidle => ?_⟩
  · exact BitVec.toNat_setWidth_of_le (by omega)
  · exact (hostWrite_of_reg (r := .status) rfl w s).trans (s.clearStatus_eq w)
  · have hstore {o : HostOffset} {r : HostReg} {t : State} (ho : hostRegAt o.toNat = some r)
        (hr : regWrite r w s = idleWrite s t) : hostWrite o w s = t := by
      rw [hostWrite_of_reg ho, hr, idleWrite_of_idle hidle]
    refine ⟨hstore rfl rfl, hstore rfl rfl, hstore rfl rfl, hstore rfl rfl, hstore rfl rfl, hstore rfl rfl,
      hstore rfl rfl, fun hbit => ?_⟩
    exact (hostWrite_of_reg (r := .ctrl) rfl w s).trans (if_neg (by rw [hbit]; decide))

/-- Settles O35. -/
theorem registerReads : Obligations.RegisterReads := by
  intro s
  obtain ⟨hsub, hchk, hrest⟩ := s.extractLsb'_errInfoWord
  obtain ⟨hscheme, hw⟩ := s.seg.cfg.extractLsb'_word
  have hprim : s.primWidth.bits < 2 ^ 32 := by cases s.primWidth <;> decide
  refine ⟨rfl, rfl, rfl, rfl, hsub, hchk, hrest, toNat_halves _, BitVec.toNat_setWidth_of_le (by omega),
    setWidth_ofBool _, ⟨hscheme, ?_, s.seg.cfg.getLsbD_word (by omega),
    s.seg.cfg.getLsbD_word (by omega), s.seg.cfg.word_reserved⟩, rfl, rfl, fun hlegal => ?_, Nat.mod_eq_of_lt hprim,
    primWidth_bits_mem _, rfl, rfl, fun o r h => hostRead_of_reg h s⟩
  · exact (congrArg (fun x : BitVec 2 => 8 * 2 ^ x.toNat) hw).trans s.seg.cfg.w.bits_eq
  · obtain ⟨-, -, hle⟩ := PadCfg.blockBits_of_legal hlegal
    exact Nat.mod_eq_of_lt (by omega)

end Sys2Proof.Machine

namespace Sys2Proof.Machine

/-! ## What a computation that may raise can answer

`Answers E p r`: the computation `r` answers a value with `p` or an error with `E`. One rule per way such a computation
is put together, so that a command's checks are walked through once, for its value and for its errors. -/

/-- `r` answers a value that has `p`, or raises an error that has `E`. -/
def Answers {α : Type} (E : CmdError → Prop) (p : α → Prop) : Except CmdError α → Prop
  | .ok a => p a
  | .error e => E e

section
variable {α β : Type} {E : CmdError → Prop} {p : α → Prop} {q : β → Prop} {r : Except CmdError α}

theorem Answers.of_ok {a : α} (h : Answers E p r) (hr : r = .ok a) : p a := by
  subst hr; exact h

theorem Answers.of_error {e : CmdError} (h : Answers E p r) (hr : r = .error e) : E e := by
  subst hr; exact h

theorem answers_pure {a : α} (h : p a) : Answers E p (pure a) := h

theorem answers_error {e : CmdError} (h : E e) : Answers E p (.error e) := h

theorem Answers.imp {p' : α → Prop} (h : Answers E p r) (hp : ∀ a, p a → p' a) : Answers E p' r := by
  cases r with
  | ok a => exact hp a h
  | error e => exact h

theorem Answers.bind {f : α → Except CmdError β} (h : Answers E p r) (hf : ∀ a, p a → Answers E q (f a)) :
    Answers E q (r >>= f) := by
  cases r with
  | ok a => exact hf a h
  | error e => exact h

theorem Answers.map {f : α → β} (h : Answers E p r) (hf : ∀ a, p a → q (f a)) : Answers E q (r.map f) := by
  cases r with
  | ok a => exact hf a h
  | error e => exact h

/-- A computation whose errors are known answers what its successes are known to be. -/
theorem Answers.and_ok {p' : α → Prop} (h : Answers E p r) (hp : ∀ a, r = .ok a → p' a) : Answers E p' r := by
  cases r with
  | ok a => exact hp a rfl
  | error e => exact h

theorem answers_check {c : Bool} {code : ErrCode} {sub : BitVec 8} (hE : E { code := code, sub := sub }) :
    Answers E (fun _ => c = true) (check c code sub) := by
  cases c
  · exact hE
  · rfl

theorem answers_checkRange {a n : Nat} (hE : E { code := .address, sub := 1#8 }) :
    Answers E (fun _ => a + n ≤ 4096) (checkRange a n) :=
  (answers_check hE).imp fun _ => inRange_iff.mp

theorem answers_checkSize {n : Nat} (hE : E { code := .overflow, sub := 1#8 }) :
    Answers E (fun _ => n ≤ 1024) (checkSize n) :=
  (answers_check hE).imp fun _ => of_decide_eq_true

end

/-- The error table names the opcode for this error (60_exceptions R501). -/
abbrev opRaises (op : BitVec 8) (e : CmdError) : Prop :=
  ∃ r ∈ errorRows, r.code = e.code ∧ r.sub = e.sub ∧ op ∈ r.raisers

theorem opRaises_iff_mayRaise {i : Instr} {e : CmdError} : opRaises (opcodeByte i) e ↔ mayRaise i e.code e.sub :=
  Iff.rfl

theorem listedError_of_mayRaise {i : Instr} {code : ErrCode} {sub : BitVec 8} (h : mayRaise i code sub) :
    listedError code sub := by
  obtain ⟨r, hr, hcode, hsub, -⟩ := h
  exact ⟨r, hr, hcode, hsub⟩

/-- An error that the table gives to `MODE.ENC` and to `MODE.DEC`. -/
theorem opRaises_of_modes {op : BitVec 8} {e : CmdError} (hop : op = 0x40#8 ∨ op = 0x41#8)
    (h : opRaises 0x40#8 e ∧ opRaises 0x41#8 e) : opRaises op e := by
  rcases hop with rfl | rfl
  · exact h.1
  · exact h.2

/-! ## Lengths of blocks -/

theorem length_flatten_le {B : Nat} : ∀ {L : List (List Byte)}, (∀ x ∈ L, x.length ≤ B) →
    L.flatten.length ≤ L.length * B
  | [], _ => by simp
  | x :: L, h => by
    have hx := h x List.mem_cons_self
    have ih := length_flatten_le fun y hy => h y (List.mem_cons_of_mem x hy)
    simp only [List.flatten_cons, List.length_append, List.length_cons, Nat.add_mul, Nat.one_mul]
    omega

theorem length_flatten_map_le {B : Nat} {f : List Byte → List Byte} (hf : ∀ x, (f x).length = B)
    (L : List (List Byte)) : (L.map f).flatten.length ≤ L.length * B := by
  have h := length_flatten_le (B := B) (L := L.map f) fun b hb => by
    obtain ⟨x, -, rfl⟩ := List.mem_map.mp hb
    exact (hf x).le
  rwa [List.length_map] at h

theorem flatten_range_chunks (B : Nat) (x : List Byte) : ∀ k : Nat,
    ((List.range k).map fun i => (x.drop (i * B)).take B).flatten = x.take (k * B)
  | 0 => by simp
  | k + 1 => by
    rw [List.range_succ, List.map_append, List.flatten_append, flatten_range_chunks B x k, Nat.add_mul, Nat.one_mul,
      List.take_add]
    simp

theorem le_ceilDiv_mul {B : Nat} (hB : 0 < B) (n : Nat) : n ≤ ceilDiv n B * B := by
  have h := Nat.div_add_mod (n + B - 1) B
  have hlt := Nat.mod_lt (n + B - 1) hB
  rw [Nat.mul_comm] at h
  unfold ceilDiv
  omega

/-- Cutting a byte string into blocks loses nothing (43_modes R400). -/
theorem flatten_blocksOf {B : Nat} (hB : 0 < B) (x : List Byte) : (blocksOf B x).flatten = x := by
  rw [blocksOf, flatten_range_chunks]
  exact List.take_of_length_le (le_ceilDiv_mul hB x.length)

theorem ceilDiv_eq (B n : Nat) (hB : 0 < B) : ceilDiv n B = n / B + if n % B = 0 then 0 else 1 := by
  have h := Nat.div_add_mod n B
  have hlt := Nat.mod_lt n hB
  unfold ceilDiv
  split
  · rw [show n + B - 1 = B - 1 + B * (n / B) by omega, Nat.add_mul_div_left _ _ hB,
      Nat.div_eq_of_lt (by omega), Nat.zero_add, Nat.add_zero]
  · rw [show n + B - 1 = n % B - 1 + B * (n / B + 1) by rw [Nat.mul_add]; omega, Nat.add_mul_div_left _ _ hB,
      Nat.div_eq_of_lt (by omega), Nat.zero_add]

/-- A string of whole blocks has as many bytes as its blocks. -/
theorem length_blocksOf_mul {B : Nat} (hB : 0 < B) {x : List Byte} (h : x.length % B = 0) :
    (blocksOf B x).length * B = x.length := by
  rw [length_blocksOf, ceilDiv_eq B _ hB, if_pos h, Nat.add_zero, Nat.div_mul_cancel (Nat.dvd_of_mod_eq_zero h)]

/-- Each block of a string of whole blocks is whole. -/
theorem length_of_mem_blocksOf {B : Nat} (hB : 0 < B) {x b : List Byte} (h : x.length % B = 0)
    (hb : b ∈ blocksOf B x) : b.length = B := by
  obtain ⟨i, hi, rfl⟩ := List.getElem_of_mem hb
  have hlen := length_blocksOf_mul hB h
  have hle : (i + 1) * B ≤ (blocksOf B x).length * B := Nat.mul_le_mul_right B hi
  rw [getElem_blocksOf, List.length_take, List.length_drop]
  rw [Nat.add_mul, Nat.one_mul] at hle
  omega

theorem lastBlock_eq_or_mem (x : List Byte) (cs : List (List Byte)) : lastBlock x cs = x ∨ lastBlock x cs ∈ cs := by
  unfold lastBlock
  cases h : cs.getLast? with
  | none => exact .inl rfl
  | some c => exact .inr (List.mem_of_getLast? h)

/-! ## The mode computations: what a MODE command may write -/

section
variable {E : CmdError → Prop} {P : Prim}

/-- What is known of a successful `MODE.ENC` or `MODE.DEC` in mode `kind`: its bytes fit `DBUF` at `dst`, and which
parts of the mode state `m` it can change (10_state R71). -/
structure ModeWrite.Sound (P : Prim) (kind : ModeKind) (m : ModeState) (dst : Nat) (w : ModeWrite) : Prop where
  out : dst + w.out.length ≤ 4096
  nonce : w.mode.nonce = m.nonce
  ctrInit : w.mode.ctrInit = m.ctrInit
  chain : w.mode.chain = m.chain ∨ (w.mode.chain.length = P.bytes ∧ (kind = .cbc ∨ kind = .cbcCts))
  ctr : w.mode.ctr = m.ctr ∨ (w.mode.ctr < 2 ^ (8 * P.half) ∧ kind = .ctr)

/-- A plan whose result, or late error, is as it should be. -/
abbrev ModePlan.Sound (E : CmdError → Prop) (P : Prim) (kind : ModeKind) (m : ModeState) (dst : Nat)
    (p : ModePlan) : Prop :=
  Answers E (ModeWrite.Sound P kind m dst) p.result

theorem ModeWrite.sound_of_bytes {kind : ModeKind} {m : ModeState} {dst : Nat} {out : List Byte} {lp : BitVec 32}
    (hout : dst + out.length ≤ 4096) :
    ModeWrite.Sound P kind m dst { out := out, mode := { m with lastPad := lp } } :=
  ⟨hout, rfl, rfl, .inl rfl, .inl rfl⟩

theorem ModeWrite.sound_of_chain {kind : ModeKind} {m : ModeState} {dst : Nat} {out chain : List Byte} {lp : BitVec 32}
    (hkind : kind = .cbc ∨ kind = .cbcCts) (hout : dst + out.length ≤ 4096)
    (hchain : chain = m.chain ∨ chain.length = P.bytes) :
    ModeWrite.Sound P kind m dst { out := out, mode := { m with chain := chain, lastPad := lp } } :=
  ⟨hout, rfl, rfl, hchain.imp_right fun h => ⟨h, hkind⟩, .inl rfl⟩

theorem length_lastBlock {x : List Byte} {cs : List (List Byte)} {B : Nat} (h : ∀ c ∈ cs, c.length = B) :
    lastBlock x cs = x ∨ (lastBlock x cs).length = B :=
  (lastBlock_eq_or_mem x cs).imp_right (h _)

theorem length_cbcChain : ∀ (x : List Byte) (ps : List (List Byte)), (cbcChain P x ps).length = ps.length
  | _, [] => rfl
  | x, p :: ps => congrArg (· + 1) (length_cbcChain (P.enc (xorBytes p x)) ps)

theorem length_of_mem_cbcChain (hP : P.blockSized) : ∀ (x : List Byte) (ps : List (List Byte)),
    ∀ c ∈ (cbcChain P x ps).map Prod.snd, c.length = P.bytes
  | _, [], _, hc => by simp [cbcChain] at hc
  | x, p :: ps, c, hc => by
    rcases List.mem_cons.mp hc with rfl | hc
    · exact (hP _).1
    · exact length_of_mem_cbcChain hP _ ps c hc

/-- The output of CBC decryption is no longer than its blocks. -/
theorem length_cbcUnchain_le (hP : P.blockSized) (x : List Byte) (cs : List (List Byte)) :
    (cbcUnchain P x cs).flatten.length ≤ cs.length * P.bytes := by
  have hmem : ∀ b ∈ cbcUnchain P x cs, b.length ≤ P.bytes := by
    intro b hb
    obtain ⟨i, hi, rfl⟩ := List.getElem_of_mem hb
    simp only [cbcUnchain, List.getElem_zipWith, xorBytes_length, (hP _).2]
    exact Nat.min_le_left _ _
  have hlen : (cbcUnchain P x cs).length = cs.length := by simp [cbcUnchain]
  exact hlen ▸ length_flatten_le hmem

theorem length_flatten_cbcChain (hP : P.blockSized) (x : List Byte) (ps : List (List Byte)) :
    ((cbcChain P x ps).map Prod.snd).flatten.length ≤ ps.length * P.bytes := by
  have h := length_flatten_le fun c hc => (length_of_mem_cbcChain hP x ps c hc).le
  rwa [List.length_map, length_cbcChain] at h

/-! ### ECB and CBC -/

theorem answers_modePad {c : PadCfg} {B : Nat} {msg : List Byte} (hE : E { code := .sizeMismatch, sub := 5#8 }) :
    Answers E (fun _ => True) (modePad c B msg) :=
  (answers_check hE).bind fun _ _ => trivial

variable {c : PadCfg} {m : ModeState} {dst : Nat} {msg : List Byte}

theorem answers_ecbEnc (hP : P.blockSized) :
    Answers (opRaises 0x40#8) (ModePlan.Sound (opRaises 0x40#8) P .ecb m dst) (ecbEnc P c m dst msg) := by
  refine (answers_modePad (by decide)).bind fun ⟨ps, pb⟩ _ => (answers_checkRange (by decide)).bind fun _ hroom => ?_
  have := length_flatten_map_le (fun x => (hP x).1) ps
  exact ModeWrite.sound_of_bytes (by omega)

theorem answers_cbcEnc (hP : P.blockSized) :
    Answers (opRaises 0x40#8) (ModePlan.Sound (opRaises 0x40#8) P .cbc m dst) (cbcEnc P c m dst msg) := by
  refine (answers_modePad (by decide)).bind fun ⟨ps, pb⟩ _ => (answers_checkRange (by decide)).bind fun _ hroom => ?_
  have := length_flatten_cbcChain hP m.chain ps
  exact ModeWrite.sound_of_chain (.inl rfl) (by omega) (length_lastBlock (length_of_mem_cbcChain hP m.chain ps))

/-- Every padding removal answers a length or `PADDING` 4 (42_segmenter R321). -/
theorem answers_unpad {b : List Byte} {lp : Nat} (hE : E badPadding) : Answers E (fun _ => True) (unpad c b lp) := by
  have hwhole : Answers E (fun _ => True) (checkWholeBlocks c b.length) := (answers_check hE).imp fun _ _ => trivial
  have hsentinel (lo hi : Nat) : Answers E (fun _ => True) (sentinel b lo hi) := by
    unfold sentinel
    split
    · trivial
    · exact hE
  have hcount : Answers E (fun _ => True) (lastCount c b) :=
    hwhole.bind fun _ _ => (answers_check hE).bind fun _ _ => trivial
  unfold unpad
  cases c.scheme with
  | none => trivial
  | zero => exact (answers_check hE).bind fun _ _ => (answers_check hE).bind fun _ _ => trivial
  | bitpad => exact hwhole.bind fun _ _ => hsentinel _ _
  | pkcs7 => exact hcount.bind fun _ _ => (answers_check hE).bind fun _ _ => trivial
  | x923 => exact hcount.bind fun _ _ => trivial
  | md => exact hwhole.bind fun _ _ => hsentinel _ _
  | blake => exact hwhole.bind fun _ _ => (answers_check hE).bind fun _ _ => hsentinel _ _

theorem answers_removePad {lp : Nat} {q : List Byte} :
    Answers (opRaises 0x41#8) (fun out => out.length ≤ q.length) (removePad c lp q) :=
  (answers_unpad (by decide)).bind fun _ _ => (answers_check (by decide)).bind fun _ _ =>
    answers_pure (List.length_take_le' _ _)

theorem answers_ecbDec (hP : P.blockSized) (hB : 0 < P.bytes) :
    Answers (opRaises 0x41#8) (ModePlan.Sound (opRaises 0x41#8) P .ecb m dst) (ecbDec P c m dst msg) := by
  refine (answers_check (by decide)).bind fun _ hmod => (answers_checkRange (by decide)).bind fun _ hroom => ?_
  have hlen := length_blocksOf_mul hB (of_decide_eq_true hmod)
  have := length_flatten_map_le (fun x => (hP x).2) (blocksOf P.bytes msg)
  exact answers_removePad.map fun out hout => ModeWrite.sound_of_bytes (lp := m.lastPad) (by omega)

theorem answers_cbcDec (hP : P.blockSized) (hB : 0 < P.bytes) :
    Answers (opRaises 0x41#8) (ModePlan.Sound (opRaises 0x41#8) P .cbc m dst) (cbcDec P c m dst msg) := by
  refine (answers_check (by decide)).bind fun _ hmod => (answers_checkRange (by decide)).bind fun _ hroom => ?_
  have hlen := length_blocksOf_mul hB (of_decide_eq_true hmod)
  have := length_cbcUnchain_le hP m.chain (blocksOf P.bytes msg)
  exact answers_removePad.map fun out hout => ModeWrite.sound_of_chain (lp := m.lastPad) (.inl rfl) (by omega)
    (length_lastBlock fun b => length_of_mem_blocksOf hB (of_decide_eq_true hmod))

/-! ### Ciphertext stealing -/

/-- The cut of a message whose last block is short: whole blocks, the full block, the short one (43_modes R413). -/
theorem length_ctsCut (hle : P.bytes ≤ msg.length) (hB : 0 < P.bytes) (hmod : msg.length % P.bytes ≠ 0) :
    (ctsCut P msg).front.length * P.bytes + P.bytes + (ctsCut P msg).short.length = msg.length ∧
      (ctsCut P msg).full.length = P.bytes ∧ (ctsCut P msg).short.length ≤ P.bytes := by
  obtain ⟨k, hk⟩ : ∃ k, msg.length / P.bytes = k + 1 := Nat.exists_eq_add_of_lt (Nat.div_pos hle hB) |>.imp (by omega)
  have hn := Nat.div_add_mod msg.length P.bytes
  have hlt := Nat.mod_lt msg.length hB
  rw [hk, Nat.mul_comm, Nat.add_mul, Nat.one_mul] at hn
  have hcount : (blocksOf P.bytes msg).length = k + 2 := by
    rw [length_blocksOf, ceilDiv_eq _ _ hB, if_neg hmod, hk]
  have hfull : (ctsCut P msg).full = (msg.drop (k * P.bytes)).take P.bytes := by
    simp only [ctsCut, hcount]
    rw [List.getD_eq_getElem _ _ (by omega), getElem_blocksOf]; rfl
  have hshort : (ctsCut P msg).short = (msg.drop ((k + 1) * P.bytes)).take P.bytes := by
    simp only [ctsCut, hcount]
    rw [List.getD_eq_getElem _ _ (by omega), getElem_blocksOf]; rfl
  have hfront : (ctsCut P msg).front.length = k := by
    simp only [ctsCut, List.length_take, hcount]
    omega
  rw [hfull, hshort, hfront, List.length_take, List.length_take, List.length_drop, List.length_drop, Nat.add_mul,
    Nat.one_mul]
  omega

theorem answers_ctsCheck {op : BitVec 8} (hop : op = 0x40#8 ∨ op = 0x41#8) :
    Answers (opRaises op) (fun _ => P.bytes ≤ msg.length ∧ dst + msg.length ≤ 4096) (ctsCheck P dst msg) :=
  (answers_check (opRaises_of_modes hop (by decide))).bind fun _ hle =>
    (answers_checkRange (opRaises_of_modes hop (by decide))).imp fun _ hroom => ⟨of_decide_eq_true hle, hroom⟩

theorem ecbCtsEnc_sound (hP : P.blockSized) (hB : 0 < P.bytes) (hle : P.bytes ≤ msg.length)
    (hroom : dst + msg.length ≤ 4096) : (ecbCtsEnc P m msg).Sound E P .ecbCts m dst := by
  unfold ecbCtsEnc
  split
  case isTrue hmod =>
    have hlen := length_blocksOf_mul hB hmod
    have := length_flatten_map_le (fun x => (hP x).1) (blocksOf P.bytes msg)
    exact ModeWrite.sound_of_bytes (lp := m.lastPad) (by omega)
  case isFalse hmod =>
    obtain ⟨hcut, -, -⟩ := length_ctsCut hle hB hmod
    have := length_flatten_map_le (fun x => (hP x).1) (ctsCut P msg).front
    refine ModeWrite.sound_of_bytes (lp := m.lastPad) ?_
    simp only [List.length_append, List.length_take, (hP _).1]
    omega

theorem ecbCtsDec_sound (hP : P.blockSized) (hB : 0 < P.bytes) (hle : P.bytes ≤ msg.length)
    (hroom : dst + msg.length ≤ 4096) : (ecbCtsDec P m msg).Sound E P .ecbCts m dst := by
  unfold ecbCtsDec
  split
  case isTrue hmod =>
    have hlen := length_blocksOf_mul hB hmod
    have := length_flatten_map_le (fun x => (hP x).2) (blocksOf P.bytes msg)
    exact ModeWrite.sound_of_bytes (lp := m.lastPad) (by omega)
  case isFalse hmod =>
    obtain ⟨hcut, -, -⟩ := length_ctsCut hle hB hmod
    have := length_flatten_map_le (fun x => (hP x).2) (ctsCut P msg).front
    refine ModeWrite.sound_of_bytes (lp := m.lastPad) ?_
    simp only [List.length_append, List.length_take, (hP _).2]
    omega

theorem cbcCtsEnc_sound (hP : P.blockSized) (hB : 0 < P.bytes) (hle : P.bytes ≤ msg.length)
    (hroom : dst + msg.length ≤ 4096) : (cbcCtsEnc P m msg).Sound E P .cbcCts m dst := by
  unfold cbcCtsEnc
  split
  case isTrue hmod =>
    have hlen := length_blocksOf_mul hB hmod
    have := length_flatten_cbcChain hP m.chain (blocksOf P.bytes msg)
    exact ModeWrite.sound_of_chain (lp := m.lastPad) (.inr rfl) (by omega)
      (length_lastBlock (length_of_mem_cbcChain hP m.chain _))
  case isFalse hmod =>
    obtain ⟨hcut, -, -⟩ := length_ctsCut hle hB hmod
    have := length_flatten_cbcChain hP m.chain (ctsCut P msg).front
    refine ModeWrite.sound_of_chain (lp := m.lastPad) (.inr rfl) ?_ (.inr (hP _).1)
    simp only [List.length_append, List.length_take, (hP _).1]
    omega

theorem cbcCtsDec_sound (hP : P.blockSized) (hB : 0 < P.bytes) (hle : P.bytes ≤ msg.length)
    (hroom : dst + msg.length ≤ 4096) : (cbcCtsDec P m msg).Sound E P .cbcCts m dst := by
  unfold cbcCtsDec
  split
  case isTrue hmod =>
    have hlen := length_blocksOf_mul hB hmod
    have := length_cbcUnchain_le hP m.chain (blocksOf P.bytes msg)
    exact ModeWrite.sound_of_chain (lp := m.lastPad) (.inr rfl) (by omega)
      (length_lastBlock fun b => length_of_mem_blocksOf hB hmod)
  case isFalse hmod =>
    obtain ⟨hcut, hfull, -⟩ := length_ctsCut hle hB hmod
    have := length_cbcUnchain_le hP m.chain (ctsCut P msg).front
    refine ModeWrite.sound_of_chain (lp := m.lastPad) (.inr rfl) ?_ (.inr hfull)
    simp only [List.length_append, List.length_take, xorBytes_length, (hP _).2]
    omega

/-! ### CTR -/

/-- What CTR writes is no longer than the blocks it walks. -/
theorem length_ctrWalk_le (key : Nat → List Byte) : ∀ (c : Nat) (bs : List (List Byte)),
    ((ctrWalk P c bs).1.map fun x => xorBytes x.2 ((key x.1).take x.2.length)).flatten.length ≤ bs.flatten.length
  | _, [] => by simp [ctrWalk]
  | c, b :: bs => by
    have ih := length_ctrWalk_le key (ctrNext P c) bs
    simp only [ctrWalk, List.map_cons, List.flatten_cons, List.length_append, xorBytes_length]
    omega

/-- The counter after a walk: as before if there was no block, and never above its width. -/
theorem ctrWalk_ctr : ∀ (c : Nat) (bs : List (List Byte)),
    (ctrWalk P c bs).2 = c ∨ (ctrWalk P c bs).2 < 2 ^ (8 * P.half)
  | _, [] => .inl rfl
  | c, b :: bs => by
    have hnext : ctrNext P c < 2 ^ (8 * P.half) := Nat.mod_lt _ (Nat.two_pow_pos _)
    rcases ctrWalk_ctr (ctrNext P c) bs with h | h
    · exact .inr (h.symm ▸ hnext)
    · exact .inr h

theorem answers_ctrXcrypt {op : BitVec 8} (hop : op = 0x40#8 ∨ op = 0x41#8) (hB : 0 < P.bytes) :
    Answers (opRaises op) (ModePlan.Sound (opRaises op) P .ctr m dst) (ctrXcrypt P m dst msg) := by
  refine (answers_checkRange (opRaises_of_modes hop (by decide))).bind fun _ hroom => ?_
  have hlen := length_ctrWalk_le (P := P) (fun c => P.enc (ctrBlock P m.nonce c)) m.ctr (blocksOf P.bytes msg)
  rw [flatten_blocksOf hB] at hlen
  exact ⟨(Nat.add_le_add_left hlen dst).trans hroom, rfl, rfl, .inl rfl,
    (ctrWalk_ctr m.ctr _).imp_right fun h => ⟨h, rfl⟩⟩

/-! ### The commands' plans -/

theorem answers_encByMode (hP : P.blockSized) (hB : 0 < P.bytes) (x : ModeSample) :
    Answers (opRaises 0x40#8) (ModePlan.Sound (opRaises 0x40#8) P x.kind m dst) (encByMode P x m dst msg) := by
  unfold encByMode
  cases x.kind with
  | ecb => exact answers_ecbEnc hP
  | cbc => exact answers_cbcEnc hP
  | ecbCts => exact (answers_ctsCheck (.inl rfl)).map fun _ ⟨hle, hroom⟩ => ecbCtsEnc_sound hP hB hle hroom
  | cbcCts => exact (answers_ctsCheck (.inl rfl)).map fun _ ⟨hle, hroom⟩ => cbcCtsEnc_sound hP hB hle hroom
  | ctr => exact answers_ctrXcrypt (.inl rfl) hB

theorem answers_decByMode (hP : P.blockSized) (hB : 0 < P.bytes) (x : ModeSample) :
    Answers (opRaises 0x41#8) (ModePlan.Sound (opRaises 0x41#8) P x.kind m dst) (decByMode P x m dst msg) := by
  unfold decByMode
  cases x.kind with
  | ecb => exact answers_ecbDec hP hB
  | cbc => exact answers_cbcDec hP hB
  | ecbCts => exact (answers_ctsCheck (.inr rfl)).map fun _ ⟨hle, hroom⟩ => ecbCtsDec_sound hP hB hle hroom
  | cbcCts => exact (answers_ctsCheck (.inr rfl)).map fun _ ⟨hle, hroom⟩ => cbcCtsDec_sound hP hB hle hroom
  | ctr => exact answers_ctrXcrypt (.inr rfl) hB

end

/-- The number of a mode in `MODE_CFG.MODE` (10_state R52). -/
def ModeKind.number : ModeKind → Nat
  | .ecb => 0
  | .cbc => 1
  | .ecbCts => 2
  | .cbcCts => 3
  | .ctr => 4

theorem modeOfCode_eq_some {c : BitVec 3} {kind : ModeKind} (h : modeOfCode c = some kind) : c.toNat = kind.number := by
  unfold modeOfCode at h
  split at h <;> cases h <;> assumption

/-- The checks of 43_modes R401: the sampled mode is the one in `MODE_CFG`. -/
theorem answers_modeSample {op : BitVec 8} (hop : op = 0x40#8 ∨ op = 0x41#8) (modeCfg : Word) (B : Nat) :
    Answers (opRaises op) (fun x => (modeCfg.extractLsb' 0 3).toNat = x.kind.number) (modeSample modeCfg B) := by
  unfold modeSample
  split
  · exact answers_error (opRaises_of_modes hop (by decide))
  · rename_i kind hkind
    have hnumber := modeOfCode_eq_some hkind
    split_ifs
    · split
      · exact answers_error (opRaises_of_modes hop (by decide))
      · exact (answers_check (opRaises_of_modes hop (by decide))).bind fun _ _ => hnumber
    · exact hnumber

theorem answers_modeStateCheck {op : BitVec 8} (hop : op = 0x40#8 ∨ op = 0x41#8) (kind : ModeKind) (m : ModeState) :
    Answers (opRaises op) (fun _ => True) (modeStateCheck kind m) := by
  have hiv : Answers (opRaises op) (fun _ => True) (check m.ivValid .state 1#8) :=
    (answers_check (opRaises_of_modes hop (by decide))).imp fun _ _ => trivial
  have hctr : Answers (opRaises op) (fun _ => True) (check m.ctrValid .state 2#8) :=
    (answers_check (opRaises_of_modes hop (by decide))).imp fun _ _ => trivial
  cases kind with
  | ecb => trivial
  | cbc => exact hiv
  | ecbCts => trivial
  | cbcCts => exact hiv
  | ctr => exact hctr

/-- A MODE command's plan at `s`: sound in the mode that `MODE_CFG` selects. -/
def planSound (op : BitVec 8) (P : Prim) (s : State) (p : ModePlan) : Prop :=
  ∃ kind : ModeKind, modeField s = kind.number ∧ p.Sound (opRaises op) P kind s.mode s.arg2.toNat

theorem answers_modePlan {op : BitVec 8} (hop : op = 0x40#8 ∨ op = 0x41#8) {P : Prim}
    {byMode : Prim → ModeSample → ModeState → Nat → List Byte → Except CmdError ModePlan} {s : State}
    (h : ∀ x : ModeSample, Answers (opRaises op) (ModePlan.Sound (opRaises op) P x.kind s.mode s.arg2.toNat)
      (byMode P x s.mode s.u2 (s.memRead s.u0 s.u1))) :
    Answers (opRaises op) (planSound op P s) (modePlan P byMode s) :=
  (answers_modeSample hop _ _).bind fun x hkind => (answers_modeStateCheck hop _ _).bind fun _ _ =>
    (answers_checkRange (opRaises_of_modes hop (by decide))).bind fun _ _ =>
      (h x).imp fun _ hp => ⟨x.kind, hkind, hp⟩

/-- The attached primitive answers blocks of its size. -/
theorem attachedPrim_blockSized (w : PrimWidth) : (attachedPrim w).blockSized :=
  fun _ => ⟨length_leBytes _ _, length_leBytes _ _⟩

theorem attachedPrim_bytes_pos (w : PrimWidth) : 0 < (attachedPrim w).bytes := by
  cases w <;> decide

theorem answers_encPlan (s : State) :
    Answers (opRaises 0x40#8) (planSound 0x40#8 (attachedPrim s.primWidth) s)
      (encPlan (attachedPrim s.primWidth) s) :=
  answers_modePlan (.inl rfl) fun x =>
    answers_encByMode (attachedPrim_blockSized _) (attachedPrim_bytes_pos _) x

theorem answers_decPlan (s : State) :
    Answers (opRaises 0x41#8) (planSound 0x41#8 (attachedPrim s.primWidth) s)
      (decPlan (attachedPrim s.primWidth) s) :=
  answers_modePlan (.inr rfl) fun x =>
    answers_decByMode (attachedPrim_blockSized _) (attachedPrim_bytes_pos _) x

end Sys2Proof.Machine

namespace Sys2Proof.Machine

/-! ## What a command, and what a step, can do -/

/-- What command `i` writes at `s` when it completes, before the completion itself; or the error it raises. -/
def commandWrites (i : Instr) (s : State) : Except CmdError State :=
  match i with
  | .nop => .ok s
  | .bvLdi vd sz => (ldiValue sz s).map (s.setV vd)
  | .bvLdb vd bo sz => (ldbValue bo sz s).map (s.setV vd)
  | .bvStb va bo => (stbBytes va bo s).map fun out => (s.memWrite s.u0 out).setResult0 (s.vreg va).byteCount
  | .bvLdbits vd => (ldbitsValue s).map (s.setV vd)
  | .bvMov vd va => .ok (s.setV vd (s.vreg va))
  | .bvSize va => .ok (s.setResult0 (s.vreg va).size)
  | .bvRdw va => .ok (s.setResult0 (((s.vreg va).val >>> (32 * s.u0)) &&& 0xFFFFFFFF))
  | .bvGet vd va => (getBit va s).map fun x => (s.setV vd { val := x.toNat, size := 1 }).setResult0 x.toNat
  | .bvSet vd => (setValue vd s).map (s.setV vd)
  | .bvGets vd va ns ne => (getsValue va ns ne s).map (s.setV vd)
  | .bvSets vd va ns ne co => (setsValue vd va ns ne co s).map (s.setV vd)
  | .bvAnd vd va vb => .ok (s.setV vd (bvAnd (s.vreg va) (s.vreg vb)))
  | .bvOr vd va vb => .ok (s.setV vd (bvOr (s.vreg va) (s.vreg vb)))
  | .bvXor vd va vb => .ok (s.setV vd (bvXor (s.vreg va) (s.vreg vb)))
  | .bvNot vd va => .ok (s.setV vd (bvNot (s.vreg va)))
  | .bvAdd vd va vb => .ok (s.setV vd (bvAdd (s.vreg va) (s.vreg vb)))
  | .bvSub vd va vb => .ok (s.setV vd (bvSub (s.vreg va) (s.vreg vb)))
  | .bvShl vd va => .ok (s.setV vd (bvShl (s.vreg va) s.u0))
  | .bvShr vd va => .ok (s.setV vd (bvShr (s.vreg va) s.u0))
  | .bvCat vd va vb => (catValue (s.vreg va) (s.vreg vb)).map (s.setV vd)
  | .bvZext vd => (zextValue (s.vreg vd) s.u0).map (s.setV vd)
  | .bvSext vd => (sextValue (s.vreg vd) s.u0).map (s.setV vd)
  | .bvHw va => .ok (s.setResult0 (popcount (s.vreg va).val))
  | .bvHd va vb => (hamming (s.vreg va) (s.vreg vb)).map s.setResult0
  | .bvPack va big => (packBytes va big s).map fun out => (s.memWrite s.u0 out).setResult0 (s.vreg va).byteCount
  | .bvUnpack vd big => (unpackValue big s).map fun r => (s.setV vd r).setResult0 r.size
  | .segReset => (segConfig s).map fun c =>
      { s with seg := { cfg := c, processed := 0#64, finalized := false, lastPad := 0#12 } }
  | .segFeed pad decl => (feedPlan pad decl s).map fun p =>
      (({ s with seg := p.seg }.memWrite s.u3 p.out).setResult0 p.out.length).setResult1 p.blocks
  | .segUnpad => (segUnpadLength s).map fun l => (s.setResult0 l).setResult1 (ceilDiv l 8)
  | .modeEnc => encPlan (attachedPrim s.primWidth) s >>= fun p => p.result.map (s.applyMode p)
  | .modeDec => decPlan (attachedPrim s.primWidth) s >>= fun p => p.result.map (s.applyMode p)
  | .modeSetiv => (loadBlock s).map fun b => { s with mode := { s.mode with chain := b, ivValid := true } }
  | .modeGetiv => storeBlock s.mode.chain s
  | .modeSetctr => (loadBlock s).map fun b => { s with mode := s.mode.loadCounter s.primWidth.halfBytes b }
  | .modeGetctr => storeBlock s.counterBlock s
  | .ctrReset => .ok { s with mode := { s.mode with ctr := s.mode.ctrInit } }

/-- `t` is how a command that writes `r` at `s` ends, but for the draw counter: the completion, or the error. -/
def EndsAs (s : State) (r : Except CmdError State) (t : State) : Prop :=
  (∃ u d, r = .ok u ∧ t = { u.complete with draws := d }) ∨
  (∃ e d, r = .error e ∧ t = { s.raise e with draws := d })

theorem finish_endsAs {s t : State} {r : Except CmdError State} (h : finish s r = .next t) : EndsAs s r t := by
  rcases finish_cases h with ⟨u, hr, rfl⟩ | ⟨e, hr, rfl⟩
  · exact .inl ⟨u, _, hr, rfl⟩
  · exact .inr ⟨e, _, hr, rfl⟩

theorem finishRead_endsAs {s t : State} {r : Except CmdError State} (h : finishRead s r = .next t) :
    EndsAs s r t := by
  rcases finishRead_cases h with ⟨u, hr, rfl⟩ | ⟨e, hr, rfl⟩
  · exact .inl ⟨u, _, hr, rfl⟩
  · exact .inr ⟨e, _, hr, rfl⟩

/-- A MODE command that does not wait has had every call answered, or raises before the first one. -/
theorem runMode_endsAs {s t : State} {r : Except CmdError ModePlan} (h : runMode s r = .next t) :
    t = s ∨ ((∀ p, r = .ok p → s.port.answeredAll p.calls = true) ∧
      EndsAs s (r >>= fun p => p.result.map (s.applyMode p)) t) := by
  rcases runMode_cases h with ⟨e, rfl, rfl⟩ | ⟨p, -, -, rfl⟩ | ⟨p, e, rfl, ha, hp, rfl⟩ | ⟨p, w, rfl, ha, hp, rfl⟩
  · exact .inr ⟨fun p hp => (by cases hp), .inr ⟨e, _, rfl, rfl⟩⟩
  · exact .inl rfl
  · refine .inr ⟨fun q hq => by cases hq; exact ha, .inr ⟨e, _, ?_, rfl⟩⟩
    exact Except.map_eq_error_iff.mpr hp
  · refine .inr ⟨fun q hq => by cases hq; exact ha, .inl ⟨_, _, ?_, rfl⟩⟩
    exact Except.map_eq_ok_iff.mpr ⟨w, hp, rfl⟩

/-- Everything a command can answer: a MODE command's wait, the completion of its writes, or its error. -/
theorem exec_cases {i : Instr} {s t : State} (h : exec i s = .next t) :
    (t = s ∧ (i = .modeEnc ∨ i = .modeDec)) ∨ EndsAs s (commandWrites i s) t := by
  cases i
  case modeEnc => exact (runMode_endsAs h).imp (fun ht => ⟨ht, .inl rfl⟩) And.right
  case modeDec => exact (runMode_endsAs h).imp (fun ht => ⟨ht, .inr rfl⟩) And.right
  case bvLdb | bvLdbits | bvUnpack | segFeed | segUnpad | modeSetiv | modeSetctr => exact .inr (finishRead_endsAs h)
  all_goals exact .inr (finish_endsAs h)

/-- What a soft reset needs: a write of `CTRL` with bit 1 set (10_state R42). -/
abbrev softResets (o : HostOffset) (w : Word) : Prop := o = 0x008#13 ∧ w.getLsbD 1 = true

/-- Everything one step can do: nothing, a host access, a reset, an event of the port, the end of a command whose word
does not decode, or a command. -/
theorem step_cases {s t : State} (h : step s = .next t) :
    (s.agenda = [] ∧ t = s) ∨
    ∃ e rest, s.agenda = e :: rest ∧
      ((∃ o w, e = .write o w ∧ t = hostWrite o w { s with agenda := rest }) ∨
       (∃ o, e = .read o ∧ t = hostRead o { s with agenda := rest }) ∨
       (e = .hardReset ∧ t = State.hardReset { s with agenda := rest }) ∨
       (e = .prim ∧ t = primEvent { s with agenda := rest }) ∨
       (e = .engine ∧ s.busy = false ∧ t = { s with agenda := rest }) ∨
       (∃ err, e = .engine ∧ s.busy = true ∧ decode s.cmd = .error err ∧
         t = State.raise { s with agenda := rest } (decodeErrorCmd err)) ∨
       (∃ i, e = .engine ∧ s.busy = true ∧ decode s.cmd = .ok i ∧ exec i { s with agenda := rest } = .next t)) := by
  unfold step at h
  split at h
  · rename_i hnil
    exact .inl ⟨hnil, by cases h; rfl⟩
  · rename_i e rest hcons
    refine .inr ⟨e, rest, hcons, ?_⟩
    cases e with
    | write o w => cases h; exact .inl ⟨o, w, rfl, rfl⟩
    | read o => cases h; exact .inr (.inl ⟨o, rfl, rfl⟩)
    | hardReset => cases h; exact .inr (.inr (.inl ⟨rfl, rfl⟩))
    | prim => cases h; exact .inr (.inr (.inr (.inl ⟨rfl, rfl⟩)))
    | engine =>
      simp only [stepEvent, engineTurn] at h
      split_ifs at h with hbusy
      · split at h
        · rename_i i hi
          exact .inr (.inr (.inr (.inr (.inr (.inr ⟨i, rfl, hbusy, hi, h⟩)))))
        · rename_i err herr
          cases h
          exact .inr (.inr (.inr (.inr (.inr (.inl ⟨err, rfl, hbusy, herr, rfl⟩)))))
      · cases h
        exact .inr (.inr (.inr (.inr (.inl ⟨rfl, by simpa using hbusy, rfl⟩))))

/-! ## What the events leave unchanged -/

theorem hostRead_keeps (o : HostOffset) (s : State) :
    (hostRead o s).v = s.v ∧ (hostRead o s).seg = s.seg ∧ (hostRead o s).mode = s.mode := by
  unfold hostRead
  split
  case h_2 => by_cases hbusy : s.busy = true <;> simp [hbusy]
  all_goals exact ⟨rfl, rfl, rfl⟩

theorem primEvent_keeps (s : State) : (primEvent s).seg = s.seg ∧ (primEvent s).mode = s.mode := by
  rcases primEvent_cases s with h | ⟨-, -, h⟩ | ⟨-, -, c, -, h⟩ <;> rw [h] <;> exact ⟨rfl, rfl⟩

theorem hostRegAt_eq_ctrl {n : Nat} (h : hostRegAt n = some .ctrl) : n = 0x008 := by
  unfold hostRegAt at h
  split at h <;> cases h
  rfl

/-- The register an offset reaches is the one of the map. -/
theorem hostRegAt_of_targetOf {o : HostOffset} {r : HostReg} (h : targetOf o = .reg r) :
    hostRegAt o.toNat = some r := by
  simp only [targetOf] at h
  split_ifs at h
  cases hreg : hostRegAt o.toNat <;> rw [hreg] at h <;> cases h
  rfl

/-- A `DBUF` word that an offset reaches lies inside `DBUF`. -/
theorem dbufWord_inside {o : HostOffset} {a : Nat} (h : targetOf o = .dbuf a) : a + 4 ≤ 4096 := by
  have ho : o.toNat < 8192 := o.isLt
  simp only [targetOf] at h
  split_ifs at h
  · have ha := Target.dbuf.inj h
    omega
  · split at h <;> cases h

theorem idleWrite_cases (s t : State) : idleWrite s t = s.refuseAccess ∨ (s.busy = false ∧ idleWrite s t = t) := by
  cases hbusy : s.busy
  · exact .inr ⟨rfl, idleWrite_of_idle hbusy t⟩
  · exact .inl (if_pos hbusy)

/-- What a configuration or argument register takes from a write while idle: the argument or block-size registers
any value, `SEG_CFG` and `MODE_CFG` the defined bits of the word (10_state R35, R46, R47, R52). -/
def storesConfig (w : Word) (s t : State) : Prop :=
  ∃ a0 a1 a2 a3 segCfg segBlkBits modeCfg, (segCfg = s.segCfg ∨ segCfg = w &&& segCfgMask) ∧
    (modeCfg = s.modeCfg ∨ modeCfg = w &&& modeCfgMask) ∧
    t = { s with arg0 := a0, arg1 := a1, arg2 := a2, arg3 := a3, segCfg := segCfg, segBlkBits := segBlkBits,
                 modeCfg := modeCfg }

/-- Everything a host write can do. -/
theorem hostWrite_cases (o : HostOffset) (w : Word) (s : State) :
    (softResets o w ∧ hostWrite o w s = s.softReset) ∨
    hostWrite o w s = s.refuseAccess ∨
    hostWrite o w s = s.clearStatus w ∨
    hostWrite o w s = { s with ie := w.getLsbD 0 } ∨
    hostWrite o w s = { s with ovr := true } ∨
    hostWrite o w s = s.accept w ∨
    (∃ a, a + 4 ≤ 4096 ∧ hostWrite o w s = s.memWrite a (leBytes 4 w.toNat)) ∨
    storesConfig w s (hostWrite o w s) := by
  have hconfig {t : State} (ht : storesConfig w s t) :
      idleWrite s t = s.refuseAccess ∨ storesConfig w s (idleWrite s t) :=
    (idleWrite_cases s t).imp_right fun ⟨_, he⟩ => he.symm ▸ ht
  cases htarget : targetOf o with
  | misaligned => exact .inr (.inl (by rw [hostWrite, htarget]))
  | unmapped => exact .inr (.inl (by rw [hostWrite, htarget]))
  | dbuf a =>
    have hwrite : hostWrite o w s = idleWrite s (s.memWrite a (leBytes 4 w.toNat)) := by rw [hostWrite, htarget]
    rcases idleWrite_cases s (s.memWrite a (leBytes 4 w.toNat)) with he | ⟨-, he⟩
    · exact .inr (.inl (hwrite.trans he))
    · exact .inr (.inr (.inr (.inr (.inr (.inr (.inl ⟨a, dbufWord_inside htarget, hwrite.trans he⟩))))))
  | reg r =>
    have hreg := hostRegAt_of_targetOf htarget
    rw [hostWrite_of_reg hreg]
    cases r
    case ctrl =>
      have ho : o = 0x008#13 := BitVec.eq_of_toNat_eq (hostRegAt_eq_ctrl hreg)
      by_cases hbit : w.getLsbD 1 = true
      · exact .inl ⟨⟨ho, hbit⟩, if_pos hbit⟩
      · exact .inr (.inr (.inr (.inl (if_neg hbit))))
    case status => exact .inr (.inr (.inl rfl))
    case cmd =>
      by_cases hbusy : s.busy = true
      · exact .inr (.inr (.inr (.inr (.inl (if_pos hbusy)))))
      · exact .inr (.inr (.inr (.inr (.inr (.inl (if_neg hbusy))))))
    case arg0 | arg1 | arg2 | arg3 | segBlkBits =>
      rcases hconfig ⟨_, _, _, _, _, _, _, .inl rfl, .inl rfl, rfl⟩ with h | h
      · exact .inr (.inl h)
      · exact .inr (.inr (.inr (.inr (.inr (.inr (.inr h))))))
    case segCfg =>
      rcases hconfig ⟨_, _, _, _, _, _, _, .inr rfl, .inl rfl, rfl⟩ with h | h
      · exact .inr (.inl h)
      · exact .inr (.inr (.inr (.inr (.inr (.inr (.inr h))))))
    case modeCfg =>
      rcases hconfig ⟨_, _, _, _, _, _, _, .inl rfl, .inr rfl, rfl⟩ with h | h
      · exact .inr (.inl h)
      · exact .inr (.inr (.inr (.inr (.inr (.inr (.inr h))))))
    all_goals exact .inr (.inl rfl)

/-- A host write that is no soft reset changes no V register and neither the segmenter nor the mode state. -/
theorem hostWrite_keeps {o : HostOffset} {w : Word} (h : ¬ softResets o w) (s : State) :
    (hostWrite o w s).v = s.v ∧ (hostWrite o w s).seg = s.seg ∧ (hostWrite o w s).mode = s.mode := by
  rcases hostWrite_cases o w s with ⟨hreset, -⟩ | he | he | he | he | he | ⟨a, -, he⟩ |
    ⟨_, _, _, _, _, _, _, -, -, he⟩
  · exact absurd hreset h
  case inr.inr.inl => rw [he, State.clearStatus_eq]; exact ⟨rfl, rfl, rfl⟩
  all_goals rw [he]; exact ⟨rfl, rfl, rfl⟩

/-- A step changes the segmenter or the mode state only by a reset or by the writes of a command that completes. -/
theorem step_seg_mode {s t : State} (h : step s = .next t) :
    (t.seg = s.seg ∧ t.mode = s.mode) ∨ resetsNext s ∨
    ∃ i rest u d, runs s i ∧ exec i { s with agenda := rest } = .next t ∧
      commandWrites i { s with agenda := rest } = .ok u ∧ t = { u.complete with draws := d } := by
  rcases step_cases h with ⟨-, rfl⟩ | ⟨e, rest, hagenda, hevent⟩
  · exact .inl ⟨rfl, rfl⟩
  · rcases hevent with ⟨o, w, rfl, rfl⟩ | ⟨o, -, rfl⟩ | ⟨rfl, -⟩ | ⟨-, rfl⟩ | ⟨-, -, rfl⟩ | ⟨err, -, -, -, rfl⟩ |
      ⟨i, rfl, hbusy, hdecode, hexec⟩
    · by_cases hreset : softResets o w
      · exact .inr (.inl ⟨_, rest, hagenda, .inr ⟨w, by rw [hreset.1], hreset.2⟩⟩)
      · exact .inl (hostWrite_keeps hreset _).2
    · exact .inl (hostRead_keeps o _).2
    · exact .inr (.inl ⟨_, rest, hagenda, .inl rfl⟩)
    · exact .inl (primEvent_keeps _)
    · exact .inl ⟨rfl, rfl⟩
    · exact .inl ⟨rfl, rfl⟩
    · rcases exec_cases hexec with ⟨rfl, -⟩ | ⟨u, d, hwrites, ht⟩ | ⟨err, d, -, rfl⟩
      · exact .inl ⟨rfl, rfl⟩
      · exact .inr (.inr ⟨i, rest, u, d, ⟨hbusy, hdecode, rest, hagenda⟩, hexec, hwrites, ht⟩)
      · exact .inl ⟨rfl, rfl⟩

/-! ## Which commands change the segmenter and the mode state -/

theorem storeBlock_ok {b : List Byte} {s u : State} (h : storeBlock b s = .ok u) :
    u = (s.memWrite s.u0 b).setResult0 s.primWidth.bytes := by
  rw [storeBlock_eq] at h
  split_ifs at h
  cases h
  rfl

/-- The writes of a MODE command are those of a sound plan. -/
theorem modeWrites_ok {s u : State} {r : Except CmdError ModePlan}
    (h : (r >>= fun p => p.result.map (s.applyMode p)) = .ok u) :
    ∃ p w, r = .ok p ∧ p.result = .ok w ∧ u = s.applyMode p w := by
  cases r with
  | error e => cases h
  | ok p =>
    obtain ⟨w, hw, hu⟩ := Except.map_eq_ok_iff.mp h
    exact ⟨p, w, rfl, hw, hu.symm⟩

/-- Only `SEG.RESET` and `SEG.FEED` change the segmenter, and a feed keeps the configuration and was not finalized. -/
theorem commandWrites_seg {i : Instr} {s u : State} (h : commandWrites i s = .ok u) :
    u.seg = s.seg ∨ i = .segReset ∨
      ((∃ pad decl, i = .segFeed pad decl) ∧ u.seg.cfg = s.seg.cfg ∧ s.seg.finalized = false) := by
  cases i
  case segReset => exact .inr (.inl rfl)
  case segFeed pad decl =>
    obtain ⟨p, hp, rfl⟩ := Except.map_eq_ok_iff.mp h
    obtain ⟨hfinal, -, -, -, -, rfl, -⟩ := feedPlan_ok hp
    exact .inr (.inr ⟨⟨pad, decl, rfl⟩, by cases pad <;> rfl, hfinal⟩)
  case modeEnc | modeDec => obtain ⟨p, w, -, -, rfl⟩ := modeWrites_ok h; exact .inl rfl
  case modeGetiv | modeGetctr => rw [storeBlock_ok h]; exact .inl rfl
  case nop | bvMov | bvSize | bvRdw | bvAnd | bvOr | bvXor | bvNot | bvAdd | bvSub | bvShl | bvShr | bvHw | ctrReset =>
    cases h; exact .inl rfl
  all_goals obtain ⟨_, -, rfl⟩ := Except.map_eq_ok_iff.mp h; exact .inl rfl

/-- What a successful `MODE.ENC` or `MODE.DEC` leaves of the mode state (10_state R71). -/
theorem planSound_mode {op : BitVec 8} {P : Prim} {s : State} {p : ModePlan} {w : ModeWrite} (h : planSound op P s p)
    (hw : p.result = .ok w) :
    w.mode.nonce = s.mode.nonce ∧ w.mode.ctrInit = s.mode.ctrInit ∧
      (w.mode.chain = s.mode.chain ∨ modeField s = 1 ∨ modeField s = 3) ∧
      (w.mode.ctr = s.mode.ctr ∨ modeField s = 4) := by
  obtain ⟨kind, hkind, hsound⟩ := h
  have hwrite := hsound.of_ok hw
  refine ⟨hwrite.nonce, hwrite.ctrInit, hwrite.chain.imp_right ?_, hwrite.ctr.imp_right ?_⟩
  · rintro ⟨-, rfl | rfl⟩
    · exact .inl hkind
    · exact .inr hkind
  · rintro ⟨-, rfl⟩
    exact hkind

/-- Which commands change which parts of the mode state (10_state R71). -/
theorem commandWrites_mode {i : Instr} {s u : State} (h : commandWrites i s = .ok u) :
    u.mode = s.mode ∨ i = .modeSetctr ∧ u.mode.chain = s.mode.chain ∨
      (u.mode.nonce = s.mode.nonce ∧ u.mode.ctrInit = s.mode.ctrInit ∧
        (i = .modeSetiv ∧ u.mode.ctr = s.mode.ctr ∨ i = .ctrReset ∧ u.mode.chain = s.mode.chain ∨
          (i = .modeEnc ∨ i = .modeDec) ∧
            (u.mode.chain = s.mode.chain ∨ modeField s = 1 ∨ modeField s = 3) ∧
            (u.mode.ctr = s.mode.ctr ∨ modeField s = 4))) := by
  cases i
  case modeSetctr =>
    obtain ⟨_, -, rfl⟩ := Except.map_eq_ok_iff.mp h
    exact .inr (.inl ⟨rfl, rfl⟩)
  case modeSetiv =>
    obtain ⟨_, -, rfl⟩ := Except.map_eq_ok_iff.mp h
    exact .inr (.inr ⟨rfl, rfl, .inl ⟨rfl, rfl⟩⟩)
  case ctrReset => cases h; exact .inr (.inr ⟨rfl, rfl, .inr (.inl ⟨rfl, rfl⟩)⟩)
  case modeEnc =>
    obtain ⟨p, w, hp, hw, rfl⟩ := modeWrites_ok h
    obtain ⟨hnonce, hinit, hchain, hctr⟩ := planSound_mode ((answers_encPlan s).of_ok hp) hw
    exact .inr (.inr ⟨hnonce, hinit, .inr (.inr ⟨.inl rfl, hchain, hctr⟩)⟩)
  case modeDec =>
    obtain ⟨p, w, hp, hw, rfl⟩ := modeWrites_ok h
    obtain ⟨hnonce, hinit, hchain, hctr⟩ := planSound_mode ((answers_decPlan s).of_ok hp) hw
    exact .inr (.inr ⟨hnonce, hinit, .inr (.inr ⟨.inr rfl, hchain, hctr⟩)⟩)
  case modeGetiv | modeGetctr => rw [storeBlock_ok h]; exact .inl rfl
  case nop | bvMov | bvSize | bvRdw | bvAnd | bvOr | bvXor | bvNot | bvAdd | bvSub | bvShl | bvShr | bvHw =>
    cases h; exact .inl rfl
  all_goals obtain ⟨_, -, rfl⟩ := Except.map_eq_ok_iff.mp h; exact .inl rfl

/-- A MODE command that completes at `s` after some other events of the agenda succeeds at `s`: neither the agenda nor
an error standing from before plays a part. -/
theorem succeeds_of_writes {i : Instr} {s t u : State} {rest : List Event} {d : Nat}
    (hi : i = .modeEnc ∨ i = .modeDec) (hexec : exec i { s with agenda := rest } = .next t) (hbusy : s.busy = true)
    (hwrites : commandWrites i { s with agenda := rest } = .ok u) (ht : t = { u.complete with draws := d }) :
    succeeds i s := by
  have hrun {r : Except CmdError ModePlan} {s' : State} (hs' : s' = { s with agenda := rest })
      (h : runMode s' r = .next t) (hw : (r >>= fun p => p.result.map (s'.applyMode p)) = .ok u) :
      ∃ t', runMode { s with err := false } r = .next t' ∧ t'.err = false ∧ t'.busy = false := by
    rcases runMode_endsAs h with rfl | ⟨hanswered, -⟩
    · have : t.busy = false := by rw [ht]; rfl
      rw [hs', hbusy] at this
      cases this
    · obtain ⟨p, w, rfl, hp, -⟩ := modeWrites_ok hw
      have hport : ({ s with err := false } : State).port.answeredAll p.calls = true := by
        have := hanswered p rfl
        rwa [hs'] at this
      exact ⟨_, by rw [runMode_answered hport, hp]; rfl, rfl, rfl⟩
  rcases hi with rfl | rfl
  · exact hrun rfl hexec hwrites
  · exact hrun rfl hexec hwrites

/-! ## Commands that do not see the V registers -/

section
variable {α : Type} {s t : State} {x : Vector BvReg 8}

theorem finish_map_withV {r : Except CmdError α} {f f' : α → State} (hf : ∀ a, f' a = { f a with v := x })
    (h : finish s (r.map f) = .next t) : finish { s with v := x } (r.map f') = .next { t with v := x } := by
  obtain rfl : f' = fun a => { f a with v := x } := funext hf
  cases r with
  | ok a => cases h; rfl
  | error e => cases h; rfl

theorem finishRead_map_withV {r : Except CmdError α} {f f' : α → State} (hf : ∀ a, f' a = { f a with v := x })
    (h : finishRead s (r.map f) = .next t) : finishRead { s with v := x } (r.map f') = .next { t with v := x } := by
  obtain rfl : f' = fun a => { f a with v := x } := funext hf
  cases r with
  | ok a => cases h; rfl
  | error e => cases h; rfl

theorem runMode_withV {r : Except CmdError ModePlan} (h : runMode s r = .next t) :
    runMode { s with v := x } r = .next { t with v := x } := by
  cases r with
  | error e => cases h; rfl
  | ok p =>
    cases hanswered : s.port.answeredAll p.calls
    · rw [runMode_waiting hanswered] at h
      cases h
      exact runMode_waiting hanswered
    · rw [runMode_answered hanswered] at h
      exact (runMode_answered (s := { s with v := x }) hanswered).trans (finishRead_map_withV (fun _ => rfl) h)

/-- A block stored is a range check and then writes that do not see the V registers. -/
theorem storeBlock_eq_map (b : List Byte) (s : State) :
    storeBlock b s = (checkRange s.u0 s.primWidth.bytes).map fun _ =>
      (s.memWrite s.u0 b).setResult0 s.primWidth.bytes := by
  unfold storeBlock
  cases checkRange s.u0 s.primWidth.bytes <;> rfl

/-- `NOP`, the SEG and the MODE commands do the same whatever the V registers hold, and leave them (10_state R34). -/
theorem exec_withV {i : Instr} (hop : opcodeByte i < 0x10#8 ∨ 0x30#8 ≤ opcodeByte i) (h : exec i s = .next t) :
    exec i { s with v := x } = .next { t with v := x } := by
  cases i
  case nop | ctrReset => cases h; rfl
  case segReset => exact finish_map_withV (fun _ => rfl) h
  case segFeed pad decl => exact finishRead_map_withV (fun _ => rfl) h
  case segUnpad => exact finishRead_map_withV (fun _ => rfl) h
  case modeEnc | modeDec => exact runMode_withV h
  case modeSetiv | modeSetctr => exact finishRead_map_withV (fun _ => rfl) h
  case modeGetiv =>
    unfold exec execModeGetiv at h ⊢
    rw [storeBlock_eq_map] at h ⊢
    exact finish_map_withV (fun _ => rfl) h
  case modeGetctr =>
    unfold exec execModeGetctr at h ⊢
    rw [storeBlock_eq_map] at h ⊢
    exact finish_map_withV (fun _ => rfl) h
  all_goals simp [opcodeByte] at hop

end

/-! ## Settled: what changes the V registers, the segmenter, and the mode state -/

/-- Settles O18: `exec_withV` with the registers replaced; with their own values it says that they are unchanged. -/
theorem onlyBvCommandsTouchV : Obligations.OnlyBvCommandsTouchV := by
  refine ⟨fun i s t x hop h => ⟨?_, exec_withV hop h⟩, fun s o w => ⟨(hostRead_keeps o s).1, fun hw => ?_⟩⟩
  · have hsame : t = { t with v := s.v } := Host.Outcome.next.inj (h.symm.trans (exec_withV hop h))
    rw [hsame]
  · refine (hostWrite_keeps (fun ⟨ho, hbit⟩ => ?_) s).1
    rcases hw with hne | hzero
    · exact hne ho
    · rw [hzero] at hbit
      cases hbit

/-- Settles O19: by `step_seg_mode` a change is a reset or a command's write, and by `commandWrites_seg` that command is
`SEG.RESET` or `SEG.FEED`. -/
theorem segmenterChangesOnlyByItsCommands : Obligations.SegmenterChangesOnlyByItsCommands := by
  intro s t h
  rcases step_seg_mode h with ⟨hseg, -⟩ | hreset | ⟨i, rest, u, d, hruns, -, hwrites, rfl⟩
  · exact ⟨.inl (congrArg SegState.cfg hseg), .inl hseg, fun hfinal => .inl (hseg ▸ hfinal)⟩
  · exact ⟨.inr (.inr hreset), .inr (.inr (.inr hreset)), fun _ => .inr (.inr hreset)⟩
  · rcases commandWrites_seg hwrites with hseg | rfl | ⟨⟨pad, decl, rfl⟩, hcfg, hfinal⟩
    · exact ⟨.inl (congrArg SegState.cfg hseg), .inl hseg, fun hf => .inl ((congrArg SegState.finalized hseg).trans hf)⟩
    · exact ⟨.inr (.inl hruns), .inr (.inl hruns), fun _ => .inr (.inl hruns)⟩
    · exact ⟨.inl hcfg, .inr (.inr (.inl ⟨pad, decl, hruns⟩)), fun hf => by cases hfinal.symm.trans hf⟩

/-- No MODE command touches the active segmenter (10_state R71). -/
theorem exec_mode_seg {i : Instr} {s t : State} (hop : 0x40#8 ≤ opcodeByte i) (h : exec i s = .next t) :
    t.seg = s.seg := by
  rcases exec_cases h with ⟨rfl, -⟩ | ⟨u, d, hwrites, rfl⟩ | ⟨e, d, -, rfl⟩
  · rfl
  · rcases commandWrites_seg hwrites with hseg | rfl | ⟨⟨pad, decl, rfl⟩, -⟩
    · exact hseg
    · exact absurd hop (show ¬ 0x40#8 ≤ 0x30#8 by decide)
    · exact absurd hop (show ¬ 0x40#8 ≤ 0x31#8 by decide)
  · rfl

/-- Settles O20: by `step_seg_mode` a change is a reset or a command's write, and `commandWrites_mode` names the
command. -/
theorem modeStateChangesOnlyByItsCommands : Obligations.ModeStateChangesOnlyByItsCommands := by
  refine ⟨fun s t h => ?_, fun i s t hop h => exec_mode_seg hop h⟩
  rcases step_seg_mode h with ⟨-, hmode⟩ | hreset | ⟨i, rest, u, d, hruns, hexec, hwrites, ht⟩
  · rw [hmode]
    exact ⟨.inl rfl, .inl ⟨rfl, rfl⟩, .inl rfl⟩
  · exact ⟨.inr (.inr (.inr hreset)), .inr (.inr hreset), .inr (.inr (.inr (.inr hreset)))⟩
  have hsucceeds (hi : i = .modeEnc ∨ i = .modeDec) : succeeds i s := succeeds_of_writes hi hexec hruns.1 hwrites ht
  have htmode : t.mode = u.mode := by rw [ht]; rfl
  rw [htmode]
  rcases commandWrites_mode hwrites with hmode | ⟨rfl, hchain⟩ | ⟨hnonce, hinit, hcommand⟩
  · rw [hmode]
    exact ⟨.inl rfl, .inl ⟨rfl, rfl⟩, .inl rfl⟩
  · exact ⟨.inl hchain, .inr (.inl hruns), .inr (.inl hruns)⟩
  · refine ⟨?_, .inl ⟨hnonce, hinit⟩, ?_⟩
    · rcases hcommand with ⟨rfl, -⟩ | ⟨-, hchain⟩ | ⟨hi, hchain, -⟩
      · exact .inr (.inl hruns)
      · exact .inl hchain
      · exact hchain.imp_right fun hfield => .inr (.inl ⟨i, hi, hruns, hsucceeds hi, hfield⟩)
    · rcases hcommand with ⟨-, hctr⟩ | ⟨rfl, -⟩ | ⟨hi, -, hctr⟩
      · exact .inl hctr
      · exact .inr (.inr (.inl hruns))
      · exact hctr.imp_right fun hfield => .inr (.inr (.inl ⟨i, hi, hruns, hsucceeds hi, hfield⟩))

end Sys2Proof.Machine

namespace Sys2Proof.Machine

/-! ## The values the bit-vector commands load, within their sizes (10_state R33) -/

theorem and_mask_lt (v n : Nat) : v &&& mask n < 2 ^ n := by
  rw [and_mask]
  exact Nat.mod_lt _ (Nat.two_pow_pos n)

theorem lt_two_pow_mono {v m n : Nat} (h : v < 2 ^ m) (hmn : m ≤ n) : v < 2 ^ n :=
  h.trans_le (Nat.pow_le_pow_right (by omega) hmn)

theorem bitlen_le {v n : Nat} (h : v < 2 ^ n) : bitlen v ≤ n := by
  by_contra hlt
  have := two_pow_le_of_lt_bitlen (Nat.lt_of_not_le hlt)
  omega

theorem setBit_lt {v j n : Nat} (hv : v < 2 ^ n) (hj : j < n) (x : Bool) : setBit v j x < 2 ^ n := by
  refine Nat.lt_pow_two_of_testBit _ fun k hk => ?_
  rw [testBit_setBit, if_neg (by omega)]
  exact Nat.testBit_lt_two_pow (lt_two_pow_mono hv hk)

/-- The selected positions lie inside the vector: that is what normalisation checks (41_bitvector R222). -/
structure Slice.Inside (n : Nat) (x : Slice) : Prop where
  step : 1 ≤ x.step
  count : x.count ≤ n
  index : ∀ k, k < x.count → x.index k < n

theorem Slice.Inside.write_lt {x : Slice} {n v : Nat} (h : x.Inside n) (hv : v < 2 ^ n) (w : Nat) :
    x.write v w < 2 ^ n := by
  refine Nat.lt_pow_two_of_testBit _ fun j hj => ?_
  rw [(x.testBit_write h.step v w j).2 fun k hk => ?_]
  · exact Nat.testBit_lt_two_pow (lt_two_pow_mono hv hj)
  · have := h.index k hk
    omega

section
variable {E : CmdError → Prop}

theorem answers_normIndex {i : Int} {n : Nat} (hE : E { code := .index, sub := 1#8 }) :
    Answers E (fun j => j < n) (normIndex i n) := by
  unfold normIndex
  split
  · refine answers_pure (a := (if i < 0 then i + (n : Int) else i).toNat) ?_
    split_ifs <;> omega
  · exact answers_error hE

theorem answers_sliceOf {ns ne : Bool} {a0 a1 a2 : Word} {n : Nat} (hstep : E { code := .index, sub := 3#8 })
    (hbounds : E { code := .index, sub := 2#8 }) : Answers E (Slice.Inside n) (sliceOf ns ne a0 a1 a2 n) := by
  rw [sliceOf_eq]
  split_ifs with h1 h2
  · exact hstep
  · obtain ⟨hlo, hle, hhi⟩ := h2
    have hone : 1 ≤ a2.toInt.toNat := by omega
    refine ⟨hone, ?_, fun k hk => ?_⟩
    · by_contra hlt
      have hmul := (lt_ceilDiv_iff hone).mp (Nat.lt_of_not_le hlt)
      have := Nat.le_mul_of_pos_right n hone
      omega
    · have hmul := (lt_ceilDiv_iff hone).mp hk
      simp only [Slice.index]
      omega
  · exact hbounds

theorem answers_checkBo {bo : BitOrder} (hE : E { code := .illegal, sub := 3#8 }) :
    Answers E (fun _ => bo ≠ .reserved) (checkBo bo) :=
  (answers_check hE).imp fun _ hlegal => by rintro rfl; cases hlegal

end

theorem answers_ldiValue (sz : Bool) (s : State) : Answers (opRaises 0x10#8) BvReg.wf (ldiValue sz s) := by
  unfold ldiValue
  cases sz with
  | true =>
    exact (answers_checkSize (by decide)).bind fun _ hsize => answers_pure ⟨hsize, and_mask_lt _ _⟩
  | false =>
    have h0 := s.arg0.isLt
    have h1 := s.arg1.isLt
    have hpair : s.argPair < 2 ^ 64 := by simp only [State.argPair, State.u1, State.u0]; omega
    exact answers_pure ⟨(bitlen_le hpair).trans (by decide), lt_two_pow_bitlen _⟩

theorem answers_ldbValue (bo : BitOrder) (sz : Bool) (s : State) :
    Answers (opRaises 0x11#8) BvReg.wf (ldbValue bo sz s) :=
  (answers_checkBo (by decide)).bind fun _ _ => (answers_checkRange (by decide)).bind fun _ _ =>
    (answers_check (by decide)).bind fun _ _ => (answers_checkSize (by decide)).bind fun _ hsize =>
      answers_pure ⟨hsize, and_mask_lt _ _⟩

theorem answers_ldbitsValue (s : State) : Answers (opRaises 0x13#8) BvReg.wf (ldbitsValue s) :=
  (answers_checkRange (by decide)).bind fun _ _ => (answers_checkSize (by decide)).bind fun _ hsize =>
    (answers_check (by decide)).bind fun _ _ => answers_pure ⟨hsize, by
      simpa using natOfBits_lt ((s.memRead s.u0 s.u1).map fun x => x == 1#8)⟩

theorem answers_unpackValue (big : Bool) (s : State) : Answers (opRaises 0x2E#8) BvReg.wf (unpackValue big s) := by
  refine (answers_checkRange (by decide)).bind fun _ _ => (answers_checkSize (by decide)).bind fun _ hsize =>
    answers_pure ⟨hsize, ?_⟩
  cases big with
  | true => simpa using intBe_lt (s.memRead s.u0 s.u1)
  | false => simpa using intLe_lt (s.memRead s.u0 s.u1)

theorem answers_stbBytes (va : VReg) (bo : BitOrder) (s : State) :
    Answers (opRaises 0x12#8) (fun out => s.u0 + out.length ≤ 4096) (stbBytes va bo s) :=
  (answers_checkBo (by decide)).bind fun _ hbo => (answers_checkRange (by decide)).bind fun _ hroom =>
    answers_pure (by rwa [length_natToBytes hbo])

theorem answers_packBytes (va : VReg) (big : Bool) (s : State) :
    Answers (opRaises 0x2D#8) (fun out => s.u0 + out.length ≤ 4096) (packBytes va big s) :=
  (answers_checkRange (by decide)).bind fun _ hroom => answers_pure (by cases big <;> simpa [byteGroups] using hroom)

section
variable {a b : BvReg}

theorem maxSize_le (ha : a.wf) (hb : b.wf) : maxSize a b ≤ 1024 := max_le ha.1 hb.1

theorem bvAnd_wf (ha : a.wf) (hb : b.wf) : (bvAnd a b).wf :=
  ⟨maxSize_le ha hb, Nat.and_lt_two_pow _ (lt_two_pow_mono hb.2 (le_max_right _ _))⟩

theorem bvOr_wf (ha : a.wf) (hb : b.wf) : (bvOr a b).wf :=
  ⟨maxSize_le ha hb, Nat.or_lt_two_pow (lt_two_pow_mono ha.2 (le_max_left _ _))
    (lt_two_pow_mono hb.2 (le_max_right _ _))⟩

theorem bvXor_wf (ha : a.wf) (hb : b.wf) : (bvXor a b).wf :=
  ⟨maxSize_le ha hb, Nat.xor_lt_two_pow (lt_two_pow_mono ha.2 (le_max_left _ _))
    (lt_two_pow_mono hb.2 (le_max_right _ _))⟩

theorem bvAdd_wf (ha : a.wf) (hb : b.wf) : (bvAdd a b).wf :=
  ⟨maxSize_le ha hb, Nat.mod_lt _ (Nat.two_pow_pos _)⟩

theorem bvSub_wf (ha : a.wf) (hb : b.wf) : (bvSub a b).wf := by
  refine ⟨maxSize_le ha hb, ?_⟩
  have hpos : (0 : Int) < ((2 ^ maxSize a b : Nat) : Int) := Int.natCast_pos.mpr (Nat.two_pow_pos _)
  have hlo := Int.emod_nonneg ((a.val : Int) - b.val) hpos.ne'
  have hhi := Int.emod_lt_of_pos ((a.val : Int) - b.val) hpos
  simp only [bvSub]
  omega

theorem bvNot_wf (ha : a.wf) : (bvNot a).wf :=
  ⟨ha.1, Nat.xor_lt_two_pow (and_mask_lt _ _) (Nat.sub_lt (Nat.two_pow_pos _) Nat.one_pos)⟩

theorem bvShl_wf (ha : a.wf) (n : Nat) : (bvShl a n).wf := by
  refine ⟨ha.1, ?_⟩
  simp only [bvShl]
  split_ifs
  · exact Nat.two_pow_pos _
  · exact and_mask_lt _ _

theorem bvShr_wf (ha : a.wf) (n : Nat) : (bvShr a n).wf :=
  ⟨ha.1, (Nat.shiftRight_le _ _).trans_lt ha.2⟩

theorem answers_catValue (ha : a.wf) (hb : b.wf) : Answers (opRaises 0x28#8) BvReg.wf (catValue a b) := by
  refine (answers_checkSize (by decide)).bind fun _ hsize => answers_pure ⟨hsize, ?_⟩
  calc a.val + b.val * 2 ^ a.size
      < 2 ^ a.size + b.val * 2 ^ a.size := Nat.add_lt_add_right ha.2 _
    _ = (b.val + 1) * 2 ^ a.size := by rw [Nat.add_mul, Nat.one_mul, Nat.add_comm]
    _ ≤ 2 ^ b.size * 2 ^ a.size := Nat.mul_le_mul_right _ hb.2
    _ = 2 ^ (a.size + b.size) := by rw [Nat.pow_add, Nat.mul_comm]

theorem answers_zextValue (ha : a.wf) (m : Nat) : Answers (opRaises 0x29#8) BvReg.wf (zextValue a m) := by
  unfold zextValue
  split_ifs with hm
  · exact answers_pure ha
  · exact (answers_checkSize (by decide)).bind fun _ hsize =>
      answers_pure ⟨hsize, lt_two_pow_mono ha.2 (Nat.le_of_not_le hm)⟩

theorem answers_sextValue (ha : a.wf) (m : Nat) : Answers (opRaises 0x2A#8) BvReg.wf (sextValue a m) := by
  unfold sextValue
  split
  case isTrue => exact answers_pure ha
  case isFalse hm =>
    refine (answers_checkSize (by decide)).bind fun _ hsize => answers_pure ⟨hsize, ?_⟩
    have hval : a.val < 2 ^ m := lt_two_pow_mono ha.2 (Nat.le_of_not_le hm)
    have hfill : mask m - mask a.size < 2 ^ m :=
      (Nat.sub_le _ _).trans_lt (Nat.sub_lt (Nat.two_pow_pos m) Nat.one_pos)
    dsimp only
    split
    · exact Nat.or_lt_two_pow hval hfill
    · exact hval

theorem answers_hamming : Answers (opRaises 0x2C#8) (fun _ => True) (hamming a b) :=
  (answers_check (by decide)).bind fun _ _ => trivial

end

section
variable {s : State}

theorem answers_getBit (va : VReg) : Answers (opRaises 0x18#8) (fun _ => True) (getBit va s) :=
  (answers_normIndex (by decide)).bind fun _ _ => trivial

theorem answers_setValue {vd : VReg} (hd : (s.vreg vd).wf) : Answers (opRaises 0x19#8) BvReg.wf (setValue vd s) :=
  (answers_normIndex (by decide)).bind fun _ hj => (answers_check (by decide)).bind fun _ _ =>
    answers_pure ⟨hd.1, setBit_lt hd.2 hj _⟩

theorem answers_getsValue {va : VReg} (ha : (s.vreg va).wf) (ns ne : Bool) :
    Answers (opRaises 0x1A#8) BvReg.wf (getsValue va ns ne s) :=
  (answers_sliceOf (by decide) (by decide)).bind fun x hx => answers_pure ⟨hx.count.trans ha.1, x.read_lt _⟩

theorem answers_setsValue {vd : VReg} (hd : (s.vreg vd).wf) (va : VReg) (ns ne co : Bool) :
    Answers (opRaises 0x1B#8) BvReg.wf (setsValue vd va ns ne co s) :=
  (answers_sliceOf (by decide) (by decide)).bind fun _ hx => (answers_check (by decide)).bind fun _ _ =>
    answers_pure ⟨hd.1, hx.write_lt hd.2 _⟩

theorem bit_wf (x : Bool) : BvReg.wf { val := x.toNat, size := 1 } := by
  cases x <;> decide

end

/-! ## The invariant and the operations on the state -/

section
variable {s : State}

theorem State.Inv.setV (hs : s.Inv) {x : BvReg} (hx : x.wf) (r : VReg) : (s.setV r x).Inv :=
  { hs with regs := fun q => by rw [State.vreg_setV]; split_ifs <;> [exact hx; exact hs.regs q] }

theorem State.Inv.setResult0 (hs : s.Inv) (n : Nat) : (s.setResult0 n).Inv := { hs with }

theorem State.Inv.setResult1 (hs : s.Inv) (n : Nat) : (s.setResult1 n).Inv := { hs with }

theorem State.Inv.memWrite (hs : s.Inv) {a : Nat} {b : List Byte} (h : a + b.length ≤ 4096) :
    (s.memWrite a b).Inv :=
  { hs with mem := Memory.wf_setBytes b hs.mem (inRange_iff.mpr h) }

theorem State.Inv.withSeg (hs : s.Inv) {g : SegState} (hcfg : g.cfg.legal = true) (hpad : g.lastPad.toNat ≤ 2048) :
    ({ s with seg := g }).Inv :=
  { hs with seg := hcfg, segLastPad := hpad }

/-- The widths of the mode state for a primitive of block size `w` (10_state R70). -/
structure ModeState.Fits (w : PrimWidth) (m : ModeState) : Prop where
  chain : m.chain.length = w.bytes
  nonce : m.nonce.length = w.halfBytes
  ctrInit : m.ctrInit < 2 ^ (8 * w.halfBytes)
  ctr : m.ctr < 2 ^ (8 * w.halfBytes)

theorem State.Inv.withMode (hs : s.Inv) {m : ModeState} (hm : m.Fits s.primWidth) : ({ s with mode := m }).Inv :=
  { hs with chain := hm.chain, nonce := hm.nonce, ctrInit := hm.ctrInit, ctr := hm.ctr }

theorem State.Inv.complete (hs : s.Inv) : s.complete.Inv := { hs with port := fun _ => ⟨rfl, rfl⟩ }

theorem State.Inv.raise (hs : s.Inv) {e : CmdError} (he : listedError e.code e.sub) : (s.raise e).Inv :=
  { hs with noError := fun herr => by cases herr
            error := fun _ => he
            port := fun _ => ⟨rfl, rfl⟩ }

theorem State.Inv.refuseAccess (hs : s.Inv) : s.refuseAccess.Inv := { hs with }

theorem State.Inv.accept (hs : s.Inv) (c : Word) : (s.accept c).Inv :=
  { hs with port := fun hbusy => by cases hbusy }

theorem State.Inv.clearStatus (hs : s.Inv) (w : Word) : (s.clearStatus w).Inv := by
  rw [State.clearStatus_eq]
  cases hbit : w.getLsbD 2
  · exact { hs with
      noError := fun herr => hs.noError (by simpa using herr)
      error := fun herr => hs.error (by simpa using herr) }
  · exact { hs with
      noError := fun _ => ⟨rfl, rfl, rfl⟩
      error := fun herr => by simp at herr }

theorem State.Inv.resetKeeping (s : State) {mem : Memory} (hmem : Memory.wf mem = true) : (s.resetKeeping mem).Inv :=
  { State.resetWith_inv s.primWidth with
    mem := hmem
    port := fun _ => ⟨rfl, rfl⟩ }

theorem State.Inv.softReset (hs : s.Inv) : s.softReset.Inv := by
  refine State.Inv.resetKeeping s ?_
  unfold State.dbufAfterSoftReset
  split_ifs
  · split
    · exact Memory.wf_scramble hs.mem _ _ _
    · exact hs.mem
  · exact hs.mem

theorem and_and_eq_zero {w m k : Word} (h : m &&& k = 0#32) : w &&& m &&& k = 0#32 := by
  rw [BitVec.and_assoc, h, BitVec.and_zero]

theorem State.Inv.hostWrite (hs : s.Inv) (o : HostOffset) (w : Word) : (hostWrite o w s).Inv := by
  rcases hostWrite_cases o w s with ⟨-, he⟩ | he | he | he | he | he | ⟨a, ha, he⟩ |
    ⟨a0, a1, a2, a3, segCfg, segBlkBits, modeCfg, hseg, hmode, he⟩ <;> rw [he]
  · exact hs.softReset
  · exact hs.refuseAccess
  · exact hs.clearStatus w
  · exact { hs with }
  · exact { hs with }
  · exact hs.accept w
  · exact hs.memWrite (by rwa [length_leBytes])
  · refine { hs with segCfg := ?_, modeCfg := ?_ }
    · rcases hseg with rfl | rfl
      · exact hs.segCfg
      · exact and_and_eq_zero (by decide)
    · rcases hmode with rfl | rfl
      · exact hs.modeCfg
      · exact and_and_eq_zero (by decide)

theorem State.Inv.hostRead (hs : s.Inv) (o : HostOffset) : (hostRead o s).Inv := by
  unfold Machine.hostRead
  split
  case h_2 => split_ifs <;> exact { hs with }
  all_goals exact { hs with }

theorem State.Inv.primEvent (hs : s.Inv) : (primEvent s).Inv := by
  rcases primEvent_cases s with h | ⟨hbusy, -, h⟩ | ⟨hbusy, -, c, -, h⟩ <;> rw [h]
  · exact hs
  · exact { hs with port := fun hidle => by cases hbusy.symm.trans hidle }
  · exact { hs with port := fun hidle => by cases hbusy.symm.trans hidle }

/-! ## The segmenter and the mode commands keep the invariant -/

theorem answers_segConfig (s : State) :
    Answers (opRaises 0x30#8) (fun c => c.legal = true) (segConfig s) := by
  unfold segConfig
  dsimp only
  split
  · exact answers_error (by decide)
  · exact (answers_check (by decide)).bind fun _ hbits => (answers_check (by decide)).bind fun _ hfits =>
      answers_pure (Bool.and_eq_true_iff.mpr ⟨hbits, hfits⟩)

theorem padBits_le {c : PadCfg} {t : List Bool} {p : Nat} (hc : c.legal = true) (ht : t.length < c.blockBits)
    (hw : c.scheme.wholeBytes = true → t.length % 8 = 0) : (padTail c t p).padBits ≤ 2048 := by
  by_cases hn : c.scheme = .none
  · simp [padTail, hn, padNone]
  · obtain ⟨-, hlen, hpad, hblocks⟩ := padTail_blocks (p := p) hc ht hw hn
    obtain ⟨-, -, hbits⟩ := PadCfg.blockBits_of_legal hc
    have := Nat.mul_le_mul hblocks hbits
    omega

theorem length_feedMsg {decl : Bool} {s : State} (h : feedBits decl s ≤ 8 * s.arg1.toNat) :
    (feedMsg decl s).length = feedBits decl s := by
  simp [feedMsg, h]

/-- A feed that is accepted leaves a legal segmenter, and what it writes fits `DBUF`. -/
theorem answers_feedPlan (hs : s.Inv) (pad decl : Bool) :
    Answers (opRaises 0x31#8)
      (fun p => p.seg.cfg.legal = true ∧ p.seg.lastPad.toNat ≤ 2048 ∧ s.u3 + p.out.length ≤ 4096)
      (feedPlan pad decl s) := by
  have hlength : Answers (opRaises 0x31#8) (fun _ => True) (feedLength decl s.u1 s.u2) := by
    cases decl
    · exact answers_pure trivial
    · exact (answers_check (by decide)).bind fun _ _ => trivial
  have herrors : Answers (opRaises 0x31#8) (fun _ => True) (feedPlan pad decl s) :=
    (answers_check (by decide)).bind fun _ _ => (answers_checkRange (by decide)).bind fun _ _ =>
      hlength.bind fun _ _ => (answers_check (by decide)).bind fun _ _ => (answers_check (by decide)).bind fun _ _ =>
        (answers_checkRange (by decide)).bind fun _ _ => trivial
  refine herrors.and_ok fun p hp => ?_
  obtain ⟨-, -, hfeed, -, hbytes, rfl, hroom⟩ := feedPlan_ok hp
  cases pad with
  | false => exact ⟨hs.seg, hs.segLastPad, hroom⟩
  | true =>
    refine ⟨hs.seg, ?_, hroom⟩
    obtain ⟨-, hpos, -⟩ := PadCfg.blockBits_of_legal hs.seg
    have htail : ((feedMsg decl s).drop
        ((feedMsg decl s).length / s.seg.cfg.blockBits * s.seg.cfg.blockBits)).length =
        feedBits decl s % s.seg.cfg.blockBits := by
      rw [List.length_drop, length_feedMsg hfeed, Nat.mod_eq_sub_div_mul]
    have hle := padBits_le (p := (s.seg.processed + BitVec.ofNat 64 (feedMsg decl s).length).toNat) hs.seg
      (htail ▸ Nat.mod_lt _ (by omega)) fun hw => htail ▸ hbytes rfl hw
    exact (Nat.mod_le _ _).trans hle

theorem answers_segUnpadLength (s : State) : Answers (opRaises 0x32#8) (fun _ => True) (segUnpadLength s) :=
  (answers_checkRange (by decide)).bind fun _ _ => answers_unpad (by decide)

theorem State.Inv.applyMode (hs : s.Inv) {kind : ModeKind} {w : ModeWrite} (p : ModePlan)
    (hw : ModeWrite.Sound (attachedPrim s.primWidth) kind s.mode s.arg2.toNat w) : (s.applyMode p w).Inv := by
  refine (((hs.withMode (m := w.mode) ⟨?_, ?_, ?_, ?_⟩).memWrite hw.out).setResult0 _).setResult1 _
  · rcases hw.chain with h | ⟨h, -⟩
    · exact h ▸ hs.chain
    · exact h
  · exact hw.nonce ▸ hs.nonce
  · exact hw.ctrInit ▸ hs.ctrInit
  · rcases hw.ctr with h | ⟨h, -⟩
    · exact h ▸ hs.ctr
    · exact h

theorem answers_modeWrites (hs : s.Inv) {op : BitVec 8} {r : Except CmdError ModePlan}
    (h : Answers (opRaises op) (planSound op (attachedPrim s.primWidth) s) r) :
    Answers (opRaises op) State.Inv (r >>= fun p => p.result.map (s.applyMode p)) :=
  h.bind fun p ⟨_, _, hp⟩ => hp.map fun _ hw => hs.applyMode p hw

theorem answers_loadBlock {E : CmdError → Prop} (hrange : E { code := .address, sub := 1#8 })
    (hsize : E { code := .sizeMismatch, sub := 4#8 }) :
    Answers E (fun b => b.length = s.primWidth.bytes) (loadBlock s) :=
  (answers_checkRange hrange).bind fun _ _ => (answers_check hsize).bind fun _ _ =>
    answers_pure (State.length_memRead _ _ _)

theorem answers_storeBlock (hs : s.Inv) {E : CmdError → Prop} {b : List Byte} (hb : b.length = s.primWidth.bytes)
    (hrange : E { code := .address, sub := 1#8 }) : Answers E State.Inv (storeBlock b s) :=
  (answers_checkRange hrange).bind fun _ hroom => answers_pure ((hs.memWrite (hb ▸ hroom)).setResult0 _)

theorem bytes_eq_two_halves (w : PrimWidth) : w.bytes = w.halfBytes + w.halfBytes := by
  cases w <;> rfl

theorem State.Inv.modeFits (hs : s.Inv) : s.mode.Fits s.primWidth := ⟨hs.chain, hs.nonce, hs.ctrInit, hs.ctr⟩

theorem State.Inv.length_counterBlock (hs : s.Inv) : s.counterBlock.length = s.primWidth.bytes := by
  rw [State.counterBlock, List.length_append, hs.nonce, length_beBytes, bytes_eq_two_halves]

theorem loadCounter_fits {m : ModeState} {w : PrimWidth} {b : List Byte} (hm : m.Fits w) (hb : b.length = w.bytes) :
    (m.loadCounter w.halfBytes b).Fits w := by
  have hbytes := bytes_eq_two_halves w
  have hctr : intBe (b.drop w.halfBytes) < 2 ^ (8 * w.halfBytes) := by
    have h := intBe_lt (b.drop w.halfBytes)
    rwa [List.length_drop, hb, hbytes, Nat.add_sub_cancel] at h
  refine ⟨hm.chain, ?_, hctr, hctr⟩
  show (b.take w.halfBytes).length = w.halfBytes
  rw [List.length_take]
  omega

/-! ## Every command, and every step, keeps the invariant -/

/-- From a state that meets the invariant every command raises an error of its own row of the table, or its writes meet
the invariant. -/
theorem answers_commandWrites (hs : s.Inv) (i : Instr) :
    Answers (opRaises (opcodeByte i)) State.Inv (commandWrites i s) := by
  have hstore {out : List Byte} (n : Nat) (hout : s.u0 + out.length ≤ 4096) :
      ((s.memWrite s.u0 out).setResult0 n).Inv := (hs.memWrite hout).setResult0 n
  cases i with
  | nop => exact hs
  | bvLdi vd sz => exact (answers_ldiValue sz s).map fun _ hx => hs.setV hx vd
  | bvLdb vd bo sz => exact (answers_ldbValue bo sz s).map fun _ hx => hs.setV hx vd
  | bvStb va bo => exact (answers_stbBytes va bo s).map fun _ hout => hstore _ hout
  | bvLdbits vd => exact (answers_ldbitsValue s).map fun _ hx => hs.setV hx vd
  | bvMov vd va => exact hs.setV (hs.regs va) vd
  | bvSize va => exact hs.setResult0 _
  | bvRdw va => exact hs.setResult0 _
  | bvGet vd va => exact (answers_getBit va).map fun x _ => (hs.setV (bit_wf x) vd).setResult0 _
  | bvSet vd => exact (answers_setValue (hs.regs vd)).map fun _ hx => hs.setV hx vd
  | bvGets vd va ns ne => exact (answers_getsValue (hs.regs va) ns ne).map fun _ hx => hs.setV hx vd
  | bvSets vd va ns ne co => exact (answers_setsValue (hs.regs vd) va ns ne co).map fun _ hx => hs.setV hx vd
  | bvAnd vd va vb => exact hs.setV (bvAnd_wf (hs.regs va) (hs.regs vb)) vd
  | bvOr vd va vb => exact hs.setV (bvOr_wf (hs.regs va) (hs.regs vb)) vd
  | bvXor vd va vb => exact hs.setV (bvXor_wf (hs.regs va) (hs.regs vb)) vd
  | bvNot vd va => exact hs.setV (bvNot_wf (hs.regs va)) vd
  | bvAdd vd va vb => exact hs.setV (bvAdd_wf (hs.regs va) (hs.regs vb)) vd
  | bvSub vd va vb => exact hs.setV (bvSub_wf (hs.regs va) (hs.regs vb)) vd
  | bvShl vd va => exact hs.setV (bvShl_wf (hs.regs va) _) vd
  | bvShr vd va => exact hs.setV (bvShr_wf (hs.regs va) _) vd
  | bvCat vd va vb => exact (answers_catValue (hs.regs va) (hs.regs vb)).map fun _ hx => hs.setV hx vd
  | bvZext vd => exact (answers_zextValue (hs.regs vd) _).map fun _ hx => hs.setV hx vd
  | bvSext vd => exact (answers_sextValue (hs.regs vd) _).map fun _ hx => hs.setV hx vd
  | bvHw va => exact hs.setResult0 _
  | bvHd va vb => exact answers_hamming.map fun _ _ => hs.setResult0 _
  | bvPack va big => exact (answers_packBytes va big s).map fun _ hout => hstore _ hout
  | bvUnpack vd big => exact (answers_unpackValue big s).map fun _ hx => (hs.setV hx vd).setResult0 _
  | segReset => exact (answers_segConfig s).map fun _ hc => hs.withSeg hc (Nat.zero_le _)
  | segFeed pad decl =>
    refine (answers_feedPlan hs pad decl).map fun p ⟨hcfg, hpad, hroom⟩ => ?_
    exact (((hs.withSeg hcfg hpad).memWrite hroom).setResult0 _).setResult1 _
  | segUnpad => exact (answers_segUnpadLength s).map fun _ _ => (hs.setResult0 _).setResult1 _
  | modeEnc => exact answers_modeWrites hs (answers_encPlan s)
  | modeDec => exact answers_modeWrites hs (answers_decPlan s)
  | modeSetiv =>
    exact (answers_loadBlock (by decide) (by decide)).map fun _ hb => hs.withMode { hs.modeFits with chain := hb }
  | modeGetiv => exact answers_storeBlock hs hs.chain (by decide)
  | modeSetctr =>
    exact (answers_loadBlock (by decide) (by decide)).map fun _ hb => hs.withMode (loadCounter_fits hs.modeFits hb)
  | modeGetctr => exact answers_storeBlock hs hs.length_counterBlock (by decide)
  | ctrReset => exact hs.withMode { hs.modeFits with ctr := hs.ctrInit }

/-- A command's error is one that its rule names (60_exceptions R501). -/
theorem commandWrites_mayRaise (hs : s.Inv) {i : Instr} {e : CmdError} (h : commandWrites i s = .error e) :
    mayRaise i e.code e.sub :=
  opRaises_iff_mayRaise.mp ((answers_commandWrites hs i).of_error h)

theorem State.Inv.exec (hs : s.Inv) {i : Instr} {t : State} (h : exec i s = .next t) : t.Inv := by
  rcases exec_cases h with ⟨rfl, -⟩ | ⟨u, d, hwrites, rfl⟩ | ⟨e, d, herror, rfl⟩
  · exact hs
  · exact { ((answers_commandWrites hs i).of_ok hwrites).complete with }
  · exact { hs.raise (listedError_of_mayRaise (commandWrites_mayRaise hs herror)) with }

theorem decodeErrorCmd_listed (e : DecodeError) : listedError (decodeErrorCmd e).code (decodeErrorCmd e).sub := by
  unfold listedError
  cases e <;> decide

end

/-! ## Settled: the invariant -/

/-- Settles O9: an event of each kind keeps the invariant; a command does by `answers_commandWrites`. -/
theorem everyStepKeepsTheInvariant : Obligations.EveryStepKeepsTheInvariant := by
  intro s t hs h
  rcases step_cases h with ⟨-, rfl⟩ | ⟨e, rest, -, hevent⟩
  · exact hs
  have hs' : ({ s with agenda := rest }).Inv := { hs with }
  rcases hevent with ⟨o, w, -, rfl⟩ | ⟨o, -, rfl⟩ | ⟨-, rfl⟩ | ⟨-, rfl⟩ | ⟨-, -, rfl⟩ | ⟨err, -, -, -, rfl⟩ |
    ⟨i, -, -, -, hexec⟩
  · exact hs'.hostWrite o w
  · exact hs'.hostRead o
  · exact State.Inv.resetKeeping _ rfl
  · exact hs'.primEvent
  · exact hs'
  · exact hs'.raise (decodeErrorCmd_listed err)
  · exact hs'.exec hexec

end Sys2Proof.Machine

namespace Sys2Proof.Machine

/-! ## Host accesses: what is refused, and the window on `DBUF` -/

theorem hostRead_refused {o : HostOffset} (h : targetOf o = .misaligned ∨ targetOf o = .unmapped) (s : State) :
    hostRead o s = { s with rdata := 0#32, accErr := true } := by
  rcases h with h | h <;> rw [hostRead, h] <;> rfl

theorem hostWrite_refused {o : HostOffset} (h : targetOf o = .misaligned ∨ targetOf o = .unmapped) (w : Word)
    (s : State) : hostWrite o w s = { s with accErr := true } := by
  rcases h with h | h <;> rw [hostWrite, h] <;> rfl

theorem hostRead_of_dbuf {o : HostOffset} {a : Nat} (h : targetOf o = .dbuf a) (s : State) :
    hostRead o s = if s.busy then { s with rdata := 0#32, accErr := true }
      else { s with rdata := s.dbufWord a, draws := s.draws + 1 } := by
  rw [hostRead, h]; rfl

theorem hostWrite_of_dbuf {o : HostOffset} {a : Nat} (h : targetOf o = .dbuf a) (w : Word) (s : State) :
    hostWrite o w s = idleWrite s (s.memWrite a (leBytes 4 w.toNat)) := by
  rw [hostWrite, h]

theorem idleWrite_of_busy {s : State} (h : s.busy = true) (t : State) : idleWrite s t = { s with accErr := true } :=
  if_pos h

/-- Every offset from `0x1000` on is a word of `DBUF` or misaligned. -/
theorem targetOf_of_window {o : HostOffset} (h : 0x1000#13 ≤ o) :
    targetOf o = .misaligned ∨ targetOf o = .dbuf (o.toNat - 0x1000) := by
  have hle : 0x1000 ≤ o.toNat := h
  by_cases hal : o.toNat % 4 = 0
  · exact .inr (targetOf_dbuf hal hle)
  · exact .inl (targetOf_misaligned hal)

/-- An offset with bits 1:0 not 0, or between the registers and the window, reaches nothing. -/
theorem targetOf_of_refused {o : HostOffset} (h : o.extractLsb' 0 2 ≠ 0#2 ∨ (0x05C#13 ≤ o ∧ o ≤ 0xFFC#13)) :
    targetOf o = .misaligned ∨ targetOf o = .unmapped := by
  by_cases hal : o.toNat % 4 = 0
  · rcases h with hbits | ⟨hlo, hhi⟩
    · have hzero : o.extractLsb' 0 2 = 0#2 := BitVec.eq_of_toNat_eq (by rw [BitVec.extractLsb'_toNat]; exact hal)
      exact absurd hzero hbits
    · have hlo' : 0x05C ≤ o.toNat := hlo
      have hhi' : o.toNat ≤ 0xFFC := hhi
      exact .inr (targetOf_unmapped hal hlo' (by omega))
  · exact .inl (targetOf_misaligned hal)

theorem targetOf_dbufOffset {k : Nat} (hk : k < 1024) :
    targetOf (BitVec.ofNat 13 (0x1000 + 4 * k)) = .dbuf (4 * k) := by
  have hnat : (BitVec.ofNat 13 (0x1000 + 4 * k)).toNat = 0x1000 + 4 * k := Nat.mod_eq_of_lt (by omega)
  have h := targetOf_dbuf (o := BitVec.ofNat 13 (0x1000 + 4 * k)) (by omega) (by omega)
  rwa [hnat, Nat.add_sub_cancel_left] at h

/-- Lane `j` of a word read from `DBUF` is the byte `j` places on (20_memory R101). -/
theorem State.extractLsb'_dbufWord (s : State) (a : Nat) {j : Nat} (hj : j < 4) :
    (s.dbufWord a).extractLsb' (8 * j) 8 = s.byteAt (a + j) := by
  have hlen : j < (s.memRead a 4).length := by rwa [State.length_memRead]
  apply BitVec.eq_of_getLsbD_eq
  intro i hi
  have hdiv : (8 * j + i) / 8 = j := by omega
  have hmod : (8 * j + i) % 8 = i := by omega
  rw [BitVec.getLsbD_extractLsb', State.dbufWord, BitVec.getLsbD_ofNat, testBit_intLe, hdiv, hmod,
    List.getD_eq_getElem _ _ hlen, State.getElem_memRead]
  simp [hi, show 8 * j + i < 32 by omega]

/-- A word written to `DBUF` reads back, whatever the draw. -/
theorem State.dbufWord_memWrite (s : State) (a : Nat) (w : Word) :
    (s.memWrite a (leBytes 4 w.toNat)).dbufWord a = w := by
  have hbytes : (s.memWrite a (leBytes 4 w.toNat)).memRead a 4 = leBytes 4 w.toNat := by
    have h := Memory.bytes_setBytes s.dbuf s.draws a (leBytes 4 w.toNat)
    rwa [length_leBytes] at h
  rw [State.dbufWord, hbytes, intLe_leBytes, Nat.mod_eq_of_lt w.isLt, BitVec.ofNat_toNat, BitVec.setWidth_eq]

/-! ## Settled: what a host access can do -/

/-- Settles O14: the window and the argument and configuration registers are behind `idleWrite`, `DBUF` reads behind
the same check; a register is read by `hostRead_of_reg`. -/
theorem busyWindow : Obligations.BusyWindow := by
  intro s w hbusy
  have hstore {o : HostOffset} {r : HostReg} {t : State} (ho : hostRegAt o.toNat = some r)
      (hr : regWrite r w s = idleWrite s t) : hostWrite o w s = { s with accErr := true } := by
    rw [hostWrite_of_reg ho, hr, idleWrite_of_busy hbusy]
  obtain ⟨-, hdrop, -⟩ := commandWordAcceptedOrDropped s w
  have hstatus : hostWrite 0x00C#13 w s = s.clearStatus w := hostWrite_of_reg (r := .status) rfl w s
  refine ⟨fun o ho => ?_, fun o ho => ?_, ?_, fun hbit => ?_, fun o r hr => hostRead_of_reg hr s, ?_, ?_⟩
  · rcases ho with hwindow | hreg
    · rcases targetOf_of_window hwindow with htarget | htarget
      · exact hostWrite_refused (.inl htarget) w s
      · rw [hostWrite_of_dbuf htarget, idleWrite_of_busy hbusy]
    · simp only [List.mem_cons, List.not_mem_nil, or_false] at hreg
      rcases hreg with rfl | rfl | rfl | rfl | rfl | rfl | rfl <;> exact hstore rfl rfl
  · rcases targetOf_of_window ho with htarget | htarget
    · exact hostRead_refused (.inl htarget) s
    · rw [hostRead_of_dbuf htarget, if_pos hbusy]
  · exact hdrop hbusy
  · exact (hostWrite_of_reg (r := .ctrl) rfl w s).trans (if_neg (by rw [hbit]; decide))
  · rw [hstatus, State.clearStatus_eq]; exact hbusy
  · rw [hstatus, State.clearStatus_eq]

/-- Settles O15: a refused offset reaches nothing (`targetOf_of_refused`), and each of the thirteen offsets is that of a
read-only register. -/
theorem refusedAccesses : Obligations.RefusedAccesses := by
  intro s w o
  refine ⟨fun ho => ?_, fun ho => ?_, hostRead_of_reg (r := .cmd) rfl s⟩
  · have htarget := targetOf_of_refused ho
    exact ⟨hostRead_refused htarget s, hostWrite_refused htarget w s⟩
  · have hreadOnly {o : HostOffset} {r : HostReg} (hat : hostRegAt o.toNat = some r)
        (hr : regWrite r w s = s.refuseAccess) : hostWrite o w s = { s with accErr := true } :=
      (hostWrite_of_reg hat w s).trans hr
    simp only [List.mem_cons, List.not_mem_nil, or_false] at ho
    rcases ho with rfl | rfl | rfl | rfl | rfl | rfl | rfl | rfl | rfl | rfl | rfl | rfl | rfl <;>
      exact hreadOnly rfl rfl

/-- Settles O17: `Memory.byte?_setBytes_of_mem` for the written lanes, `State.dbufWord_memWrite` for the word read
back, `State.extractLsb'_dbufWord` for the lanes of a read. -/
theorem dataBufferWindow : Obligations.DataBufferWindow := by
  intro s k w hidle hk
  have htarget := targetOf_dbufOffset hk
  have hwrite : hostWrite (BitVec.ofNat 13 (0x1000 + 4 * k)) w s = s.memWrite (4 * k) (leBytes 4 w.toNat) := by
    rw [hostWrite_of_dbuf htarget, idleWrite_of_idle hidle]
  have hread {t : State} (ht : t.busy = false) : hostRead (BitVec.ofNat 13 (0x1000 + 4 * k)) t =
      { t with rdata := t.dbufWord (4 * k), draws := t.draws + 1 } := by
    rw [hostRead_of_dbuf htarget, ht]; rfl
  refine ⟨⟨_, hwrite, fun j hj => ?_, fun x hx => ?_, rfl, ?_⟩, fun j hj => ?_, ?_⟩
  · have hlen : j < (leBytes 4 w.toNat).length := by rwa [length_leBytes]
    exact (Memory.byte?_setBytes_of_mem hlen).trans (congrArg some (getElem_leBytes 4 w.toNat j hlen))
  · exact Memory.byte?_setBytes_of_not_mem (by rwa [length_leBytes])
  · rw [hread (t := s.memWrite (4 * k) (leBytes 4 w.toNat)) hidle]
    exact s.dbufWord_memWrite (4 * k) w
  · rw [hread hidle]
    exact s.extractLsb'_dbufWord (4 * k) hj
  · rw [hread hidle]

end Sys2Proof.Machine

namespace Sys2Proof.Laws.EncodesItsRow

/-- The whole family: the word of every command matches its row. -/
theorem encode_and_rowOf (i : Instr) : encode i &&& (rowOf i).1 = (rowOf i).2 := by
  cases i
  exacts [nop, bvLdi _ _, bvLdb _ _ _, bvStb _ _, bvLdbits _, bvMov _ _, bvSize _, bvRdw _, bvGet _ _, bvSet _,
    bvGets _ _ _ _, bvSets _ _ _ _ _, bvAnd _ _ _, bvOr _ _ _, bvXor _ _ _, bvNot _ _, bvAdd _ _ _, bvSub _ _ _,
    bvShl _ _, bvShr _ _, bvCat _ _ _, bvZext _, bvSext _, bvHw _, bvHd _ _, bvPack _ _, bvUnpack _ _, segReset,
    segFeed _ _, segUnpad, modeEnc, modeDec, modeSetiv, modeGetiv, modeSetctr, modeGetctr, ctrReset]

end Sys2Proof.Laws.EncodesItsRow

namespace Sys2Proof.Machine

/-! ## The fields of a command word (30_encoding R140)

`packWord` puts every field where `opcodeOf`, `fieldVd`, `fieldVa`, `fieldVb` and `fieldBo` look for it. -/

theorem VReg.testBit_of_ge (r : VReg) {k : Nat} (h : 3 ≤ k) : r.val.testBit k = false :=
  Nat.testBit_lt_two_pow (r.isLt.trans_le (Nat.pow_le_pow_right (by decide : 0 < 2) h))

section
variable (op : BitVec 8) (vd va vb : VReg) (fn : BitVec 4)

/-- Each bit of a packed word is a bit of the one field whose place it is in. -/
theorem getLsbD_packWord {k : Nat} (hk : k < 32) :
    (packWord op vd va vb fn).getLsbD k =
      if k < 8 then op.getLsbD k else if k < 12 then vd.val.testBit (k - 8)
      else if k < 16 then va.val.testBit (k - 12) else if k < 20 then vb.val.testBit (k - 16)
      else fn.getLsbD (k - 20) := by
  have hop (h : 8 ≤ k) : op.getLsbD k = false := BitVec.getLsbD_of_ge _ _ h
  have hvd (h : 12 ≤ k) : vd.val.testBit (k - 8) = false := VReg.testBit_of_ge vd (by omega)
  have hva (h : 16 ≤ k) : va.val.testBit (k - 12) = false := VReg.testBit_of_ge va (by omega)
  have hvb (h : 20 ≤ k) : vb.val.testBit (k - 16) = false := VReg.testBit_of_ge vb (by omega)
  simp only [packWord, BitVec.getLsbD_or, BitVec.getLsbD_setWidth, BitVec.getLsbD_shiftLeft, BitVec.getLsbD_ofNat, hk]
  grind

theorem opcodeOf_packWord : opcodeOf (packWord op vd va vb fn) = op := by
  refine BitVec.eq_of_getLsbD_eq fun k hk => ?_
  rw [opcodeOf, BitVec.getLsbD_extractLsb', getLsbD_packWord _ _ _ _ _ (by omega)]
  simp [hk]

/-- A register field is read back from its three bits. -/
theorem fieldReg_eq_of_testBit {c : Word} {lo : Nat} {r : VReg} (h : ∀ k < 3, c.getLsbD (lo + k) = r.val.testBit k) :
    fieldReg c lo = r := by
  have hbits : c.extractLsb' lo 3 = BitVec.ofFin r := by
    refine BitVec.eq_of_getLsbD_eq fun k hk => ?_
    rw [BitVec.getLsbD_extractLsb', h k hk, decide_eq_true hk, Bool.true_and]
    rfl
  exact congrArg BitVec.toFin hbits

theorem fieldVd_packWord : fieldVd (packWord op vd va vb fn) = vd := by
  refine fieldReg_eq_of_testBit fun k hk => ?_
  rw [getLsbD_packWord _ _ _ _ _ (by omega), if_neg (by omega), if_pos (by omega), Nat.add_sub_cancel_left]

theorem fieldVa_packWord : fieldVa (packWord op vd va vb fn) = va := by
  refine fieldReg_eq_of_testBit fun k hk => ?_
  rw [getLsbD_packWord _ _ _ _ _ (by omega), if_neg (by omega), if_neg (by omega), if_pos (by omega),
    Nat.add_sub_cancel_left]

theorem fieldVb_packWord : fieldVb (packWord op vd va vb fn) = vb := by
  refine fieldReg_eq_of_testBit fun k hk => ?_
  rw [getLsbD_packWord _ _ _ _ _ (by omega), if_neg (by omega), if_neg (by omega), if_neg (by omega),
    if_pos (by omega), Nat.add_sub_cancel_left]

theorem bit20_packWord : (packWord op vd va vb fn).getLsbD 20 = fn.getLsbD 0 :=
  getLsbD_packWord op vd va vb fn (by omega)

theorem bit21_packWord : (packWord op vd va vb fn).getLsbD 21 = fn.getLsbD 1 :=
  getLsbD_packWord op vd va vb fn (by omega)

theorem bit22_packWord : (packWord op vd va vb fn).getLsbD 22 = fn.getLsbD 2 :=
  getLsbD_packWord op vd va vb fn (by omega)

/-- The flags of `FN`, each at its bit of the word. -/
theorem flags_packWord (b3 b2 b1 b0 : Bool) :
    (packWord op vd va vb (fnBits b3 b2 b1 b0)).getLsbD 20 = b0 ∧
    (packWord op vd va vb (fnBits b3 b2 b1 b0)).getLsbD 21 = b1 ∧
    (packWord op vd va vb (fnBits b3 b2 b1 b0)).getLsbD 22 = b2 := by
  rw [bit20_packWord, bit21_packWord, bit22_packWord]
  revert b3 b2 b1 b0
  decide

/-- `BO` and the flag above it. -/
theorem fnBo_packWord (b2 : Bool) (bo : BitOrder) :
    fieldBo (packWord op vd va vb (fnBo b2 bo)) = bo ∧
    (packWord op vd va vb (fnBo b2 bo)).getLsbD 22 = b2 := by
  rw [fieldBo, bit20_packWord, bit21_packWord, bit22_packWord]
  cases bo <;> revert b2 <;> decide

end

/-! ## Each command and its row of the opcode map (R150) -/

theorem opcodeOf_encode (i : Instr) : opcodeOf (encode i) = opcodeByte i := by
  cases i <;> exact opcodeOf_packWord _ _ _ _ _

open Sys2Proof.Laws.EncodesItsRow in
/-- The opcode of a command has a row, with the mask and the match value of `rowOf`, and the row reads the command's own
operands from its word. -/
theorem findRow_opcodeByte (i : Instr) :
    ∃ r, findRow (opcodeByte i) = some r ∧ r.mask = (rowOf i).1 ∧ r.opcode.setWidth 32 = (rowOf i).2 ∧
      r.build (encode i) = i := by
  cases i <;> refine ⟨_, rfl, rfl, rfl, ?_⟩ <;>
    simp only [encode, fieldVd_packWord, fieldVa_packWord, fieldVb_packWord, flags_packWord, fnBo_packWord]

/-! ## What `decode` answers, in the order of R148 -/

theorem decode_of_findRow {c : Word} {r : OpRow} (h : findRow (opcodeOf c) = some r) :
    decode c = if c &&& r.mask = r.opcode.setWidth 32 then
      if (r.build c).wellFormed then .ok (r.build c) else .error .reservedFn else .error .reservedBits := by
  rw [decode, h]

theorem decode_of_findRow_none {c : Word} (h : findRow (opcodeOf c) = none) : decode c = .error .unknownOpcode := by
  rw [decode, h]

theorem findRow_eq_none {op : BitVec 8} (h : ∀ r ∈ opcodeRows, r.opcode ≠ op) : findRow op = none :=
  List.find?_eq_none.mpr fun r hr => by simpa using h r hr

/-- A row that is found is one of the map, with the opcode that was looked for. -/
theorem findRow_some {op : BitVec 8} {r : OpRow} (h : findRow op = some r) : r ∈ opcodeRows ∧ r.opcode = op :=
  ⟨List.mem_of_find?_eq_some h, by simpa using List.find?_some h⟩

theorem opcodes_nodup : (opcodeRows.map OpRow.opcode).Nodup := by decide

/-- No two rows share an opcode, so a row of the map is the one found for its opcode. -/
theorem findRow_of_mem {r : OpRow} (hr : r ∈ opcodeRows) : findRow r.opcode = some r := by
  cases h : findRow r.opcode with
  | none => simpa using List.find?_eq_none.mp h r hr
  | some r' =>
    obtain ⟨hr', hop⟩ := findRow_some h
    rw [List.inj_on_of_nodup_map opcodes_nodup hr' hr hop]

theorem decode_eq_ok {c : Word} {i : Instr} (h : decode c = .ok i) :
    ∃ r ∈ opcodeRows, c &&& r.mask = r.opcode.setWidth 32 ∧ r.build c = i ∧ i.wellFormed = true := by
  cases hrow : findRow (opcodeOf c) with
  | none => rw [decode_of_findRow_none hrow] at h; cases h
  | some r =>
    rw [decode_of_findRow hrow] at h
    split_ifs at h with hmask hwf
    cases h
    exact ⟨r, (findRow_some hrow).1, hmask, rfl, hwf⟩

/-! ## The fields of a word, put back at their places

A field the row uses, put back at its place, is the word under the field's mask; a field the row does not use is the
word under the mask 0. With the bits the row fixes these masks cover the word: no bit of it is ignored (R141). -/

section
variable (c : Word)

/-- A slice of a word, put back where it was. -/
theorem place_slice (lo n : Nat) :
    (c.extractLsb' lo n).setWidth 32 <<< lo = c &&& ((BitVec.allOnes n).setWidth 32 <<< lo) := by
  refine BitVec.eq_of_getLsbD_eq fun k hk => ?_
  simp only [BitVec.getLsbD_shiftLeft, BitVec.getLsbD_setWidth, BitVec.getLsbD_and, BitVec.getLsbD_extractLsb',
    BitVec.getLsbD_allOnes, hk]
  by_cases hlo : k < lo
  · simp [hlo]
  · rw [Nat.add_sub_of_le (Nat.le_of_not_lt hlo)]
    simp [hlo, Bool.and_comm, Bool.and_left_comm, Bool.and_assoc]

theorem place_fieldReg (lo : Nat) : BitVec.ofNat 32 (fieldReg c lo).val <<< lo = c &&& (7#32 <<< lo) := by
  show BitVec.ofNat 32 (c.extractLsb' lo 3).toNat <<< lo = _
  rw [BitVec.ofNat_toNat]
  exact place_slice c lo 3

theorem place_vd : BitVec.ofNat 32 (fieldVd c).val <<< 8 = c &&& 0x00000700#32 := place_fieldReg c 8
theorem place_va : BitVec.ofNat 32 (fieldVa c).val <<< 12 = c &&& 0x00007000#32 := place_fieldReg c 12
theorem place_vb : BitVec.ofNat 32 (fieldVb c).val <<< 16 = c &&& 0x00070000#32 := place_fieldReg c 16

theorem place_noReg (lo : Nat) : BitVec.ofNat 32 (0 : VReg).val <<< lo = c &&& 0#32 := by simp

/-- The four bits of `FN` at their places in the word. -/
theorem place_fnBits (b3 b2 b1 b0 : Bool) :
    (fnBits b3 b2 b1 b0).setWidth 32 <<< 20 =
      (if b3 then BitVec.twoPow 32 23 else 0#32) ||| (if b2 then BitVec.twoPow 32 22 else 0#32) |||
        (if b1 then BitVec.twoPow 32 21 else 0#32) ||| (if b0 then BitVec.twoPow 32 20 else 0#32) := by
  revert b3 b2 b1 b0
  decide

theorem place_noFlag : (0#4).setWidth 32 <<< 20 = c &&& 0#32 := by simp

theorem place_flag : (fnBits false false false (c.getLsbD 20)).setWidth 32 <<< 20 = c &&& 0x00100000#32 := by
  rw [place_fnBits, ← BitVec.and_twoPow]
  exact BitVec.zero_or

theorem place_twoFlags :
    (fnBits false false (c.getLsbD 21) (c.getLsbD 20)).setWidth 32 <<< 20 = c &&& 0x00300000#32 := by
  rw [place_fnBits, ← BitVec.and_twoPow, ← BitVec.and_twoPow, BitVec.or_assoc, ← BitVec.and_or_distrib_left]
  exact BitVec.zero_or

theorem place_threeFlags :
    (fnBits false (c.getLsbD 22) (c.getLsbD 21) (c.getLsbD 20)).setWidth 32 <<< 20 = c &&& 0x00700000#32 := by
  rw [place_fnBits, ← BitVec.and_twoPow, ← BitVec.and_twoPow, ← BitVec.and_twoPow, BitVec.or_assoc, BitVec.or_assoc,
    ← BitVec.and_or_distrib_left, ← BitVec.and_or_distrib_left]
  exact BitVec.zero_or

/-- A flag and the `BO` field are three flags. -/
theorem fnBo_fieldBo (b2 : Bool) : fnBo b2 (fieldBo c) = fnBits false b2 (c.getLsbD 21) (c.getLsbD 20) := by
  rw [fnBo, fieldBo]
  cases b2 <;> cases c.getLsbD 21 <;> cases c.getLsbD 20 <;> rfl

variable {c} in
/-- A word is packed from its fields once their masks and the mask of the bits the row fixes cover it. -/
theorem packWord_eq_of_places {op : BitVec 8} {vd va vb : VReg} {fn : BitVec 4} {mask md ma mb mf : Word}
    (hvd : BitVec.ofNat 32 vd.val <<< 8 = c &&& md) (hva : BitVec.ofNat 32 va.val <<< 12 = c &&& ma)
    (hvb : BitVec.ofNat 32 vb.val <<< 16 = c &&& mb) (hfn : fn.setWidth 32 <<< 20 = c &&& mf)
    (hcover : mask ||| md ||| ma ||| mb ||| mf = BitVec.allOnes 32)
    (hmask : c &&& mask = op.setWidth 32) : packWord op vd va vb fn = c := by
  rw [packWord, hvd, hva, hvb, hfn, ← hmask, ← BitVec.and_or_distrib_left, ← BitVec.and_or_distrib_left,
    ← BitVec.and_or_distrib_left, ← BitVec.and_or_distrib_left, hcover, BitVec.and_allOnes]

theorem place_bo : (fnBo false (fieldBo c)).setWidth 32 <<< 20 = c &&& 0x00300000#32 := by
  rw [fnBo_fieldBo, place_twoFlags]

theorem place_flagBo : (fnBo (c.getLsbD 22) (fieldBo c)).setWidth 32 <<< 20 = c &&& 0x00700000#32 := by
  rw [fnBo_fieldBo, place_threeFlags]

end

/-! ## A word that matches a row is the word of the command the row builds

First the words of a command that uses registers only, by the registers it uses. -/

section
variable {c : Word} {op : BitVec 8}

theorem packWord_vd_va_vb (h : c &&& 0xFFF888FF#32 = op.setWidth 32) :
    packWord op (fieldVd c) (fieldVa c) (fieldVb c) 0#4 = c :=
  packWord_eq_of_places (place_vd c) (place_va c) (place_vb c) (place_noFlag c) (by decide) h

theorem packWord_vd_va (h : c &&& 0xFFFF88FF#32 = op.setWidth 32) : packWord op (fieldVd c) (fieldVa c) 0 0#4 = c :=
  packWord_eq_of_places (place_vd c) (place_va c) (place_noReg c 16) (place_noFlag c) (by decide) h

theorem packWord_va_vb (h : c &&& 0xFFF88FFF#32 = op.setWidth 32) : packWord op 0 (fieldVa c) (fieldVb c) 0#4 = c :=
  packWord_eq_of_places (place_noReg c 8) (place_va c) (place_vb c) (place_noFlag c) (by decide) h

theorem packWord_vd (h : c &&& 0xFFFFF8FF#32 = op.setWidth 32) : packWord op (fieldVd c) 0 0 0#4 = c :=
  packWord_eq_of_places (place_vd c) (place_noReg c 12) (place_noReg c 16) (place_noFlag c) (by decide) h

theorem packWord_va (h : c &&& 0xFFFF8FFF#32 = op.setWidth 32) : packWord op 0 (fieldVa c) 0 0#4 = c :=
  packWord_eq_of_places (place_noReg c 8) (place_va c) (place_noReg c 16) (place_noFlag c) (by decide) h

theorem packWord_none (h : c &&& 0xFFFFFFFF#32 = op.setWidth 32) : packWord op 0 0 0 0#4 = c :=
  packWord_eq_of_places (place_noReg c 8) (place_noReg c 12) (place_noReg c 16) (place_noFlag c) (by decide) h

end

section
variable (c : Word)

theorem encode_build_bvRowsLow : ∀ r ∈ bvRowsLow, c &&& r.mask = r.opcode.setWidth 32 → encode (r.build c) = c := by
  simp only [bvRowsLow, List.forall_mem_cons]
  refine ⟨?ldi, ?ldb, ?stb, packWord_vd, packWord_vd_va, packWord_va, packWord_va, packWord_vd_va, packWord_vd,
    ?gets, ?sets, List.forall_mem_nil _⟩
  case ldi =>
    exact packWord_eq_of_places (place_vd c) (place_noReg c 12) (place_noReg c 16) (place_flag c) (by decide)
  case ldb =>
    exact packWord_eq_of_places (place_vd c) (place_noReg c 12) (place_noReg c 16) (place_flagBo c) (by decide)
  case stb =>
    exact packWord_eq_of_places (place_noReg c 8) (place_va c) (place_noReg c 16) (place_bo c) (by decide)
  case gets =>
    exact packWord_eq_of_places (place_vd c) (place_va c) (place_noReg c 16) (place_twoFlags c) (by decide)
  case sets =>
    exact packWord_eq_of_places (place_vd c) (place_va c) (place_noReg c 16) (place_threeFlags c) (by decide)

theorem encode_build_bvRowsHigh : ∀ r ∈ bvRowsHigh, c &&& r.mask = r.opcode.setWidth 32 → encode (r.build c) = c := by
  simp only [bvRowsHigh, List.forall_mem_cons]
  refine ⟨packWord_vd_va_vb, packWord_vd_va_vb, packWord_vd_va_vb, packWord_vd_va, packWord_vd_va_vb,
    packWord_vd_va_vb, packWord_vd_va, packWord_vd_va, packWord_vd_va_vb, packWord_vd, packWord_vd, packWord_va,
    packWord_va_vb, ?pack, ?unpack, List.forall_mem_nil _⟩
  case pack =>
    exact packWord_eq_of_places (place_noReg c 8) (place_va c) (place_noReg c 16) (place_flag c) (by decide)
  case unpack =>
    exact packWord_eq_of_places (place_vd c) (place_noReg c 12) (place_noReg c 16) (place_flag c) (by decide)

theorem encode_build_segRows : ∀ r ∈ segRows, c &&& r.mask = r.opcode.setWidth 32 → encode (r.build c) = c := by
  simp only [segRows, List.forall_mem_cons]
  refine ⟨packWord_none, ?feed, packWord_none, List.forall_mem_nil _⟩
  case feed =>
    exact packWord_eq_of_places (place_noReg c 8) (place_noReg c 12) (place_noReg c 16) (place_twoFlags c) (by decide)

theorem encode_build_modeRows : ∀ r ∈ modeRows, c &&& r.mask = r.opcode.setWidth 32 → encode (r.build c) = c := by
  simp only [modeRows, List.forall_mem_cons]
  exact ⟨packWord_none, packWord_none, packWord_none, packWord_none, packWord_none, packWord_none, packWord_none,
    List.forall_mem_nil _⟩

theorem encode_build_controlRows :
    ∀ r ∈ controlRows, c &&& r.mask = r.opcode.setWidth 32 → encode (r.build c) = c := by
  simp only [controlRows, List.forall_mem_cons]
  exact ⟨packWord_none, List.forall_mem_nil _⟩

end

/-- A word with the bits a row fixes is the word of the command the row builds from it, well formed or not. -/
theorem encode_build {r : OpRow} (hr : r ∈ opcodeRows) {c : Word} (hmask : c &&& r.mask = r.opcode.setWidth 32) :
    encode (r.build c) = c := by
  simp only [opcodeRows, List.mem_append] at hr
  rcases hr with hr | hr | hr | hr | hr
  · exact encode_build_controlRows c r hr hmask
  · exact encode_build_bvRowsLow c r hr hmask
  · exact encode_build_bvRowsHigh c r hr hmask
  · exact encode_build_segRows c r hr hmask
  · exact encode_build_modeRows c r hr hmask

/-! ## The reserved value of `BO` -/

theorem getLsbD_boBits (b1 b0 : Bool) :
    (boBits (boOfBits b1 b0)).getLsbD 0 = b0 ∧ (boBits (boOfBits b1 b0)).getLsbD 1 = b1 := by
  revert b1 b0
  decide

theorem fieldBo_eq_reserved_iff {c : Word} : fieldBo c = .reserved ↔ c.extractLsb' 20 2 = 3#2 := by
  have hbits : c.extractLsb' 20 2 = boBits (fieldBo c) := by
    obtain ⟨hlow, hhigh⟩ := getLsbD_boBits (c.getLsbD 21) (c.getLsbD 20)
    refine BitVec.eq_of_getLsbD_eq fun k hk => ?_
    rw [fieldBo, BitVec.getLsbD_extractLsb', decide_eq_true hk, Bool.true_and]
    interval_cases k
    · exact hlow.symm
    · exact hhigh.symm
  rw [hbits]
  cases fieldBo c <;> decide

/-- The commands that are not well formed: `BV.LDB` and `BV.STB` words with the reserved bit order (R147). -/
theorem wellFormed_eq_false_iff {i : Instr} :
    i.wellFormed = false ↔ (opcodeByte i = 0x11#8 ∨ opcodeByte i = 0x12#8) ∧ (encode i).extractLsb' 20 2 = 3#2 := by
  rw [← fieldBo_eq_reserved_iff]
  cases i
  case bvLdb vd bo sz =>
    rw [encode, (fnBo_packWord _ _ _ _ _ _).1]
    cases bo <;> decide +revert
  case bvStb va bo =>
    rw [encode, (fnBo_packWord _ _ _ _ _ _).1]
    cases bo <;> decide +revert
  all_goals simp [Instr.wellFormed, opcodeByte]

/-! ## The engine's turn on an accepted word -/

theorem step_of_decode_error {s : State} {rest : List Event} {e : DecodeError} (hbusy : s.busy = true)
    (hagenda : s.agenda = .engine :: rest) (h : decode s.cmd = .error e) :
    step s = .next (raised { s with agenda := rest } (decodeErrorCmd e).code (decodeErrorCmd e).sub) := by
  simp only [step, hagenda, stepEvent, engineTurn, hbusy, if_true, h, State.raise_eq]

theorem step_of_decode_ok {s : State} {rest : List Event} {i : Instr} (hbusy : s.busy = true)
    (hagenda : s.agenda = .engine :: rest) (h : decode s.cmd = .ok i) :
    step s = exec i { s with agenda := rest } := by
  simp only [step, hagenda, stepEvent, engineTurn, hbusy, if_true, h]

/-! ## Settled: the encoding -/

/-- Settles O1: the row found for the command's opcode fits its word (`encode_and_rowOf`) and reads its operands back
(`findRow_opcodeByte`). -/
theorem encodedCommandsDecode : Obligations.EncodedCommandsDecode := by
  intro i hwf
  obtain ⟨r, hrow, hmask, hmatch, hbuild⟩ := findRow_opcodeByte i
  have hfits : encode i &&& r.mask = r.opcode.setWidth 32 := by
    rw [hmask, hmatch]
    exact Laws.EncodesItsRow.encode_and_rowOf i
  rw [← opcodeOf_encode] at hrow
  rw [decode_of_findRow hrow, if_pos hfits, hbuild, if_pos hwf]

/-- Settles O2: a word decodes by a row it fits, and such a word is that of the command the row builds. -/
theorem decodedWordsEncodeBack : Obligations.DecodedWordsEncodeBack := by
  intro c i h
  obtain ⟨r, hr, hmask, rfl, hwf⟩ := decode_eq_ok h
  exact ⟨hwf, encode_build hr hmask⟩

/-- Settles O3: the word's row is the one `decode` finds, and past the mask check the row's command is that of the
word, so it is well formed unless `wellFormed_eq_false_iff` names it. -/
theorem decodeOrder : Obligations.DecodeOrder := by
  intro s rest hbusy hagenda
  refine ⟨fun hnone => ?_, fun r hr hop => ?_⟩
  · exact step_of_decode_error hbusy hagenda (decode_of_findRow_none (findRow_eq_none hnone))
  have hrow : findRow (opcodeOf s.cmd) = some r := by
    rw [opcodeOf, ← hop]
    exact findRow_of_mem hr
  have hdecode := decode_of_findRow hrow
  have hopcode (hmask : s.cmd &&& r.mask = r.opcode.setWidth 32) : opcodeByte (r.build s.cmd) = r.opcode := by
    rw [← opcodeOf_encode, encode_build hr hmask, hop, opcodeOf]
  have hwf (hmask : s.cmd &&& r.mask = r.opcode.setWidth 32) : (r.build s.cmd).wellFormed = false ↔
      (r.opcode = 0x11#8 ∨ r.opcode = 0x12#8) ∧ s.cmd.extractLsb' 20 2 = 3#2 := by
    rw [wellFormed_eq_false_iff, hopcode hmask, encode_build hr hmask]
  refine ⟨fun hmask => ?_, fun hmask hbo hres => ?_, fun hmask hlegal => ?_⟩
  · rw [if_neg hmask] at hdecode
    exact step_of_decode_error hbusy hagenda hdecode
  · rw [if_pos hmask, (hwf hmask).mpr ⟨hbo, hres⟩] at hdecode
    exact step_of_decode_error hbusy hagenda hdecode
  · rw [if_pos hmask, if_pos (Bool.of_not_eq_false (mt (hwf hmask).mp hlegal))] at hdecode
    exact ⟨_, encode_build hr hmask, hopcode hmask, step_of_decode_ok hbusy hagenda hdecode⟩

/-- Settles O4: the three legal words are those of their commands, so they decode by `encodedCommandsDecode`. -/
theorem encodingExamples : Obligations.EncodingExamples := by
  have hexample {i : Instr} {c : Word} (hwf : i.wellFormed = true) (hword : encode i = c) :
      encode i = c ∧ decode c = .ok i := ⟨hword, hword ▸ encodedCommandsDecode i hwf⟩
  obtain ⟨hxor, hxor'⟩ := hexample (i := .bvXor 1 2 3) (c := 0x00032122#32) (by decide) (by decide)
  obtain ⟨hldb, hldb'⟩ := hexample (i := .bvLdb 5 .bitstream true) (c := 0x00600511#32) (by decide) (by decide)
  obtain ⟨hfeed, hfeed'⟩ := hexample (i := .segFeed true true) (c := 0x00300031#32) (by decide) (by decide)
  exact ⟨hxor, hxor', hldb, hldb', hfeed, hfeed', by decide, by decide, by decide⟩

end Sys2Proof.Machine

namespace Sys2Proof.Machine

/-! ## A step, by the agenda and what is in progress (40_control R180, R182) -/

section
variable {s : State} {rest : List Event}

theorem step_of_agenda_nil (hagenda : s.agenda = []) : step s = .next s := by
  rw [step, hagenda]

/-- A step takes the next event off the agenda and performs it. -/
theorem step_of_agenda_cons {e : Event} (hagenda : s.agenda = e :: rest) :
    step s = stepEvent e { s with agenda := rest } := by
  rw [step, hagenda]

/-- The engine's turn with no command in progress. -/
theorem engineTurn_of_idle (hidle : s.busy = false) : engineTurn s = .next s :=
  if_neg (Bool.eq_false_iff.mp hidle)

theorem step_of_idle (hidle : s.busy = false) (hagenda : s.agenda = .engine :: rest) :
    step s = .next { s with agenda := rest } := by
  rw [step_of_agenda_cons hagenda]
  exact engineTurn_of_idle hidle

end

/-! ## The commands that copy and read back (40_control R185, 41_bitvector R207, R208, R209) -/

section
variable (s : State) (vd va : VReg)

theorem exec_nop : exec .nop s = .next (completed s) := finish_ok s s

theorem exec_bvMov : exec (.bvMov vd va) s = .next (completed (s.setV vd (s.vreg va))) := finish_ok s _

theorem exec_bvSize : exec (.bvSize va) s = .next (completed (s.setResult0 (s.vreg va).size)) := finish_ok s _

/-- Word `k` of a number, as the shift and mask of `BV.RDW` and as R209 gives it. -/
theorem word_eq_div_mod (v k : Nat) : (v >>> (32 * k)) &&& 0xFFFFFFFF = v / 2 ^ (32 * k) % 2 ^ 32 := by
  rw [Nat.shiftRight_eq_div_pow]
  exact and_mask _ 32

theorem exec_bvRdw : exec (.bvRdw va) s =
    .next (completed (s.setResult0 ((s.vreg va).val / 2 ^ (32 * s.u0) % 2 ^ 32))) := by
  rw [← word_eq_div_mod]
  exact finish_ok s _

end

/-! ## Settled: the step, and the commands that copy and read back -/

/-- Settles O5: each clause is the equation of `step` for that agenda, the engine's turn split by whether a command is in
progress and whether its word decodes. -/
theorem stepRunsTheDecodedCommand : Obligations.StepRunsTheDecodedCommand := by
  intro s rest
  refine ⟨fun i hbusy hdecode hagenda => ?run, fun e hbusy hdecode hagenda => ?undecoded, step_of_idle,
    fun o w => ?write, fun o => ?read, ?hardReset, ?prim, step_of_agenda_nil⟩
  case run => exact step_of_decode_ok hbusy hagenda hdecode
  case undecoded => exact step_of_decode_error hbusy hagenda hdecode
  case write | read | hardReset | prim => exact step_of_agenda_cons

/-- Settles O24: the four commands' equations, with the register file and `RESULT0` written out. -/
theorem nopCopyAndReadBack : Obligations.NopCopyAndReadBack := fun s vd va =>
  ⟨exec_nop s, exec_bvMov s vd va, exec_bvSize s va, exec_bvRdw s va⟩

end Sys2Proof.Machine

namespace Sys2Proof.Machine

/-! ## Checks that pass and checks that fail, and the ends of a command that writes from a computation

A bit-vector command computes a value behind its checks and then writes it (Machine/BvMove.lean): these rules turn what
the computation answers into what the command answers. -/

section
variable {α : Type} {a n : Nat} {c : Bool} {code : ErrCode} {sub : BitVec 8} (f : Unit → Except CmdError α)

theorem check_bind_pass (h : c = true) : (check c code sub >>= f) = f () := by
  rw [check_bind, if_pos h]

theorem check_bind_fail (h : c = false) : (check c code sub >>= f) = .error { code := code, sub := sub } := by
  rw [check_bind, if_neg (Bool.eq_false_iff.mp h)]

theorem checkRange_bind_pass (h : a + n ≤ 4096) : (checkRange a n >>= f) = f () :=
  check_bind_pass f (inRange_iff.mpr h)

theorem checkRange_bind_fail (h : 4096 < a + n) :
    (checkRange a n >>= f) = .error { code := .address, sub := 1#8 } :=
  check_bind_fail f (decide_eq_false (Nat.not_le_of_lt h))

theorem checkSize_bind_pass (h : n ≤ 1024) : (checkSize n >>= f) = f () :=
  check_bind_pass f (decide_eq_true h)

theorem checkSize_bind_fail (h : 1024 < n) : (checkSize n >>= f) = .error { code := .overflow, sub := 1#8 } :=
  check_bind_fail f (decide_eq_false (Nat.not_le_of_lt h))

theorem BitOrder.legal_of_ne_reserved {bo : BitOrder} (h : bo ≠ .reserved) : bo.legal = true := by
  cases bo with
  | bigEndian | littleEndian | bitstream => rfl
  | reserved => exact absurd rfl h

theorem checkBo_bind_pass {bo : BitOrder} (h : bo ≠ .reserved) : (checkBo bo >>= f) = f () :=
  check_bind_pass f (BitOrder.legal_of_ne_reserved h)

end

section
variable {α : Type} {s : State} {f : α → State} {r : Except CmdError α} {a : α} {code : ErrCode} {sub : BitVec 8}

theorem finish_map_of_ok (h : r = .ok a) : finish s (r.map f) = .next (completed (f a)) := by
  subst h; rfl

theorem finish_map_of_error (h : r = .error { code := code, sub := sub }) :
    finish s (r.map f) = .next (raised s code sub) := by
  subst h; rfl

theorem finishRead_map_of_ok (h : r = .ok a) : finishRead s (r.map f) = .next (completed (drawn (f a))) := by
  subst h; rfl

theorem finishRead_map_of_error (h : r = .error { code := code, sub := sub }) :
    ∃ d, finishRead s (r.map f) = .next { raised s code sub with draws := d } := by
  subst h; exact ⟨s.draws + 1, rfl⟩

end

/-! ## What the loads from the arguments and from `DBUF` answer (41_bitvector R205, R206, R210) -/

section
variable {s : State}

theorem ldiValue_sized (h : s.u2 ≤ 1024) :
    ldiValue true s = .ok { val := s.argPair % 2 ^ s.u2, size := s.u2 } := by
  rw [← and_mask]
  exact checkSize_bind_pass _ h

theorem ldiValue_overflow (h : 1024 < s.u2) : ldiValue true s = .error { code := .overflow, sub := 1#8 } :=
  checkSize_bind_fail _ h

theorem ldiValue_unsized (s : State) : ldiValue false s = .ok { val := s.argPair, size := bitlen s.argPair } := rfl

/-- A test on every byte read is a test at every address of the range. -/
theorem State.all_memRead_iff {p : Byte → Bool} {a n : Nat} :
    (s.memRead a n).all p = true ↔ ∀ k, k < n → p (s.byteAt (a + k)) = true := by
  simp [State.memRead, Memory.bytes, State.byteAt]

/-- What `BV.LDBITS` makes of its bytes: bit `k` is 1 exactly when byte `k` is 1 (R206). -/
def bitsRead (s : State) : Nat := natOfBits ((s.memRead s.u0 s.u1).map fun x => x == 1#8)

theorem bitsRead_lt (s : State) : bitsRead s < 2 ^ s.u1 := by
  simpa [bitsRead] using natOfBits_lt ((s.memRead s.u0 s.u1).map fun x => x == 1#8)

theorem testBit_bitsRead {k : Nat} (hk : k < s.u1) :
    (bitsRead s).testBit k = decide (s.byteAt (s.u0 + k) = 1#8) := by
  rw [bitsRead, testBit_natOfBits, List.getD_eq_getElem _ _ (by simpa using hk), List.getElem_map,
    State.getElem_memRead]
  rfl

theorem ldbitsValue_address (h : 4096 < s.u0 + s.u1) :
    ldbitsValue s = .error { code := .address, sub := 1#8 } :=
  checkRange_bind_fail _ h

theorem ldbitsValue_overflow (hroom : s.u0 + s.u1 ≤ 4096) (h : 1024 < s.u1) :
    ldbitsValue s = .error { code := .overflow, sub := 1#8 } :=
  (checkRange_bind_pass _ hroom).trans (checkSize_bind_fail _ h)

/-- Behind the range and the size, `BV.LDBITS` looks at the bytes. -/
theorem ldbitsValue_eq (hroom : s.u0 + s.u1 ≤ 4096) (hsize : s.u1 ≤ 1024) :
    ldbitsValue s = if ∀ k, k < s.u1 → s.byteAt (s.u0 + k) = 0#8 ∨ s.byteAt (s.u0 + k) = 1#8
      then .ok { val := bitsRead s, size := s.u1 } else .error { code := .type, sub := 1#8 } := by
  refine ((checkRange_bind_pass _ hroom).trans (checkSize_bind_pass _ hsize)).trans ?_
  rw [check_bind]
  refine if_congr ?_ rfl rfl
  rw [State.all_memRead_iff]
  simp

end

section
variable {s : State} {bo : BitOrder} {sz : Bool}

theorem loadedBit_congr {f g : Nat → Byte} {n j : Nat} (hfg : ∀ k, k < n → f k = g k) (hj : j < 8 * n) :
    loadedBit bo n f j = loadedBit bo n g j := by
  cases bo with
  | bigEndian => simp only [loadedBit, hfg (n - 1 - j / 8) (by omega)]
  | littleEndian | bitstream => simp only [loadedBit, hfg (j / 8) (by omega)]
  | reserved => rfl

/-- Bit `j` of the integer read from `DBUF` in a bit order, by the addresses of its bytes. -/
theorem testBit_bytesToNat_memRead (bo : BitOrder) (s : State) {a n j : Nat} (hj : j < 8 * n) :
    (bytesToNat bo (s.memRead a n)).testBit j = loadedBit bo n (fun k => s.byteAt (a + k)) j := by
  rw [testBit_bytesToNat bo _ (by simpa using hj), State.length_memRead]
  refine loadedBit_congr (fun k hk => ?_) hj
  rw [List.getD_eq_getElem _ _ (by simpa using hk), State.getElem_memRead]

/-- The size `BV.LDB` gives its result: `ARG2`, or all bits of the bytes (R210). -/
def ldbSize (sz : Bool) (s : State) : Nat := if sz then s.u2 else 8 * s.u1

theorem ldbValue_address (hbo : bo ≠ .reserved) (h : 4096 < s.u0 + s.u1) :
    ldbValue bo sz s = .error { code := .address, sub := 1#8 } :=
  (checkBo_bind_pass _ hbo).trans (checkRange_bind_fail _ h)

theorem ldbValue_sizeMismatch (hbo : bo ≠ .reserved) (hroom : s.u0 + s.u1 ≤ 4096) (h : 8 * s.u1 < ldbSize sz s) :
    ldbValue bo sz s = .error { code := .sizeMismatch, sub := 3#8 } :=
  (checkBo_bind_pass _ hbo).trans <| (checkRange_bind_pass _ hroom).trans <|
    check_bind_fail _ (decide_eq_false (Nat.not_le_of_lt h))

theorem ldbValue_overflow (hbo : bo ≠ .reserved) (hroom : s.u0 + s.u1 ≤ 4096) (hfit : ldbSize sz s ≤ 8 * s.u1)
    (h : 1024 < ldbSize sz s) : ldbValue bo sz s = .error { code := .overflow, sub := 1#8 } :=
  (checkBo_bind_pass _ hbo).trans <| (checkRange_bind_pass _ hroom).trans <|
    (check_bind_pass _ (decide_eq_true hfit)).trans <| checkSize_bind_fail _ h

theorem ldbValue_ok (hbo : bo ≠ .reserved) (hroom : s.u0 + s.u1 ≤ 4096) (hfit : ldbSize sz s ≤ 8 * s.u1)
    (hsize : ldbSize sz s ≤ 1024) :
    ldbValue bo sz s =
      .ok { val := bytesToNat bo (s.memRead s.u0 s.u1) % 2 ^ ldbSize sz s, size := ldbSize sz s } := by
  rw [← and_mask]
  exact (checkBo_bind_pass _ hbo).trans <| (checkRange_bind_pass _ hroom).trans <|
    (check_bind_pass _ (decide_eq_true hfit)).trans <| checkSize_bind_pass _ hsize

theorem bytesToNat_memRead_lt (bo : BitOrder) (s : State) (a n : Nat) :
    bytesToNat bo (s.memRead a n) < 2 ^ (8 * n) := by
  simpa using bytesToNat_lt bo (s.memRead a n)

/-- Unsized, no bit of the bytes is cut off. -/
theorem ldbValue_unsized (hbo : bo ≠ .reserved) (hroom : s.u0 + s.u1 ≤ 4096) (hsize : 8 * s.u1 ≤ 1024) :
    ldbValue bo false s = .ok { val := bytesToNat bo (s.memRead s.u0 s.u1), size := 8 * s.u1 } := by
  have h := ldbValue_ok (sz := false) hbo hroom (Nat.le_refl _) hsize
  rwa [ldbSize, if_neg Bool.false_ne_true, Nat.mod_eq_of_lt (bytesToNat_memRead_lt bo s _ _)] at h

/-- The byte order that the flag `BIG` names is none but the two whole-byte ones (R250, R251). -/
theorem byteOrder_ne_reserved (big : Bool) : (if big then BitOrder.bigEndian else .littleEndian) ≠ .reserved := by
  cases big <;> decide

theorem ldbValue_unsized_overflow (hbo : bo ≠ .reserved) (hroom : s.u0 + s.u1 ≤ 4096) (h : 1024 < 8 * s.u1) :
    ldbValue bo false s = .error { code := .overflow, sub := 1#8 } :=
  ldbValue_overflow (sz := false) hbo hroom (Nat.le_refl _) h

/-- `BV.UNPACK` computes what the unsized `BV.LDB` in the same byte order computes (R252). -/
theorem unpackValue_eq_ldbValue (big : Bool) (s : State) :
    unpackValue big s = ldbValue (if big then .bigEndian else .littleEndian) false s := by
  have hbo := byteOrder_ne_reserved big
  by_cases hroom : s.u0 + s.u1 ≤ 4096
  · by_cases hsize : 8 * s.u1 ≤ 1024
    · rw [ldbValue_unsized hbo hroom hsize]
      refine ((checkRange_bind_pass _ hroom).trans (checkSize_bind_pass _ hsize)).trans ?_
      cases big <;> rfl
    · have hover := Nat.lt_of_not_le hsize
      rw [ldbValue_unsized_overflow hbo hroom hover]
      exact (checkRange_bind_pass _ hroom).trans (checkSize_bind_fail _ hover)
  · have hout := Nat.lt_of_not_le hroom
    rw [ldbValue_address hbo hout]
    exact checkRange_bind_fail _ hout

end

/-! ## What the stores to `DBUF` answer (41_bitvector R213, R250) -/

section
variable {s : State} {va : VReg} {bo : BitOrder}

theorem stbBytes_address (hbo : bo ≠ .reserved) (h : 4096 < s.u0 + (s.vreg va).byteCount) :
    stbBytes va bo s = .error { code := .address, sub := 1#8 } :=
  (checkBo_bind_pass _ hbo).trans (checkRange_bind_fail _ h)

theorem stbBytes_ok (hbo : bo ≠ .reserved) (hroom : s.u0 + (s.vreg va).byteCount ≤ 4096) :
    stbBytes va bo s = .ok (natToBytes bo (s.vreg va).byteCount (s.vreg va).val) :=
  (checkBo_bind_pass _ hbo).trans (checkRange_bind_pass _ hroom)

/-- The 8-bit groups of a value are its bytes, lowest first (R250, R252). -/
theorem byteGroups_eq_leBytes (v g : Nat) : byteGroups v g = leBytes g v := by
  refine List.map_congr_left fun j _ => BitVec.eq_of_toNat_eq ?_
  rw [BitVec.toNat_ofNat, BitVec.toNat_ofNat, show 0xFF = mask 8 from rfl, and_mask, Nat.mod_mod]

/-- `BV.PACK` computes what `BV.STB` computes in the byte order it names (R252). -/
theorem packBytes_eq_stbBytes (va : VReg) (big : Bool) (s : State) :
    packBytes va big s = stbBytes va (if big then .bigEndian else .littleEndian) s := by
  refine .trans ?_ (checkBo_bind_pass _ (byteOrder_ne_reserved big)).symm
  simp only [packBytes, byteGroups_eq_leBytes]
  cases big <;> rfl

theorem byteCount_eq (r : BvReg) : r.byteCount = (r.size + 7) / 8 := rfl

/-- The state after a store of bytes at `ARG0`: `RESULT0` counts the bytes (R213, R250). -/
def State.stored (s : State) (out : List Byte) : State :=
  completed ((s.memWrite s.u0 out).setResult0 out.length)

theorem State.holds_stored (s : State) (out : List Byte) : holds (s.stored out) s.u0 out :=
  fun _ hk => Memory.byte?_setBytes_of_mem hk

theorem State.sameOutside_stored (s : State) (out : List Byte) : sameOutside s (s.stored out) s.u0 out.length :=
  fun _ hx => Memory.byte?_setBytes_of_not_mem hx

theorem State.stored_eq_outside_dbuf (s : State) (out : List Byte) :
    { s.stored out with dbuf := s.dbuf } = completed { s with result0 := BitVec.ofNat 32 out.length } := rfl

theorem exec_bvStb_of_lt (hbo : bo ≠ .reserved) (h : 4096 < s.u0 + (s.vreg va).byteCount) :
    exec (.bvStb va bo) s = .next (raised s .address 1#8) :=
  finish_map_of_error (stbBytes_address hbo h)

theorem exec_bvStb_of_le (hbo : bo ≠ .reserved) (hroom : s.u0 + (s.vreg va).byteCount ≤ 4096) :
    exec (.bvStb va bo) s = .next (s.stored (natToBytes bo (s.vreg va).byteCount (s.vreg va).val)) := by
  rw [State.stored, length_natToBytes hbo]
  exact finish_map_of_ok (stbBytes_ok hbo hroom)

/-- What a store in range does: the value's bytes stand at `ARG0`, and nothing else has changed (R213). -/
theorem exec_bvStb_stores (hbo : bo ≠ .reserved) (hroom : s.u0 + (s.vreg va).byteCount ≤ 4096) :
    ∃ t, exec (.bvStb va bo) s = .next t ∧
      holds t s.u0 (natToBytes bo (s.vreg va).byteCount (s.vreg va).val) ∧
      sameOutside s t s.u0 (s.vreg va).byteCount ∧
      { t with dbuf := s.dbuf } = completed { s with result0 := BitVec.ofNat 32 (s.vreg va).byteCount } := by
  have hlen := length_natToBytes hbo (s.vreg va).byteCount (s.vreg va).val
  have hout := s.sameOutside_stored (natToBytes bo (s.vreg va).byteCount (s.vreg va).val)
  have hrest := s.stored_eq_outside_dbuf (natToBytes bo (s.vreg va).byteCount (s.vreg va).val)
  rw [hlen] at hout hrest
  exact ⟨_, exec_bvStb_of_le hbo hroom, s.holds_stored _, hout, hrest⟩

theorem ofNat_shiftRight_eq_div_mod (v k : Nat) : BitVec.ofNat 8 (v >>> k) = BitVec.ofNat 8 (v / 2 ^ k % 256) :=
  BitVec.eq_of_toNat_eq (by simp [Nat.shiftRight_eq_div_pow])

/-- Byte `i` of a value in the two whole-byte orders is a group of eight bits of it (R250). -/
theorem getElem_natToBytes_of_big (big : Bool) (k v i : Nat)
    (h : i < (natToBytes (if big then .bigEndian else .littleEndian) k v).length) :
    (natToBytes (if big then .bigEndian else .littleEndian) k v)[i] =
      BitVec.ofNat 8 (v / 2 ^ (8 * (if big then k - 1 - i else i)) % 256) := by
  rw [← ofNat_shiftRight_eq_div_mod]
  cases big with
  | true => exact getElem_beBytes k v i h
  | false => exact getElem_leBytes k v i h

/-- `BV.STB` of a register that holds the integer of a byte string stores that byte string. -/
theorem exec_bvStb_of_vreg_eq {b : List Byte} (hbo : bo ≠ .reserved)
    (hreg : s.vreg va = { val := bytesToNat bo b, size := 8 * b.length }) (hroom : s.u0 + b.length ≤ 4096) :
    exec (.bvStb va bo) s = .next (s.stored b) := by
  have hcount : (s.vreg va).byteCount = b.length := by rw [byteCount_eq, hreg]; dsimp only; omega
  rw [exec_bvStb_of_le hbo (by rwa [hcount]), hcount, hreg, natToBytes_bytesToNat hbo]

/-- The unsized `BV.LDB` of a byte string loads its integer. -/
theorem exec_bvLdb_of_memRead {b : List Byte} (vd : VReg) (hbo : bo ≠ .reserved) (hb : s.memRead s.u0 s.u1 = b)
    (hroom : s.u0 + s.u1 ≤ 4096) (hn : s.u1 ≤ 128) :
    exec (.bvLdb vd bo false) s =
      .next (completed (drawn (s.setV vd { val := bytesToNat bo b, size := 8 * b.length }))) := by
  subst hb
  rw [State.length_memRead]
  exact finishRead_map_of_ok (ldbValue_unsized hbo hroom (Nat.mul_le_mul_left 8 hn))

/-- What a state holds is what it reads, whatever the draw. -/
theorem memRead_of_holds {a : Nat} {b : List Byte} (h : holds s a b) : s.memRead a b.length = b := by
  refine List.ext_getElem (State.length_memRead s a _) fun i hi hb => ?_
  rw [State.getElem_memRead]
  exact Memory.byteOr_of_byte? (h i hb)

/-- The unsized `BV.LDB` of the bytes just stored, with `ARG1` their number. -/
theorem exec_bvLdb_of_stored {b : List Byte} (vd : VReg) (hbo : bo ≠ .reserved) (hroom : s.u0 + b.length ≤ 4096)
    (hn : b.length ≤ 128) :
    ∃ u, exec (.bvLdb vd bo false) { s.stored b with arg1 := BitVec.ofNat 32 b.length } = .next u ∧
      u.vreg vd = { val := bytesToNat bo b, size := 8 * b.length } := by
  have hu1 : (BitVec.ofNat 32 b.length).toNat = b.length := Nat.mod_eq_of_lt (by omega)
  refine ⟨_, exec_bvLdb_of_memRead vd hbo ?_ ?_ ?_, State.vreg_setV_self _ vd _⟩
  · show (s.stored b).memRead s.u0 (BitVec.ofNat 32 b.length).toNat = b
    rw [hu1, memRead_of_holds (s.holds_stored b)]
  · show s.u0 + (BitVec.ofNat 32 b.length).toNat ≤ 4096
    rwa [hu1]
  · show (BitVec.ofNat 32 b.length).toNat ≤ 128
    rwa [hu1]

theorem exec_bvPack (va : VReg) (big : Bool) (s : State) :
    exec (.bvPack va big) s = exec (.bvStb va (if big then .bigEndian else .littleEndian)) s := by
  simp only [exec, execBvPack, execBvStb, packBytes_eq_stbBytes]

theorem exec_bvUnpack (vd : VReg) (big : Bool) (s : State) :
    exec (.bvUnpack vd big) s = finishRead s
      ((ldbValue (if big then .bigEndian else .littleEndian) false s).map
        fun r => (s.setV vd r).setResult0 r.size) := by
  simp only [exec, execBvUnpack, unpackValue_eq_ldbValue]

end

/-! ## Settled: loads, stores, and their byte orders -/

/-- Settles O22: behind the size check the value is cut to `ARG2` bits; unsized, `bitlen` is the least length. -/
theorem ldiLoads : Obligations.LdiLoads := fun s _ =>
  ⟨fun h => finish_map_of_ok (ldiValue_sized h), fun h => finish_map_of_error (ldiValue_overflow h),
    bitlen s.argPair, finish_map_of_ok (s := s) (ldiValue_unsized s), lt_two_pow_bitlen _,
    fun _ hm => two_pow_le_of_lt_bitlen hm⟩

/-- Settles O23: the checks in their order; `ldbitsValue_eq` splits the last one, on the bytes. -/
theorem ldbitsLoads : Obligations.LdbitsLoads := by
  intro s vd
  refine ⟨fun h => finishRead_map_of_error (ldbitsValue_address h),
    fun hroom h => finishRead_map_of_error (ldbitsValue_overflow hroom h), fun hroom hsize hbad => ?_,
    fun hroom hsize hbits => ?_⟩
  · obtain ⟨k, hk, h0, h1⟩ := hbad
    have hvalue := ldbitsValue_eq hroom hsize
    rw [if_neg fun hall => (hall k hk).elim h0 h1] at hvalue
    exact finishRead_map_of_error hvalue
  · have hvalue := ldbitsValue_eq hroom hsize
    rw [if_pos hbits] at hvalue
    exact ⟨_, bitsRead s, finishRead_map_of_ok hvalue, bitsRead_lt s, fun k hk => testBit_bitsRead hk⟩

/-- Settles O25: the checks in their order; the bits below the size are those of the bytes. -/
theorem ldbLoads : Obligations.LdbLoads := by
  rintro s vd bo sz _ hbo rfl
  refine ⟨fun h => finishRead_map_of_error (ldbValue_address hbo h),
    fun hroom h => finishRead_map_of_error (ldbValue_sizeMismatch hbo hroom h),
    fun hroom hfit h => finishRead_map_of_error (ldbValue_overflow hbo hroom hfit h), fun hroom hfit hsize => ?_⟩
  refine ⟨_, _, finishRead_map_of_ok (ldbValue_ok hbo hroom hfit hsize), Nat.mod_lt _ (Nat.two_pow_pos _),
    fun j hj => ?_⟩
  rw [Nat.testBit_mod_two_pow]
  have hbit := testBit_bytesToNat_memRead bo s (a := s.u0) (hj.trans_le hfit)
  simpa [show j < ldbSize sz s from hj] using hbit

/-- Settles O26: a store writes the value's bytes in the bit order and nothing else. -/
theorem stbStores : Obligations.StbStores := by
  rintro s va bo _ hbo rfl
  refine ⟨exec_bvStb_of_lt hbo, fun hroom => ?_⟩
  obtain ⟨t, hexec, hholds, hframe⟩ := exec_bvStb_stores (va := va) hbo hroom
  have hlen := length_natToBytes hbo (s.vreg va).byteCount (s.vreg va).val
  exact ⟨t, hexec, fun i hi => ⟨_, hholds i (hlen.symm ▸ hi), fun q hq => getLsbD_natToBytes _ _ i q hi hq _⟩, hframe⟩

/-- Settles O27: `BV.PACK` is the store, and `BV.UNPACK` the unsized load, in the byte order that `BIG` names. -/
theorem packAndUnpack : Obligations.PackAndUnpack := by
  refine ⟨?_, fun s vd big => ?_⟩
  · rintro s va big _ rfl
    rw [exec_bvPack]
    have hbo := byteOrder_ne_reserved big
    refine ⟨exec_bvStb_of_lt hbo, fun hroom => ?_⟩
    obtain ⟨t, hexec, hholds, hframe⟩ := exec_bvStb_stores (va := va) hbo hroom
    have hlen := length_natToBytes hbo (s.vreg va).byteCount (s.vreg va).val
    exact ⟨t, hexec, fun i hi => (hholds i (hlen.symm ▸ hi)).trans
      (congrArg some (getElem_natToBytes_of_big big _ _ i _)), hframe⟩
  · rw [exec_bvUnpack]
    have hbo := byteOrder_ne_reserved big
    refine ⟨fun h => finishRead_map_of_error (ldbValue_address hbo h), fun hroom h => finishRead_map_of_error
      (ldbValue_unsized_overflow hbo hroom ((Nat.mul_lt_mul_left (by decide : 0 < 8)).mpr h)), fun hroom hsize => ?_⟩
    exact ⟨_, _, finishRead_map_of_ok (ldbValue_unsized hbo hroom (Nat.mul_le_mul_left 8 hsize)),
      bytesToNat_memRead_lt _ s _ _, fun j hj => testBit_bytesToNat_memRead _ s hj⟩

/-- Settles O29: both sides compute the same value; only `BV.UNPACK` then writes `RESULT0`. -/
theorem packIsStoreAndUnpackIsLoad : Obligations.PackIsStoreAndUnpackIsLoad := by
  refine ⟨fun s va => ⟨exec_bvPack va false s, exec_bvPack va true s⟩, fun s t vd big hload => ?_⟩
  rw [exec_bvUnpack]
  simp only [exec, execBvLdb] at hload
  cases hvalue : ldbValue (if big then .bigEndian else .littleEndian) false s with
  | ok r =>
    rw [hvalue] at hload
    cases hload
    exact ⟨_, rfl, rfl⟩
  | error e =>
    rw [hvalue] at hload
    cases hload
    exact ⟨_, rfl, rfl⟩

/-- Settles O28: a store and an unsized load take a register and its bytes to each other, and `natToBytes` and
`bytesToNat` undo each other in every bit order. -/
theorem loadStoreRoundTrip : Obligations.LoadStoreRoundTrip := by
  refine ⟨fun s vd bo hbo hroom hn => ?_, fun s va vd bo hbo hwf hmul hroom => ?_⟩
  · refine ⟨_, exec_bvLdb_of_memRead vd hbo rfl hroom hn, fun dst hdst => ⟨_, exec_bvStb_of_vreg_eq hbo ?_ ?_, rfl,
      State.holds_stored _ _⟩⟩
    · exact State.vreg_setV_self s vd _
    · rwa [State.length_memRead]
  · obtain ⟨hle, hlt⟩ := hwf
    have hcount : (s.vreg va).byteCount = (s.vreg va).size / 8 := by rw [byteCount_eq]; omega
    have hsize : 8 * ((s.vreg va).size / 8) = (s.vreg va).size := by omega
    have hlen := length_natToBytes hbo (s.vreg va).byteCount (s.vreg va).val
    have hrange : s.u0 + (s.vreg va).byteCount ≤ 4096 := by rwa [hcount]
    obtain ⟨u, hload, hreg⟩ := exec_bvLdb_of_stored (s := s)
      (b := natToBytes bo (s.vreg va).byteCount (s.vreg va).val) vd hbo (by rwa [hlen]) (by omega)
    rw [bytesToNat_natToBytes hbo, hlen, hcount, hsize, Nat.mod_eq_of_lt hlt] at hreg
    rw [hlen] at hload
    refine ⟨_, u, exec_bvStb_of_le hbo hrange, ?_, hreg⟩
    rw [← hcount]
    exact hload

end Sys2Proof.Machine

namespace Sys2Proof.Machine

/-! ## Bit and slice access (41_bitvector R220 to R224) -/

section
variable {s : State} {vd va : VReg} {j : Nat}

theorem getBit_of_normIndex (h : normIndex s.arg0.toInt (s.vreg va).size = .ok j) :
    getBit va s = .ok ((s.vreg va).val.testBit j) := by
  rw [getBit, h]; rfl

theorem getBit_of_index_error {e : CmdError} (h : normIndex s.arg0.toInt (s.vreg va).size = .error e) :
    getBit va s = .error e := by
  rw [getBit, h]; rfl

theorem setValue_of_index_error {e : CmdError} (h : normIndex s.arg0.toInt (s.vreg vd).size = .error e) :
    setValue vd s = .error e := by
  rw [setValue, h]; rfl

/-- Behind the index, `BV.SET` looks at the bit to write (R223). -/
theorem setValue_of_normIndex (h : normIndex s.arg0.toInt (s.vreg vd).size = .ok j) :
    setValue vd s = if s.u1 ≤ 1
      then .ok { val := setBit (s.vreg vd).val j (decide (s.u1 = 1)), size := (s.vreg vd).size }
      else .error { code := .type, sub := 2#8 } := by
  rw [setValue, h]
  exact (check_bind _ _ _ _).trans (if_congr decide_eq_true_iff rfl rfl)

theorem exists_normIndex_ok {i : Int} {n : Nat} (h1 : -(n : Int) ≤ i) (h2 : i < n) : ∃ j, normIndex i n = .ok j :=
  ⟨_, if_pos ⟨h1, h2⟩⟩

end

section
variable {ns ne : Bool} {a0 a1 a2 : Word} {n : Nat}

theorem sliceOf_of_step (h : a2.toInt < 1) : sliceOf ns ne a0 a1 a2 n = .error { code := .index, sub := 3#8 } := by
  rw [sliceOf_eq, if_pos h]

theorem sliceOf_of_outside (hstep : 1 ≤ a2.toInt) (h : ¬ sliceInside ns ne a0 a1 n) :
    sliceOf ns ne a0 a1 a2 n = .error { code := .index, sub := 2#8 } := by
  rw [sliceOf_eq, if_neg (Int.not_lt.mpr hstep)]
  exact if_neg h

/-- Slice `x` selects, in order, the positions `start + k * inc` that lie below `stop`. -/
structure Slice.Selects (x : Slice) (start stop inc : Int) : Prop where
  step : 1 ≤ x.step
  index : ∀ k : Nat, (x.index k : Int) = start + k * inc
  count : ∀ k : Nat, k < x.count ↔ start + k * inc < stop

/-- A legal slice normalises to the positions R222 names. -/
theorem exists_sliceOf_ok (hstep : 1 ≤ a2.toInt) (h : sliceInside ns ne a0 a1 n) :
    ∃ x, sliceOf ns ne a0 a1 a2 n = .ok x ∧
      x.Selects (sliceStart ns a0 n) (sliceStop ne a1 n) a2.toInt := by
  refine ⟨_, ((sliceOf_eq ns ne a0 a1 a2 n).trans (if_neg (Int.not_lt.mpr hstep))).trans (if_pos h), ?_⟩
  obtain ⟨hlo, hle, -⟩ := h
  generalize sliceStart ns a0 n = start at *
  generalize sliceStop ne a1 n = stop at *
  generalize a2.toInt = inc at *
  have hpos : 1 ≤ inc.toNat := by omega
  have hinc : ((inc.toNat : Nat) : Int) = inc := Int.toNat_of_nonneg (by omega)
  have hmul (k : Nat) : ((k * inc.toNat : Nat) : Int) = k * inc := by rw [Nat.cast_mul, hinc]
  refine ⟨hpos, fun k => ?_, fun k => ?_⟩
  · rw [Slice.index, Nat.cast_add, hmul, Int.toNat_of_nonneg hlo]
  · rw [lt_ceilDiv_iff hpos, ← hmul]
    omega

/-- A slice of as many positions as there are below the stop has that count. -/
theorem Slice.Selects.count_eq {x : Slice} {start stop inc : Int} (h : x.Selects start stop inc) {c : Nat}
    (hc : ∀ k : Nat, k < c ↔ start + k * inc < stop) : x.count = c :=
  Nat.le_antisymm (Nat.le_of_not_lt fun hlt => Nat.lt_irrefl c ((hc c).mpr ((h.count c).mp hlt)))
    (Nat.le_of_not_lt fun hlt => Nat.lt_irrefl _ ((h.count _).mpr ((hc _).mp hlt)))

/-- Writing back what a slice reads changes no bit (R225). -/
theorem Slice.write_read (x : Slice) (hstep : 1 ≤ x.step) (v : Nat) : x.write v (x.read v) = v := by
  refine Nat.eq_of_testBit_eq fun j => ?_
  obtain ⟨hselected, hother⟩ := x.testBit_write hstep v (x.read v) j
  by_cases h : ∃ k, k < x.count ∧ j = x.index k
  · obtain ⟨k, hk, rfl⟩ := h
    rw [hselected k hk rfl, Slice.testBit_read, decide_eq_true hk, Bool.true_and]
  · exact hother fun k hk hj => h ⟨k, hk, hj⟩

end

section
variable {s : State} {vd va : VReg} {ns ne co : Bool} {x : Slice} {e : CmdError}

theorem getsValue_of_slice_error (h : sliceOf ns ne s.arg0 s.arg1 s.arg2 (s.vreg va).size = .error e) :
    getsValue va ns ne s = .error e := by
  rw [getsValue, h]; rfl

theorem getsValue_of_slice (h : sliceOf ns ne s.arg0 s.arg1 s.arg2 (s.vreg va).size = .ok x) :
    getsValue va ns ne s = .ok { val := x.read (s.vreg va).val, size := x.count } := by
  rw [getsValue, h]; rfl

theorem setsValue_of_slice_error (h : sliceOf ns ne s.arg0 s.arg1 s.arg2 (s.vreg vd).size = .error e) :
    setsValue vd va ns ne co s = .error e := by
  rw [setsValue, h]; rfl

theorem setsValue_sizeMismatch (h : sliceOf ns ne s.arg0 s.arg1 s.arg2 (s.vreg vd).size = .ok x)
    (hsize : (s.vreg va).size ≠ x.count) :
    setsValue vd va ns ne false s = .error { code := .sizeMismatch, sub := 2#8 } := by
  rw [setsValue, h]
  exact check_bind_fail _ (decide_eq_false hsize)

/-- What `BV.SETS` makes of its target: the coerced source is cut to the slice's length (R224). -/
theorem setsValue_of_slice (h : sliceOf ns ne s.arg0 s.arg1 s.arg2 (s.vreg vd).size = .ok x)
    (hsize : co = true ∨ (s.vreg va).size = x.count) :
    setsValue vd va ns ne co s = .ok {
      val := x.write (s.vreg vd).val (if co then (s.vreg va).val % 2 ^ x.count else (s.vreg va).val)
      size := (s.vreg vd).size } := by
  rw [setsValue, h, ← and_mask]
  exact check_bind_pass _ (by simpa using hsize)

/-- The bits below the slice's length do not depend on the coercion. -/
theorem testBit_coerced (co : Bool) (w : Nat) {c k : Nat} (hk : k < c) :
    (if co then w % 2 ^ c else w).testBit k = w.testBit k := by
  cases co with
  | true => simp [Nat.testBit_mod_two_pow, hk]
  | false => rfl

end

/-! ## Settled: bit and slice access -/

/-- Settles O30: normalisation of the index first, then for `BV.SET` the bit to write. -/
theorem bitAccess : Obligations.BitAccess := by
  intro s vd va
  refine ⟨fun j hlo hhi hj => finish_map_of_ok (getBit_of_normIndex (normIndex_ok hlo hhi hj)),
    fun h => finish_map_of_error (getBit_of_index_error (normIndex_error h)),
    fun h => finish_map_of_error (setValue_of_index_error (normIndex_error h)), fun hlo hhi hbit => ?_,
    fun j hlo hhi hbit hj => ?_⟩
  · obtain ⟨j, hj⟩ := exists_normIndex_ok hlo hhi
    have hvalue := setValue_of_normIndex hj
    rw [if_neg (Nat.not_le_of_lt hbit)] at hvalue
    exact finish_map_of_error hvalue
  · have hvalue := setValue_of_normIndex (normIndex_ok hlo hhi hj)
    rw [if_pos hbit] at hvalue
    exact ⟨_, finish_map_of_ok hvalue, testBit_setBit _ j _⟩

/-- Settles O31: what normalisation answers, and the bits a slice reads. -/
theorem getsReadsASlice : Obligations.GetsReadsASlice := by
  intro s vd va ns ne
  refine ⟨fun h => finish_map_of_error (getsValue_of_slice_error (sliceOf_of_step h)),
    fun hstep h => finish_map_of_error (getsValue_of_slice_error (sliceOf_of_outside hstep h)), fun hstep h => ?_⟩
  obtain ⟨x, hx, hsel⟩ := exists_sliceOf_ok hstep h
  refine ⟨_, x.count, finish_map_of_ok (getsValue_of_slice hx), x.read_lt _, hsel.count, fun k hk => ?_⟩
  rw [Slice.testBit_read, decide_eq_true hk, Bool.true_and, ← hsel.index k, Int.toNat_natCast]
  rfl

/-- Settles O32: what normalisation answers, the size of the source, and the bits a slice write leaves. -/
theorem setsWritesASlice : Obligations.SetsWritesASlice := by
  intro s vd va ns ne co
  refine ⟨fun h => finish_map_of_error (setsValue_of_slice_error (sliceOf_of_step h)),
    fun hstep h => finish_map_of_error (setsValue_of_slice_error (sliceOf_of_outside hstep h)),
    fun c hstep h hc => ?_⟩
  obtain ⟨x, hx, hsel⟩ := exists_sliceOf_ok hstep h
  obtain rfl := hsel.count_eq hc
  refine ⟨?_, fun hsize => ⟨_, finish_map_of_ok (setsValue_of_slice hx hsize), fun k hk => ?_, fun j hj => ?_⟩⟩
  · rintro rfl hne
    exact finish_map_of_error (setsValue_sizeMismatch hx hne)
  · obtain ⟨hselected, -⟩ := x.testBit_write hsel.step (s.vreg vd).val
      (if co then (s.vreg va).val % 2 ^ x.count else (s.vreg va).val) (x.index k)
    rw [← hsel.index k, Int.toNat_natCast]
    exact (hselected k hk rfl).trans (testBit_coerced co _ hk)
  · refine (x.testBit_write hsel.step _ _ j).2 fun k hk hjk => hj k hk ?_
    rw [hjk, hsel.index k]

/-- Settles O33: `BV.GETS` leaves the source register, so both commands use one slice, and `Slice.write_read`. -/
theorem sliceMuxIdentity : Obligations.SliceMuxIdentity := by
  intro s x y ns ne co hne hstep h
  obtain ⟨sl, hsl, hsel⟩ := exists_sliceOf_ok hstep h
  have hget : exec (.bvGets y x ns ne) s = .next (completed (s.setV y
    { val := sl.read (s.vreg x).val, size := sl.count })) := finish_map_of_ok (getsValue_of_slice hsl)
  set t := completed (s.setV y { val := sl.read (s.vreg x).val, size := sl.count })
  have hx : t.vreg x = s.vreg x := State.vreg_setV_ne s hne.symm _
  have hy : t.vreg y = { val := sl.read (s.vreg x).val, size := sl.count } := State.vreg_setV_self s y _
  have hset := setsValue_of_slice (s := t) (va := y) (co := co) (hx ▸ hsl) (.inr (by rw [hy]))
  have hcut : (if co then sl.read (s.vreg x).val % 2 ^ sl.count else sl.read (s.vreg x).val) =
      sl.read (s.vreg x).val := by
    rw [Nat.mod_eq_of_lt (sl.read_lt _), ite_self]
  rw [hx, hy, hcut, sl.write_read hsel.step] at hset
  exact ⟨t, _, hget, finish_map_of_ok hset, State.vreg_setV_self t x _, rfl⟩

end Sys2Proof.Machine

namespace Sys2Proof.Machine

/-! ## Operators, shifts, extension and counts (41_bitvector R230 to R246) -/

section
variable (a b : BvReg)

theorem bvSub_val_lt : (bvSub a b).val < 2 ^ maxSize a b := by
  have hpos : (0 : Int) < ((2 ^ maxSize a b : Nat) : Int) := Int.natCast_pos.mpr (Nat.two_pow_pos _)
  have hlt := Int.emod_lt_of_pos ((a.val : Int) - b.val) hpos
  simp only [bvSub]
  omega

/-- The difference is taken in the integers and reduced, so that adding the subtrahend undoes it (R236). -/
theorem bvSub_val_add_modEq : (bvSub a b).val + b.val ≡ a.val [MOD 2 ^ maxSize a b] := by
  have hne : ((2 ^ maxSize a b : Nat) : Int) ≠ 0 := Int.natCast_ne_zero.mpr (Nat.two_pow_pos _).ne'
  rw [← Int.natCast_modEq_iff, Nat.cast_add, bvSub, Int.toNat_of_nonneg (Int.emod_nonneg _ hne)]
  calc ((a.val : Int) - b.val) % ((2 ^ maxSize a b : Nat) : Int) + b.val
      ≡ (a.val - b.val) + b.val [ZMOD ((2 ^ maxSize a b : Nat) : Int)] := (Int.mod_modEq _ _).add_right _
    _ = a.val := Int.sub_add_cancel _ _

theorem testBit_bvNot (k : Nat) : (bvNot a).val.testBit k = (decide (k < a.size) && !a.val.testBit k) := by
  rw [bvNot, Nat.testBit_xor, Nat.testBit_and, testBit_mask]
  cases a.val.testBit k <;> cases decide (k < a.size) <;> rfl

/-- The two branches of a left shift are one reduction: a shift by the size or more leaves a multiple of `2^size`. -/
theorem bvShl_val (n : Nat) : (bvShl a n).val = a.val * 2 ^ n % 2 ^ a.size := by
  rw [bvShl]
  split_ifs with h
  · exact (Nat.mod_eq_zero_of_dvd ((Nat.pow_dvd_pow 2 h).mul_left _)).symm
  · exact and_mask _ _

theorem bvShl_val_of_le {n : Nat} (h : a.size ≤ n) : (bvShl a n).val = 0 := if_pos h

theorem bvShr_val (n : Nat) : (bvShr a n).val = a.val / 2 ^ n := Nat.shiftRight_eq_div_pow _ _

theorem bvShr_val_of_le {n : Nat} (ha : a.val < 2 ^ a.size) (h : a.size ≤ n) : (bvShr a n).val = 0 := by
  rw [bvShr_val]
  exact Nat.div_eq_of_lt (lt_two_pow_mono ha h)

theorem catValue_ok (h : a.size + b.size ≤ 1024) :
    catValue a b = .ok { val := a.val + b.val * 2 ^ a.size, size := a.size + b.size } :=
  checkSize_bind_pass _ h

theorem catValue_overflow (h : 1024 < a.size + b.size) : catValue a b = .error { code := .overflow, sub := 1#8 } :=
  checkSize_bind_fail _ h

end

section
variable {r : BvReg} {m : Nat}

theorem zextValue_of_le (h : m ≤ r.size) : zextValue r m = .ok r := if_pos h

theorem sextValue_of_le (h : m ≤ r.size) : sextValue r m = .ok r := if_pos h

theorem zextValue_overflow (h : r.size < m) (hm : 1024 < m) :
    zextValue r m = .error { code := .overflow, sub := 1#8 } :=
  (if_neg (Nat.not_le_of_lt h)).trans (checkSize_bind_fail _ hm)

theorem sextValue_overflow (h : r.size < m) (hm : 1024 < m) :
    sextValue r m = .error { code := .overflow, sub := 1#8 } :=
  (if_neg (Nat.not_le_of_lt h)).trans (checkSize_bind_fail _ hm)

theorem zextValue_ok (h : r.size < m) (hm : m ≤ 1024) : zextValue r m = .ok { val := r.val, size := m } :=
  (if_neg (Nat.not_le_of_lt h)).trans (checkSize_bind_pass _ hm)

/-- What sign extension makes of a value: the bits from the size up to `m` become the most significant bit (R242). -/
def BvReg.signFill (r : BvReg) (m : Nat) : Nat := if r.msb then r.val ||| (mask m - mask r.size) else r.val

theorem sextValue_ok (h : r.size < m) (hm : m ≤ 1024) : sextValue r m = .ok { val := r.signFill m, size := m } :=
  (if_neg (Nat.not_le_of_lt h)).trans (checkSize_bind_pass _ hm)

theorem testBit_mask_sub_mask {n : Nat} (h : n ≤ m) (k : Nat) :
    (mask m - mask n).testBit k = (decide (n ≤ k) && decide (k < m)) := by
  have hshift : mask m - mask n = 2 ^ n * mask (m - n) := by
    have hpos := Nat.two_pow_pos n
    rw [mask, mask, mask, Nat.mul_sub, ← Nat.pow_add, Nat.add_sub_cancel' h]
    omega
  rw [hshift, Nat.testBit_two_pow_mul, testBit_mask]
  by_cases hk : n ≤ k
  · simp [hk, show k - n < m - n ↔ k < m by omega]
  · simp [hk]

theorem testBit_signFill (hr : r.val < 2 ^ r.size) (h : r.size ≤ m) (k : Nat) :
    (r.signFill m).testBit k = if k < r.size then r.val.testBit k else decide (k < m) && r.msb := by
  have hhigh (hk : r.size ≤ k) : r.val.testBit k = false := Nat.testBit_lt_two_pow (lt_two_pow_mono hr hk)
  cases hmsb : r.msb with
  | false =>
    rw [BvReg.signFill, hmsb, if_neg Bool.false_ne_true, Bool.and_false]
    split_ifs with hk
    · rfl
    · exact hhigh (Nat.le_of_not_lt hk)
  | true =>
    rw [BvReg.signFill, hmsb, if_pos rfl, Bool.and_true, Nat.testBit_or, testBit_mask_sub_mask h]
    split_ifs with hk
    · simp [hk]
    · simp [Nat.le_of_not_lt hk, hhigh (Nat.le_of_not_lt hk)]

theorem msb_eq (r : BvReg) : r.msb = (decide (0 < r.size) && r.val.testBit (r.size - 1)) := by
  simp [BvReg.msb, Nat.pos_iff_ne_zero]

end

/-- A bit above the length of a number is 0, so counting to any length counts every 1 bit. -/
theorem popcount_eq_card {v n : Nat} (h : v < 2 ^ n) :
    popcount v = ((Finset.range n).filter fun k => v.testBit k = true).card := by
  have hrange : (Finset.range n).filter (fun k => v.testBit k = true) =
      (Finset.range (bitlen v)).filter fun k => v.testBit k = true := by
    ext k
    have hlt {m : Nat} (hm : v < 2 ^ m) (hk : v.testBit k = true) : k < m :=
      (Nat.pow_lt_pow_iff_right (by decide)).mp ((Nat.ge_two_pow_of_testBit hk).trans_lt hm)
    simp only [Finset.mem_filter, Finset.mem_range]
    exact ⟨fun ⟨_, hk⟩ => ⟨hlt (lt_two_pow_bitlen v) hk, hk⟩, fun ⟨_, hk⟩ => ⟨hlt h hk, hk⟩⟩
  rw [hrange, popcount, List.countP_eq_length_filter]
  simp [Finset.card_def, Multiset.range]

theorem popcount_xor_eq_card {v w n : Nat} (hv : v < 2 ^ n) (hw : w < 2 ^ n) :
    popcount (v ^^^ w) = ((Finset.range n).filter fun k => v.testBit k ≠ w.testBit k).card := by
  rw [popcount_eq_card (Nat.xor_lt_two_pow hv hw)]
  simp only [Nat.testBit_xor, bne_iff_ne]

theorem hamming_ok {a b : BvReg} (h : a.size = b.size) : hamming a b = .ok (popcount (a.val ^^^ b.val)) :=
  check_bind_pass _ (decide_eq_true h)

theorem hamming_sizeMismatch {a b : BvReg} (h : a.size ≠ b.size) :
    hamming a b = .error { code := .sizeMismatch, sub := 1#8 } :=
  check_bind_fail _ (decide_eq_false h)

theorem State.setV_vreg_self (s : State) (r : VReg) : s.setV r (s.vreg r) = s := by
  simp [State.setV, State.vreg]

theorem finish_map_setV_of_unchanged {s : State} {vd : VReg} {r : Except CmdError BvReg} (h : r = .ok (s.vreg vd)) :
    finish s (r.map (s.setV vd)) = .next (completed s) := by
  rw [finish_map_of_ok h, State.setV_vreg_self]

/-! ## Settled: operators, shifts, extension and counts -/

/-- Settles O34: the three bitwise results are the model's own, and the sum and the difference are reduced. -/
theorem bitwiseAndModularOperators : Obligations.BitwiseAndModularOperators := by
  refine ⟨fun s vd va vb => ⟨finish_ok s _, finish_ok s _, finish_ok s _⟩, ?_⟩
  rintro s vd va vb _ rfl
  exact ⟨⟨_, finish_ok s _, Nat.mod_lt _ (Nat.two_pow_pos _), Nat.mod_modEq _ _⟩,
    ⟨_, finish_ok s _, bvSub_val_lt (s.vreg va) (s.vreg vb), bvSub_val_add_modEq (s.vreg va) (s.vreg vb)⟩⟩

/-- Settles O36: the bits of the complement, and the two shifts as a product and a quotient. -/
theorem complementAndShifts : Obligations.ComplementAndShifts := by
  rintro s vd va ⟨-, hval⟩
  exact ⟨⟨_, finish_ok s _, testBit_bvNot (s.vreg va)⟩,
    ⟨_, finish_ok s _, bvShl_val (s.vreg va) s.u0, bvShl_val_of_le (s.vreg va)⟩,
    ⟨_, finish_ok s _, bvShr_val (s.vreg va) s.u0, bvShr_val_of_le (s.vreg va) hval⟩⟩

/-- Settles O37: the size check of each command, and the bits sign extension fills in. -/
theorem concatenationAndExtension : Obligations.ConcatenationAndExtension := by
  intro s vd va vb
  refine ⟨fun h => finish_map_of_ok (catValue_ok _ _ h), fun h => finish_map_of_error (catValue_overflow _ _ h),
    fun h => ⟨finish_map_setV_of_unchanged (zextValue_of_le h), finish_map_setV_of_unchanged (sextValue_of_le h)⟩,
    fun h hm => ⟨finish_map_of_error (zextValue_overflow h hm), finish_map_of_error (sextValue_overflow h hm)⟩,
    fun ⟨_, hval⟩ h hm => ⟨finish_map_of_ok (zextValue_ok h hm), _, finish_map_of_ok (sextValue_ok h hm), fun k => ?_⟩⟩
  rw [Bool.and_assoc]
  exact msb_eq (s.vreg vd) ▸ testBit_signFill hval h.le k

/-- Settles O38: `popcount` counts the 1 bits below any length that holds the number. -/
theorem hammingCounts : Obligations.HammingCounts := by
  rintro s va vb ⟨-, ha⟩ ⟨-, hb⟩
  refine ⟨?_, fun h => ?_, fun h => finish_map_of_error (hamming_sizeMismatch h)⟩
  · rw [← popcount_eq_card ha]
    exact finish_ok s _
  · rw [← popcount_xor_eq_card ha (h ▸ hb)]
    exact finish_map_of_ok (hamming_ok h)

end Sys2Proof.Machine

namespace Sys2Proof.Machine

/-! ## The configuration `SEG.RESET` checks and latches (42_segmenter R303, R304) -/

/-- Code 7 is the one reserved code of a scheme (10_state R46). -/
theorem schemeOfCode_eq_none_iff {code : BitVec 3} : schemeOfCode code = none ↔ code.toNat = 7 := by
  revert code; decide

theorem schemeCode_of_schemeOfCode {code : BitVec 3} {sc : PadScheme} (h : schemeOfCode code = some sc) :
    schemeCode sc = code := by
  revert code sc; decide

theorem bits_mdWordOfCode (code : BitVec 2) : (mdWordOfCode code).bits = 8 * 2 ^ code.toNat := by
  revert code; decide

theorem legalBlockBits_iff {n : Nat} : legalBlockBits n = true ↔ n % 8 = 0 ∧ 8 ≤ n ∧ n ≤ 1024 := by
  simp [legalBlockBits, and_assoc]

/-- Only `MD` (code 5) and `BLAKE` (code 6) have a suffix that must fit a block. -/
theorem PadCfg.fieldFits_iff (c : PadCfg) :
    c.fieldFits = true ↔ ¬ ((schemeCode c.scheme).toNat = 5 ∧ c.blockBits < 2 * c.w.bits + 1 ∨
      (schemeCode c.scheme).toNat = 6 ∧ c.blockBits < 2 * c.w.bits + 2) := by
  unfold PadCfg.fieldFits PadCfg.fieldBits
  cases c.scheme <;> simp [schemeCode]

/-- The configuration that `SEG_CFG` and `SEG_BLKBITS` describe, under a scheme (10_state R46, R47). -/
def State.segCfgOf (s : State) (sc : PadScheme) : PadCfg :=
  { scheme := sc, w := mdWordOfCode (s.segCfg.extractLsb' 4 2), lenBe := s.segCfg.getLsbD 6,
    dbit := s.segCfg.getLsbD 7, blockBits := s.segBlkBits.toNat }

section
variable {s : State} {sc : PadScheme}

theorem segConfig_of_reserved (h : schemeOfCode (s.segCfg.extractLsb' 0 3) = none) :
    segConfig s = .error { code := .config, sub := 1#8 } := by
  rw [segConfig, h]

/-- Behind the scheme, `segConfig` checks the block size and then the room for the suffix. -/
theorem segConfig_of_scheme (h : schemeOfCode (s.segCfg.extractLsb' 0 3) = some sc) :
    segConfig s = if legalBlockBits s.segBlkBits.toNat then
        if (s.segCfgOf sc).fieldFits then .ok (s.segCfgOf sc) else .error { code := .config, sub := 3#8 }
      else .error { code := .config, sub := 2#8 } := by
  rw [segConfig, h]
  dsimp only
  rw [check_bind, check_bind]
  rfl

/-- Whether the suffix fits, by the codes in `SEG_CFG`. -/
theorem fieldFits_segCfgOf_iff (h : schemeOfCode (s.segCfg.extractLsb' 0 3) = some sc) :
    (s.segCfgOf sc).fieldFits = true ↔
      ¬ ((s.segCfg.extractLsb' 0 3).toNat = 5 ∧
            s.segBlkBits.toNat < 2 * (8 * 2 ^ (s.segCfg.extractLsb' 4 2).toNat) + 1 ∨
          (s.segCfg.extractLsb' 0 3).toNat = 6 ∧
            s.segBlkBits.toNat < 2 * (8 * 2 ^ (s.segCfg.extractLsb' 4 2).toNat) + 2) := by
  rw [← schemeCode_of_schemeOfCode h, ← bits_mdWordOfCode]
  exact (s.segCfgOf sc).fieldFits_iff

end

/-! ## Settled: `SEG.RESET` -/

/-- Settles O39: the reserved scheme first, then the two checks of `segConfig_of_scheme`. -/
theorem segResetLatches : Obligations.SegResetLatches := by
  rintro s _ _ _ rfl rfl rfl
  refine ⟨fun hcode => finish_map_of_error (segConfig_of_reserved (schemeOfCode_eq_none_iff.mpr hcode)), ?_⟩
  cases hsc : schemeOfCode (s.segCfg.extractLsb' 0 3) with
  | none =>
    have hcode := schemeOfCode_eq_none_iff.mp hsc
    exact ⟨fun hne => absurd hcode hne, fun _ _ _ hfield => by omega, fun hne => absurd hcode hne⟩
  | some sc =>
    have hcfg := segConfig_of_scheme hsc
    have hfits := fieldFits_segCfgOf_iff hsc
    refine ⟨fun _ hbits => ?_, fun h8 hlo hhi hfield => ?_, fun _ h8 hlo hhi hfield => ?_⟩
    · rw [if_neg (mt legalBlockBits_iff.mp hbits)] at hcfg
      exact finish_map_of_error hcfg
    · rw [if_pos (legalBlockBits_iff.mpr ⟨h8, hlo, hhi⟩), if_neg (mt hfits.mp (not_not_intro hfield))] at hcfg
      exact finish_map_of_error hcfg
    · rw [if_pos (legalBlockBits_iff.mpr ⟨h8, hlo, hhi⟩), if_pos (hfits.mpr hfield)] at hcfg
      exact ⟨_, finish_map_of_ok hcfg, congrArg BitVec.toNat (schemeCode_of_schemeOfCode hsc),
        bits_mdWordOfCode _, rfl, rfl, rfl, rfl, rfl, rfl⟩

end Sys2Proof.Machine

namespace Sys2Proof.Machine

/-! ## What `SEG.FEED` answers (42_segmenter R305) -/

theorem PadScheme.wholeBytes_iff {sc : PadScheme} : sc.wholeBytes = true ↔ sc = .pkcs7 ∨ sc = .x923 := by
  cases sc <;> decide

/-- The feed passes the checks that every `SEG.FEED` makes before it looks at blocks and bytes (R305, R306). -/
structure FeedOpens (decl : Bool) (s : State) : Prop where
  notFinalized : s.seg.finalized = false
  source : s.u0 + s.u1 ≤ 4096
  declared : feedBits decl s ≤ 8 * s.u1

/-- The feed passes every check but the one of its destination (R305, R308, R309). -/
structure FeedFits (pad decl : Bool) (s : State) : Prop extends FeedOpens decl s where
  whole : pad = true ∨ feedBits decl s % s.seg.cfg.blockBits = 0
  bytes : pad = true → s.seg.cfg.scheme.wholeBytes = true → feedBits decl s % s.seg.cfg.blockBits % 8 = 0

/-- The state after a feed that writes `p`, with its completion (R305). -/
def State.fed (s : State) (p : FeedPlan) : State :=
  completed (drawn ((({ s with seg := p.seg }.memWrite s.u3 p.out).setResult0 p.out.length).setResult1 p.blocks))

section
variable {pad decl : Bool} {s : State}

theorem feedLength_eq (decl : Bool) (s : State) :
    feedLength decl s.u1 s.u2 =
      if feedBits decl s ≤ 8 * s.u1 then .ok (feedBits decl s) else .error { code := .padding, sub := 3#8 } := by
  cases decl with
  | false => exact (if_pos (Nat.le_refl _)).symm
  | true =>
    refine (check_bind _ _ _ _).trans ?_
    simp only [decide_eq_true_eq]
    rfl

theorem feedPlan_of_finalized (h : s.seg.finalized = true) :
    feedPlan pad decl s = .error { code := .padding, sub := 2#8 } :=
  check_bind_fail _ (by rw [h]; rfl)

theorem feedPlan_of_source (hopen : s.seg.finalized = false) (h : 4096 < s.u0 + s.u1) :
    feedPlan pad decl s = .error { code := .address, sub := 1#8 } :=
  (check_bind_pass _ (by rw [hopen]; rfl)).trans (checkRange_bind_fail _ h)

theorem feedPlan_of_declared (hopen : s.seg.finalized = false) (hsource : s.u0 + s.u1 ≤ 4096)
    (h : 8 * s.u1 < feedBits decl s) : feedPlan pad decl s = .error { code := .padding, sub := 3#8 } := by
  refine (check_bind_pass _ (by rw [hopen]; rfl)).trans ((checkRange_bind_pass _ hsource).trans ?_)
  rw [feedLength_eq, if_neg (Nat.not_le_of_lt h)]
  rfl

/-- What is left of a feed behind its first three checks: whole blocks, whole bytes, the destination. -/
theorem FeedOpens.feedPlan_eq (h : FeedOpens decl s) :
    feedPlan pad decl s = (do
      check (pad || decide (feedBits decl s % s.seg.cfg.blockBits = 0)) .padding 1#8
      check (!(pad && s.seg.cfg.scheme.wholeBytes) || decide (feedBits decl s % s.seg.cfg.blockBits % 8 = 0))
        .padding 5#8
      checkRange s.u3 (feedMessage pad s.seg (feedMsg decl s)).out.length
      pure (feedMessage pad s.seg (feedMsg decl s))) := by
  refine (check_bind_pass _ (by rw [h.notFinalized]; rfl)).trans ((checkRange_bind_pass _ h.source).trans ?_)
  rw [feedLength_eq, if_pos h.declared]
  rfl

theorem FeedOpens.feedPlan_of_block (h : FeedOpens decl s) (hpart : feedBits decl s % s.seg.cfg.blockBits ≠ 0) :
    feedPlan false decl s = .error { code := .padding, sub := 1#8 } :=
  h.feedPlan_eq.trans (check_bind_fail _ (decide_eq_false hpart))

theorem FeedOpens.feedPlan_of_byte (h : FeedOpens decl s) (hscheme : s.seg.cfg.scheme.wholeBytes = true)
    (hpart : feedBits decl s % s.seg.cfg.blockBits % 8 ≠ 0) :
    feedPlan true decl s = .error { code := .padding, sub := 5#8 } :=
  h.feedPlan_eq.trans <| (check_bind_pass _ rfl).trans <|
    check_bind_fail _ (by rw [hscheme, decide_eq_false hpart]; rfl)

theorem FeedFits.feedPlan_eq (h : FeedFits pad decl s) :
    feedPlan pad decl s = (do
      checkRange s.u3 (feedMessage pad s.seg (feedMsg decl s)).out.length
      pure (feedMessage pad s.seg (feedMsg decl s))) := by
  obtain ⟨hopens, hwhole, hbytes⟩ := h
  refine hopens.feedPlan_eq.trans ((check_bind_pass _ (by simpa using hwhole)).trans (check_bind_pass _ ?_))
  simpa [← Bool.not_eq_true, or_iff_not_imp_left] using hbytes

theorem FeedFits.exec_of_le (h : FeedFits pad decl s)
    (hout : s.u3 + (feedMessage pad s.seg (feedMsg decl s)).out.length ≤ 4096) :
    exec (.segFeed pad decl) s = .next (s.fed (feedMessage pad s.seg (feedMsg decl s))) :=
  finishRead_map_of_ok (h.feedPlan_eq.trans (checkRange_bind_pass _ hout))

/-- A feed that leaves the segmenter finalized, begun on one that is not, has passed every check. -/
theorem exec_segFeed_inv {t : State} (hopen : s.seg.finalized = false) (h : exec (.segFeed pad decl) s = .next t)
    (hfinal : t.seg.finalized = true) :
    FeedFits pad decl s ∧ s.u3 + (feedMessage pad s.seg (feedMsg decl s)).out.length ≤ 4096 ∧
      t = s.fed (feedMessage pad s.seg (feedMsg decl s)) := by
  rcases finishRead_cases h with ⟨u, hu, rfl⟩ | ⟨e, -, rfl⟩
  · obtain ⟨p, hp, rfl⟩ := Except.map_eq_ok_iff.mp hu
    obtain ⟨-, hsource, hdeclared, hwhole, hbytes, rfl, hroom⟩ := feedPlan_ok hp
    exact ⟨⟨⟨hopen, hsource, hdeclared⟩, hwhole, hbytes⟩, hroom, rfl⟩
  · exact absurd hfinal (by rw [show (s.nextDraw.raise e).seg = s.seg from rfl, hopen]; exact Bool.false_ne_true)

theorem State.holds_fed (s : State) (p : FeedPlan) : holds (s.fed p) s.u3 p.out :=
  fun _ hk => Memory.byte?_setBytes_of_mem hk

theorem State.sameOutside_fed (s : State) (p : FeedPlan) : sameOutside s (s.fed p) s.u3 p.out.length :=
  fun _ hx => Memory.byte?_setBytes_of_not_mem hx

theorem State.fed_err (s : State) (p : FeedPlan) : (s.fed p).err = s.err := rfl

theorem State.fed_seg (s : State) (p : FeedPlan) : (s.fed p).seg = p.seg := rfl

theorem State.fed_dbuf (s : State) (p : FeedPlan) : (s.fed p).dbuf = Memory.setBytes s.dbuf s.u3 p.out := rfl

theorem State.fed_eq_outside_dbuf (s : State) (p : FeedPlan) :
    { s.fed p with dbuf := s.dbuf } =
      { completed { s with seg := p.seg, result0 := BitVec.ofNat 32 p.out.length,
                           result1 := BitVec.ofNat 32 p.blocks } with draws := s.draws + 1 } := by
  simp only [State.fed, completed, drawn, State.setResult1, State.setResult0, State.memWrite]

/-- What a feed that passes the other checks does, by its destination: it raises, or the bytes of its plan stand at
`ARG3` and nothing else has changed but what the plan names (R305). -/
theorem FeedFits.exec_cases (h : FeedFits pad decl s) {p : FeedPlan}
    (hp : feedMessage pad s.seg (feedMsg decl s) = p) :
    (4096 < s.u3 + p.out.length → ∃ d, exec (.segFeed pad decl) s = .next { raised s .address 1#8 with draws := d }) ∧
    (s.u3 + p.out.length ≤ 4096 →
      ∃ t d, exec (.segFeed pad decl) s = .next t ∧ holds t s.u3 p.out ∧ sameOutside s t s.u3 p.out.length ∧
        { t with dbuf := s.dbuf } =
          { completed { s with seg := p.seg, result0 := BitVec.ofNat 32 p.out.length,
                               result1 := BitVec.ofNat 32 p.blocks } with draws := d }) := by
  subst hp
  exact ⟨fun hout => finishRead_map_of_error (h.feedPlan_eq.trans (checkRange_bind_fail _ hout)),
    fun hout => ⟨_, _, h.exec_of_le hout, s.holds_fed _, s.sameOutside_fed _, s.fed_eq_outside_dbuf _⟩⟩

end

/-! ## The bytes a feed writes (R310, R311) -/

theorem take_streamBits (b : List Byte) (n : Nat) : (streamBits b).take (8 * n) = streamBits (b.take n) := by
  induction b generalizing n with
  | nil => simp
  | cons x b ih =>
    cases n with
    | zero => rfl
    | succ n =>
      rw [streamBits_cons, show 8 * (n + 1) = (byteBits x).length + 8 * n by rw [length_byteBits]; omega,
        List.take_length_add_append, ih, List.take_succ_cons, streamBits_cons]

/-- The bytes of the first whole bytes of a stream are the first bytes. -/
theorem packBits_take_streamBits (b : List Byte) {len : Nat} (h : len % 8 = 0) :
    packBits ((streamBits b).take len) = b.take (len / 8) := by
  obtain ⟨n, rfl⟩ := Nat.dvd_of_mod_eq_zero h
  rw [take_streamBits, packBits_streamBits, Nat.mul_div_cancel_left n (by decide)]

section
variable {g : SegState} {m : List Bool}

/-- A message of whole blocks goes out as it is (R310). -/
theorem feedMessage_of_whole (hm : m.length % g.cfg.blockBits = 0) :
    feedMessage false g m = { out := packBits m, blocks := m.length / g.cfg.blockBits,
                              seg := { g with processed := g.processed + BitVec.ofNat 64 m.length } } := by
  have htake : m.take (m.length / g.cfg.blockBits * g.cfg.blockBits) = m := by
    rw [Nat.div_mul_cancel (Nat.dvd_of_mod_eq_zero hm), List.take_length]
  rw [feedMessage, htake]
  rfl

/-- `Pad` of the bits behind the last whole block of a message (R305, R311). -/
def paddedTail (c : PadCfg) (m : List Bool) (p : Nat) : Padded :=
  padTail c (m.drop (m.length / c.blockBits * c.blockBits)) p

/-- A message up to its last whole block, and its padded tail: what a feed with padding writes (R311). -/
def paddedBits (c : PadCfg) (m : List Bool) (p : Nat) : List Bool :=
  m.take (m.length / c.blockBits * c.blockBits) ++ (paddedTail c m p).bits

theorem PadCfg.eight_dvd_blockBits {c : PadCfg} (hc : c.legal = true) : 8 ∣ c.blockBits :=
  Nat.dvd_of_mod_eq_zero (PadCfg.blockBits_of_legal hc).1

theorem length_take_wholeBlocks (m : List Bool) (bb : Nat) :
    (m.take (m.length / bb * bb)).length = m.length / bb * bb := by
  rw [List.length_take, Nat.min_eq_left (Nat.div_mul_le_self _ _)]

/-- What a feed with padding writes, with the new total count as the length to pad with (R305, R311, R319). -/
theorem feedMessage_of_pad (hc : g.cfg.legal = true) {p : BitVec 64}
    (hp : p = g.processed + BitVec.ofNat 64 m.length) :
    feedMessage true g m =
      { out := packBits (paddedBits g.cfg m p.toNat)
        seg := { g with processed := p, finalized := true,
                        lastPad := BitVec.ofNat 12 (paddedTail g.cfg m p.toNat).padBits }
        blocks := m.length / g.cfg.blockBits + (paddedTail g.cfg m p.toNat).blocks } := by
  subst hp
  have h8 : 8 ∣ m.length / g.cfg.blockBits * g.cfg.blockBits := (PadCfg.eight_dvd_blockBits hc).mul_left _
  rw [paddedBits, packBits_append (m.length / g.cfg.blockBits * g.cfg.blockBits / 8) _
    (by rw [length_take_wholeBlocks, Nat.mul_div_cancel' h8])]
  rfl

end

/-! ## Settled: what `SEG.FEED` refuses and what it writes -/

/-- Settles O40: the checks of `feedPlan` in their order. -/
theorem feedRefusals : Obligations.FeedRefusals := by
  refine fun s pad decl => ⟨fun h => finishRead_map_of_error (feedPlan_of_finalized h),
    fun hopen h => finishRead_map_of_error (feedPlan_of_source hopen h), fun hopen hsource => ⟨fun h => ?_, ?_, ?_⟩⟩
  · exact finishRead_map_of_error (feedPlan_of_declared hopen hsource h)
  · rintro hdeclared rfl hpart
    exact finishRead_map_of_error (FeedOpens.feedPlan_of_block ⟨hopen, hsource, hdeclared⟩ hpart)
  · rintro hdeclared rfl hscheme hpart
    exact finishRead_map_of_error
      (FeedOpens.feedPlan_of_byte ⟨hopen, hsource, hdeclared⟩ (PadScheme.wholeBytes_iff.mpr hscheme) hpart)

/-- Settles O41: the message of an accepted feed is whole blocks, so that its bytes are source bytes. -/
theorem feedWithoutPadding : Obligations.FeedWithoutPadding := by
  intro s decl hlegal hopen hsource hdeclared hwhole
  have hfits : FeedFits false decl s := ⟨⟨hopen, hsource, hdeclared⟩, .inr hwhole, fun h => absurd h Bool.false_ne_true⟩
  have hlen := length_feedMsg hdeclared
  have hbytes : feedBits decl s % 8 = 0 :=
    Nat.mod_eq_zero_of_dvd ((PadCfg.eight_dvd_blockBits hlegal).trans (Nat.dvd_of_mod_eq_zero hwhole))
  have hplan := feedMessage_of_whole (g := s.seg) (m := feedMsg decl s) (hlen.symm ▸ hwhole)
  rw [hlen, feedMsg, packBits_take_streamBits _ hbytes, ← feedMsg] at hplan
  have hout : ((s.memRead s.u0 s.u1).take (feedBits decl s / 8)).length = feedBits decl s / 8 := by
    rw [List.length_take, State.length_memRead, Nat.min_eq_left (Nat.div_le_of_le_mul hdeclared)]
  have hcases := hfits.exec_cases hplan
  rw [hout] at hcases
  exact hcases

/-- Settles O42: the plan of a feed with padding is that of one bit string (`feedMessage_of_pad`). -/
theorem feedWithPadding : Obligations.FeedWithPadding := by
  rintro s decl _ _ _ hlegal hopen hsource hdeclared hbytes rfl rfl rfl
  have hfits : FeedFits true decl s :=
    ⟨⟨hopen, hsource, hdeclared⟩, .inl rfl, fun _ hscheme => hbytes (PadScheme.wholeBytes_iff.mp hscheme)⟩
  have hlen := length_feedMsg hdeclared
  have hplan := feedMessage_of_pad (m := feedMsg decl s) hlegal rfl
  rw [paddedBits, paddedTail, hlen] at hplan
  exact hfits.exec_cases hplan

end Sys2Proof.Machine

namespace Sys2Proof.Machine

/-! ## The padded tail, scheme by scheme (42_segmenter R312 to R318) -/

section
variable {c : PadCfg} {t : List Bool} {p : Nat}

theorem padTail_of_none (h : c.scheme = .none) : padTail c t p = padNone t := by rw [padTail, h]

theorem padTail_of_zero (h : c.scheme = .zero) : padTail c t p = padZero c.blockBits t := by rw [padTail, h]

theorem padTail_of_bitpad (h : c.scheme = .bitpad) : padTail c t p = padBit c.blockBits t := by rw [padTail, h]

theorem padTail_of_pkcs7 (h : c.scheme = .pkcs7) : padTail c t p = padPkcs7 c.blockBits t := by rw [padTail, h]

theorem padTail_of_x923 (h : c.scheme = .x923) : padTail c t p = padX923 c.blockBits t := by rw [padTail, h]

theorem padTail_of_md (h : c.scheme = .md) : padTail c t p = padMd c t p := by rw [padTail, h]

theorem padTail_of_blake (h : c.scheme = .blake) : padTail c t p = padBlake c t p := by rw [padTail, h]

theorem padCount_eq {bb n : Nat} (h : 8 * n + t.length = bb) : padCount bb t = n := by
  unfold padCount; omega

/-- Bytes after a bit string of whole bytes. -/
theorem packBits_append_streamBits (ht : t.length % 8 = 0) (b : List Byte) :
    packBits (t ++ streamBits b) = packBits t ++ b := by
  rw [packBits_append (t.length / 8) _ (by omega), packBits_streamBits]

/-- The length suffix is the one string of its size that reads as the length (R317). -/
theorem eq_lengthSuffix {lb : List Byte} (hlen : lb.length = 2 * c.w.bits / 8)
    (hval : (if c.lenBe then intBe lb else intLe lb) = p % 2 ^ (2 * c.w.bits)) : lb = lengthSuffix c p := by
  unfold lengthSuffix PadCfg.fieldBits
  dsimp only
  rw [← hval, ← hlen]
  split_ifs
  · exact (beBytes_intBe lb).symm
  · exact (leBytes_intLe lb).symm

/-- `MD` with its count of zeros named (R317). -/
theorem padMd_eq {z tb : Nat} (htb : tb = suffixBlocks c t.length 1)
    (hz : t.length + 1 + z + c.fieldBits = tb * c.blockBits) :
    padMd c t p = { bits := t ++ true :: (List.replicate z false ++ streamBits (lengthSuffix c p)),
                    padBits := 1 + z + c.fieldBits, blocks := tb } := by
  obtain rfl : z = tb * c.blockBits - t.length - 1 - c.fieldBits := by omega
  rw [htb]; rfl

/-- `BLAKE` with its count of zeros named (R318). -/
theorem padBlake_eq {z tb : Nat} (htb : tb = suffixBlocks c t.length 2)
    (hz : t.length + 2 + z + c.fieldBits = tb * c.blockBits) :
    padBlake c t p = { bits := t ++ true :: (List.replicate z false ++ c.dbit :: streamBits (lengthSuffix c p)),
                       padBits := 2 + z + c.fieldBits, blocks := tb } := by
  obtain rfl : z = tb * c.blockBits - t.length - 2 - c.fieldBits := by omega
  rw [htb]; rfl

end

/-! ## Settled: the layouts -/

/-- Settles O43: the equation of each scheme's pad function, with the pad count, the count of zeros and the length
suffix that the statement names. -/
theorem paddingLayouts : Obligations.PaddingLayouts := by
  intro c t p _ _
  refine ⟨padTail_of_none, fun hs ht => ?zeroEmpty, fun hs ht => ?zero, fun hs => ?bitpad,
    fun n ht hn => ⟨fun hs => ?pkcs7, fun hs => ?x923⟩, fun z tb lb hlen hval => ?suffix⟩
  case zeroEmpty => rw [padTail_of_zero hs, padZero, if_pos ht]
  case zero => rw [padTail_of_zero hs, padZero, if_neg ht.ne']
  case bitpad => rw [padTail_of_bitpad hs, padBit, List.append_assoc, List.singleton_append]
  case pkcs7 =>
    rw [padTail_of_pkcs7 hs, padPkcs7, padCount_eq hn]
    exact ⟨packBits_append_streamBits ht _, List.prefix_append _ _, rfl, rfl⟩
  case x923 =>
    rw [padTail_of_x923 hs, padX923, padCount_eq hn, List.append_assoc]
    exact ⟨packBits_append_streamBits ht _, List.prefix_append _ _, rfl, rfl⟩
  case suffix =>
    obtain rfl := eq_lengthSuffix hlen hval
    refine ⟨fun hs htb hz => ?_, fun hs htb hz => ?_⟩
    · rw [padTail_of_md hs, padMd_eq htb hz]
      simp only [List.append_assoc, List.singleton_append]
      rfl
    · rw [padTail_of_blake hs, padBlake_eq htb hz]
      simp only [List.append_assoc, List.singleton_append]
      rfl

/-! ## What the unpad functions find (R321 to R327) -/

/-- Stream bit `j` of a byte string is element `j` of its stream; both are 0 beyond its end. -/
theorem streamBit_eq (b : List Byte) (j : Nat) : streamBit b j = (streamBits b).getD j false := by
  by_cases h : j < 8 * b.length
  · exact (getD_streamBits b j h).symm
  · rw [streamBit, List.getD_eq_default b _ (by omega), List.getD_eq_default _ _ (by rw [length_streamBits]; omega)]
    exact BitVec.getLsbD_zero

theorem lastTrue?_eq_none {l : List Bool} (h : ∀ i, l.getD i false = false) : lastTrue? l = none := by
  induction l with
  | nil => rfl
  | cons x l ih =>
    have hx : x = false := h 0
    rw [lastTrue?, ih fun i => h (i + 1), hx]
    rfl

theorem lastTrue?_eq_some {l : List Bool} {j : Nat} (hbit : l.getD j false = true)
    (hzero : ∀ i, j < i → l.getD i false = false) : lastTrue? l = some j := by
  induction l generalizing j with
  | nil => cases hbit
  | cons x l ih =>
    cases j with
    | zero =>
      have hx : x = true := hbit
      rw [lastTrue?, lastTrue?_eq_none fun i => hzero (i + 1) (Nat.succ_pos i), hx]
      rfl
    | succ j => rw [lastTrue?, ih hbit fun i hi => hzero (i + 1) (Nat.succ_lt_succ hi)]

/-- The window a sentinel is looked for in, bit by bit. -/
theorem getD_window (b : List Byte) (lo hi i : Nat) :
    (((streamBits b).drop lo).take (hi - lo)).getD i false = (decide (lo + i < hi) && streamBit b (lo + i)) := by
  rw [streamBit_eq, List.getD_eq_getElem?_getD, List.getElem?_take, List.getD_eq_getElem?_getD]
  by_cases h : lo + i < hi
  · rw [if_pos (by omega), List.getElem?_drop, decide_eq_true h, Bool.true_and]
  · rw [if_neg (by omega), decide_eq_false h, Bool.false_and]
    rfl

section
variable {b : List Byte} {lo hi : Nat}

theorem sentinel_of_last {j : Nat} (hlo : lo ≤ j) (hhi : j < hi) (hbit : streamBit b j = true)
    (hzero : ∀ i, j < i → i < hi → streamBit b i = false) : sentinel b lo hi = .ok j := by
  have hlast : lastTrue? (((streamBits b).drop lo).take (hi - lo)) = some (j - lo) := by
    refine lastTrue?_eq_some ?_ fun i hi' => ?_
    · rw [getD_window, Nat.add_sub_cancel' hlo, hbit, decide_eq_true hhi]
      rfl
    · rw [getD_window, Bool.and_eq_false_imp]
      exact fun h => hzero _ (by omega) (of_decide_eq_true h)
  rw [sentinel, hlast]
  exact congrArg Except.ok (Nat.add_sub_cancel' hlo)

theorem sentinel_of_zeros (h : ∀ j, lo ≤ j → j < hi → streamBit b j = false) :
    sentinel b lo hi = .error badPadding := by
  rw [sentinel, lastTrue?_eq_none fun i => ?_]
  rw [getD_window, Bool.and_eq_false_imp]
  exact fun hi' => h _ (Nat.le_add_right lo i) (of_decide_eq_true hi')

/-- The sentinel of a padded message: the 1 that stands before zeros and a suffix (R314, R317, R318). -/
theorem sentinel_of_layout {m suf : List Bool} {z : Nat}
    (h : streamBits b = m ++ true :: (List.replicate z false ++ suf)) (hlo : lo ≤ m.length) :
    sentinel b lo (8 * b.length - suf.length) = .ok m.length := by
  have hlen : 8 * b.length = m.length + (z + suf.length + 1) := by
    rw [← length_streamBits, h, List.length_append, List.length_cons, List.length_append, List.length_replicate]
  refine sentinel_of_last hlo (by omega) ?_ fun i hi hlt => ?_
  · rw [streamBit_eq, h, List.getD_append_right _ _ _ _ (Nat.le_refl _), Nat.sub_self]
    rfl
  · obtain ⟨k, rfl⟩ : ∃ k, i = m.length + (k + 1) := ⟨i - m.length - 1, by omega⟩
    have hk : k < (List.replicate z false).length := by rw [List.length_replicate]; omega
    rw [streamBit_eq, h, List.getD_append_right _ _ _ _ (Nat.le_add_right _ _), Nat.add_sub_cancel_left,
      List.getD_cons_succ, List.getD_append _ _ _ _ hk, List.getD_eq_getElem _ _ hk, List.getElem_replicate]

end

theorem all_drop_iff {α : Type} (l : List α) (d : α) (p : α → Bool) (k : Nat) :
    (l.drop k).all p = true ↔ ∀ j, k ≤ j → j < l.length → p (l.getD j d) = true := by
  rw [List.all_eq_true, List.forall_mem_iff_forall_getElem]
  simp only [List.getElem_drop, List.length_drop]
  refine ⟨fun h j hk hj => ?_, fun h i hi => ?_⟩
  · have hbit := h (j - k) (by omega)
    rw [List.getD_eq_getElem _ _ hj]
    simpa [Nat.add_sub_cancel' hk] using hbit
  · have hbit := h (k + i) (Nat.le_add_right k i) (by omega)
    rwa [List.getD_eq_getElem _ _ (by omega)] at hbit

section
variable {c : PadCfg} {b : List Byte} {lp : Nat}

theorem unpad_of_none (h : c.scheme = .none) : unpad c b lp = .ok (8 * b.length) := by rw [unpad, h]

theorem unpad_of_zero (h : c.scheme = .zero) : unpad c b lp = unpadZero b lp := by rw [unpad, h]

theorem unpad_of_bitpad (h : c.scheme = .bitpad) : unpad c b lp = unpadBit c b := by rw [unpad, h]

theorem unpad_of_pkcs7 (h : c.scheme = .pkcs7) : unpad c b lp = unpadPkcs7 c b := by rw [unpad, h]

theorem unpad_of_x923 (h : c.scheme = .x923) : unpad c b lp = unpadX923 c b := by rw [unpad, h]

theorem unpad_of_md (h : c.scheme = .md) : unpad c b lp = unpadMd c b := by rw [unpad, h]

theorem unpad_of_blake (h : c.scheme = .blake) : unpad c b lp = unpadBlake c b := by rw [unpad, h]

/-- The last `lp` stream bits exist and are zeros: what `ZERO` removes (R323). -/
abbrev endsInZeros (b : List Byte) (lp : Nat) : Prop :=
  lp ≤ 8 * b.length ∧ ∀ j, 8 * b.length - lp ≤ j → j < 8 * b.length → streamBit b j = false

theorem unpadZero_of_zeros (h : endsInZeros b lp) : unpadZero b lp = .ok (8 * b.length - lp) := by
  obtain ⟨hle, hzero⟩ := h
  refine (check_bind_pass _ (decide_eq_true hle)).trans (check_bind_pass _ ?_)
  rw [all_drop_iff _ false, length_streamBits]
  intro j hlo hhi
  rw [← streamBit_eq, hzero j hlo hhi]
  rfl

theorem unpadZero_of_not_zeros (h : ¬ endsInZeros b lp) : unpadZero b lp = .error badPadding := by
  by_cases hle : lp ≤ 8 * b.length
  · refine (check_bind_pass _ (decide_eq_true hle)).trans (check_bind_fail _ (Bool.eq_false_iff.mpr fun hall => ?_))
    rw [all_drop_iff _ false, length_streamBits] at hall
    refine h ⟨hle, fun j hlo hhi => ?_⟩
    rw [streamBit_eq]
    simpa using hall j hlo hhi
  · exact check_bind_fail _ (decide_eq_false hle)

/-- The data is a non-empty whole number of blocks, as every scheme but `NONE` and `ZERO` needs it (R321). -/
abbrev PadCfg.wholeBlocks (c : PadCfg) (n : Nat) : Prop := c.blockBits / 8 ≤ n ∧ n % (c.blockBits / 8) = 0

theorem checkWholeBlocks_bind_pass {n : Nat} (h : c.wholeBlocks n) {α : Type} (f : Unit → Except CmdError α) :
    (checkWholeBlocks c n >>= f) = f () :=
  check_bind_pass f (Bool.and_eq_true_iff.mpr ⟨decide_eq_true h.1, decide_eq_true h.2⟩)

theorem checkWholeBlocks_bind_fail {n : Nat} (h : ¬ c.wholeBlocks n) {α : Type} (f : Unit → Except CmdError α) :
    (checkWholeBlocks c n >>= f) = .error badPadding :=
  check_bind_fail f (Bool.eq_false_iff.mpr fun hb =>
    h ⟨of_decide_eq_true (Bool.and_eq_true_iff.mp hb).1, of_decide_eq_true (Bool.and_eq_true_iff.mp hb).2⟩)

theorem lastCount_of_not_whole (h : ¬ c.wholeBlocks b.length) : lastCount c b = .error badPadding :=
  checkWholeBlocks_bind_fail h _

theorem unpad_of_not_whole (hnone : c.scheme ≠ .none) (hzero : c.scheme ≠ .zero) (h : ¬ c.wholeBlocks b.length) :
    unpad c b lp = .error badPadding := by
  cases hs : c.scheme with
  | none => exact absurd hs hnone
  | zero => exact absurd hs hzero
  | bitpad => exact (unpad_of_bitpad hs).trans (checkWholeBlocks_bind_fail h _)
  | pkcs7 => rw [unpad_of_pkcs7 hs, unpadPkcs7, lastCount_of_not_whole h]; rfl
  | x923 => rw [unpad_of_x923 hs, unpadX923, lastCount_of_not_whole h]; rfl
  | md => exact (unpad_of_md hs).trans (checkWholeBlocks_bind_fail h _)
  | blake => exact (unpad_of_blake hs).trans (checkWholeBlocks_bind_fail h _)

theorem unpadBit_of_whole (h : c.wholeBlocks b.length) :
    unpadBit c b = sentinel b (8 * b.length - c.blockBits) (8 * b.length) :=
  checkWholeBlocks_bind_pass h _

theorem unpadMd_of_whole (h : c.wholeBlocks b.length) :
    unpadMd c b = sentinel b (tailStart c b.length) (8 * b.length - c.fieldBits) :=
  checkWholeBlocks_bind_pass h _

theorem unpadBlake_of_whole (h : c.wholeBlocks b.length) :
    unpadBlake c b = if streamBit b (8 * b.length - c.fieldBits - 1) = c.dbit then
        sentinel b (tailStart c b.length) (8 * b.length - c.fieldBits - 1)
      else .error badPadding := by
  refine (checkWholeBlocks_bind_pass h _).trans ((check_bind _ _ _ _).trans ?_)
  rw [← streamBit_eq]
  simp only [beq_iff_eq]
  rfl

/-- The pad count is the last byte (R325, R326). -/
def lastByte (b : List Byte) : Nat := (b.getD (b.length - 1) 0#8).toNat

theorem lastCount_of_whole (h : c.wholeBlocks b.length) :
    lastCount c b = if 1 ≤ lastByte b ∧ lastByte b ≤ c.blockBits / 8 then .ok (lastByte b)
      else .error badPadding := by
  have hlast : ((b.getLast?).getD 0#8).toNat = lastByte b := by
    rw [lastByte, List.getLast?_eq_getElem?, List.getD_eq_getElem?_getD]
  refine (checkWholeBlocks_bind_pass h _).trans ((check_bind _ _ _ _).trans ?_)
  rw [hlast]
  simp only [Bool.and_eq_true, decide_eq_true_eq]
  rfl

theorem unpadX923_of_whole (h : c.wholeBlocks b.length) :
    unpadX923 c b = if 1 ≤ lastByte b ∧ lastByte b ≤ c.blockBits / 8 then .ok (8 * (b.length - lastByte b))
      else .error badPadding := by
  rw [unpadX923, lastCount_of_whole h]
  split_ifs <;> rfl

theorem unpadPkcs7_of_whole (h : c.wholeBlocks b.length) :
    unpadPkcs7 c b = if 1 ≤ lastByte b ∧ lastByte b ≤ c.blockBits / 8 ∧
        ∀ j, b.length - lastByte b ≤ j → j < b.length → (b.getD j 0#8).toNat = lastByte b
      then .ok (8 * (b.length - lastByte b)) else .error badPadding := by
  rw [unpadPkcs7, lastCount_of_whole h]
  by_cases hrange : 1 ≤ lastByte b ∧ lastByte b ≤ c.blockBits / 8
  · rw [if_pos hrange]
    refine (check_bind _ _ _ _).trans (if_congr ?_ rfl rfl)
    rw [all_drop_iff _ 0#8]
    simp [hrange]
  · rw [if_neg hrange, if_neg fun hall => hrange ⟨hall.1, hall.2.1⟩]
    rfl

end

/-! ## Settled: the unpad rules -/

/-- Settles O45: the equation of each scheme's unpad function; the three schemes with a sentinel differ in its
window. -/
theorem unpadRules : Obligations.UnpadRules := by
  rintro c b lp _ _ - rfl rfl
  refine ⟨unpad_of_none, fun hs h => ?zeros, fun hs h => ?noZeros, unpad_of_not_whole, fun hle hmod => ?_⟩
  case zeros => rw [unpad_of_zero hs, unpadZero_of_zeros h]
  case noZeros => exact (unpad_of_zero hs).trans (unpadZero_of_not_zeros h)
  have hwhole : c.wholeBlocks b.length := ⟨hle, hmod⟩
  refine ⟨fun lo hi hwindow => ?window, fun hs hbit => ?domain, ?_⟩
  case window =>
    have hunpad : unpad c b lp = sentinel b lo hi := by
      rcases hwindow with ⟨hs, rfl, rfl⟩ | ⟨hs, rfl, rfl⟩ | ⟨hs, rfl, rfl, hbit⟩
      · rw [unpad_of_bitpad hs, unpadBit_of_whole hwhole]
      · rw [unpad_of_md hs, unpadMd_of_whole hwhole]
        rfl
      · rw [unpad_of_blake hs, unpadBlake_of_whole hwhole]
        exact if_pos hbit
    rw [hunpad]
    exact ⟨fun j => sentinel_of_last, sentinel_of_zeros⟩
  case domain =>
    rw [unpad_of_blake hs, unpadBlake_of_whole hwhole]
    exact if_neg hbit
  rintro _ rfl
  refine ⟨fun hs h => ?_, fun hs h => ?_, fun hs h => ?_, fun hs h => ?_⟩
  · exact (unpad_of_pkcs7 hs).trans ((unpadPkcs7_of_whole hwhole).trans (if_pos h))
  · exact (unpad_of_pkcs7 hs).trans ((unpadPkcs7_of_whole hwhole).trans (if_neg h))
  · exact (unpad_of_x923 hs).trans ((unpadX923_of_whole hwhole).trans (if_pos h))
  · exact (unpad_of_x923 hs).trans ((unpadX923_of_whole hwhole).trans (if_neg h))

end Sys2Proof.Machine

namespace Sys2Proof.Machine

/-! ## What `SEG.UNPAD` answers (42_segmenter R320) -/

section
variable {s : State}

theorem exec_segUnpad_of_lt (h : 4096 < s.u0 + s.u1) :
    ∃ d, exec .segUnpad s = .next { raised s .address 1#8 with draws := d } :=
  finishRead_map_of_error (checkRange_bind_fail _ h)

theorem segUnpadLength_eq (h : s.u0 + s.u1 ≤ 4096) :
    segUnpadLength s = unpad s.seg.cfg (s.memRead s.u0 s.u1) s.seg.lastPad.toNat :=
  checkRange_bind_pass _ h

theorem exec_segUnpad_of_ok {l : Nat} (h : s.u0 + s.u1 ≤ 4096)
    (hunpad : unpad s.seg.cfg (s.memRead s.u0 s.u1) s.seg.lastPad.toNat = .ok l) :
    exec .segUnpad s = .next (completed (drawn ((s.setResult0 l).setResult1 ((l + 7) / 8)))) :=
  finishRead_map_of_ok ((segUnpadLength_eq h).trans hunpad)

/-- With the bytes `b` at `ARG0` and their number in `ARG1`. -/
theorem exec_segUnpad_of_holds {b : List Byte} {l : Nat} (hholds : holds s s.u0 b) (hlen : s.u1 = b.length)
    (hroom : s.u0 + b.length ≤ 4096) (hunpad : unpad s.seg.cfg b s.seg.lastPad.toNat = .ok l) :
    exec .segUnpad s = .next (completed (drawn ((s.setResult0 l).setResult1 ((l + 7) / 8)))) := by
  refine exec_segUnpad_of_ok (hlen.symm ▸ hroom) ?_
  rw [hlen, memRead_of_holds hholds, hunpad]

theorem exec_segUnpad_of_error {e : CmdError} (h : s.u0 + s.u1 ≤ 4096)
    (hunpad : unpad s.seg.cfg (s.memRead s.u0 s.u1) s.seg.lastPad.toNat = .error e) :
    ∃ d, exec .segUnpad s = .next { raised s e.code e.sub with draws := d } :=
  finishRead_map_of_error ((segUnpadLength_eq h).trans hunpad)

end

/-! ## Settled: `SEG.UNPAD` -/

/-- Settles O44: the range check, and then what the scheme's unpad function answers. -/
theorem unpadAnswersTheLength : Obligations.UnpadAnswersTheLength := fun s =>
  ⟨exec_segUnpad_of_lt, fun _ h hunpad => ⟨s.draws + 1, exec_segUnpad_of_ok h hunpad⟩,
    fun _ => exec_segUnpad_of_error⟩

/-! ## Removing what was added (R328): a message and its padding, as bits and as bytes -/

theorem length_streamBits_lengthSuffix (c : PadCfg) (p : Nat) :
    (streamBits (lengthSuffix c p)).length = c.fieldBits := by
  have hlen : (lengthSuffix c p).length = c.fieldBits / 8 := by
    unfold lengthSuffix
    dsimp only
    split_ifs
    · exact length_beBytes _ _
    · exact length_leBytes _ _
  rw [length_streamBits, hlen, PadCfg.fieldBits]
  cases c.w <;> rfl

theorem one_le_suffixBlocks (c : PadCfg) (t extra : Nat) : 1 ≤ suffixBlocks c t extra := by
  unfold suffixBlocks; split_ifs <;> decide

/-- Every scheme but `NONE` and `ZERO` pads to at least one block. -/
theorem one_le_blocks {c : PadCfg} {t : List Bool} {p : Nat} (hnone : c.scheme ≠ .none) (hzero : c.scheme ≠ .zero) :
    1 ≤ (padTail c t p).blocks := by
  cases hs : c.scheme with
  | none => exact absurd hs hnone
  | zero => exact absurd hs hzero
  | bitpad => rw [padTail_of_bitpad hs]; exact Nat.le_refl 1
  | pkcs7 => rw [padTail_of_pkcs7 hs]; exact Nat.le_refl 1
  | x923 => rw [padTail_of_x923 hs]; exact Nat.le_refl 1
  | md => rw [padTail_of_md hs]; exact one_le_suffixBlocks c t.length 1
  | blake => rw [padTail_of_blake hs]; exact one_le_suffixBlocks c t.length 2

/-- `ZERO` adds nothing but zeros, as many as it says (R313). -/
theorem padZero_bits (bb : Nat) (t : List Bool) :
    (padZero bb t).bits = t ++ List.replicate (padZero bb t).padBits false := by
  rw [padZero]
  split_ifs with h
  · rw [List.length_eq_zero_iff.mp h]; rfl
  · rfl

section
variable {c : PadCfg} {m : List Bool} {p : Nat}

theorem length_drop_wholeBlocks (m : List Bool) (bb : Nat) : (m.drop (m.length / bb * bb)).length = m.length % bb := by
  rw [List.length_drop, Nat.mod_eq_sub_div_mul]

/-- A padded tail that is the tail and then `pad` makes the padded message the message and then `pad`. -/
theorem paddedBits_eq {pad : List Bool}
    (h : (paddedTail c m p).bits = m.drop (m.length / c.blockBits * c.blockBits) ++ pad) :
    paddedBits c m p = m ++ pad := by
  rw [paddedBits, h, ← List.append_assoc, List.take_append_drop]

/-- A message that `SEG.FEED` pads: under a legal configuration, and of whole bytes where the scheme needs them. -/
structure Paddable (c : PadCfg) (m : List Bool) : Prop where
  legal : c.legal = true
  bytes : c.scheme.wholeBytes = true → m.length % c.blockBits % 8 = 0

theorem Paddable.blockBits_pos (h : Paddable c m) : 0 < c.blockBits :=
  Nat.lt_of_lt_of_le (by decide) (PadCfg.blockBits_of_legal h.legal).2.1

theorem Paddable.tail_blocks (h : Paddable c m) (p : Nat) (hnone : c.scheme ≠ .none) :
    (paddedTail c m p).bits.length = (paddedTail c m p).blocks * c.blockBits ∧ (paddedTail c m p).blocks ≤ 2 := by
  have htail := length_drop_wholeBlocks m c.blockBits
  obtain ⟨-, hlen, -, hblocks⟩ := padTail_blocks (p := p) h.legal (htail ▸ Nat.mod_lt _ h.blockBits_pos)
    (htail ▸ h.bytes) hnone
  exact ⟨hlen, hblocks⟩

theorem Paddable.padBits_paddedTail_le (h : Paddable c m) (p : Nat) : (paddedTail c m p).padBits ≤ 2048 := by
  have htail := length_drop_wholeBlocks m c.blockBits
  exact padBits_le h.legal (htail ▸ Nat.mod_lt _ h.blockBits_pos) (htail ▸ h.bytes)

theorem Paddable.length_paddedBits (h : Paddable c m) (p : Nat) (hnone : c.scheme ≠ .none) :
    (paddedBits c m p).length = (m.length / c.blockBits + (paddedTail c m p).blocks) * c.blockBits := by
  rw [paddedBits, List.length_append, length_take_wholeBlocks, (h.tail_blocks p hnone).1, Nat.add_mul]

/-- The bytes of a padded message, but under `NONE`: a whole number of blocks. -/
theorem Paddable.length_out (h : Paddable c m) (p : Nat) (hnone : c.scheme ≠ .none) :
    (packBits (paddedBits c m p)).length =
      (m.length / c.blockBits + (paddedTail c m p).blocks) * (c.blockBits / 8) := by
  have h8 := Nat.mul_div_cancel' (PadCfg.eight_dvd_blockBits h.legal)
  have hmul := Nat.mul_left_comm 8 (m.length / c.blockBits + (paddedTail c m p).blocks) (c.blockBits / 8)
  rw [length_packBits, h.length_paddedBits p hnone]
  rw [h8] at hmul
  omega

theorem Paddable.streamBits_out (h : Paddable c m) (p : Nat) (hnone : c.scheme ≠ .none) :
    streamBits (packBits (paddedBits c m p)) = paddedBits c m p := by
  have h8 : 8 ∣ (m.length / c.blockBits + (paddedTail c m p).blocks) * c.blockBits :=
    (PadCfg.eight_dvd_blockBits h.legal).mul_left _
  exact streamBits_packBits (_ / 8) ((h.length_paddedBits p hnone).trans (Nat.mul_div_cancel' h8).symm)

theorem Paddable.wholeBlocks_out (h : Paddable c m) (p : Nat) (hnone : c.scheme ≠ .none) (hzero : c.scheme ≠ .zero) :
    c.wholeBlocks (packBits (paddedBits c m p)).length := by
  have hpos : 1 ≤ m.length / c.blockBits + (paddedTail c m p).blocks :=
    (one_le_blocks hnone hzero).trans (Nat.le_add_left _ _)
  rw [PadCfg.wholeBlocks, h.length_out p hnone]
  exact ⟨Nat.le_mul_of_pos_left _ hpos, Nat.mul_mod_left _ _⟩

/-- The last one or two blocks reach back to the last whole block of the message (R327). -/
theorem Paddable.lastBlocks_le (h : Paddable c m) (p : Nat) (hnone : c.scheme ≠ .none) {r : Nat}
    (hr : (paddedTail c m p).blocks ≤ r) :
    8 * (packBits (paddedBits c m p)).length - r * c.blockBits ≤ m.length := by
  rw [← length_streamBits, h.streamBits_out p hnone, h.length_paddedBits p hnone, ← Nat.sub_mul]
  exact (Nat.mul_le_mul_right _ (Nat.sub_le_iff_le_add.mpr (Nat.add_le_add_left hr _))).trans
    (Nat.div_mul_le_self m.length c.blockBits)

theorem Paddable.tailStart_le (h : Paddable c m) (p : Nat) (hnone : c.scheme ≠ .none) :
    tailStart c (packBits (paddedBits c m p)).length ≤ m.length := by
  have hpos : 0 < c.blockBits / 8 := Nat.div_pos (PadCfg.blockBits_of_legal h.legal).2.1 (by decide)
  have hblocks := (h.tail_blocks p hnone).2
  refine h.lastBlocks_le p hnone ?_
  rw [h.length_out p hnone, PadCfg.blockBytes, Nat.mul_div_cancel _ hpos]
  exact le_min hblocks (Nat.le_add_left _ _)

/-! ## Removing what was added, scheme by scheme (R328) -/

theorem unpad_out_of_none (hs : c.scheme = .none) :
    unpad c (packBits (paddedBits c m p)) (paddedTail c m p).padBits = .ok (8 * ((m.length + 7) / 8)) := by
  have hbits : paddedBits c m p = m ++ [] :=
    paddedBits_eq (by rw [paddedTail, padTail_of_none hs, List.append_nil]; rfl)
  rw [unpad_of_none hs, length_packBits, hbits, List.append_nil]

theorem Paddable.unpad_out_of_zero (h : Paddable c m) (hs : c.scheme = .zero) :
    unpad c (packBits (paddedBits c m p)) (paddedTail c m p).padBits = .ok m.length := by
  have hbits : paddedBits c m p = m ++ List.replicate (paddedTail c m p).padBits false :=
    paddedBits_eq (by rw [paddedTail, padTail_of_zero hs]; exact padZero_bits _ _)
  have hstream := h.streamBits_out p (by rw [hs]; decide)
  have hlen : 8 * (packBits (paddedBits c m p)).length = m.length + (paddedTail c m p).padBits := by
    rw [← length_streamBits, hstream, hbits, List.length_append, List.length_replicate]
  have hzeros : endsInZeros (packBits (paddedBits c m p)) (paddedTail c m p).padBits := by
    refine ⟨by omega, fun j hlo hhi => ?_⟩
    rw [streamBit_eq, hstream, hbits, List.getD_append_right _ _ _ _ (by omega), List.getD_eq_getElem?_getD,
      List.getElem?_replicate]
    split_ifs <;> rfl
  rw [unpad_of_zero hs, unpadZero_of_zeros hzeros, hlen, Nat.add_sub_cancel]

theorem Paddable.unpad_out_of_bitpad (h : Paddable c m) (hs : c.scheme = .bitpad) :
    unpad c (packBits (paddedBits c m p)) (paddedTail c m p).padBits = .ok m.length := by
  have hnone : c.scheme ≠ .none := by rw [hs]; decide
  have htail : paddedTail c m p = _ := padTail_of_bitpad hs
  have hblocks : (paddedTail c m p).blocks ≤ 1 := by rw [htail]; exact Nat.le_refl 1
  have hstream := (h.streamBits_out p hnone).trans (paddedBits_eq (by rw [htail]; rfl))
  rw [← List.append_nil (List.replicate _ false)] at hstream
  have hlo := h.lastBlocks_le p hnone hblocks
  rw [Nat.one_mul] at hlo
  rw [unpad_of_bitpad hs, unpadBit_of_whole (h.wholeBlocks_out p hnone (by rw [hs]; decide))]
  exact sentinel_of_layout hstream hlo

theorem Paddable.unpad_out_of_md (h : Paddable c m) (hs : c.scheme = .md) :
    unpad c (packBits (paddedBits c m p)) (paddedTail c m p).padBits = .ok m.length := by
  have hnone : c.scheme ≠ .none := by rw [hs]; decide
  have htail : paddedTail c m p = _ := padTail_of_md hs
  have hstream := (h.streamBits_out p hnone).trans (paddedBits_eq (by rw [htail]; rfl))
  rw [unpad_of_md hs, unpadMd_of_whole (h.wholeBlocks_out p hnone (by rw [hs]; decide)),
    ← length_streamBits_lengthSuffix c p]
  exact sentinel_of_layout hstream (h.tailStart_le p hnone)

/-- The bit before the last `n` of a stream. -/
theorem streamBit_before_end {b : List Byte} {front suf : List Bool} {x : Bool}
    (h : streamBits b = front ++ x :: suf) : streamBit b (8 * b.length - suf.length - 1) = x := by
  have hlen : 8 * b.length = front.length + (suf.length + 1) := by
    rw [← length_streamBits, h, List.length_append, List.length_cons]
  rw [streamBit_eq, h, show 8 * b.length - suf.length - 1 = front.length by omega,
    List.getD_append_right _ _ _ _ (Nat.le_refl _), Nat.sub_self]
  rfl

theorem Paddable.unpad_out_of_blake (h : Paddable c m) (hs : c.scheme = .blake) :
    unpad c (packBits (paddedBits c m p)) (paddedTail c m p).padBits = .ok m.length := by
  have hnone : c.scheme ≠ .none := by rw [hs]; decide
  have htail : paddedTail c m p = _ := padTail_of_blake hs
  have hstream := (h.streamBits_out p hnone).trans (paddedBits_eq (by rw [htail]; rfl))
  have hdomain := hstream
  rw [← List.cons_append, ← List.append_assoc] at hdomain
  rw [unpad_of_blake hs, unpadBlake_of_whole (h.wholeBlocks_out p hnone (by rw [hs]; decide)),
    ← length_streamBits_lengthSuffix c p, if_pos (streamBit_before_end hdomain)]
  exact sentinel_of_layout hstream (h.tailStart_le p hnone)

theorem lastByte_append_singleton (b : List Byte) (x : Byte) : lastByte (b ++ [x]) = x.toNat := by
  rw [lastByte, List.length_append, List.length_singleton, Nat.add_sub_cancel,
    List.getD_append_right _ _ _ _ (Nat.le_refl _), Nat.sub_self]
  rfl

/-- What both byte schemes leave to remove (R315, R316): a message of whole bytes, and `n` pad bytes, `n` the last of
them. -/
theorem Paddable.bytes_eq (h : Paddable c m) (hs : c.scheme.wholeBytes = true) :
    m.length % 8 = 0 ∧ ∃ n, 8 * (n + 1) + (m.drop (m.length / c.blockBits * c.blockBits)).length = c.blockBits ∧
      (BitVec.ofNat 8 (n + 1)).toNat = n + 1 ∧ n + 1 ≤ c.blockBits / 8 := by
  obtain ⟨h8, hlo, hhi⟩ := PadCfg.blockBits_of_legal h.legal
  have htail := h.bytes hs
  have hlt := Nat.mod_lt m.length h.blockBits_pos
  rw [length_drop_wholeBlocks]
  refine ⟨?_, (c.blockBits - m.length % c.blockBits) / 8 - 1, by omega, ?_, by omega⟩
  · rwa [Nat.mod_mod_of_dvd _ (PadCfg.eight_dvd_blockBits h.legal)] at htail
  · rw [BitVec.toNat_ofNat]
    omega

theorem Paddable.unpad_out_of_x923 (h : Paddable c m) (hs : c.scheme = .x923) :
    unpad c (packBits (paddedBits c m p)) (paddedTail c m p).padBits = .ok m.length := by
  have hwhole := h.wholeBlocks_out p (by rw [hs]; decide) (by rw [hs]; decide)
  obtain ⟨hm, n, hn, hval, hle⟩ := h.bytes_eq (by rw [hs]; rfl)
  have hout : packBits (paddedBits c m p) = packBits m ++ List.replicate n 0#8 ++ [BitVec.ofNat 8 (n + 1)] := by
    rw [List.append_assoc, ← packBits_append_streamBits hm]
    refine congrArg packBits (paddedBits_eq ?_)
    rw [paddedTail, padTail_of_x923 hs, padX923, padCount_eq hn, Nat.add_sub_cancel]
  have hlast : lastByte (packBits (paddedBits c m p)) = n + 1 := by rw [hout, lastByte_append_singleton, hval]
  rw [unpad_of_x923 hs, unpadX923_of_whole hwhole, hlast, if_pos ⟨Nat.le_add_left 1 n, hle⟩]
  refine congrArg Except.ok ?_
  rw [hout, List.length_append, List.length_append, List.length_replicate, List.length_singleton, length_packBits]
  omega

theorem Paddable.unpad_out_of_pkcs7 (h : Paddable c m) (hs : c.scheme = .pkcs7) :
    unpad c (packBits (paddedBits c m p)) (paddedTail c m p).padBits = .ok m.length := by
  have hwhole := h.wholeBlocks_out p (by rw [hs]; decide) (by rw [hs]; decide)
  obtain ⟨hm, n, hn, hval, hle⟩ := h.bytes_eq (by rw [hs]; rfl)
  have hout : packBits (paddedBits c m p) = packBits m ++ List.replicate (n + 1) (BitVec.ofNat 8 (n + 1)) := by
    rw [← packBits_append_streamBits hm]
    refine congrArg packBits (paddedBits_eq ?_)
    rw [paddedTail, padTail_of_pkcs7 hs, padPkcs7, padCount_eq hn]
  have hlast : lastByte (packBits (paddedBits c m p)) = n + 1 := by
    rw [hout, List.replicate_succ', ← List.append_assoc, lastByte_append_singleton, hval]
  have hlen : (packBits (paddedBits c m p)).length = (packBits m).length + (n + 1) := by
    rw [hout, List.length_append, List.length_replicate]
  have hfill : ∀ j, (packBits (paddedBits c m p)).length - (n + 1) ≤ j → j < (packBits (paddedBits c m p)).length →
      ((packBits (paddedBits c m p)).getD j 0#8).toNat = n + 1 := by
    intro j hlo hhi
    rw [hlen] at hlo hhi
    have hj : j - (packBits m).length < (List.replicate (n + 1) (BitVec.ofNat 8 (n + 1))).length := by
      rw [List.length_replicate]; omega
    rw [hout, List.getD_append_right _ _ _ _ (by omega), List.getD_eq_getElem _ _ hj, List.getElem_replicate, hval]
  rw [unpad_of_pkcs7 hs, unpadPkcs7_of_whole hwhole, hlast, if_pos ⟨Nat.le_add_left 1 n, hle, hfill⟩]
  refine congrArg Except.ok ?_
  rw [hlen, length_packBits]
  omega

/-- The inverse law (R328): what `Pad` added is found again; `NONE` leaves the fill of the last byte. -/
theorem Paddable.unpad_out (h : Paddable c m) (p : Nat) :
    unpad c (packBits (paddedBits c m p)) (paddedTail c m p).padBits =
      .ok (if c.scheme = .none then 8 * ((m.length + 7) / 8) else m.length) := by
  by_cases hnone : c.scheme = .none
  · rw [if_pos hnone]
    exact unpad_out_of_none hnone
  · rw [if_neg hnone]
    cases hs : c.scheme with
    | none => exact absurd hs hnone
    | zero => exact h.unpad_out_of_zero hs
    | bitpad => exact h.unpad_out_of_bitpad hs
    | pkcs7 => exact h.unpad_out_of_pkcs7 hs
    | x923 => exact h.unpad_out_of_x923 hs
    | md => exact h.unpad_out_of_md hs
    | blake => exact h.unpad_out_of_blake hs

end

/-- The unpad function finds the length in the bytes of a padded feed and the padding length it stored (R319, R328). -/
theorem unpad_feedMessage {g : SegState} {m : List Bool} (h : Paddable g.cfg m) :
    unpad g.cfg (feedMessage true g m).out (feedMessage true g m).seg.lastPad.toNat =
      .ok (if g.cfg.scheme = .none then 8 * ((m.length + 7) / 8) else m.length) := by
  have hpad := h.padBits_paddedTail_le (g.processed + BitVec.ofNat 64 m.length).toNat
  rw [feedMessage_of_pad h.legal rfl, ← h.unpad_out (g.processed + BitVec.ofNat 64 m.length).toNat]
  exact congrArg (unpad _ _) (Nat.mod_eq_of_lt (by omega))

/-- `SEG.UNPAD` of the bytes a feed wrote at `ARG3`, with `ARG1` their number. -/
theorem exec_segUnpad_fed {s : State} {p : FeedPlan} {l : Nat} (hroom : s.u3 + p.out.length ≤ 4096)
    (hunpad : unpad p.seg.cfg p.out p.seg.lastPad.toNat = .ok l) :
    ∃ u, exec .segUnpad { s.fed p with arg0 := s.arg3, arg1 := (s.fed p).result0 } = .next u ∧
      u.err = (s.fed p).err ∧ u.seg = (s.fed p).seg ∧ u.result0 = BitVec.ofNat 32 l ∧
      u.result1 = BitVec.ofNat 32 ((l + 7) / 8) := by
  have hlen : (BitVec.ofNat 32 p.out.length).toNat = p.out.length := Nat.mod_eq_of_lt (by omega)
  exact ⟨_, exec_segUnpad_of_holds (s.holds_fed p) hlen hroom hunpad, rfl, rfl, rfl, rfl⟩

/-! ## Settled: the inverse law -/

/-- Settles O46: the accepted feed left its output at `ARG3` and its padding length in the segmenter, where the unpad
function finds the length again (`unpad_feedMessage`). -/
theorem paddingInverse : Obligations.PaddingInverse := by
  intro s t decl hlegal hopen hexec hfinal
  obtain ⟨hfits, hroom, rfl⟩ := exec_segFeed_inv hopen hexec hfinal
  have hlen := length_feedMsg hfits.declared
  have hunpad := unpad_feedMessage (m := feedMsg decl s) ⟨hlegal, fun h => hlen ▸ hfits.bytes rfl h⟩
  rw [hlen] at hunpad
  obtain ⟨u, hu, herr, hseg, hresult0, hresult1⟩ := exec_segUnpad_fed hroom hunpad
  refine ⟨u, hu, herr, hseg, hresult0, hresult1.trans (congrArg (BitVec.ofNat 32) ?_)⟩
  split_ifs <;> omega

end Sys2Proof.Machine

namespace Sys2Proof.Machine

/-! ## Feeding in two parts (42_segmenter R329): the plans -/

theorem div_mul_add_of_whole {bb a : Nat} (hpos : 0 < bb) (hwhole : a % bb = 0) (b : Nat) :
    (a + b) / bb * bb = a + b / bb * bb := by
  obtain ⟨k, rfl⟩ := Nat.dvd_of_mod_eq_zero hwhole
  rw [Nat.mul_add_div hpos, Nat.add_mul, Nat.mul_comm k]

section
variable {c : PadCfg} {g : SegState} {m₁ m₂ : List Bool}

/-- Whole blocks in front do not change the tail. -/
theorem paddedTail_append (hpos : 0 < c.blockBits) (hwhole : m₁.length % c.blockBits = 0) (p : Nat) :
    paddedTail c (m₁ ++ m₂) p = paddedTail c m₂ p := by
  rw [paddedTail, List.length_append, div_mul_add_of_whole hpos hwhole, List.drop_length_add_append]
  rfl

theorem paddedBits_append (hpos : 0 < c.blockBits) (hwhole : m₁.length % c.blockBits = 0) (p : Nat) :
    paddedBits c (m₁ ++ m₂) p = m₁ ++ paddedBits c m₂ p := by
  rw [paddedBits, paddedTail_append hpos hwhole, List.length_append, div_mul_add_of_whole hpos hwhole,
    List.take_length_add_append, List.append_assoc]
  rfl

/-- Whole blocks fed first leave a segmenter that pads the rest as it would have padded the whole: the count is carried
across (R310, R329). -/
theorem feedMessage_append (hc : g.cfg.legal = true) (hwhole : m₁.length % g.cfg.blockBits = 0) :
    (feedMessage true g (m₁ ++ m₂)).out =
        (feedMessage false g m₁).out ++ (feedMessage true (feedMessage false g m₁).seg m₂).out ∧
      (feedMessage true g (m₁ ++ m₂)).seg = (feedMessage true (feedMessage false g m₁).seg m₂).seg := by
  have hpos : 0 < g.cfg.blockBits := Nat.lt_of_lt_of_le (by decide) (PadCfg.blockBits_of_legal hc).2.1
  have h8 : 8 ∣ m₁.length := (PadCfg.eight_dvd_blockBits hc).trans (Nat.dvd_of_mod_eq_zero hwhole)
  have hcount : g.processed + BitVec.ofNat 64 m₁.length + BitVec.ofNat 64 m₂.length =
      g.processed + BitVec.ofNat 64 (m₁ ++ m₂).length := by
    rw [List.length_append, BitVec.ofNat_add, BitVec.add_assoc]
  rw [feedMessage_of_whole hwhole, feedMessage_of_pad hc hcount,
    feedMessage_of_pad (g := { g with processed := g.processed + BitVec.ofNat 64 m₁.length }) hc rfl]
  dsimp only
  rw [paddedBits_append hpos hwhole, paddedTail_append hpos hwhole,
    packBits_append (m₁.length / 8) _ (Nat.mul_div_cancel' h8).symm]
  exact ⟨rfl, rfl⟩

end

/-! ## Feeding in two parts: the bytes read and written -/

theorem Memory.setBytes_append (m : Memory) (a : Nat) (x y : List Byte) :
    Memory.setBytes m a (x ++ y) = Memory.setBytes (Memory.setBytes m a x) (a + x.length) y := by
  induction x generalizing m a with
  | nil => rfl
  | cons b x ih => rw [List.cons_append, Memory.setBytes, ih, List.length_cons, Nat.add_assoc, Nat.add_comm 1]; rfl

theorem State.memRead_add (s : State) (a n₁ n₂ : Nat) :
    s.memRead a (n₁ + n₂) = s.memRead a n₁ ++ s.memRead (a + n₁) n₂ := by
  simp only [State.memRead, Memory.bytes, List.range_add, List.map_append, List.map_map, Nat.add_assoc]
  rfl

/-- Written bytes that nothing has changed read the same, whatever the draw (20_memory R102). -/
theorem memRead_of_written {s t : State} {a n : Nat} (hwritten : ∀ k, k < n → Memory.byte? s.dbuf (a + k) ≠ none)
    (hsame : ∀ k, k < n → Memory.byte? t.dbuf (a + k) = Memory.byte? s.dbuf (a + k)) :
    t.memRead a n = s.memRead a n := by
  refine List.map_congr_left fun k hk => ?_
  rw [List.mem_range] at hk
  obtain ⟨b, hb⟩ := Option.ne_none_iff_exists'.mp (hwritten k hk)
  rw [Memory.byteOr_of_byte? hb, Memory.byteOr_of_byte? ((hsame k hk).trans hb)]

theorem length_streamBits_memRead (s : State) (a n : Nat) : (streamBits (s.memRead a n)).length = 8 * n := by
  rw [length_streamBits, State.length_memRead]

/-- The message of a feed, cut after whole bytes of its source. -/
theorem feedMsg_of_split {s : State} {decl : Bool} {n₁ n₂ l : Nat} (hsource : s.u1 = n₁ + n₂)
    (hbits : feedBits decl s = 8 * n₁ + l) :
    feedMsg decl s = streamBits (s.memRead s.u0 n₁) ++ (streamBits (s.memRead (s.u0 + n₁) n₂)).take l := by
  rw [feedMsg, show s.arg1.toNat = n₁ + n₂ from hsource, hbits, State.memRead_add, streamBits_append,
    ← length_streamBits_memRead s s.u0 n₁, List.take_length_add_append]

/-! ## Feeding in two parts: the two commands -/

/-- A `DBUF` address, a count of its bytes or of their bits fits an argument register. -/
theorem toNat_argument {x : Nat} (h : x ≤ 8 * 4096) : (BitVec.ofNat 32 x).toNat = x := Nat.mod_eq_of_lt (by omega)

/-- `s` with the arguments for a feed of the first `n₁` bytes alone. -/
def State.firstPart (s : State) (n₁ : Nat) : State := { s with arg1 := BitVec.ofNat 32 n₁ }

/-- `t` with the arguments for a feed of the `n₂` bytes that follow the first `n₁` of the feed of `s`. -/
def State.restPart (s t : State) (n₁ n₂ l₂ : Nat) : State :=
  { t with arg0 := BitVec.ofNat 32 (s.arg0.toNat + n₁), arg1 := BitVec.ofNat 32 n₂, arg2 := BitVec.ofNat 32 l₂,
           arg3 := BitVec.ofNat 32 (s.arg3.toNat + n₁) }

section
variable {s : State} {n₁ : Nat}

/-- What the feed of the first part writes. -/
def firstPlan (s : State) (n₁ : Nat) : FeedPlan := feedMessage false s.seg (streamBits (s.memRead s.u0 n₁))

/-- What the feed of the rest then writes, `l` bits of it being the message. -/
def restPlan (s : State) (n₁ n₂ l : Nat) : FeedPlan :=
  feedMessage true (firstPlan s n₁).seg ((streamBits (s.memRead (s.u0 + n₁) n₂)).take l)

theorem firstPlan_eq (hwhole : 8 * n₁ % s.seg.cfg.blockBits = 0) :
    firstPlan s n₁ =
      { out := s.memRead s.u0 n₁, blocks := 8 * n₁ / s.seg.cfg.blockBits,
        seg := { s.seg with processed := s.seg.processed + BitVec.ofNat 64 (8 * n₁) } } := by
  rw [firstPlan, feedMessage_of_whole ((length_streamBits_memRead s s.u0 n₁).symm ▸ hwhole),
    packBits_streamBits, length_streamBits_memRead]

theorem length_out_firstPlan (hwhole : 8 * n₁ % s.seg.cfg.blockBits = 0) : (firstPlan s n₁).out.length = n₁ := by
  rw [firstPlan_eq hwhole, State.length_memRead]

/-- The two plans together are that of the one feed. -/
theorem feedMessage_eq_parts {decl : Bool} {n₂ l : Nat} (hc : s.seg.cfg.legal = true)
    (hwhole : 8 * n₁ % s.seg.cfg.blockBits = 0) (hsource : s.u1 = n₁ + n₂) (hbits : feedBits decl s = 8 * n₁ + l) :
    (feedMessage true s.seg (feedMsg decl s)).out = (firstPlan s n₁).out ++ (restPlan s n₁ n₂ l).out ∧
      (feedMessage true s.seg (feedMsg decl s)).seg = (restPlan s n₁ n₂ l).seg := by
  rw [feedMsg_of_split hsource hbits]
  exact feedMessage_append hc ((length_streamBits_memRead s s.u0 n₁).symm ▸ hwhole)

/-- The feed of the first part is accepted. -/
theorem exec_firstPart (hopen : s.seg.finalized = false) (hwhole : 8 * n₁ % s.seg.cfg.blockBits = 0)
    (hsource : s.u0 + n₁ ≤ 4096) (hdest : s.u3 + n₁ ≤ 4096) :
    exec (.segFeed false false) (s.firstPart n₁) = .next ((s.firstPart n₁).fed (firstPlan s n₁)) := by
  have hu1 : (s.firstPart n₁).u1 = n₁ := toNat_argument (by omega)
  have hbits : feedBits false (s.firstPart n₁) = 8 * n₁ := congrArg (8 * ·) hu1
  have hmsg : feedMsg false (s.firstPart n₁) = streamBits (s.memRead s.u0 n₁) := by
    rw [feedMsg_of_split (n₂ := 0) (l := 0) hu1 hbits, List.take_zero, List.append_nil]
    rfl
  have hfits : FeedFits false false (s.firstPart n₁) :=
    ⟨⟨hopen, by rwa [hu1], by rw [hbits, hu1]⟩, .inr (by rwa [hbits]), fun h => absurd h Bool.false_ne_true⟩
  have hplan : feedMessage false (s.firstPart n₁).seg (feedMsg false (s.firstPart n₁)) = firstPlan s n₁ :=
    congrArg (feedMessage false s.seg) hmsg
  have hexec := hfits.exec_of_le
  rw [hplan, length_out_firstPlan hwhole] at hexec
  exact hexec hdest

end

section
variable {s t : State} {decl : Bool} {n₁ n₂ l₂ : Nat}

theorem State.feedBits_restPart (hn₂ : n₂ ≤ 4096) (hl₂ : l₂ ≤ 8 * n₂) :
    feedBits decl (s.restPart t n₁ n₂ l₂) = if decl then l₂ else 8 * n₂ := by
  cases decl with
  | true => exact toNat_argument (by omega)
  | false => exact congrArg (8 * ·) (toNat_argument (by omega))

/-- The feed of the first part leaves the rest of a written source as it was, where its destination is apart from it. -/
theorem memRead_rest_fed {p : FeedPlan}
    (hwritten : ∀ k, k < n₁ + n₂ → Memory.byte? s.dbuf (s.u0 + k) ≠ none)
    (hapart : s.u3 + p.out.length ≤ s.u0 + n₁ ∨ s.u0 + n₁ + n₂ ≤ s.u3) :
    ((s.firstPart n₁).fed p).memRead (s.u0 + n₁) n₂ = s.memRead (s.u0 + n₁) n₂ := by
  refine memRead_of_written (fun k hk => ?_) fun k hk => (s.firstPart n₁).sameOutside_fed p _ ?_
  · rw [Nat.add_assoc]
    exact hwritten (n₁ + k) (by omega)
  · show s.u0 + n₁ + k < s.u3 ∨ s.u3 + p.out.length ≤ s.u0 + n₁ + k
    omega

end

section
variable {s v : State} {decl : Bool} {n₁ n₂ l : Nat}

/-- The feed of the rest is accepted, begun at a state `v` that holds the segmenter of the first part's feed and reads
the rest of the source as `s` does. -/
theorem exec_rest (hopen : s.seg.finalized = false) (hwhole : 8 * n₁ % s.seg.cfg.blockBits = 0)
    (hbytes : s.seg.cfg.scheme.wholeBytes = true → (8 * n₁ + l) % s.seg.cfg.blockBits % 8 = 0) (hl : l ≤ 8 * n₂)
    (hseg : v.seg = (firstPlan s n₁).seg) (hsource : v.u0 + v.u1 ≤ 4096) (hu1 : v.u1 = n₂) (hbits : feedBits decl v = l)
    (hread : v.memRead v.u0 n₂ = s.memRead (s.u0 + n₁) n₂)
    (hdest : v.u3 + (restPlan s n₁ n₂ l).out.length ≤ 4096) :
    exec (.segFeed true decl) v = .next (v.fed (restPlan s n₁ n₂ l)) := by
  have hmsg : feedMsg decl v = (streamBits (s.memRead (s.u0 + n₁) n₂)).take l := by
    rw [feedMsg, show v.arg1.toNat = n₂ from hu1, hbits]
    exact congrArg (fun b => (streamBits b).take l) hread
  have hmod : (8 * n₁ + l) % s.seg.cfg.blockBits = l % s.seg.cfg.blockBits := by
    rw [Nat.add_mod, hwhole, Nat.zero_add, Nat.mod_mod]
  have hfits : FeedFits true decl v := by
    refine ⟨⟨by rw [hseg]; exact hopen, hsource, by rwa [hbits, hu1]⟩, .inl rfl, fun _ => ?_⟩
    rw [hseg, hbits]
    exact hmod ▸ hbytes
  rw [restPlan, ← hseg, ← hmsg] at hdest ⊢
  exact hfits.exec_of_le hdest

end

/-! ## Settled: incremental feeding -/

/-- Settles O47: both parts are accepted (`exec_firstPart`, `exec_rest`), and what they write is what the one feed
writes (`feedMessage_eq_parts`, `Memory.setBytes_append`). -/
theorem incrementalFeed : Obligations.IncrementalFeed := by
  intro s w decl n₁ n₂ l₂ hlegal hopen hwhole hn hl₂ hdecl hwritten hapart hexec hfinal
  obtain ⟨hfits, hroom, rfl⟩ := exec_segFeed_inv hopen hexec hfinal
  obtain ⟨l, hl, hbits, hrest⟩ :
      ∃ l, l ≤ 8 * n₂ ∧ feedBits decl s = 8 * n₁ + l ∧ (if decl then l₂ else 8 * n₂) = l := by
    cases decl with
    | true => exact ⟨l₂, hl₂, hdecl rfl, rfl⟩
    | false => exact ⟨8 * n₂, Nat.le_refl _, by rw [← Nat.mul_add, ← hn]; rfl, rfl⟩
  have hsource : s.u0 + (n₁ + n₂) ≤ 4096 := hn ▸ hfits.source
  obtain ⟨hout, hseg⟩ := feedMessage_eq_parts hlegal hwhole hn hbits
  have hfirst := length_out_firstPlan hwhole
  rw [hout, List.length_append, hfirst] at hroom
  have hu0 : (BitVec.ofNat 32 (s.u0 + n₁)).toNat = s.u0 + n₁ := toNat_argument (by omega)
  have hu1 : (BitVec.ofNat 32 n₂).toNat = n₂ := toNat_argument (by omega)
  have hu3 : (BitVec.ofNat 32 (s.u3 + n₁)).toNat = s.u3 + n₁ := toNat_argument (by omega)
  have hread := memRead_rest_fed (p := firstPlan s n₁) hwritten (by rwa [hfirst])
  have hexecFirst := exec_firstPart hopen hwhole (by omega) (by omega)
  have herr := State.fed_err (s.firstPart n₁) (firstPlan s n₁)
  have hdbuf := State.fed_dbuf (s.firstPart n₁) (firstPlan s n₁)
  have hsegFirst := State.fed_seg (s.firstPart n₁) (firstPlan s n₁)
  generalize (s.firstPart n₁).fed (firstPlan s n₁) = t at hexecFirst herr hdbuf hsegFirst hread
  have hexecRest := exec_rest (v := s.restPart t n₁ n₂ l₂) (decl := decl) hopen hwhole
    (fun h => hbits ▸ hfits.bytes rfl h) hl hsegFirst
    (show (BitVec.ofNat 32 (s.u0 + n₁)).toNat + (BitVec.ofNat 32 n₂).toNat ≤ 4096 by omega) hu1
    ((State.feedBits_restPart (by omega) hl₂).trans hrest) (hu0.symm ▸ hread)
    (show (BitVec.ofNat 32 (s.u3 + n₁)).toNat + _ ≤ 4096 by omega)
  have hdest : (s.restPart t n₁ n₂ l₂).u3 = s.u3 + (firstPlan s n₁).out.length := hu3.trans (by rw [hfirst])
  refine ⟨t, (s.restPart t n₁ n₂ l₂).fed (restPlan s n₁ n₂ l), hexecFirst, hexecRest, herr, herr, hseg.symm,
    fun x => ?_⟩
  rw [State.fed_dbuf, State.fed_dbuf, hout, Memory.setBytes_append, hdest,
    show (s.restPart t n₁ n₂ l₂).dbuf = _ from hdbuf]
  rfl

end Sys2Proof.Machine

namespace Sys2Proof.Machine

/-! ## What a state holds, part by part -/

theorem holds_append {t : State} {a : Nat} {x y : List Byte} :
    holds t a (x ++ y) ↔ holds t a x ∧ holds t (a + x.length) y := by
  refine ⟨fun h => ⟨fun k hk => ?_, fun k hk => ?_⟩, fun ⟨hx, hy⟩ k hk => ?_⟩
  · have hk' : k < (x ++ y).length := by rw [List.length_append]; omega
    rw [h k hk', List.getElem_append_left hk]
  · have hk' : x.length + k < (x ++ y).length := by rw [List.length_append]; omega
    rw [Nat.add_assoc, h _ hk', List.getElem_append_right (Nat.le_add_right _ _)]
    simp only [Nat.add_sub_cancel_left]
  · by_cases hlt : k < x.length
    · rw [hx k hlt, List.getElem_append_left hlt]
    · have hsub : k - x.length < y.length := by rw [List.length_append] at hk; omega
      rw [List.getElem_append_right (Nat.le_of_not_lt hlt), ← hy _ hsub]
      congr 1
      omega

/-! ## The block that a set-up command loads or stores (43_modes R425, R426, R432, R433) -/

section
variable {s : State}

theorem loadBlock_of_lt (h : 4096 < s.u0 + s.u1) : loadBlock s = .error { code := .address, sub := 1#8 } :=
  checkRange_bind_fail _ h

theorem loadBlock_of_ne (hroom : s.u0 + s.u1 ≤ 4096) (h : s.u1 ≠ s.primWidth.bytes) :
    loadBlock s = .error { code := .sizeMismatch, sub := 4#8 } :=
  (checkRange_bind_pass _ hroom).trans (check_bind_fail _ (decide_eq_false h))

theorem loadBlock_of_eq (hroom : s.u0 + s.u1 ≤ 4096) (h : s.u1 = s.primWidth.bytes) :
    loadBlock s = .ok (s.memRead s.u0 s.primWidth.bytes) :=
  (checkRange_bind_pass _ hroom).trans (check_bind_pass _ (decide_eq_true h))

theorem finish_storeBlock_of_lt {b : List Byte} (h : 4096 < s.u0 + s.primWidth.bytes) :
    finish s (storeBlock b s) = .next (raised s .address 1#8) := by
  rw [storeBlock, checkRange_bind_fail _ h]
  rfl

theorem finish_storeBlock_of_le {b : List Byte} (hb : b.length = s.primWidth.bytes)
    (hroom : s.u0 + s.primWidth.bytes ≤ 4096) : finish s (storeBlock b s) = .next (s.stored b) := by
  rw [storeBlock, checkRange_bind_pass _ hroom, ← hb]
  rfl

/-- What a block stored in range leaves: its bytes at `ARG0`, and nothing else changed but `RESULT0`. -/
theorem finish_storeBlock_stores {b : List Byte} (hb : b.length = s.primWidth.bytes)
    (hroom : s.u0 + s.primWidth.bytes ≤ 4096) :
    ∃ t, finish s (storeBlock b s) = .next t ∧ holds t s.u0 b ∧ sameOutside s t s.u0 s.primWidth.bytes ∧
      { t with dbuf := s.dbuf } = completed { s with result0 := BitVec.ofNat 32 s.primWidth.bytes } := by
  refine ⟨_, finish_storeBlock_of_le hb hroom, s.holds_stored b, ?_, ?_⟩
  · rw [← hb]; exact s.sameOutside_stored b
  · rw [← hb]; exact s.stored_eq_outside_dbuf b

/-- The halves of the block that `MODE.SETCTR` loads: the nonce, and the counter behind it (R432). -/
theorem take_drop_halfBytes_memRead (s : State) (a : Nat) :
    (s.memRead a s.primWidth.bytes).take s.primWidth.halfBytes = s.memRead a s.primWidth.halfBytes ∧
      (s.memRead a s.primWidth.bytes).drop s.primWidth.halfBytes =
        s.memRead (a + s.primWidth.halfBytes) s.primWidth.halfBytes := by
  rw [bytes_eq_two_halves, State.memRead_add]
  exact ⟨List.take_left' (State.length_memRead _ _ _), List.drop_left' (State.length_memRead _ _ _)⟩

theorem loadCounter_memRead (s : State) (a : Nat) :
    s.mode.loadCounter s.primWidth.halfBytes (s.memRead a s.primWidth.bytes) =
      { s.mode with nonce := s.memRead a s.primWidth.halfBytes,
                    ctrInit := intBe (s.memRead (a + s.primWidth.halfBytes) s.primWidth.halfBytes),
                    ctr := intBe (s.memRead (a + s.primWidth.halfBytes) s.primWidth.halfBytes), ctrValid := true } := by
  obtain ⟨htake, hdrop⟩ := take_drop_halfBytes_memRead s a
  rw [ModeState.loadCounter, htake, hdrop]

/-- Byte `k` of a big-endian half, as a quotient by a power of 256 (R433). -/
theorem getElem_beBytes_eq_div (n v k : Nat) (h : k < (beBytes n v).length) :
    (beBytes n v)[k] = BitVec.ofNat 8 (v / 256 ^ (n - 1 - k)) := by
  rw [getElem_beBytes, Nat.shiftRight_eq_div_pow, Nat.pow_mul]

end

/-! ## Settled: the set-up commands -/

/-- Settles O56: the checks of `loadBlock` in their order, and the store of the chain. -/
theorem ivCommands : Obligations.IvCommands := by
  intro s
  refine ⟨fun h => finishRead_map_of_error (loadBlock_of_lt h),
    fun hroom h => finishRead_map_of_error (loadBlock_of_ne hroom h), fun hroom h => ?_, finish_storeBlock_of_lt,
    finish_storeBlock_stores⟩
  rw [h]
  exact ⟨s.draws + 1, finishRead_map_of_ok (loadBlock_of_eq hroom h)⟩

/-- Settles O57: as O56, with the block cut into its halves; the stored block is the nonce and then the counter. -/
theorem counterCommands : Obligations.CounterCommands := by
  intro s
  refine ⟨fun h => finishRead_map_of_error (loadBlock_of_lt h),
    fun hroom h => finishRead_map_of_error (loadBlock_of_ne hroom h), fun hroom h => ?_, finish_storeBlock_of_lt,
    fun hnonce hroom => ?_, finish_ok s _⟩
  · rw [← loadCounter_memRead]
    exact ⟨s.draws + 1, finishRead_map_of_ok (loadBlock_of_eq hroom h)⟩
  · have hlen : s.counterBlock.length = s.primWidth.bytes := by
      rw [State.counterBlock, List.length_append, hnonce, length_beBytes, bytes_eq_two_halves]
    obtain ⟨t, hexec, hholds, hframe⟩ := finish_storeBlock_stores hlen hroom
    rw [State.counterBlock, holds_append, hnonce] at hholds
    obtain ⟨hfirst, hsecond⟩ := hholds
    refine ⟨t, hexec, hfirst, fun k hk => ?_, hframe⟩
    have hk' : k < (beBytes s.primWidth.halfBytes s.mode.ctr).length := by rwa [length_beBytes]
    rw [hsecond k hk', getElem_beBytes_eq_div]

end Sys2Proof.Machine

namespace Sys2Proof.Machine

/-! ## What `MODE_CFG` selects, and the checks of R401, R402 and R404 in their order -/

theorem eight_mul_bytes (w : PrimWidth) : 8 * w.bytes = w.bits := by
  cases w <;> rfl

theorem modeOfCode_eq_some_iff {c : BitVec 3} {kind : ModeKind} :
    modeOfCode c = some kind ↔ c.toNat = kind.number := by
  revert c; cases kind <;> decide

theorem modeOfCode_eq_none {c : BitVec 3} (h : 5 ≤ c.toNat) : modeOfCode c = none := by
  revert c; decide

theorem exists_number_eq {n : Nat} (h : n ≤ 4) : ∃ kind : ModeKind, n = kind.number := by
  interval_cases n
  exacts [⟨.ecb, rfl⟩, ⟨.cbc, rfl⟩, ⟨.ecbCts, rfl⟩, ⟨.cbcCts, rfl⟩, ⟨.ctr, rfl⟩]

/-- The two modes that pad (R401). -/
theorem number_le_one_iff {kind : ModeKind} : kind.number ≤ 1 ↔ kind = .ecb ∨ kind = .cbc := by
  cases kind <;> decide

theorem privateCfg_eq (s : State) (sc : PadScheme) :
    privateCfg s.modeCfg sc s.primWidth.bytes = modePadCfg s sc := by
  rw [privateCfg, eight_mul_bytes]
  rfl

section
variable {s : State} {kind : ModeKind} {sc : PadScheme}

/-- Whether the length suffix fits the primitive's block, by the codes in `MODE_CFG`. -/
theorem fieldFits_modePadCfg_iff (h : schemeOfCode (s.modeCfg.extractLsb' 4 3) = some sc) :
    (modePadCfg s sc).fieldFits = true ↔
      ¬ (padField s = 5 ∧ s.primWidth.bits < modeSuffixBits s + 1 ∨
          padField s = 6 ∧ s.primWidth.bits < modeSuffixBits s + 2) := by
  rw [padField, modeSuffixBits, ← schemeCode_of_schemeOfCode h, ← bits_mdWordOfCode]
  exact (modePadCfg s sc).fieldFits_iff

theorem modeSample_of_reserved (h : 5 ≤ modeField s) :
    modeSample s.modeCfg s.primWidth.bytes = .error { code := .config, sub := 4#8 } := by
  rw [modeSample, modeOfCode_eq_none h]

theorem modeSample_of_badPad (h : modeField s ≤ 1) (hpad : padField s = 7) :
    modeSample s.modeCfg s.primWidth.bytes = .error { code := .config, sub := 5#8 } := by
  obtain ⟨kind, hkind⟩ := exists_number_eq (h.trans (by decide : 1 ≤ 4))
  rw [modeSample, modeOfCode_eq_some_iff.mpr hkind]
  dsimp only
  rw [if_pos (number_le_one_iff.mp (hkind ▸ h)), schemeOfCode_eq_none_iff.mpr hpad]

theorem modeSample_of_padded (h : modeField s ≤ 1) (hkind : modeField s = kind.number)
    (hsc : schemeOfCode (s.modeCfg.extractLsb' 4 3) = some sc) :
    modeSample s.modeCfg s.primWidth.bytes =
      if (modePadCfg s sc).fieldFits then .ok { kind := kind, cfg := modePadCfg s sc }
      else .error { code := .config, sub := 6#8 } := by
  rw [modeSample, modeOfCode_eq_some_iff.mpr hkind]
  dsimp only
  rw [if_pos (number_le_one_iff.mp (hkind ▸ h)), hsc]
  dsimp only
  rw [check_bind, privateCfg_eq]
  rfl

theorem modeSample_of_unpadded (h : 2 ≤ modeField s) (hkind : modeField s = kind.number) :
    modeSample s.modeCfg s.primWidth.bytes = .ok { kind := kind, cfg := modePadCfg s .none } := by
  rw [modeSample, modeOfCode_eq_some_iff.mpr hkind]
  dsimp only
  rw [if_neg (mt number_le_one_iff.mpr (by omega)), privateCfg_eq]

/-- What the scheme's code passes when R401 passes in `ECB` and `CBC`. -/
theorem exists_scheme (hcfg : modeConfigOk s) (h : modeField s ≤ 1) :
    ∃ sc, schemeOfCode (s.modeCfg.extractLsb' 4 3) = some sc := by
  obtain ⟨-, hpad⟩ := hcfg
  exact Option.ne_none_iff_exists'.mp (mt schemeOfCode_eq_none_iff.mp (hpad h).1)

theorem fieldFits_of_modeConfigOk (hcfg : modeConfigOk s) (h : modeField s ≤ 1)
    (hsc : schemeOfCode (s.modeCfg.extractLsb' 4 3) = some sc) : (modePadCfg s sc).fieldFits = true := by
  obtain ⟨-, hpad⟩ := hcfg
  obtain ⟨-, hmd, hblake⟩ := hpad h
  refine (fieldFits_modePadCfg_iff hsc).mpr ?_
  rintro (⟨hcode, hbits⟩ | ⟨hcode, hbits⟩)
  · exact absurd (hmd hcode) (Nat.not_le_of_lt hbits)
  · exact absurd (hblake hcode) (Nat.not_le_of_lt hbits)

theorem modeStateCheck_of_ok (hkind : modeField s = kind.number) (h : modeStateOk s) :
    modeStateCheck kind s.mode = .ok () := by
  obtain ⟨hiv, hctr⟩ := h
  cases kind with
  | ecb | ecbCts => rfl
  | cbc => exact check_eq_ok.mpr (hiv (.inl hkind))
  | cbcCts => exact check_eq_ok.mpr (hiv (.inr hkind))
  | ctr => exact check_eq_ok.mpr (hctr hkind)

theorem modeStateCheck_of_noIv (hkind : modeField s = kind.number) (h : modeField s = 1 ∨ modeField s = 3)
    (hiv : s.mode.ivValid = false) : modeStateCheck kind s.mode = .error { code := .state, sub := 1#8 } := by
  rw [hkind] at h
  cases kind with
  | cbc | cbcCts => exact check_eq_error.mpr ⟨hiv, rfl⟩
  | ecb | ecbCts | ctr => exact absurd h (by decide)

end

/-- A MODE command passes the checks that come before those of its mode: it samples `x`, and its source is inside
`DBUF` (R401, R402, R404). -/
structure ModeOpens (s : State) (x : ModeSample) : Prop where
  sample : modeSample s.modeCfg s.primWidth.bytes = .ok x
  state : modeStateCheck x.kind s.mode = .ok ()
  source : s.u0 + s.u1 ≤ 4096

section
variable {P : Prim} {s : State} {x : ModeSample} {e : CmdError}
  {byMode : Prim → ModeSample → ModeState → Nat → List Byte → Except CmdError ModePlan}

theorem modePlan_of_sample_error (hB : P.bytes = s.primWidth.bytes)
    (h : modeSample s.modeCfg s.primWidth.bytes = .error e) : modePlan P byMode s = .error e := by
  rw [modePlan, hB, h]
  rfl

/-- What is left of a MODE command behind R401. -/
theorem modePlan_of_sample (hB : P.bytes = s.primWidth.bytes) (hx : modeSample s.modeCfg s.primWidth.bytes = .ok x) :
    modePlan P byMode s = (do
      modeStateCheck x.kind s.mode
      checkRange s.u0 s.u1
      byMode P x s.mode s.u2 (modeMsg s)) := by
  rw [modePlan, hB, hx]
  rfl

theorem modePlan_of_state_error (hB : P.bytes = s.primWidth.bytes)
    (hx : modeSample s.modeCfg s.primWidth.bytes = .ok x) (h : modeStateCheck x.kind s.mode = .error e) :
    modePlan P byMode s = .error e := by
  rw [modePlan_of_sample hB hx, h]
  rfl

theorem modePlan_of_source (hB : P.bytes = s.primWidth.bytes)
    (hx : modeSample s.modeCfg s.primWidth.bytes = .ok x) (hstate : modeStateCheck x.kind s.mode = .ok ())
    (h : 4096 < s.u0 + s.u1) : modePlan P byMode s = .error { code := .address, sub := 1#8 } := by
  rw [modePlan_of_sample hB hx, hstate]
  exact checkRange_bind_fail _ h

theorem ModeOpens.modePlan_eq (h : ModeOpens s x) (hB : P.bytes = s.primWidth.bytes) :
    modePlan P byMode s = byMode P x s.mode s.u2 (modeMsg s) := by
  rw [modePlan_of_sample hB h.sample, h.state]
  exact checkRange_bind_pass _ h.source

/-- A plan that is made has passed the checks before it. -/
theorem modeOpens_of_modePlan {p : ModePlan} (hB : P.bytes = s.primWidth.bytes)
    (h : modePlan P byMode s = .ok p) : ∃ x, ModeOpens s x ∧ modeField s = x.kind.number := by
  cases hx : modeSample s.modeCfg s.primWidth.bytes with
  | error e => rw [modePlan_of_sample_error hB hx] at h; cases h
  | ok x =>
    cases hstate : modeStateCheck x.kind s.mode with
    | error e => rw [modePlan_of_state_error hB hx hstate] at h; cases h
    | ok u =>
      by_cases hsource : s.u0 + s.u1 ≤ 4096
      · exact ⟨x, ⟨hx, hstate, hsource⟩, (answers_modeSample (.inl rfl) _ _).of_ok hx⟩
      · rw [modePlan_of_source hB hx hstate (Nat.lt_of_not_le hsource)] at h; cases h

end

section
variable {s : State} {kind : ModeKind} {sc : PadScheme}

theorem modeOpens_of_padded (hcfg : modeConfigOk s) (hstate : modeStateOk s) (hsource : s.u0 + s.u1 ≤ 4096)
    (h : modeField s ≤ 1) (hkind : modeField s = kind.number)
    (hsc : schemeOfCode (s.modeCfg.extractLsb' 4 3) = some sc) :
    ModeOpens s { kind := kind, cfg := modePadCfg s sc } where
  sample := (modeSample_of_padded h hkind hsc).trans (if_pos (fieldFits_of_modeConfigOk hcfg h hsc))
  state := modeStateCheck_of_ok hkind hstate
  source := hsource

theorem modeOpens_of_unpadded (hstate : modeStateOk s) (hsource : s.u0 + s.u1 ≤ 4096) (h : 2 ≤ modeField s)
    (hkind : modeField s = kind.number) : ModeOpens s { kind := kind, cfg := modePadCfg s .none } where
  sample := modeSample_of_unpadded h hkind
  state := modeStateCheck_of_ok hkind hstate
  source := hsource

/-- What a configuration that passes R401 samples. -/
theorem exists_modeSample (hcfg : modeConfigOk s) :
    ∃ x, modeSample s.modeCfg s.primWidth.bytes = .ok x ∧ modeField s = x.kind.number := by
  obtain ⟨kind, hkind⟩ := exists_number_eq hcfg.1
  by_cases h : modeField s ≤ 1
  · obtain ⟨sc, hsc⟩ := exists_scheme hcfg h
    exact ⟨_, (modeSample_of_padded h hkind hsc).trans (if_pos (fieldFits_of_modeConfigOk hcfg h hsc)), hkind⟩
  · exact ⟨_, modeSample_of_unpadded (by omega) hkind, hkind⟩

end

/-! ## How a MODE command ends (R404 to R406) -/

/-- What `MODE.DEC` and `MODE.ENC` compute by the mode. -/
def byModeOf : Instr → Prim → ModeSample → ModeState → Nat → List Byte → Except CmdError ModePlan
  | .modeDec => decByMode
  | _ => encByMode

/-- The state after the writes `w` of plan `p`, with its completion (R404). -/
def State.moded (s : State) (p : ModePlan) (w : ModeWrite) : State := completed (drawn (s.applyMode p w))

section
variable {s : State} {i : Instr} {p : ModePlan} {w : ModeWrite} {r : Except CmdError ModePlan}

theorem exec_mode (hi : i = .modeEnc ∨ i = .modeDec) (s : State) :
    exec i s = runMode s (modePlan (attachedPrim s.primWidth) (byModeOf i) s) := by
  rcases hi with rfl | rfl <;> rfl

theorem callsOf_mode (hi : i = .modeEnc ∨ i = .modeDec) (s : State) :
    callsOf i s = plannedCalls (modePlan (attachedPrim s.primWidth) (byModeOf i) s) := by
  rcases hi with rfl | rfl <;> rfl

/-- With every call answered, the writes happen. -/
theorem runMode_of_ok (hr : r = .ok p) (hw : p.result = .ok w)
    (hanswered : s.port.answeredAll (plannedCalls r) = true) : runMode s r = .next (s.moded p w) := by
  subst hr
  rw [runMode_answered hanswered, hw]
  rfl

theorem exec_mode_of_error (hi : i = .modeEnc ∨ i = .modeDec) {code : ErrCode} {sub : BitVec 8}
    (h : modePlan (attachedPrim s.primWidth) (byModeOf i) s = .error { code := code, sub := sub }) :
    ∃ d, exec i s = .next { raised s code sub with draws := d } := by
  rw [exec_mode hi, h]
  exact ⟨s.draws + 1, rfl⟩

theorem exec_mode_of_ok (hi : i = .modeEnc ∨ i = .modeDec)
    (h : modePlan (attachedPrim s.primWidth) (byModeOf i) s = .ok p) (hw : p.result = .ok w)
    (hlive : primLive i s) : exec i s = .next (s.moded p w) ∧ callsOf i s = p.calls := by
  have hcalls := callsOf_mode hi s
  rw [primLive, hcalls] at hlive
  rw [exec_mode hi, hcalls]
  exact ⟨runMode_of_ok h hw hlive, by rw [h]; rfl⟩

/-- An error found after the calls (R405). -/
theorem exec_mode_of_late_error (hi : i = .modeEnc ∨ i = .modeDec) {e : CmdError}
    (h : modePlan (attachedPrim s.primWidth) (byModeOf i) s = .ok p) (he : p.result = .error e)
    (hlive : primLive i s) : ∃ d, exec i s = .next { raised s e.code e.sub with draws := d } := by
  rw [primLive, callsOf_mode hi, h] at hlive
  rw [exec_mode hi, h, runMode_answered hlive, he]
  exact ⟨s.draws + 1, rfl⟩

theorem State.holds_moded (s : State) (p : ModePlan) (w : ModeWrite) : holds (s.moded p w) s.u2 w.out :=
  fun _ hk => Memory.byte?_setBytes_of_mem hk

theorem State.sameOutside_moded (s : State) (p : ModePlan) {w : ModeWrite} {n : Nat} (hn : w.out.length = n) :
    sameOutside s (s.moded p w) s.u2 n := by
  subst hn
  exact fun _ hx => Memory.byte?_setBytes_of_not_mem hx

theorem State.portIdle_moded (s : State) (p : ModePlan) (w : ModeWrite) : portIdle (s.moded p w) := ⟨rfl, rfl⟩

theorem State.moded_eq_outside (s : State) {n m : Nat} (hn : w.out.length = n) (hm : p.calls.length = m) :
    { s.moded p w with dbuf := s.dbuf, draws := s.draws, port := s.port } =
      { s with busy := false, done := true, result0 := BitVec.ofNat 32 n, result1 := BitVec.ofNat 32 m,
               mode := w.mode } := by
  subst hn hm
  simp only [State.moded, completed, drawn, State.applyMode, State.setResult1, State.setResult0, State.memWrite]

/-- The same where as many bytes go out as came in. -/
theorem State.moded_eq_of_length (s : State) {m : Nat} (hn : w.out.length = s.arg1.toNat) (hm : p.calls.length = m) :
    { s.moded p w with dbuf := s.dbuf, draws := s.draws, port := s.port } =
      { s with busy := false, done := true, result0 := s.arg1, result1 := BitVec.ofNat 32 m, mode := w.mode } := by
  rw [s.moded_eq_outside hn hm, BitVec.ofNat_toNat, BitVec.setWidth_eq]

end

/-! ## Settled: the first checks -/

/-- Settles O48: the checks of `modePlan` in their order, for both commands. -/
theorem modeRefusals : Obligations.ModeRefusals := by
  refine fun i s hi => ⟨fun h => exec_mode_of_error hi (modePlan_of_sample_error rfl (modeSample_of_reserved h)),
    fun h hpad => exec_mode_of_error hi (modePlan_of_sample_error rfl (modeSample_of_badPad h hpad)),
    fun h hfield => ?suffix, fun hcfg hmode hiv => ?iv, fun hmode hctr => ?counter, fun hcfg hstate hsource => ?source⟩
  case suffix =>
    obtain ⟨kind, hkind⟩ := exists_number_eq (h.trans (by decide : 1 ≤ 4))
    obtain ⟨sc, hsc⟩ := Option.ne_none_iff_exists'.mp
      (mt schemeOfCode_eq_none_iff.mp (show padField s ≠ 7 by omega))
    refine exec_mode_of_error hi (modePlan_of_sample_error rfl ((modeSample_of_padded h hkind hsc).trans (if_neg ?_)))
    exact mt (fieldFits_modePadCfg_iff hsc).mp (not_not_intro hfield)
  case iv =>
    obtain ⟨x, hx, hkind⟩ := exists_modeSample hcfg
    exact exec_mode_of_error hi (modePlan_of_state_error rfl hx (modeStateCheck_of_noIv hkind hmode hiv))
  case counter =>
    have hx := modeSample_of_unpadded (kind := .ctr) (by omega) hmode
    exact exec_mode_of_error hi (modePlan_of_state_error rfl hx (check_eq_error.mpr ⟨hctr, rfl⟩))
  case source =>
    obtain ⟨x, hx, hkind⟩ := exists_modeSample hcfg
    exact exec_mode_of_error hi (modePlan_of_source rfl hx (modeStateCheck_of_ok hkind hstate) hsource)

end Sys2Proof.Machine

namespace Sys2Proof.Machine

/-! ## Byte strings and their blocks (43_modes R400) -/

/-- The first `k` blocks of a byte string. -/
def firstBlocks (B : Nat) (x : List Byte) (k : Nat) : List (List Byte) := (List.range k).map (block B x)

section
variable {B k : Nat} {c x y : List Byte} {L : List (List Byte)}

theorem blocksOf_eq_firstBlocks (B : Nat) (x : List Byte) :
    blocksOf B x = firstBlocks B x (ceilDiv x.length B) := rfl

@[simp] theorem length_firstBlocks (B : Nat) (x : List Byte) (k : Nat) : (firstBlocks B x k).length = k := by
  simp [firstBlocks]

@[simp] theorem getElem_firstBlocks {i : Nat} (h : i < (firstBlocks B x k).length) :
    (firstBlocks B x k)[i] = block B x i := by
  simp [firstBlocks]

theorem flatten_firstBlocks (B : Nat) (x : List Byte) (k : Nat) : (firstBlocks B x k).flatten = x.take (k * B) :=
  flatten_range_chunks B x k

theorem length_block {i : Nat} (h : (i + 1) * B ≤ x.length) : (block B x i).length = B := by
  rw [Nat.add_mul, Nat.one_mul] at h
  rw [block, List.length_take, List.length_drop]
  omega

theorem length_of_mem_firstBlocks (h : k * B ≤ x.length) : ∀ b ∈ firstBlocks B x k, b.length = B := by
  intro b hb
  obtain ⟨i, hi, rfl⟩ := List.mem_map.mp hb
  exact length_block ((Nat.mul_le_mul_right B (List.mem_range.mp hi)).trans h)

/-- Whole blocks, joined, are cut into the same blocks again, whatever stands behind them. -/
theorem blocksOf_flatten_append (hB : 0 < B) (hL : ∀ b ∈ L, b.length = B) (y : List Byte) :
    blocksOf B (L.flatten ++ y) = L ++ blocksOf B y := by
  induction L with
  | nil => rfl
  | cons b L ih =>
    rw [List.flatten_cons, List.append_assoc, blocksOf_append hB (hL b List.mem_cons_self),
      ih fun b' hb' => hL b' (List.mem_cons_of_mem b hb'), List.cons_append]

theorem blocksOf_nil (hB : 0 < B) : blocksOf B [] = [] := by
  have h : ceilDiv ([] : List Byte).length B = 0 := by rw [ceilDiv_eq B _ hB]; simp
  rw [blocksOf_eq_firstBlocks, h]
  rfl

theorem blocksOf_flatten (hB : 0 < B) (hL : ∀ b ∈ L, b.length = B) : blocksOf B L.flatten = L := by
  have h := blocksOf_flatten_append hB hL []
  rwa [blocksOf_nil hB, List.append_nil, List.append_nil] at h

/-- A string that is not empty and no longer than a block is its own block. -/
theorem blocksOf_of_le (hx : 0 < x.length) (hle : x.length ≤ B) : blocksOf B x = [x] := by
  have h : ceilDiv x.length B = 1 := by
    rw [ceilDiv]
    exact Nat.div_eq_of_lt_le (by omega) (by omega)
  rw [blocksOf_eq_firstBlocks, h]
  simp [firstBlocks, block, List.take_of_length_le hle]

theorem ceilDiv_mul_add {d : Nat} (hd : 0 < d) (hle : d ≤ B) (k : Nat) : ceilDiv (k * B + d) B = k + 1 := by
  rw [ceilDiv]
  refine Nat.div_eq_of_lt_le ?_ ?_ <;> rw [Nat.add_mul, Nat.one_mul]
  · omega
  · rw [Nat.add_mul]; omega

theorem ceilDiv_mul (hB : 0 < B) (k : Nat) : ceilDiv (k * B) B = k := by
  rw [ceilDiv_eq B _ hB, Nat.mul_mod_left, if_pos rfl, Nat.mul_div_cancel _ hB, Nat.add_zero]

theorem length_flatten_of_blocks (hL : ∀ b ∈ L, b.length = B) : L.flatten.length = L.length * B := by
  induction L with
  | nil => simp
  | cons b L ih =>
    rw [List.flatten_cons, List.length_append, hL b List.mem_cons_self,
      ih fun b' hb' => hL b' (List.mem_cons_of_mem b hb'), List.length_cons, Nat.add_mul, Nat.one_mul, Nat.add_comm]

theorem firstBlocks_flatten (hB : 0 < B) (hL : ∀ b ∈ L, b.length = B) : firstBlocks B L.flatten L.length = L := by
  have h := blocksOf_flatten hB hL
  rwa [blocksOf_eq_firstBlocks, length_flatten_of_blocks hL, ceilDiv_mul hB] at h

theorem block_flatten (hB : 0 < B) (hL : ∀ b ∈ L, b.length = B) {i : Nat} (hi : i < L.length) :
    block B L.flatten i = L[i] := by
  have h := getElem_firstBlocks (B := B) (x := L.flatten) (k := L.length) (i := i) (by simpa using hi)
  rw [← h]
  congr 1
  exact firstBlocks_flatten hB hL

theorem take_firstBlocks {j : Nat} (h : j ≤ k) : (firstBlocks B x k).take j = firstBlocks B x j := by
  rw [firstBlocks, ← List.map_take, List.take_range, Nat.min_eq_left h]
  rfl

/-- The block before each block, as the rules name it, is the list of blocks with the chain value put in front. -/
theorem getElem_cons_firstBlocks {i : Nat} (h : i < (c :: firstBlocks B x k).length) :
    (c :: firstBlocks B x k)[i] = blockBefore B c x i := by
  cases i with
  | zero => rfl
  | succ i =>
    rw [List.getElem_cons_succ, getElem_firstBlocks, blockBefore, if_neg (Nat.succ_ne_zero i), Nat.add_sub_cancel]

theorem lastBlock_firstBlocks (B : Nat) (c x : List Byte) (k : Nat) :
    lastBlock c (firstBlocks B x k) = blockBefore B c x k := by
  cases k with
  | zero => rfl
  | succ k =>
    rw [lastBlock, firstBlocks, List.range_succ, List.map_append, List.map_singleton, List.getLast?_concat, blockBefore,
      if_neg (Nat.succ_ne_zero k), Nat.add_sub_cancel]
    rfl

end

/-! ## Encryption block by block, alone or chained (R407, R409) -/

/-- The input of each call of an encryption of whole blocks, with its answer: the blocks alone, as in the ECB modes, or
each with the answer before it, as in the CBC modes. -/
def encRun (P : Prim) (plain : Prop) [Decidable plain] (chain : List Byte) (ps : List (List Byte)) :
    List (List Byte × List Byte) :=
  if plain then ps.map fun p => (p, P.enc p) else cbcChain P chain ps

/-- The input of call `i` as the rules write it: block `i` of the message, in the CBC modes with the ciphertext block
before it. -/
def encInput (plain : Prop) [Decidable plain] (B : Nat) (chain x C : List Byte) (i : Nat) : List Byte :=
  if plain then block B x i else xorBytes (block B x i) (blockBefore B chain C i)

/-- The chain value after ciphertext blocks `cs`: kept in the ECB modes, the last of them in the CBC modes. -/
def chainAfter (plain : Prop) [Decidable plain] (chain : List Byte) (cs : List (List Byte)) : List Byte :=
  if plain then chain else lastBlock chain cs

section
variable {P : Prim} {plain : Prop} [Decidable plain] {B : Nat} {chain x : List Byte} {ps : List (List Byte)} {k : Nat}

theorem length_encRun : (encRun P plain chain ps).length = ps.length := by
  unfold encRun
  split_ifs
  · rw [List.length_map]
  · exact length_cbcChain chain ps

theorem getElem_cbcChain (chain : List Byte) (ps : List (List Byte)) {i : Nat} (h : i < ps.length) :
    ∃ (hrun : i < (cbcChain P chain ps).length) (hcs : i < (chain :: (cbcChain P chain ps).map Prod.snd).length),
      (cbcChain P chain ps)[i].2 = P.enc (cbcChain P chain ps)[i].1 ∧
      (cbcChain P chain ps)[i].1 = xorBytes ps[i] (chain :: (cbcChain P chain ps).map Prod.snd)[i] := by
  have hlen := length_cbcChain (P := P) chain ps
  refine ⟨hlen ▸ h, by rw [List.length_cons, List.length_map, hlen]; omega, ?_⟩
  induction ps generalizing chain i with
  | nil => simp at h
  | cons p ps ih =>
    cases i with
    | zero => exact ⟨rfl, rfl⟩
    | succ i => exact ih (P.enc (xorBytes p chain)) (Nat.lt_of_succ_lt_succ h) (length_cbcChain _ ps)

theorem length_of_mem_encRun (hP : P.blockSized) :
    ∀ c ∈ (encRun P plain chain ps).map Prod.snd, c.length = P.bytes := by
  unfold encRun
  split_ifs
  · intro c hc
    rw [List.map_map] at hc
    obtain ⟨p, -, rfl⟩ := List.mem_map.mp hc
    exact (hP p).1
  · exact length_of_mem_cbcChain hP chain ps

/-- What a run over the blocks of `x` calls and answers, in terms of the ciphertext `C` it makes. -/
theorem encRun_eq (hP : P.blockSized) (hPB : P.bytes = B) (hB : 0 < B) {C : List Byte}
    (hC : C = ((encRun P plain chain (firstBlocks B x k)).map Prod.snd).flatten) :
    encRun P plain chain (firstBlocks B x k) = (List.range k).map fun i =>
      (encInput plain B chain x C i, P.enc (encInput plain B chain x C i)) := by
  subst hPB
  have hlen : (encRun P plain chain (firstBlocks P.bytes x k)).length = k :=
    length_encRun.trans (length_firstBlocks _ _ _)
  have hcs : (encRun P plain chain (firstBlocks P.bytes x k)).map Prod.snd = firstBlocks P.bytes C k := by
    have h := firstBlocks_flatten hB (length_of_mem_encRun (plain := plain) (chain := chain)
      (ps := firstBlocks P.bytes x k) hP)
    rw [List.length_map, hlen, ← hC] at h
    exact h.symm
  refine List.ext_getElem (by rw [hlen, List.length_map, List.length_range]) fun i hi _ => ?_
  rw [List.getElem_map, List.getElem_range]
  by_cases hplain : plain
  · simp only [encRun, encInput, if_pos hplain, List.getElem_map, getElem_firstBlocks]
  · have hrun : encRun P plain chain (firstBlocks P.bytes x k) = cbcChain P chain (firstBlocks P.bytes x k) :=
      if_neg hplain
    rw [hrun] at hcs
    obtain ⟨hi', hi'', hout, hinp⟩ := getElem_cbcChain (P := P) chain (firstBlocks P.bytes x k) (i := i)
      (by rw [length_firstBlocks]; omega)
    simp only [hcs, getElem_firstBlocks, getElem_cons_firstBlocks] at hinp
    simp only [hrun, encInput, if_neg hplain]
    rw [Prod.ext_iff]
    exact ⟨hinp, hout.trans (congrArg P.enc hinp)⟩

/-- The four things a statement says of an encryption of the first `k` blocks of `x` into `C`. -/
theorem encRun_spec (hP : P.blockSized) (hPB : P.bytes = B) (hB : 0 < B) {C : List Byte}
    (hC : C = ((encRun P plain chain (firstBlocks B x k)).map Prod.snd).flatten) :
    C.length = k * B ∧
      (∀ i, i < k → block B C i = P.enc (encInput plain B chain x C i)) ∧
      (encRun P plain chain (firstBlocks B x k)).map (fun r => encCall r.1) =
        (List.range k).map (fun i => encCall (encInput plain B chain x C i)) ∧
      chainAfter plain chain ((encRun P plain chain (firstBlocks B x k)).map Prod.snd) =
        if plain then chain else blockBefore B chain C k := by
  subst hPB
  have hrun := encRun_eq hP rfl hB hC
  have hsized := length_of_mem_encRun (plain := plain) (chain := chain) (ps := firstBlocks P.bytes x k) hP
  have hlen : ((encRun P plain chain (firstBlocks P.bytes x k)).map Prod.snd).length = k := by
    rw [List.length_map, length_encRun, length_firstBlocks]
  refine ⟨?_, fun i hi => ?_, ?_, ?_⟩
  · rw [hC, length_flatten_of_blocks hsized, hlen]
  · have hblock := block_flatten hB hsized (i := i) (hlen.symm ▸ hi)
    rw [← hC] at hblock
    rw [hblock]
    simp only [hrun, List.getElem_map, List.getElem_range]
  · rw [hrun, List.map_map]
    rfl
  · have hcs := firstBlocks_flatten hB hsized
    rw [← hC, hlen] at hcs
    rw [← hcs, chainAfter, lastBlock_firstBlocks]

end

/-! ## Decryption block by block (R408, R410) -/

/-- The blocks an ECB or CBC decryption answers. -/
def decRun (P : Prim) (plain : Prop) [Decidable plain] (chain : List Byte) (cs : List (List Byte)) : List (List Byte) :=
  if plain then cs.map P.dec else cbcUnchain P chain cs

/-- Block `i` of a decryption as the rules write it. -/
def decOutput (P : Prim) (plain : Prop) [Decidable plain] (chain x : List Byte) (i : Nat) : List Byte :=
  if plain then P.dec (block P.bytes x i) else xorBytes (P.dec (block P.bytes x i)) (blockBefore P.bytes chain x i)

section
variable {P : Prim} {plain : Prop} [Decidable plain] {chain x : List Byte} {k : Nat}

theorem decRun_firstBlocks (P : Prim) (plain : Prop) [Decidable plain] (chain x : List Byte) (k : Nat) :
    decRun P plain chain (firstBlocks P.bytes x k) = (List.range k).map (decOutput P plain chain x) := by
  by_cases hplain : plain
  · simp only [decRun, if_pos hplain, firstBlocks, List.map_map]
    exact List.map_congr_left fun i _ => (if_pos hplain).symm
  · simp only [decRun, if_neg hplain]
    refine List.ext_getElem (by simp [cbcUnchain]) fun i hi _ => ?_
    simp only [cbcUnchain, List.getElem_zipWith, getElem_firstBlocks, getElem_cons_firstBlocks, List.getElem_map,
      List.getElem_range, decOutput, if_neg hplain]

end

end Sys2Proof.Machine

namespace Sys2Proof.Machine

/-! ## The message that `ModePad` makes (R403) -/

theorem drop_streamBits (b : List Byte) {n : Nat} (h : n ≤ b.length) :
    (streamBits b).drop (8 * n) = streamBits (b.drop n) := by
  conv_lhs => rw [← List.take_append_drop n b, streamBits_append]
  exact List.drop_left' (by rw [length_streamBits, List.length_take, Nat.min_eq_left h])

/-- A message that `ModePad` takes: under a legal configuration for blocks of `B` bytes, and of whole blocks where no
padding is added. -/
structure ModePads (c : PadCfg) (B : Nat) (msg : List Byte) : Prop where
  legal : c.legal = true
  bits : c.blockBits = 8 * B
  whole : c.scheme = .none → msg.length % B = 0

section
variable {c : PadCfg} {B : Nat} {msg : List Byte}

theorem wholeBits_streamBits (hc : c.blockBits = 8 * B) (msg : List Byte) :
    (streamBits msg).length / c.blockBits * c.blockBits = 8 * (msg.length / B * B) := by
  rw [length_streamBits, hc, Nat.mul_div_mul_left _ _ (by decide), Nat.mul_left_comm]

theorem paddedTail_streamBits (hc : c.blockBits = 8 * B) (msg : List Byte) (p : Nat) :
    paddedTail c (streamBits msg) p = padTail c (streamBits (msg.drop (msg.length / B * B))) p := by
  rw [paddedTail, wholeBits_streamBits hc, drop_streamBits _ (Nat.div_mul_le_self _ _)]

/-- The padded message of R403 is the padded bit string of the segmenter's rules, as bytes. -/
theorem paddedMessage_eq (hc : c.blockBits = 8 * B) (msg : List Byte) :
    paddedMessage c B msg = packBits (paddedBits c (streamBits msg) (8 * msg.length)) := by
  rw [paddedBits, paddedTail_streamBits hc, wholeBits_streamBits hc, take_streamBits,
    packBits_append _ _ (length_streamBits _), packBits_streamBits]
  rfl

theorem ModePads.paddable (h : ModePads c B msg) : Paddable c (streamBits msg) := by
  refine ⟨h.legal, fun _ => ?_⟩
  rw [length_streamBits, h.bits, Nat.mul_mod_mul_left, Nat.mul_mod_right]

theorem ModePads.bytes_pos (h : ModePads c B msg) : 0 < B := by
  have := h.paddable.blockBits_pos
  rw [h.bits] at this
  omega

/-- Without padding, whole blocks stay as they are. -/
theorem paddedBits_of_none {m : List Bool} (h : c.scheme = .none) (p : Nat) :
    paddedBits c m p = m ∧ (paddedTail c m p).padBits = 0 := by
  have hbits : paddedBits c m p = m ++ [] := paddedBits_eq (by rw [paddedTail, padTail_of_none h, List.append_nil]; rfl)
  exact ⟨hbits.trans (List.append_nil m), by rw [paddedTail, padTail_of_none h]; rfl⟩

theorem ModePads.paddedMessage_of_none (h : ModePads c B msg) (hnone : c.scheme = .none) :
    paddedMessage c B msg = msg := by
  rw [paddedMessage_eq h.bits, (paddedBits_of_none hnone _).1, packBits_streamBits]

theorem Paddable.length_paddedBits_eq {m : List Bool} (h : Paddable c m) (p : Nat) (hnone : c.scheme ≠ .none) :
    (paddedBits c m p).length = m.length + (paddedTail c m p).padBits := by
  have htail := length_drop_wholeBlocks m c.blockBits
  obtain ⟨-, -, hpad, -⟩ := padTail_blocks (p := p) h.legal (htail ▸ Nat.mod_lt _ h.blockBits_pos)
    (htail ▸ h.bytes) hnone
  have hdiv := Nat.div_add_mod' m.length c.blockBits
  rw [paddedBits, List.length_append, length_take_wholeBlocks]
  rw [htail] at hpad
  unfold paddedTail
  omega

/-- The padding length that `ModePad` answers is what it adds. -/
theorem ModePads.padBits_eq (h : ModePads c B msg) :
    (paddedTail c (streamBits msg) (8 * msg.length)).padBits =
      8 * (paddedMessage c B msg).length - 8 * msg.length := by
  by_cases hnone : c.scheme = .none
  · rw [h.paddedMessage_of_none hnone, (paddedBits_of_none hnone _).2, Nat.sub_self]
  · have hstream := h.paddable.streamBits_out (8 * msg.length) hnone
    have hlen := congrArg List.length hstream
    rw [h.paddable.length_paddedBits_eq _ hnone, length_streamBits, length_streamBits] at hlen
    rw [paddedMessage_eq h.bits, hlen, Nat.add_sub_cancel_left]

/-- The padded message is whole blocks. -/
theorem ModePads.length_mod (h : ModePads c B msg) : (paddedMessage c B msg).length % B = 0 := by
  by_cases hnone : c.scheme = .none
  · rw [h.paddedMessage_of_none hnone, h.whole hnone]
  · rw [paddedMessage_eq h.bits, h.paddable.length_out _ hnone, h.bits, Nat.mul_div_cancel_left _ (by decide),
      Nat.mul_mod_left]

theorem ModePads.modePad_eq (h : ModePads c B msg) :
    modePad c B msg = .ok (blocksOf B (paddedMessage c B msg),
      8 * (paddedMessage c B msg).length - 8 * msg.length) := by
  rw [← h.padBits_eq, paddedTail_streamBits h.bits]
  refine check_bind_pass _ ?_
  by_cases hnone : c.scheme = .none
  · simp [h.whole hnone]
  · simp [hnone]

theorem modePad_of_partial (hnone : c.scheme = .none) (h : msg.length % B ≠ 0) :
    modePad c B msg = .error { code := .sizeMismatch, sub := 5#8 } :=
  check_bind_fail _ (by simp [hnone, h])

/-- Removing the padding of a padded message finds its length (R328), also from the stored padding length. -/
theorem ModePads.unpad_eq (h : ModePads c B msg) :
    unpad c (paddedMessage c B msg)
      (BitVec.ofNat 32 (8 * (paddedMessage c B msg).length - 8 * msg.length)).toNat = .ok (8 * msg.length) := by
  have hle := h.paddable.padBits_paddedTail_le (8 * msg.length)
  have hout := h.paddable.unpad_out (8 * msg.length)
  rw [← paddedMessage_eq h.bits, length_streamBits, h.padBits_eq] at hout
  rw [h.padBits_eq] at hle
  rw [BitVec.toNat_ofNat, Nat.mod_eq_of_lt (by omega), hout]
  split_ifs
  · exact congrArg Except.ok (by omega)
  · rfl

end

/-! ## What an unpad function finds is no longer than what it looks at (R321) -/

theorem lt_length_of_lastTrue? {l : List Bool} {j : Nat} (h : lastTrue? l = some j) : j < l.length := by
  induction l generalizing j with
  | nil => cases h
  | cons b l ih =>
    rw [lastTrue?] at h
    split at h
    next k hk =>
      cases h
      exact Nat.succ_lt_succ (ih hk)
    next =>
      split_ifs at h
      cases h
      exact Nat.succ_pos _

theorem answers_unpad_le (c : PadCfg) (b : List Byte) (lp : Nat) :
    Answers (fun _ => True) (fun l => l ≤ 8 * b.length) (unpad c b lp) := by
  have hcheck {x : Bool} {code : ErrCode} {sub : BitVec 8} :
      Answers (fun _ => True) (fun _ => x = true) (check x code sub) := answers_check trivial
  have hsentinel (lo hi : Nat) : Answers (fun _ => True) (fun l => l ≤ 8 * b.length) (sentinel b lo hi) := by
    unfold sentinel
    split
    next j hj =>
      have hlt := lt_length_of_lastTrue? hj
      rw [List.length_take, List.length_drop, length_streamBits] at hlt
      show lo + j ≤ 8 * b.length
      omega
    next => exact answers_error trivial
  have hcount : Answers (fun _ => True) (fun _ => True) (lastCount c b) :=
    hcheck.bind fun _ _ => hcheck.bind fun _ _ => answers_pure trivial
  have hsub (n : Nat) : 8 * (b.length - n) ≤ 8 * b.length := Nat.mul_le_mul_left 8 (Nat.sub_le _ _)
  unfold unpad
  cases c.scheme with
  | none => exact Nat.le_refl _
  | zero => exact hcheck.bind fun _ _ => hcheck.bind fun _ _ => answers_pure (Nat.sub_le _ _)
  | bitpad => exact hcheck.bind fun _ _ => hsentinel _ _
  | pkcs7 => exact hcount.bind fun n _ => hcheck.bind fun _ _ => answers_pure (hsub n)
  | x923 => exact hcount.bind fun n _ => answers_pure (hsub n)
  | md => exact hcheck.bind fun _ _ => hsentinel _ _
  | blake => exact hcheck.bind fun _ _ => hcheck.bind fun _ _ => hsentinel _ _

section
variable {c : PadCfg} {q : List Byte} {lp l : Nat}

theorem removePad_of_ok (h : unpad c q lp = .ok l) (hl : l % 8 = 0) : removePad c lp q = .ok (q.take (l / 8)) := by
  rw [removePad, h]
  exact check_bind_pass _ (decide_eq_true hl)

theorem removePad_of_partial (h : unpad c q lp = .ok l) (hl : l % 8 ≠ 0) :
    removePad c lp q = .error { code := .padding, sub := 6#8 } := by
  rw [removePad, h]
  exact check_bind_fail _ (decide_eq_false hl)

theorem removePad_of_error {e : CmdError} (h : unpad c q lp = .error e) : removePad c lp q = .error e := by
  rw [removePad, h]
  rfl

theorem length_take_of_unpad (h : unpad c q lp = .ok l) : (q.take (l / 8)).length = l / 8 := by
  have hle : l ≤ 8 * q.length := (answers_unpad_le c q lp).of_ok h
  rw [List.length_take, Nat.min_eq_left (Nat.div_le_of_le_mul hle)]

end

/-! ## The plans over whole blocks: `ECB` and `CBC`, and the CTS modes without a short block -/

/-- The encryption of the blocks `ps` (R407, R409, R411). -/
def blocksEncPlan (P : Prim) (plain : Prop) [Decidable plain] (m : ModeState) (ps : List (List Byte))
    (lastPad : BitVec 32) : ModePlan :=
  planOk ((encRun P plain m.chain ps).map fun r => encCall r.1) (ps.length * P.bytes)
    ((encRun P plain m.chain ps).map Prod.snd).flatten
    { m with chain := chainAfter plain m.chain ((encRun P plain m.chain ps).map Prod.snd), lastPad := lastPad }

/-- The decryption of the blocks `cs`, which writes `out` or raises (R408, R410, R411). -/
def blocksDecPlan (P : Prim) (plain : Prop) [Decidable plain] (m : ModeState) (cs : List (List Byte))
    (out : Except CmdError (List Byte)) : ModePlan :=
  { calls := (if plain then cs else cs.reverse).map decCall
    room := cs.length * P.bytes
    result := out.map fun b => { out := b, mode := { m with chain := chainAfter plain m.chain cs } } }

/-- The ECB or CBC mode, without and with ciphertext stealing. -/
def blockMode (plain : Prop) [Decidable plain] : ModeKind := if plain then .ecb else .cbc

section
variable {P : Prim} {plain : Prop} [Decidable plain] {c : PadCfg} {m : ModeState} {dst : Nat} {msg : List Byte}

theorem encByMode_blockMode :
    encByMode P { kind := blockMode plain, cfg := c } m dst msg = (do
      let r ← modePad c P.bytes msg
      checkRange dst (r.1.length * P.bytes)
      pure (blocksEncPlan P plain m r.1 (BitVec.ofNat 32 r.2))) := by
  by_cases hplain : plain
  · simp only [encByMode, blockMode, blocksEncPlan, encRun, chainAfter, if_pos hplain, List.map_map]
    rfl
  · simp only [encByMode, blockMode, blocksEncPlan, encRun, chainAfter, if_neg hplain]
    rfl

theorem encByMode_of_partial (hnone : c.scheme = .none) (h : msg.length % P.bytes ≠ 0) :
    encByMode P { kind := blockMode plain, cfg := c } m dst msg = .error { code := .sizeMismatch, sub := 5#8 } := by
  rw [encByMode_blockMode, modePad_of_partial hnone h]
  rfl

theorem ModePads.encByMode_of_lt (h : ModePads c P.bytes msg)
    (hroom : 4096 < dst + (paddedMessage c P.bytes msg).length) :
    encByMode P { kind := blockMode plain, cfg := c } m dst msg = .error { code := .address, sub := 1#8 } := by
  rw [encByMode_blockMode, h.modePad_eq]
  refine checkRange_bind_fail _ ?_
  rwa [length_blocksOf_mul h.bytes_pos h.length_mod]

theorem ModePads.encByMode_of_le (h : ModePads c P.bytes msg)
    (hroom : dst + (paddedMessage c P.bytes msg).length ≤ 4096) :
    encByMode P { kind := blockMode plain, cfg := c } m dst msg =
      .ok (blocksEncPlan P plain m (blocksOf P.bytes (paddedMessage c P.bytes msg))
        (BitVec.ofNat 32 (8 * (paddedMessage c P.bytes msg).length - 8 * msg.length))) := by
  rw [encByMode_blockMode, h.modePad_eq]
  refine checkRange_bind_pass _ ?_
  rwa [length_blocksOf_mul h.bytes_pos h.length_mod]

/-- What is checked before an ECB or CBC decryption, and its plan. -/
theorem decByMode_blockMode (hB : 0 < P.bytes) :
    decByMode P { kind := blockMode plain, cfg := c } m dst msg = (do
      check (decide (msg.length % P.bytes = 0)) .length 1#8
      checkRange dst msg.length
      pure (blocksDecPlan P plain m (blocksOf P.bytes msg)
        (removePad c m.lastPad.toNat (decRun P plain m.chain (blocksOf P.bytes msg)).flatten))) := by
  by_cases hmod : msg.length % P.bytes = 0
  · have hlen := length_blocksOf_mul hB hmod
    by_cases hplain : plain
    · simp only [decByMode, blockMode, blocksDecPlan, decRun, chainAfter, if_pos hplain, hlen]
      rfl
    · simp only [decByMode, blockMode, blocksDecPlan, decRun, chainAfter, if_neg hplain, hlen]
      rfl
  · rw [check_bind_fail _ (decide_eq_false hmod)]
    by_cases hplain : plain
    · rw [blockMode, if_pos hplain]
      exact check_bind_fail _ (decide_eq_false hmod)
    · rw [blockMode, if_neg hplain]
      exact check_bind_fail _ (decide_eq_false hmod)

theorem decByMode_of_partial (hB : 0 < P.bytes) (h : msg.length % P.bytes ≠ 0) :
    decByMode P { kind := blockMode plain, cfg := c } m dst msg = .error { code := .length, sub := 1#8 } :=
  (decByMode_blockMode hB).trans (check_bind_fail _ (decide_eq_false h))

theorem decByMode_of_lt (hB : 0 < P.bytes) (h : msg.length % P.bytes = 0) (hroom : 4096 < dst + msg.length) :
    decByMode P { kind := blockMode plain, cfg := c } m dst msg = .error { code := .address, sub := 1#8 } :=
  (decByMode_blockMode hB).trans ((check_bind_pass _ (decide_eq_true h)).trans (checkRange_bind_fail _ hroom))

theorem decByMode_of_le (hB : 0 < P.bytes) (h : msg.length % P.bytes = 0) (hroom : dst + msg.length ≤ 4096) :
    decByMode P { kind := blockMode plain, cfg := c } m dst msg =
      .ok (blocksDecPlan P plain m (blocksOf P.bytes msg)
        (removePad c m.lastPad.toNat (decRun P plain m.chain (blocksOf P.bytes msg)).flatten)) :=
  (decByMode_blockMode hB).trans ((check_bind_pass _ (decide_eq_true h)).trans (checkRange_bind_pass _ hroom))

end

end Sys2Proof.Machine

namespace Sys2Proof.Machine

/-! ## `MODE.ENC` and `MODE.DEC` in ECB and CBC -/

section
variable {s : State} {sc : PadScheme}

theorem attachedPrim_bytes (w : PrimWidth) : (attachedPrim w).bytes = w.bytes := rfl

theorem length_modeMsg (s : State) : (modeMsg s).length = s.arg1.toNat := State.length_memRead s _ _

/-- ECB is mode 0 and CBC mode 1 (10_state R52). -/
theorem modeField_eq_blockMode (h : modeField s ≤ 1) :
    modeField s = (blockMode (modeField s = 0)).number := by
  rw [blockMode]
  split_ifs with hfield
  · exact hfield
  · exact Nat.le_antisymm h (Nat.pos_of_ne_zero hfield)

theorem modePadCfg_legal_of_fieldFits (h : (modePadCfg s sc).fieldFits = true) : (modePadCfg s sc).legal = true := by
  have hbits : legalBlockBits s.primWidth.bits = true := by cases s.primWidth <;> decide
  exact Bool.and_eq_true_iff.mpr ⟨hbits, h⟩

theorem modePadCfg_legal (hcfg : modeConfigOk s) (h : modeField s ≤ 1)
    (hsc : schemeOfCode (s.modeCfg.extractLsb' 4 3) = some sc) : (modePadCfg s sc).legal = true :=
  modePadCfg_legal_of_fieldFits (fieldFits_of_modeConfigOk hcfg h hsc)

theorem modePads_modeMsg (hlegal : (modePadCfg s sc).legal = true)
    (hwhole : sc = .none → s.arg1.toNat % s.primWidth.bytes = 0) :
    ModePads (modePadCfg s sc) s.primWidth.bytes (modeMsg s) :=
  ⟨hlegal, (eight_mul_bytes _).symm, fun h => by rw [length_modeMsg]; exact hwhole h⟩

theorem blocksOf_of_mod {B : Nat} (hB : 0 < B) {x : List Byte} (h : x.length % B = 0) :
    blocksOf B x = firstBlocks B x (x.length / B) := by
  rw [blocksOf_eq_firstBlocks, ceilDiv_eq B _ hB, if_pos h, Nat.add_zero]

theorem map_if_reverse {α β : Type} (p : Prop) [Decidable p] (l : List α) (f : α → β) :
    (if p then l.map f else (l.map f).reverse) = (if p then l else l.reverse).map f := by
  split_ifs
  · rfl
  · exact List.map_reverse.symm

/-- The calls of a decryption of the first `k` blocks of `x`. -/
theorem calls_blocksDecPlan (P : Prim) (plain : Prop) [Decidable plain] (m : ModeState) (x : List Byte) (k : Nat)
    (out : Except CmdError (List Byte)) :
    (blocksDecPlan P plain m (firstBlocks P.bytes x k) out).calls =
      (if plain then List.range k else (List.range k).reverse).map fun i => decCall (block P.bytes x i) := by
  rw [blocksDecPlan, firstBlocks, map_if_reverse, List.map_map]
  rfl

theorem length_calls_blocksDecPlan (P : Prim) (plain : Prop) [Decidable plain] (m : ModeState) (cs : List (List Byte))
    (out : Except CmdError (List Byte)) : (blocksDecPlan P plain m cs out).calls.length = cs.length := by
  unfold blocksDecPlan
  split_ifs <;> simp

end

/-! ## Settled: ECB and CBC -/

/-- Settles O50: the plan is that of the blocks of the padded message, and `encRun_spec` says what its calls and answers
are. -/
theorem ecbAndCbcEncrypt : Obligations.EcbAndCbcEncrypt := by
  rintro s sc _ _ hfield hcfg hstate hsource hlive hsc hwhole rfl rfl hroom
  have hB : 0 < s.primWidth.bytes := attachedPrim_bytes_pos s.primWidth
  have hsized := attachedPrim_blockSized s.primWidth
  have hopen := modeOpens_of_padded hcfg hstate hsource hfield (modeField_eq_blockMode hfield) hsc
  have hpads := modePads_modeMsg (modePadCfg_legal hcfg hfield hsc) hwhole
  have hplan := (hopen.modePlan_eq (P := attachedPrim s.primWidth) (byMode := encByMode) rfl).trans
    (ModePads.encByMode_of_le hpads hroom)
  rw [length_modeMsg, attachedPrim_bytes] at hplan
  have hmod := hpads.length_mod
  generalize paddedMessage (modePadCfg s sc) s.primWidth.bytes (modeMsg s) = Q at *
  have hlenQ : Q.length / s.primWidth.bytes * s.primWidth.bytes = Q.length :=
    Nat.div_mul_cancel (Nat.dvd_of_mod_eq_zero hmod)
  rw [blocksOf_of_mod hB hmod] at hplan
  obtain ⟨hexec, hcalls⟩ := exec_mode_of_ok (.inl rfl) hplan rfl hlive
  obtain ⟨hlenC, hblocks, hrun, hchain⟩ := encRun_spec (plain := modeField s = 0) (chain := s.mode.chain) (x := Q)
    (B := s.primWidth.bytes) (k := Q.length / s.primWidth.bytes) hsized rfl hB rfl
  have hcount := congrArg List.length hrun
  rw [List.length_map (as := List.range _), List.length_range] at hcount
  refine ⟨_, _, _, hexec, hlenC.trans hlenQ, hlenQ.symm, fun i _ => rfl, hblocks, s.holds_moded _ _,
    s.sameOutside_moded _ rfl, rfl, hcalls.trans hrun, s.portIdle_moded _ _,
    (s.moded_eq_outside rfl hcount).trans ?_⟩
  dsimp only
  rw [hchain]

/-- Settles O51: the plan is that of the blocks of the ciphertext, and what it writes or raises is what the padding
removal answers. -/
theorem ecbAndCbcDecrypt : Obligations.EcbAndCbcDecrypt := by
  rintro s sc m Q calls hfield hcfg hstate hsource hlive hsc hm hroom hQ rfl
  obtain rfl : Q = ((List.range m).map
    (decOutput (attachedPrim s.primWidth) (modeField s = 0) s.mode.chain (modeMsg s))).flatten := hQ
  have hB := attachedPrim_bytes_pos s.primWidth
  have hopen := modeOpens_of_padded hcfg hstate hsource hfield (modeField_eq_blockMode hfield) hsc
  have hlen : (modeMsg s).length = m * s.primWidth.bytes := (length_modeMsg s).trans hm
  have hplan := (hopen.modePlan_eq (P := attachedPrim s.primWidth) (byMode := decByMode) rfl).trans
    (decByMode_of_le hB (by rw [hlen]; exact Nat.mul_mod_left _ _) (by rwa [length_modeMsg]))
  have hblocks : blocksOf (attachedPrim s.primWidth).bytes (modeMsg s) =
      firstBlocks (attachedPrim s.primWidth).bytes (modeMsg s) m := by
    rw [blocksOf_eq_firstBlocks, hlen]
    exact congrArg _ (ceilDiv_mul hB m)
  rw [hblocks, decRun_firstBlocks] at hplan
  have hcalls : callsOf .modeDec s = _ := (congrArg plannedCalls hplan).trans (calls_blocksDecPlan _ _ _ _ _ _)
  refine ⟨hcalls, fun l hl hbyte => ?_, fun e he => ?_⟩
  · rw [removePad_of_ok hl hbyte] at hplan
    obtain ⟨hexec, -⟩ := exec_mode_of_ok (.inr rfl) hplan rfl hlive
    have hout := length_take_of_unpad hl
    have hcount := length_calls_blocksDecPlan (attachedPrim s.primWidth) (modeField s = 0) s.mode
      (firstBlocks (attachedPrim s.primWidth).bytes (modeMsg s) m)
    rw [length_firstBlocks] at hcount
    refine ⟨_, hexec, s.holds_moded _ _, s.sameOutside_moded _ hout, rfl, s.portIdle_moded _ _,
      (s.moded_eq_outside hout (hcount _)).trans ?_⟩
    dsimp only
    rw [chainAfter, lastBlock_firstBlocks]
    rfl
  · refine exec_mode_of_late_error (.inr rfl) hplan ?_ hlive
    rcases he with he | ⟨l, hl, hbyte, rfl⟩
    · exact congrArg (Except.map _) (removePad_of_error he)
    · exact congrArg (Except.map _) (removePad_of_partial hl hbyte)

end Sys2Proof.Machine

namespace Sys2Proof.Machine

/-! ## Ciphertext stealing (R411 to R415): the plans -/

/-- `ECB_CTS` or `CBC_CTS`. -/
def stealMode (plain : Prop) [Decidable plain] : ModeKind := if plain then .ecbCts else .cbcCts

/-- The encryption of a CTS mode (R411, R413). -/
def ctsEnc (P : Prim) (plain : Prop) [Decidable plain] (m : ModeState) (msg : List Byte) : ModePlan :=
  if plain then ecbCtsEnc P m msg else cbcCtsEnc P m msg

/-- The decryption of a CTS mode (R411, R414). -/
def ctsDec (P : Prim) (plain : Prop) [Decidable plain] (m : ModeState) (msg : List Byte) : ModePlan :=
  if plain then ecbCtsDec P m msg else cbcCtsDec P m msg

/-- The block of the short one and of what is stolen for it from `z`, the encryption of the full one (R413). -/
def stealBlock (plain : Prop) [Decidable plain] (B : Nat) (short z : List Byte) : List Byte :=
  if plain then short ++ z.drop short.length else xorBytes z (short ++ List.replicate (B - short.length) 0#8)

/-- The input of the call for the full block. -/
def stealInput (P : Prim) (plain : Prop) [Decidable plain] (chain : List Byte) (x : CtsCut) : List Byte :=
  if plain then x.full else xorBytes x.full (lastBlock chain ((encRun P plain chain x.front).map Prod.snd))

/-- Encryption with a short last block (R413, R415). -/
def stealEncPlan (P : Prim) (plain : Prop) [Decidable plain] (m : ModeState) (n : Nat) (x : CtsCut) : ModePlan :=
  let run := encRun P plain m.chain x.front
  let z := P.enc (stealInput P plain m.chain x)
  let steal := stealBlock plain P.bytes x.short z
  planOk (run.map (fun r => encCall r.1) ++ [encCall (stealInput P plain m.chain x), encCall steal]) n
    ((run.map Prod.snd).flatten ++ P.enc steal ++ z.take x.short.length)
    { m with chain := if plain then m.chain else P.enc steal }

/-- The rebuilt block: the short one, and what it had left behind in `y`, the decryption of the full one (R414). -/
def rebuiltBlock (P : Prim) (x : CtsCut) : List Byte := x.short ++ (P.dec x.full).drop x.short.length

/-- The calls of a decryption with a short last block, in the order of R414. -/
def stealDecCalls (P : Prim) (plain : Prop) [Decidable plain] (x : CtsCut) : List PrimCall :=
  if plain then x.front.map decCall ++ [decCall x.full, decCall (rebuiltBlock P x)]
  else [decCall x.full, decCall (rebuiltBlock P x)] ++ x.front.reverse.map decCall

/-- The bytes of a decryption with a short last block (R414). -/
def stealDecOut (P : Prim) (plain : Prop) [Decidable plain] (chain : List Byte) (x : CtsCut) : List Byte :=
  if plain then
    (decRun P plain chain x.front).flatten ++ P.dec (rebuiltBlock P x) ++ (P.dec x.full).take x.short.length
  else
    (decRun P plain chain x.front).flatten ++ xorBytes (P.dec (rebuiltBlock P x)) (lastBlock chain x.front)
      ++ xorBytes ((P.dec x.full).take x.short.length) x.short

/-- Decryption with a short last block (R414, R415). -/
def stealDecPlan (P : Prim) (plain : Prop) [Decidable plain] (m : ModeState) (n : Nat) (x : CtsCut) : ModePlan :=
  planOk (stealDecCalls P plain x) n (stealDecOut P plain m.chain x)
    { m with chain := if plain then m.chain else x.full }

section
variable {P : Prim} {plain : Prop} [Decidable plain] {c : PadCfg} {m : ModeState} {dst : Nat} {msg : List Byte}

theorem encByMode_stealMode : encByMode P { kind := stealMode plain, cfg := c } m dst msg =
    (ctsCheck P dst msg).map fun _ => ctsEnc P plain m msg := by
  unfold stealMode ctsEnc
  split_ifs <;> rfl

theorem decByMode_stealMode : decByMode P { kind := stealMode plain, cfg := c } m dst msg =
    (ctsCheck P dst msg).map fun _ => ctsDec P plain m msg := by
  unfold stealMode ctsDec
  split_ifs <;> rfl

theorem ctsCheck_of_short (h : msg.length < P.bytes) :
    ctsCheck P dst msg = .error { code := .length, sub := 2#8 } :=
  check_bind_fail _ (decide_eq_false (Nat.not_le_of_lt h))

theorem ctsCheck_of_lt (h : P.bytes ≤ msg.length) (hroom : 4096 < dst + msg.length) :
    ctsCheck P dst msg = .error { code := .address, sub := 1#8 } :=
  (check_bind_pass _ (decide_eq_true h)).trans
    (check_eq_error.mpr ⟨decide_eq_false (Nat.not_le_of_lt hroom), rfl⟩)

theorem ctsCheck_of_le (h : P.bytes ≤ msg.length) (hroom : dst + msg.length ≤ 4096) :
    ctsCheck P dst msg = .ok () :=
  (check_bind_pass _ (decide_eq_true h)).trans (check_eq_ok.mpr (inRange_iff.mpr hroom))

/-- Whole blocks are encrypted as in ECB or CBC, with the stored padding length kept (R411). -/
theorem ctsEnc_of_whole (hB : 0 < P.bytes) (h : msg.length % P.bytes = 0) :
    ctsEnc P plain m msg = blocksEncPlan P plain m (blocksOf P.bytes msg) m.lastPad := by
  unfold ctsEnc blocksEncPlan encRun chainAfter
  rw [length_blocksOf_mul hB h]
  split_ifs
  · rw [ecbCtsEnc, if_pos h, List.map_map, List.map_map]
    rfl
  · rw [cbcCtsEnc, if_pos h]

theorem ctsDec_of_whole (hB : 0 < P.bytes) (h : msg.length % P.bytes = 0) :
    ctsDec P plain m msg = blocksDecPlan P plain m (blocksOf P.bytes msg)
      (.ok (decRun P plain m.chain (blocksOf P.bytes msg)).flatten) := by
  unfold ctsDec blocksDecPlan decRun chainAfter
  rw [length_blocksOf_mul hB h]
  split_ifs
  · rw [ecbCtsDec, if_pos h]
    rfl
  · rw [cbcCtsDec, if_pos h]
    rfl

theorem ctsEnc_of_short (h : msg.length % P.bytes ≠ 0) :
    ctsEnc P plain m msg = stealEncPlan P plain m msg.length (ctsCut P msg) := by
  by_cases hplain : plain
  · simp only [ctsEnc, stealEncPlan, stealInput, stealBlock, encRun, if_pos hplain, List.map_map, ecbCtsEnc, if_neg h]
    rfl
  · simp only [ctsEnc, stealEncPlan, stealInput, stealBlock, encRun, if_neg hplain, cbcCtsEnc, if_neg h]

theorem ctsDec_of_short (h : msg.length % P.bytes ≠ 0) :
    ctsDec P plain m msg = stealDecPlan P plain m msg.length (ctsCut P msg) := by
  by_cases hplain : plain
  · simp only [ctsDec, stealDecPlan, stealDecCalls, stealDecOut, decRun, if_pos hplain, ecbCtsDec, if_neg h]
    rfl
  · simp only [ctsDec, stealDecPlan, stealDecCalls, stealDecOut, decRun, if_neg hplain, cbcCtsDec, if_neg h]
    rfl

end

/-! ## A message with a short last block, cut (R413, R414) -/

section
variable {P : Prim} {B k d : Nat} {msg : List Byte}

theorem mod_ne_zero_of_short (hd : 0 < d) (hdB : d < B) (hlen : msg.length = (k + 1) * B + d) :
    msg.length % B ≠ 0 := by
  rw [hlen, Nat.mul_add_mod_self_right, Nat.mod_eq_of_lt hdB]
  exact Nat.pos_iff_ne_zero.mp hd

theorem length_lastBlock_of_short (hdB : d < B) (hlen : msg.length = (k + 1) * B + d) :
    (block B msg (k + 1)).length = d := by
  rw [block, List.length_take, List.length_drop]
  omega

theorem ctsCut_eq (hd : 0 < d) (hdB : d < P.bytes) (hlen : msg.length = (k + 1) * P.bytes + d) :
    ctsCut P msg = { front := firstBlocks P.bytes msg k, full := block P.bytes msg k,
                     short := block P.bytes msg (k + 1) } := by
  have hblocks : blocksOf P.bytes msg = firstBlocks P.bytes msg (k + 2) := by
    rw [blocksOf_eq_firstBlocks, hlen, ceilDiv_mul_add hd hdB.le]
  have hget (i : Nat) (hi : i < k + 2) : (firstBlocks P.bytes msg (k + 2)).getD i [] = block P.bytes msg i := by
    rw [List.getD_eq_getElem _ _ (by rwa [length_firstBlocks]), getElem_firstBlocks]
  simp only [ctsCut, hblocks, length_firstBlocks, Nat.add_sub_cancel, show k + 2 - 1 = k + 1 from rfl]
  rw [take_firstBlocks (Nat.le_add_right k 2), hget k (by omega), hget (k + 1) (by omega)]

end

end Sys2Proof.Machine

namespace Sys2Proof.Machine

/-! ## What the CTS modes call and write, in the terms of the rules -/

section
variable {P : Prim} {plain : Prop} [Decidable plain] {B k d : Nat} {m : ModeState} {n : Nat} {msg C : List Byte}

/-- The cut of R413 for a message whose last block is its block `k + 1`. -/
abbrev cutAt (B : Nat) (msg : List Byte) (k : Nat) : CtsCut :=
  { front := firstBlocks B msg k, full := block B msg k, short := block B msg (k + 1) }

/-- The inputs of the calls of R413: block by block up to the full block, then the block made from the stolen tail. -/
def ctsInput (P : Prim) (plain : Prop) [Decidable plain] (chain msg C : List Byte) (k i : Nat) : List Byte :=
  if i = k + 1 then
    stealBlock plain P.bytes (block P.bytes msg (k + 1)) (P.enc (encInput plain P.bytes chain msg C k))
  else encInput plain P.bytes chain msg C i

theorem ctsInput_of_le {chain : List Byte} {i : Nat} (hi : i ≤ k) :
    ctsInput P plain chain msg C k i = encInput plain P.bytes chain msg C i := if_neg (by omega)

theorem ctsInput_last {chain : List Byte} : ctsInput P plain chain msg C k (k + 1) =
    stealBlock plain P.bytes (block P.bytes msg (k + 1)) (P.enc (ctsInput P plain chain msg C k k)) := by
  rw [ctsInput_of_le (Nat.le_refl k)]
  exact if_pos rfl

/-- The plan of R413 in terms of the ciphertext `C` of the blocks before the full one. -/
theorem stealEncPlan_cutAt (hP : P.blockSized) (hB : 0 < P.bytes)
    (hC : C = ((encRun P plain m.chain (firstBlocks P.bytes msg k)).map Prod.snd).flatten) :
    stealEncPlan P plain m n (cutAt P.bytes msg k) =
      planOk ((List.range (k + 2)).map fun i => encCall (ctsInput P plain m.chain msg C k i)) n
        (C ++ P.enc (ctsInput P plain m.chain msg C k (k + 1)) ++
          (P.enc (ctsInput P plain m.chain msg C k k)).take (block P.bytes msg (k + 1)).length)
        { m with chain := if plain then m.chain else P.enc (ctsInput P plain m.chain msg C k (k + 1)) } := by
  obtain ⟨-, -, hcalls, hchain⟩ := encRun_spec hP rfl hB hC
  have hfull : stealInput P plain m.chain (cutAt P.bytes msg k) = ctsInput P plain m.chain msg C k k := by
    rw [ctsInput_of_le (Nat.le_refl k)]
    by_cases hplain : plain
    · simp only [stealInput, encInput, if_pos hplain]
    · simp only [chainAfter, if_neg hplain] at hchain
      simp only [stealInput, encInput, if_neg hplain, hchain]
  have hfront : (List.range k).map (fun i => encCall (encInput plain P.bytes m.chain msg C i)) =
      (List.range k).map fun i => encCall (ctsInput P plain m.chain msg C k i) :=
    List.map_congr_left fun i hi => by rw [ctsInput_of_le (List.mem_range.mp hi).le]
  rw [stealEncPlan, hfull, ← ctsInput_last, ← hC, hcalls, hfront]
  simp [List.range_succ]

theorem stealDecCalls_cutAt (P : Prim) (plain : Prop) [Decidable plain] (msg : List Byte) (k : Nat) :
    stealDecCalls P plain (cutAt P.bytes msg k) =
      if plain then (List.range k).map (fun i => decCall (block P.bytes msg i))
        ++ [decCall (block P.bytes msg k), decCall (rebuiltBlock P (cutAt P.bytes msg k))]
      else [decCall (block P.bytes msg k), decCall (rebuiltBlock P (cutAt P.bytes msg k))]
        ++ (List.range k).reverse.map (fun i => decCall (block P.bytes msg i)) := by
  simp only [stealDecCalls, firstBlocks, List.map_map, ← List.map_reverse]
  rfl

theorem length_stealDecCalls (P : Prim) (plain : Prop) [Decidable plain] (x : CtsCut) :
    (stealDecCalls P plain x).length = x.front.length + 2 := by
  unfold stealDecCalls
  split_ifs
  · rw [List.length_append, List.length_map]
    rfl
  · rw [List.length_append, List.length_map, List.length_reverse, Nat.add_comm]
    rfl

theorem stealDecOut_cutAt (P : Prim) (plain : Prop) [Decidable plain] (chain msg : List Byte) (k : Nat) :
    stealDecOut P plain chain (cutAt P.bytes msg k) =
      if plain then ((List.range k).map (decOutput P plain chain msg)).flatten
        ++ P.dec (rebuiltBlock P (cutAt P.bytes msg k))
        ++ (P.dec (block P.bytes msg k)).take (block P.bytes msg (k + 1)).length
      else ((List.range k).map (decOutput P plain chain msg)).flatten
        ++ xorBytes (P.dec (rebuiltBlock P (cutAt P.bytes msg k))) (blockBefore P.bytes chain msg k)
        ++ xorBytes ((P.dec (block P.bytes msg k)).take (block P.bytes msg (k + 1)).length)
          (block P.bytes msg (k + 1)) := by
  rw [stealDecOut, decRun_firstBlocks, lastBlock_firstBlocks]

theorem length_blockBefore {chain : List Byte} {i : Nat} (hchain : chain.length = B) (h : i * B ≤ msg.length) :
    (blockBefore B chain msg i).length = B := by
  cases i with
  | zero => exact hchain
  | succ i => exact length_block h

theorem length_decOutput (hP : P.blockSized) {chain : List Byte} {i : Nat} (hchain : chain.length = P.bytes)
    (h : i * P.bytes ≤ msg.length) : (decOutput P plain chain msg i).length = P.bytes := by
  unfold decOutput
  split_ifs
  · exact (hP _).2
  · rw [xorBytes_length, (hP _).2, length_blockBefore hchain h, Nat.min_self]

theorem length_flatten_decOutput (hP : P.blockSized) {chain : List Byte} (hchain : chain.length = P.bytes)
    (h : k * P.bytes ≤ msg.length) :
    ((List.range k).map (decOutput P plain chain msg)).flatten.length = k * P.bytes := by
  have hsized : ∀ b ∈ (List.range k).map (decOutput P plain chain msg), b.length = P.bytes := by
    intro b hb
    obtain ⟨i, hi, rfl⟩ := List.mem_map.mp hb
    exact length_decOutput hP hchain ((Nat.mul_le_mul_right _ (List.mem_range.mp hi).le).trans h)
  rw [length_flatten_of_blocks hsized, List.length_map, List.length_range]

theorem length_stealEncOut (hP : P.blockSized) (hdB : d < P.bytes) (hlenC : C.length = k * P.bytes) (x y : List Byte) :
    (C ++ P.enc x ++ (P.enc y).take d).length = (k + 1) * P.bytes + d := by
  rw [List.length_append, List.length_append, List.length_take, (hP _).1, (hP _).1, hlenC, Nat.min_eq_left hdB.le,
    Nat.add_mul, Nat.one_mul]

theorem le_of_short (hn : n = (k + 1) * B + d) : B ≤ n := by
  rw [hn, Nat.add_mul, Nat.one_mul]
  omega

/-- A decryption with ciphertext stealing keeps the length. -/
theorem length_stealDecOut (hP : P.blockSized) {chain : List Byte} (hchain : chain.length = P.bytes) (hdB : d < P.bytes)
    (hlen : msg.length = (k + 1) * P.bytes + d) :
    (stealDecOut P plain chain (cutAt P.bytes msg k)).length = msg.length := by
  have hmul : (k + 1) * P.bytes = k * P.bytes + P.bytes := by rw [Nat.add_mul, Nat.one_mul]
  have hfront := length_flatten_decOutput (plain := plain) hP hchain (show k * P.bytes ≤ msg.length by omega)
  have hbefore := length_blockBefore hchain (show k * P.bytes ≤ msg.length by omega)
  have hshort := length_lastBlock_of_short hdB hlen
  rw [stealDecOut_cutAt]
  split_ifs
  · simp only [List.length_append, hfront, (hP _).2, List.length_take, hshort]
    omega
  · simp only [List.length_append, hfront, xorBytes_length, (hP _).2, hbefore, List.length_take, hshort]
    omega

end

/-! ## The commands in the CTS modes -/

section
variable {s : State}

theorem modeField_eq_stealMode (h : modeField s = 2 ∨ modeField s = 3) :
    modeField s = (stealMode (modeField s = 2)).number := by
  rw [stealMode]
  split_ifs with hfield
  · exact hfield
  · exact h.resolve_left hfield

theorem modeOpens_of_stealMode (h : modeField s = 2 ∨ modeField s = 3) (hstate : modeStateOk s)
    (hsource : s.u0 + s.u1 ≤ 4096) :
    ModeOpens s { kind := stealMode (modeField s = 2), cfg := modePadCfg s .none } :=
  modeOpens_of_unpadded hstate hsource (by omega) (modeField_eq_stealMode h)

/-- A CTS command that passes its checks encrypts. -/
theorem modePlan_ctsEnc {P : Prim} (hPB : P.bytes = s.primWidth.bytes) (h : modeField s = 2 ∨ modeField s = 3)
    (hstate : modeStateOk s) (hsource : s.u0 + s.u1 ≤ 4096) (hle : P.bytes ≤ s.u1) (hroom : s.u2 + s.u1 ≤ 4096) :
    encPlan P s = .ok (ctsEnc P (modeField s = 2) s.mode (modeMsg s)) := by
  have hlen := length_modeMsg s
  refine ((modeOpens_of_stealMode h hstate hsource).modePlan_eq hPB).trans (encByMode_stealMode.trans ?_)
  rw [ctsCheck_of_le (hle.trans hlen.ge) (hlen.symm ▸ hroom)]
  rfl

theorem ModeOpens.decPlan_stealMode {P : Prim} {plain : Prop} [Decidable plain] {c : PadCfg}
    (h : ModeOpens s { kind := stealMode plain, cfg := c }) (hPB : P.bytes = s.primWidth.bytes) (hle : P.bytes ≤ s.u1)
    (hroom : s.u2 + s.u1 ≤ 4096) : decPlan P s = .ok (ctsDec P plain s.mode (modeMsg s)) := by
  have hlen := length_modeMsg s
  refine (h.modePlan_eq hPB).trans (decByMode_stealMode.trans ?_)
  rw [ctsCheck_of_le (hle.trans hlen.ge) (hlen.symm ▸ hroom)]
  rfl

/-- A CTS command that passes its checks decrypts. -/
theorem modePlan_ctsDec {P : Prim} (hPB : P.bytes = s.primWidth.bytes) (h : modeField s = 2 ∨ modeField s = 3)
    (hstate : modeStateOk s) (hsource : s.u0 + s.u1 ≤ 4096) (hle : P.bytes ≤ s.u1) (hroom : s.u2 + s.u1 ≤ 4096) :
    decPlan P s = .ok (ctsDec P (modeField s = 2) s.mode (modeMsg s)) :=
  (modeOpens_of_stealMode h hstate hsource).decPlan_stealMode hPB hle hroom

end

/-! ## Settled: the length checks, and ciphertext stealing with a short last block -/

/-- Settles O49: behind the checks of `ModeOpens`, those of each mode in their order. -/
theorem modeLengthRefusals : Obligations.ModeLengthRefusals := by
  intro s hcfg hstate hsource
  have hB := attachedPrim_bytes_pos s.primWidth
  have hlen := length_modeMsg s
  have hopen {sc : PadScheme} (h : modeField s ≤ 1) (hsc : schemeOfCode (s.modeCfg.extractLsb' 4 3) = some sc) :=
    modeOpens_of_padded hcfg hstate hsource h (modeField_eq_blockMode h) hsc
  have henc {x : ModeSample} {code : ErrCode} {sub : BitVec 8} (hx : ModeOpens s x)
      (he : encByMode (attachedPrim s.primWidth) x s.mode s.u2 (modeMsg s) = .error { code := code, sub := sub }) :=
    exec_mode_of_error (i := .modeEnc) (.inl rfl) ((hx.modePlan_eq rfl).trans he)
  have hdec {x : ModeSample} {code : ErrCode} {sub : BitVec 8} (hx : ModeOpens s x)
      (he : decByMode (attachedPrim s.primWidth) x s.mode s.u2 (modeMsg s) = .error { code := code, sub := sub }) :=
    exec_mode_of_error (i := .modeDec) (.inr rfl) ((hx.modePlan_eq rfl).trans he)
  refine ⟨fun h hnone hpart => ?_, fun sc h hsc hwhole hroom => ?_, fun h hpart => ?_, fun h hmod hroom => ?_,
    fun i hi => ⟨fun h hshort => ?_, fun h hle hroom => ?_, fun h hroom => ?_⟩⟩
  · have hsc : schemeOfCode (s.modeCfg.extractLsb' 4 3) = some .none := by
      rw [show s.modeCfg.extractLsb' 4 3 = 0#3 from BitVec.eq_of_toNat_eq hnone]
      rfl
    exact henc (hopen h hsc) (encByMode_of_partial rfl (by rwa [hlen]))
  · exact henc (hopen h hsc)
      (ModePads.encByMode_of_lt (modePads_modeMsg (modePadCfg_legal hcfg h hsc) hwhole) hroom)
  · obtain ⟨sc, hsc⟩ := exists_scheme hcfg h
    exact hdec (hopen h hsc) (decByMode_of_partial hB (by rwa [hlen]))
  · obtain ⟨sc, hsc⟩ := exists_scheme hcfg h
    exact hdec (hopen h hsc) (decByMode_of_lt hB (by rwa [hlen]) (by rwa [hlen]))
  · have hx := modeOpens_of_stealMode h hstate hsource
    have hcheck := ctsCheck_of_short (P := attachedPrim s.primWidth) (dst := s.u2) (msg := modeMsg s) (by rwa [hlen])
    rcases hi with rfl | rfl
    · exact henc hx (encByMode_stealMode.trans (congrArg _ hcheck))
    · exact hdec hx (decByMode_stealMode.trans (congrArg _ hcheck))
  · have hx := modeOpens_of_stealMode h hstate hsource
    have hcheck := ctsCheck_of_lt (P := attachedPrim s.primWidth) (dst := s.u2) (msg := modeMsg s) (by rwa [hlen])
      (by rwa [hlen])
    rcases hi with rfl | rfl
    · exact henc hx (encByMode_stealMode.trans (congrArg _ hcheck))
    · exact hdec hx (decByMode_stealMode.trans (congrArg _ hcheck))
  · have hx : ModeOpens s { kind := .ctr, cfg := _ } := modeOpens_of_unpadded hstate hsource (by omega) h
    have hcheck : ctrXcrypt (attachedPrim s.primWidth) s.mode s.u2 (modeMsg s) = _ :=
      checkRange_bind_fail _ (by rwa [hlen])
    rcases hi with rfl | rfl
    · exact henc hx hcheck
    · exact hdec hx hcheck

/-- Settles O52: the plan of R413 in the terms of the rule is `stealEncPlan_cutAt`. -/
theorem stealingEncrypts : Obligations.StealingEncrypts := by
  intro s m d hfield hstate hsource hroom hlive hm hd hdB hn
  obtain ⟨k, rfl⟩ := Nat.exists_eq_add_of_le' hm
  simp only [Nat.add_sub_cancel, show k + 2 - 1 = k + 1 from rfl] at hn ⊢
  have hB := attachedPrim_bytes_pos s.primWidth
  have hsized := attachedPrim_blockSized s.primWidth
  have hlen : (modeMsg s).length = (k + 1) * s.primWidth.bytes + d := (length_modeMsg s).trans hn
  have hshort := length_lastBlock_of_short hdB hlen
  obtain ⟨C, hC⟩ : ∃ C, C = ((encRun (attachedPrim s.primWidth) (modeField s = 2) s.mode.chain
    (firstBlocks s.primWidth.bytes (modeMsg s) k)).map Prod.snd).flatten := ⟨_, rfl⟩
  obtain ⟨hlenC, hblocks, -, -⟩ := encRun_spec hsized rfl hB hC
  have hplan := modePlan_ctsEnc (P := attachedPrim s.primWidth) rfl hfield hstate hsource (le_of_short hn) hroom
  rw [ctsEnc_of_short (mod_ne_zero_of_short hd hdB hlen), ctsCut_eq hd hdB hlen,
    stealEncPlan_cutAt hsized hB hC, attachedPrim_bytes, hshort] at hplan
  obtain ⟨hexec, hcalls⟩ := exec_mode_of_ok (.inl rfl) hplan rfl hlive
  have hout := (length_stealEncOut hsized hdB hlenC
    (ctsInput (attachedPrim s.primWidth) (modeField s = 2) s.mode.chain (modeMsg s) C k (k + 1))
    (ctsInput (attachedPrim s.primWidth) (modeField s = 2) s.mode.chain (modeMsg s) C k k)).trans hn.symm
  refine ⟨_, C, _, _, ctsInput (attachedPrim s.primWidth) (modeField s = 2) s.mode.chain (modeMsg s) C k, hexec, hlenC,
    fun i hi => ctsInput_of_le hi, fun i hi => ?_, rfl, ?_, rfl, s.holds_moded _ _, hout, s.sameOutside_moded _ hout,
    rfl, hcalls, s.portIdle_moded _ _,
    (s.moded_eq_of_length (m := k + 2) hout ?_).trans ?_⟩
  · rw [ctsInput_of_le hi.le]
    exact hblocks i hi
  · rw [ctsInput_last, stealBlock, attachedPrim_bytes, hshort]
  · exact (List.length_map _).trans List.length_range
  · rfl

/-- Settles O53: the plan of R414 in the terms of the rule is `stealDecCalls_cutAt` and `stealDecOut_cutAt`. -/
theorem stealingDecrypts : Obligations.StealingDecrypts := by
  rintro s m d _ _ _ rebuilt front calls hfield hstate hchain hsource hroom hlive hm hd hdB hn rfl rfl rfl hrebuilt
    hfront rfl
  obtain ⟨k, rfl⟩ := Nat.exists_eq_add_of_le' hm
  simp only [Nat.add_sub_cancel, show k + 2 - 1 = k + 1 from rfl] at hn hrebuilt hfront ⊢
  have hsized := attachedPrim_blockSized s.primWidth
  have hlen : (modeMsg s).length = (k + 1) * s.primWidth.bytes + d := (length_modeMsg s).trans hn
  have hshort := length_lastBlock_of_short hdB hlen
  obtain rfl : rebuilt = rebuiltBlock (attachedPrim s.primWidth) (cutAt s.primWidth.bytes (modeMsg s) k) := by
    rw [hrebuilt, rebuiltBlock, hshort]
  obtain rfl : front = ((List.range k).map
    (decOutput (attachedPrim s.primWidth) (modeField s = 2) s.mode.chain (modeMsg s))).flatten := hfront
  have hplan := modePlan_ctsDec (P := attachedPrim s.primWidth) rfl hfield hstate hsource
    (le_of_short hn) hroom
  rw [ctsDec_of_short (mod_ne_zero_of_short hd hdB hlen), ctsCut_eq hd hdB hlen] at hplan
  obtain ⟨hexec, hcalls⟩ := exec_mode_of_ok (.inr rfl) hplan rfl hlive
  have hout := (length_stealDecOut (plain := modeField s = 2) hsized hchain hdB hlen).trans (length_modeMsg s)
  refine ⟨_, _, hexec, ?_, hout, s.holds_moded _ _, s.sameOutside_moded _ hout, rfl,
    hcalls.trans (stealDecCalls_cutAt _ _ _ _), s.portIdle_moded _ _,
    (s.moded_eq_of_length (m := k + 2) hout ?_).trans ?_⟩
  · rw [stealDecOut_cutAt, attachedPrim_bytes, hshort]
  · exact (length_stealDecCalls _ _ _).trans (congrArg (· + 2) (length_firstBlocks _ _ _))
  · rfl

end Sys2Proof.Machine

namespace Sys2Proof.Machine

/-! ## A CTS command on whole blocks and the plain command (R411, R415) -/

/-- The plan with another padding length stored in the end. -/
def ModePlan.withLastPad (lastPad : BitVec 32) (p : ModePlan) : ModePlan :=
  { p with result := p.result.map fun w => { w with mode := { w.mode with lastPad := lastPad } } }

section
variable {P : Prim} {plain : Prop} [Decidable plain] {c c' : PadCfg} {m : ModeState} {dst : Nat} {msg : List Byte}

theorem blocksDecPlan_withLastPad (P : Prim) (plain : Prop) [Decidable plain] (m : ModeState) (cs : List (List Byte))
    (out : Except CmdError (List Byte)) :
    (blocksDecPlan P plain m cs out).withLastPad m.lastPad = blocksDecPlan P plain m cs out := by
  cases out <;> rfl

/-- On whole blocks `MODE.ENC` in a CTS mode plans what it plans without padding in the plain mode, but for the padding
length that the plain mode stores. -/
theorem ModePads.encByMode_stealMode (h : ModePads c' P.bytes msg) (hnone : c'.scheme = .none) (hne : 0 < msg.length) :
    encByMode P { kind := stealMode plain, cfg := c } m dst msg =
      (encByMode P { kind := blockMode plain, cfg := c' } m dst msg).map (ModePlan.withLastPad m.lastPad) := by
  have hmod := h.whole hnone
  have hle : P.bytes ≤ msg.length := Nat.le_of_dvd hne (Nat.dvd_of_mod_eq_zero hmod)
  have hpadded := h.paddedMessage_of_none hnone
  rw [Machine.encByMode_stealMode]
  by_cases hroom : dst + msg.length ≤ 4096
  · rw [ctsCheck_of_le hle hroom, h.encByMode_of_le (by rwa [hpadded]), hpadded]
    exact congrArg Except.ok (ctsEnc_of_whole h.bytes_pos hmod)
  · rw [ctsCheck_of_lt hle (Nat.lt_of_not_le hroom), h.encByMode_of_lt (by rw [hpadded]; omega)]
    rfl

/-- On whole blocks `MODE.DEC` in a CTS mode plans what it plans without padding in the plain mode. -/
theorem ModePads.decByMode_stealMode (h : ModePads c' P.bytes msg) (hnone : c'.scheme = .none) (hne : 0 < msg.length) :
    decByMode P { kind := stealMode plain, cfg := c } m dst msg =
      (decByMode P { kind := blockMode plain, cfg := c' } m dst msg).map (ModePlan.withLastPad m.lastPad) := by
  have hmod := h.whole hnone
  have hle : P.bytes ≤ msg.length := Nat.le_of_dvd hne (Nat.dvd_of_mod_eq_zero hmod)
  rw [Machine.decByMode_stealMode]
  by_cases hroom : dst + msg.length ≤ 4096
  · have hout := removePad_of_ok (lp := m.lastPad.toNat)
      (unpad_of_none (b := (decRun P plain m.chain (blocksOf P.bytes msg)).flatten) hnone) (Nat.mul_mod_right 8 _)
    rw [Nat.mul_div_cancel_left _ (by decide), List.take_length] at hout
    rw [ctsCheck_of_le hle hroom, decByMode_of_le h.bytes_pos hmod hroom, hout]
    refine congrArg Except.ok ((ctsDec_of_whole h.bytes_pos hmod).trans ?_)
    exact (blocksDecPlan_withLastPad _ _ _ _ _).symm
  · have hlt := Nat.lt_of_not_le hroom
    rw [ctsCheck_of_lt hle hlt, decByMode_of_lt h.bytes_pos hmod hlt]
    rfl

end

/-- A command that runs a plan under another `MODE_CFG` and keeps the stored padding length ends in the same way. -/
theorem runMode_withLastPad {s t : State} {cfg : Word} {r : Except CmdError ModePlan}
    (h : runMode { s with modeCfg := cfg } r = .next t) :
    ∃ u, runMode s (r.map (ModePlan.withLastPad s.mode.lastPad)) = .next u ∧ u.mode.lastPad = s.mode.lastPad ∧
      { u with modeCfg := t.modeCfg, mode := { u.mode with lastPad := t.mode.lastPad } } = t := by
  rcases runMode_cases h with ⟨e, rfl, rfl⟩ | ⟨p, rfl, ha, rfl⟩ | ⟨p, e, rfl, ha, he, rfl⟩ | ⟨p, w, rfl, ha, hw, rfl⟩
  · exact ⟨_, rfl, rfl, rfl⟩
  · exact ⟨_, runMode_waiting (p := p.withLastPad s.mode.lastPad) ha, rfl, rfl⟩
  · refine ⟨s.nextDraw.raise e, ?_, rfl, rfl⟩
    refine (runMode_answered (s := s) (p := p.withLastPad s.mode.lastPad) ha).trans ?_
    rw [ModePlan.withLastPad, he]
    rfl
  · refine ⟨s.moded (p.withLastPad s.mode.lastPad) { w with mode := { w.mode with lastPad := s.mode.lastPad } },
      runMode_of_ok rfl ?_ ha, rfl, rfl⟩
    rw [ModePlan.withLastPad, hw]
    rfl

/-- The plan of a CTS command, from that of the plain command without padding on the same whole blocks. -/
theorem modePlan_stealMode {i : Instr} {s : State} {cfg : Word} (hfield : modeField s = 2 ∨ modeField s = 3)
    (hcfg : cfg = if modeField s = 2 then 0#32 else 1#32) (hne : 0 < s.arg1.toNat)
    (hmod : s.arg1.toNat % s.primWidth.bytes = 0) :
    modePlan (attachedPrim s.primWidth) (byModeOf i) s =
      (modePlan (attachedPrim s.primWidth) (byModeOf i) { s with modeCfg := cfg }).map
        (ModePlan.withLastPad s.mode.lastPad) := by
  have hcode : schemeOfCode (cfg.extractLsb' 4 3) = some .none := by rw [hcfg]; split_ifs <;> decide
  have hnumber : modeField { s with modeCfg := cfg } = (blockMode (modeField s = 2)).number := by
    rw [hcfg, blockMode]; split_ifs <;> rfl
  have hle : modeField { s with modeCfg := cfg } ≤ 1 := by
    rw [hnumber, blockMode]; split_ifs <;> decide
  have hpad : padField { s with modeCfg := cfg } = 0 := by
    show (cfg.extractLsb' 4 3).toNat = 0
    rw [hcfg]; split_ifs <;> decide
  have hcfgOk : modeConfigOk { s with modeCfg := cfg } :=
    ⟨hle.trans (by decide), fun _ => by rw [hpad]; exact ⟨by decide, fun h => by omega, fun h => by omega⟩⟩
  have hplain := (modeSample_of_padded hle hnumber hcode).trans (if_pos (fieldFits_of_modeConfigOk hcfgOk hle hcode))
  have hpads := modePads_modeMsg (s := { s with modeCfg := cfg }) (modePadCfg_legal hcfgOk hle hcode) fun _ => hmod
  have hlen : 0 < (modeMsg s).length := (length_modeMsg s).symm ▸ hne
  have hstate : modeStateCheck (stealMode (modeField s = 2)) s.mode =
      modeStateCheck (blockMode (modeField s = 2)) s.mode := by
    rw [stealMode, blockMode]; split_ifs <;> rfl
  rw [modePlan_of_sample rfl (modeSample_of_unpadded (by omega) (modeField_eq_stealMode hfield)),
    modePlan_of_sample (s := { s with modeCfg := cfg }) rfl hplain]
  dsimp only
  rw [hstate]
  cases modeStateCheck (blockMode (modeField s = 2)) s.mode with
  | error e => rfl
  | ok u =>
    show (checkRange s.u0 s.u1 >>= _) = Except.map _ (checkRange s.u0 s.u1 >>= _)
    cases checkRange s.u0 s.u1 with
    | error e => rfl
    | ok u =>
      cases i
      case modeDec => exact ModePads.decByMode_stealMode (P := attachedPrim s.primWidth) hpads rfl hlen
      all_goals exact ModePads.encByMode_stealMode (P := attachedPrim s.primWidth) hpads rfl hlen

/-! ## Settled: ciphertext stealing on whole blocks -/

/-- Settles O54: the two plans differ in the stored padding length alone. -/
theorem stealingOfWholeBlocksIsPlain : Obligations.StealingOfWholeBlocksIsPlain := by
  intro i s t hi hfield hne hmod h
  rw [exec_mode hi] at h
  rw [exec_mode hi, modePlan_stealMode hfield rfl hne hmod]
  exact runMode_withLastPad h

end Sys2Proof.Machine

namespace Sys2Proof.Machine

/-! ## Exclusive or over longer strings -/

theorem xorBytes_take (a b : List Byte) : xorBytes a (b.take a.length) = xorBytes a b := by
  induction a generalizing b with
  | nil => rfl
  | cons x a ih =>
    cases b with
    | nil => rfl
    | cons y b => exact congrArg (_ :: ·) (ih b)

theorem block_xorBytes (B : Nat) (a b : List Byte) (i : Nat) :
    block B (xorBytes a b) i = xorBytes (block B a i) (block B b i) := by
  rw [block, xorBytes, List.drop_zipWith, List.take_zipWith]
  rfl

/-- What begins one string xors, with what begins another, to the beginning of the exclusive or. -/
theorem xorBytes_prefix {a a' b b' : List Byte} (ha : a <+: a') (hb : b <+: b') (hle : a.length ≤ b.length) :
    xorBytes a b <+: xorBytes a' b' := by
  obtain ⟨x, rfl⟩ := ha
  obtain ⟨y, rfl⟩ := hb
  have htake : (xorBytes (a ++ x) (b ++ y)).take a.length = xorBytes a b := by
    rw [xorBytes, List.take_zipWith, List.take_left, List.take_append_of_le_length hle]
    exact xorBytes_take a b
  exact htake ▸ List.take_prefix _ _

/-! ## The counter and the keystream (R431, R435) -/

/-- The counter value of block `k` of a run that begins at `c`. -/
def ctrAt (P : Prim) (c k : Nat) : Nat := (ctrNext P)^[k] c

/-- The answers of the primitive for the first `k` counter blocks, one after another. -/
def keystream (P : Prim) (nonce : List Byte) (c k : Nat) : List Byte :=
  ((List.range k).map fun i => P.enc (ctrBlock P nonce (ctrAt P c i))).flatten

/-- The output of `CtrXcrypt`: the message with its keystream (R435). -/
def ctrOut (P : Prim) (m : ModeState) (msg : List Byte) : List Byte :=
  xorBytes msg (keystream P m.nonce m.ctr (ceilDiv msg.length P.bytes))

/-- The writes of `CtrXcrypt`. -/
def ctrWrite (P : Prim) (m : ModeState) (msg : List Byte) : ModeWrite where
  out := ctrOut P m msg
  mode := { m with ctr := ctrAt P m.ctr (ceilDiv msg.length P.bytes) }

/-- The plan of `CtrXcrypt`. -/
def ctrPlan (P : Prim) (m : ModeState) (msg : List Byte) : ModePlan where
  calls := (List.range (ceilDiv msg.length P.bytes)).map fun i => encCall (ctrBlock P m.nonce (ctrAt P m.ctr i))
  room := msg.length
  result := .ok (ctrWrite P m msg)

section
variable {P : Prim} {nonce msg : List Byte} {c k : Nat}

/-- Within its width the counter counts blocks modulo its width. -/
theorem ctrAt_eq (hc : c < 2 ^ (8 * P.half)) (k : Nat) : ctrAt P c k = (c + k) % 2 ^ (8 * P.half) := by
  induction k with
  | zero => exact (Nat.mod_eq_of_lt hc).symm
  | succ k ih =>
    rw [ctrAt, Function.iterate_succ_apply', ← ctrAt, ih, ctrNext, Nat.mod_add_mod, Nat.add_assoc]

theorem ctrWalk_eq (P : Prim) (c : Nat) (bs : List (List Byte)) :
    ctrWalk P c bs = (((List.range bs.length).map (ctrAt P c)).zip bs, ctrAt P c bs.length) := by
  induction bs generalizing c with
  | nil => rfl
  | cons b bs ih =>
    rw [ctrWalk, ih, List.length_cons, List.range_succ_eq_map, List.map_cons, List.map_map]
    rfl

theorem ctrWalk_firstBlocks (P : Prim) (c B : Nat) (x : List Byte) (k : Nat) :
    ctrWalk P c (firstBlocks B x k) = ((List.range k).map fun i => (ctrAt P c i, block B x i), ctrAt P c k) := by
  rw [ctrWalk_eq, length_firstBlocks, firstBlocks, List.zip_map']

theorem length_keystream (hP : P.blockSized) (nonce : List Byte) (c k : Nat) :
    (keystream P nonce c k).length = k * P.bytes := by
  rw [keystream, length_flatten_of_blocks (B := P.bytes), List.length_map, List.length_range]
  rintro b hb
  obtain ⟨i, -, rfl⟩ := List.mem_map.mp hb
  exact (hP _).1

theorem block_keystream (hP : P.blockSized) (hB : 0 < P.bytes) (nonce : List Byte) (c : Nat) {i : Nat} (hi : i < k) :
    block P.bytes (keystream P nonce c k) i = P.enc (ctrBlock P nonce (ctrAt P c i)) := by
  rw [keystream, block_flatten hB ?_ (by rwa [List.length_map, List.length_range]), List.getElem_map,
    List.getElem_range]
  rintro b hb
  obtain ⟨i, -, rfl⟩ := List.mem_map.mp hb
  exact (hP _).1

theorem keystream_prefix (P : Prim) (nonce : List Byte) (c : Nat) {k k' : Nat} (h : k ≤ k') :
    keystream P nonce c k <+: keystream P nonce c k' := by
  obtain ⟨j, rfl⟩ := Nat.exists_eq_add_of_le h
  rw [keystream, keystream, List.range_add, List.map_append, List.flatten_append]
  exact List.prefix_append _ _

theorem length_le_keystream (hP : P.blockSized) (hB : 0 < P.bytes) (nonce : List Byte) (c : Nat) (msg : List Byte) :
    msg.length ≤ (keystream P nonce c (ceilDiv msg.length P.bytes)).length := by
  rw [length_keystream hP]
  exact le_ceilDiv_mul hB _

theorem length_ctrOut (hP : P.blockSized) (hB : 0 < P.bytes) (m : ModeState) (msg : List Byte) :
    (ctrOut P m msg).length = msg.length := by
  rw [ctrOut, xorBytes_length, Nat.min_eq_left (length_le_keystream hP hB m.nonce m.ctr msg)]

/-- Block by block, the output is the message with the keystream (R435). -/
theorem flatten_ctr_blocks (hP : P.blockSized) (hB : 0 < P.bytes) (m : ModeState) (msg : List Byte) :
    ((List.range (ceilDiv msg.length P.bytes)).map fun i =>
      xorBytes (block P.bytes msg i) (P.enc (ctrBlock P m.nonce (ctrAt P m.ctr i)))).flatten = ctrOut P m msg := by
  have hjoin := flatten_blocksOf hB (ctrOut P m msg)
  rw [blocksOf_eq_firstBlocks, length_ctrOut hP hB, firstBlocks] at hjoin
  rw [← hjoin]
  refine congrArg List.flatten (List.map_congr_left fun i hi => ?_)
  rw [ctrOut, block_xorBytes, block_keystream hP hB m.nonce m.ctr (List.mem_range.mp hi)]

theorem ctrXcrypt_eq (hP : P.blockSized) (hB : 0 < P.bytes) {m : ModeState} {dst : Nat}
    (hroom : dst + msg.length ≤ 4096) : ctrXcrypt P m dst msg = .ok (ctrPlan P m msg) := by
  refine (checkRange_bind_pass _ hroom).trans ?_
  dsimp only
  simp only [blocksOf_eq_firstBlocks, ctrWalk_firstBlocks, List.map_map, Function.comp_def, xorBytes_take,
    flatten_ctr_blocks hP hB]
  rfl

/-- CTR applied to its own output, from the same counter, gives the message back (R437 (a)). -/
theorem ctrOut_ctrOut (hP : P.blockSized) (hB : 0 < P.bytes) {m m' : ModeState} (hnonce : m'.nonce = m.nonce)
    (hctr : m'.ctr = m.ctr) (msg : List Byte) : ctrOut P m' (ctrOut P m msg) = msg := by
  rw [ctrOut, length_ctrOut hP hB, hnonce, hctr, ctrOut]
  exact xorBytes_xorBytes _ _ (length_le_keystream hP hB m.nonce m.ctr msg)

/-- The ciphertext of a beginning is the beginning of the ciphertext (R437 (b), (c)). -/
theorem ctrOut_prefix (hP : P.blockSized) (hB : 0 < P.bytes) {m m' : ModeState} (hnonce : m'.nonce = m.nonce)
    (hctr : m'.ctr = m.ctr) {msg msg' : List Byte} (h : msg <+: msg') : ctrOut P m msg <+: ctrOut P m' msg' := by
  rw [ctrOut, ctrOut, hnonce, hctr]
  refine xorBytes_prefix h (keystream_prefix P m.nonce m.ctr ?_) (length_le_keystream hP hB m.nonce m.ctr msg)
  exact Nat.div_le_div_right (by have := h.length_le; omega)

end

/-- A MODE command in CTR that passes its checks. -/
theorem modePlan_ctr {i : Instr} {P : Prim} {s : State} (hi : i = .modeEnc ∨ i = .modeDec) (hP : P.blockSized)
    (hB : 0 < P.bytes) (hPB : P.bytes = s.primWidth.bytes) (hfield : modeField s = 4) (hvalid : s.mode.ctrValid = true)
    (hsource : s.u0 + s.u1 ≤ 4096) (hroom : s.u2 + s.u1 ≤ 4096) :
    modePlan P (byModeOf i) s = .ok (ctrPlan P s.mode (modeMsg s)) := by
  have hstate : modeStateOk s := ⟨fun h => by omega, fun _ => hvalid⟩
  have hopen := modeOpens_of_unpadded (kind := .ctr) hstate hsource (by omega) hfield
  have hplan := ctrXcrypt_eq (m := s.mode) (dst := s.u2) (msg := modeMsg s) hP hB (by rwa [length_modeMsg])
  rcases hi with rfl | rfl
  · exact (hopen.modePlan_eq hPB).trans hplan
  · exact (hopen.modePlan_eq hPB).trans hplan

/-- The state after MODE.ENC or MODE.DEC in CTR. -/
def State.ctrDone (s : State) : State :=
  s.moded (ctrPlan (attachedPrim s.primWidth) s.mode (modeMsg s))
    (ctrWrite (attachedPrim s.primWidth) s.mode (modeMsg s))

theorem exec_ctr {i : Instr} {s : State} (hi : i = .modeEnc ∨ i = .modeDec) (hfield : modeField s = 4)
    (hvalid : s.mode.ctrValid = true) (hsource : s.u0 + s.u1 ≤ 4096) (hroom : s.u2 + s.u1 ≤ 4096)
    (hlive : primLive i s) :
    exec i s = .next s.ctrDone ∧
      callsOf i s = (ctrPlan (attachedPrim s.primWidth) s.mode (modeMsg s)).calls :=
  exec_mode_of_ok hi (modePlan_ctr hi (attachedPrim_blockSized _) (attachedPrim_bytes_pos _) rfl hfield hvalid hsource
    hroom) rfl hlive

theorem length_ctrOut_modeMsg (s : State) :
    (ctrOut (attachedPrim s.primWidth) s.mode (modeMsg s)).length = s.u1 :=
  (length_ctrOut (attachedPrim_blockSized _) (attachedPrim_bytes_pos _) _ _).trans (length_modeMsg s)

theorem State.holds_ctrDone (s : State) :
    holds s.ctrDone s.u2 (ctrOut (attachedPrim s.primWidth) s.mode (modeMsg s)) := s.holds_moded _ _

theorem State.ctrDone_eq_outside (s : State) :
    { s.ctrDone with dbuf := s.dbuf, draws := s.draws, port := s.port } =
      { s with
        busy := false, done := true, result0 := s.arg1,
        result1 := BitVec.ofNat 32 (ceilDiv (modeMsg s).length (attachedPrim s.primWidth).bytes),
        mode := (ctrWrite (attachedPrim s.primWidth) s.mode (modeMsg s)).mode } :=
  s.moded_eq_of_length (length_ctrOut_modeMsg s) ((List.length_map _).trans List.length_range)

@[simp] theorem State.moded_mode (s : State) (p : ModePlan) (w : ModeWrite) : (s.moded p w).mode = w.mode := rfl
@[simp] theorem State.moded_modeCfg (s : State) (p : ModePlan) (w : ModeWrite) :
    (s.moded p w).modeCfg = s.modeCfg := rfl
@[simp] theorem State.moded_primWidth (s : State) (p : ModePlan) (w : ModeWrite) :
    (s.moded p w).primWidth = s.primWidth := rfl
@[simp] theorem State.moded_result0 (s : State) (p : ModePlan) (w : ModeWrite) :
    (s.moded p w).result0 = BitVec.ofNat 32 w.out.length := rfl
@[simp] theorem State.moded_arg1 (s : State) (p : ModePlan) (w : ModeWrite) : (s.moded p w).arg1 = s.arg1 := rfl
@[simp] theorem State.moded_err (s : State) (p : ModePlan) (w : ModeWrite) : (s.moded p w).err = s.err := rfl

/-- What a MODE command wrote is the message of the next one that reads there. -/
theorem modeMsg_of_holds {v : State} {a : Word} {b : List Byte} (h : holds v a.toNat b) (hat : v.arg0 = a)
    (hlen : b.length = v.u1) : modeMsg v = b := by
  rw [modeMsg, show v.arg1.toNat = b.length from hlen.symm, hat]
  exact memRead_of_holds h

/-! ## Settled: CTR -/

/-- Settles O55: the plan of both commands, with the counter's values and the output block by block. -/
theorem ctrEncryptsAndDecrypts : Obligations.CtrEncryptsAndDecrypts := by
  intro i s m ctrBlk hi hfield hvalid hctr hsource hroom hlive hm hblk
  obtain rfl : m = ceilDiv (modeMsg s).length (attachedPrim s.primWidth).bytes := by rw [length_modeMsg]; exact hm
  obtain rfl : ctrBlk = fun k => ctrBlock (attachedPrim s.primWidth) s.mode.nonce
      (ctrAt (attachedPrim s.primWidth) s.mode.ctr k) := by
    funext k
    rw [hblk, ctrAt_eq hctr]
    rfl
  obtain ⟨hexec, hcalls⟩ := exec_ctr hi hfield hvalid hsource hroom hlive
  refine ⟨_, _, hexec,
    (flatten_ctr_blocks (attachedPrim_blockSized _) (attachedPrim_bytes_pos _) s.mode (modeMsg s)).symm,
    length_ctrOut_modeMsg s, s.holds_ctrDone, s.sameOutside_moded _ (length_ctrOut_modeMsg s), rfl, hcalls,
    s.portIdle_moded _ _, s.ctrDone_eq_outside.trans ?_⟩
  rw [← show 8 * (attachedPrim s.primWidth).half = 8 * s.primWidth.halfBytes from rfl, ← ctrAt_eq hctr]
  rfl

/-- The state after CTR.RESET (R434). -/
def State.ctrWound (s : State) : State := completed { s with mode := { s.mode with ctr := s.mode.ctrInit } }

theorem exec_ctrReset (s : State) : exec .ctrReset s = .next s.ctrWound :=
  finish_ok s { s with mode := { s.mode with ctr := s.mode.ctrInit } }

/-- What CTR.RESET after a command in CTR leaves for the next command. -/
theorem State.ctrWound_ctrDone (s : State) :
    holds s.ctrDone.ctrWound s.u2 (ctrOut (attachedPrim s.primWidth) s.mode (modeMsg s)) ∧
      s.ctrDone.ctrWound.mode = { s.mode with ctr := s.mode.ctrInit } ∧
      s.ctrDone.ctrWound.modeCfg = s.modeCfg ∧ s.ctrDone.ctrWound.primWidth = s.primWidth ∧
      s.ctrDone.ctrWound.arg1 = s.arg1 ∧ s.ctrDone.ctrWound.err = s.err := by
  refine ⟨s.holds_ctrDone, ?_, ?_, ?_, ?_, ?_⟩ <;> simp [State.ctrWound, completed, State.ctrDone, ctrWrite]

/-- A state in CTR with the primitive, nonce and counter value of `s` decrypts what `s` encrypted (R437 (a)). -/
theorem holds_ctrDone_of_holds {s v : State} {a : Word} (hwidth : v.primWidth = s.primWidth)
    (hnonce : v.mode.nonce = s.mode.nonce) (hctr : v.mode.ctr = s.mode.ctr)
    (h : holds v a.toNat (ctrOut (attachedPrim s.primWidth) s.mode (modeMsg s))) (hat : v.arg0 = a)
    (hlen : v.arg1 = s.arg1) : holds v.ctrDone v.u2 (modeMsg s) := by
  have hread : modeMsg v = ctrOut (attachedPrim s.primWidth) s.mode (modeMsg s) :=
    modeMsg_of_holds h hat ((length_ctrOut_modeMsg s).trans (congrArg BitVec.toNat hlen.symm))
  have hholds := v.holds_ctrDone
  rwa [hread, hwidth, ctrOut_ctrOut (attachedPrim_blockSized _) (attachedPrim_bytes_pos _) hnonce hctr] at hholds

/-- Settles O60: encryption and decryption are both the exclusive or with the keystream, which the nonce and the counter
alone determine and which a longer message only prolongs. -/
theorem counterModeLaws : Obligations.CounterModeLaws := by
  refine ⟨fun s hfield hvalid hinit hsource hroom hlive => ?reproduces, fun s s' hfield hfield' hvalid hvalid' hwidth
    hnonce hctr hsource hroom hsource' hroom' hlive hlive' hprefix => ?begins⟩
  case reproduces =>
    refine ⟨_, _, (exec_ctr (.inl rfl) hfield hvalid hsource hroom hlive).1, exec_ctrReset _, rfl, rfl,
      fun dst q v hdst hv hlive' => ?_⟩
    obtain ⟨hholds, hmode, hcfg, hwidth, harg1, herr⟩ := s.ctrWound_ctrDone
    generalize s.ctrDone.ctrWound = r at hv hholds hmode hcfg hwidth harg1 herr
    subst hv
    refine ⟨_, (exec_ctr (.inr rfl) ?_ ?_ ?_ ?_ hlive').1, herr, rfl,
      holds_ctrDone_of_holds hwidth ?_ ?_ hholds rfl harg1⟩
    · rw [← hfield, modeField, modeField, hcfg]
    · exact (congrArg ModeState.ctrValid hmode).trans hvalid
    · exact harg1 ▸ hroom
    · exact harg1 ▸ hdst
    · exact (congrArg ModeState.nonce hmode :)
    · exact (congrArg ModeState.ctr hmode).trans hinit.symm
  case begins =>
    refine ⟨_, _, _, _, (exec_ctr (.inl rfl) hfield hvalid hsource hroom hlive).1,
      (exec_ctr (.inl rfl) hfield' hvalid' hsource' hroom' hlive').1, length_ctrOut_modeMsg s,
      length_ctrOut_modeMsg s', s.holds_ctrDone, s'.holds_ctrDone, ?_⟩
    rw [← hwidth]
    exact ctrOut_prefix (attachedPrim_blockSized _) (attachedPrim_bytes_pos _) hnonce.symm hctr.symm hprefix

end Sys2Proof.Machine

namespace Sys2Proof.Machine

/-! ## Decryption undoes encryption, block by block (R408, R410) -/

section
variable {P : Prim} {plain : Prop} [Decidable plain] {chain x : List Byte} {ps : List (List Byte)}

theorem cbcUnchain_cbcChain (hP : P.blockSized) (hinv : P.inverse) (hchain : chain.length = P.bytes)
    (hps : ∀ p ∈ ps, p.length = P.bytes) : cbcUnchain P chain ((cbcChain P chain ps).map Prod.snd) = ps := by
  induction ps generalizing chain with
  | nil => rfl
  | cons p ps ih =>
    obtain ⟨hp, hps⟩ := List.forall_mem_cons.mp hps
    have hfirst : xorBytes (P.dec (P.enc (xorBytes p chain))) chain = p := by
      rw [hinv _ (by rw [xorBytes_length, hp, hchain, Nat.min_self]), xorBytes_xorBytes _ _ (by omega)]
    exact congrArg₂ List.cons hfirst (ih (hP _).1 hps)

theorem decRun_encRun (hP : P.blockSized) (hinv : P.inverse) (hchain : chain.length = P.bytes)
    (hps : ∀ p ∈ ps, p.length = P.bytes) :
    decRun P plain chain ((encRun P plain chain ps).map Prod.snd) = ps := by
  unfold decRun encRun
  split_ifs with hplain
  · rw [List.map_map, List.map_map]
    exact (List.map_congr_left fun p hp => hinv p (hps p hp)).trans (List.map_id ps)
  · exact cbcUnchain_cbcChain hP hinv hchain hps

end

/-! ## A command that reads what the one before it wrote -/

/-- `r` is ready to decrypt what the writes `w` of a command at `s` have left, to `dst`, with the port at `q`. -/
structure Rereads (s : State) (w : ModeWrite) (dst : Word) (q : PrimPort) (r : State) : Prop where
  msg : modeMsg r = w.out
  source : r.arg0 = s.arg2
  len : r.u1 = w.out.length
  dst : r.arg2 = dst
  cfg : r.modeCfg = s.modeCfg
  width : r.primWidth = s.primWidth
  mode : r.mode = { w.mode with chain := s.mode.chain }
  err : r.err = s.err
  port : r.port = q

theorem rereads_moded {s r : State} {p : ModePlan} {w : ModeWrite} {len dst : Word} {q : PrimPort}
    (hr : r = { s.moded p w with arg0 := s.arg2, arg1 := len, arg2 := dst, port := q,
                                 mode := { (s.moded p w).mode with chain := s.mode.chain } })
    (hlen : len.toNat = w.out.length) : Rereads s w dst q r := by
  have hholds := s.holds_moded p w
  have hcfg := s.moded_modeCfg p w
  have hwidth := s.moded_primWidth p w
  have hmode := s.moded_mode p w
  have herr := s.moded_err p w
  generalize s.moded p w = t at hr hholds hcfg hwidth hmode herr
  subst hr
  exact ⟨modeMsg_of_holds hholds rfl hlen.symm, rfl, hlen, rfl, hcfg, hwidth, by rw [hmode], herr, rfl⟩

section
variable {P : Prim} {s r : State} {w : ModeWrite} {dst : Word} {q : PrimPort} {x : ModeSample}

theorem modeStateCheck_congr {kind : ModeKind} {m m' : ModeState} (hiv : m'.ivValid = m.ivValid)
    (hctr : m'.ctrValid = m.ctrValid) : modeStateCheck kind m' = modeStateCheck kind m := by
  cases kind <;> simp only [modeStateCheck, hiv, hctr]

/-- The second command passes the checks that the first one passed. -/
theorem Rereads.modeOpens (h : Rereads s w dst q r) (hopen : ModeOpens s x) (hiv : w.mode.ivValid = s.mode.ivValid)
    (hctr : w.mode.ctrValid = s.mode.ctrValid) (hroom : s.u2 + w.out.length ≤ 4096) : ModeOpens r x where
  sample := by rw [h.cfg, h.width]; exact hopen.sample
  state := by rw [h.mode, ← hopen.state]; exact modeStateCheck_congr hiv hctr
  source := by rw [State.u0, h.source, h.len]; exact hroom

/-- How the second command ends, where its plan `p` writes as many bytes as the first one read. -/
theorem Rereads.runMode_eq (h : Rereads s w dst q r) {p : ModePlan} {w' : ModeWrite} (hplan : decPlan P r = .ok p)
    (hw : p.result = .ok w') (hlive : q.answeredAll (plannedCalls (decPlan P r)) = true) (hlen : w'.out.length = s.u1) :
    ∃ u, runMode r (decPlan P r) = .next u ∧ u.err = s.err ∧ u.busy = false ∧ u.result0 = s.arg1 ∧
      holds u dst.toNat w'.out := by
  refine ⟨_, runMode_of_ok hplan hw (h.port.symm ▸ hlive), h.err, rfl, ?_, h.dst ▸ r.holds_moded p w'⟩
  rw [State.moded_result0, hlen, BitVec.ofNat_toNat, BitVec.setWidth_eq]

end

/-! ## ECB and CBC -/

section
variable {P : Prim} {plain : Prop} [Decidable plain] {c : PadCfg} {B : Nat} {msg : List Byte} {s : State} {p : ModePlan}

/-- A padded message begins with the message (R403). -/
theorem ModePads.prefix_paddedMessage (h : ModePads c B msg) : msg <+: paddedMessage c B msg := by
  by_cases hnone : c.scheme = .none
  · rw [h.paddedMessage_of_none hnone]
  · have htail := length_drop_wholeBlocks (streamBits msg) c.blockBits
    obtain ⟨⟨pad, hpad⟩, -⟩ := padTail_blocks (p := 8 * msg.length) h.legal
      (htail ▸ Nat.mod_lt _ h.paddable.blockBits_pos) (htail ▸ h.paddable.bytes) hnone
    rw [paddedMessage_eq h.bits, paddedBits_eq hpad.symm, packBits_append _ _ (length_streamBits _),
      packBits_streamBits]
    exact List.prefix_append _ _

/-- Removing the padding of a padded message gives the message back. -/
theorem ModePads.removePad_eq (h : ModePads c B msg) :
    removePad c (BitVec.ofNat 32 (8 * (paddedMessage c B msg).length - 8 * msg.length)).toNat (paddedMessage c B msg) =
      .ok msg := by
  rw [removePad_of_ok h.unpad_eq (Nat.mul_mod_right 8 _), Nat.mul_div_cancel_left _ (by decide),
    ← List.prefix_iff_eq_take.mp h.prefix_paddedMessage]

/-- What ECB or CBC samples is a legal configuration (R401). -/
theorem ModeOpens.blockMode {x : ModeSample} (h : ModeOpens s x) (hfield : modeField s ≤ 1) :
    ∃ sc, x = { kind := blockMode (modeField s = 0), cfg := modePadCfg s sc } ∧ (modePadCfg s sc).legal = true := by
  have hpad : padField s ≠ 7 := fun hpad => by
    have hsample := h.sample
    rw [modeSample_of_badPad hfield hpad] at hsample
    cases hsample
  obtain ⟨sc, hsc⟩ := Option.ne_none_iff_exists'.mp (mt schemeOfCode_eq_none_iff.mp hpad)
  have hsample := h.sample
  rw [modeSample_of_padded hfield (modeField_eq_blockMode hfield) hsc] at hsample
  split_ifs at hsample with hfits
  cases hsample
  exact ⟨sc, rfl, modePadCfg_legal_of_fieldFits hfits⟩

/-- An encryption in ECB or CBC that passes its checks. -/
theorem encPlan_eq_ok (hPB : P.bytes = s.primWidth.bytes) (hfield : modeField s ≤ 1) (h : encPlan P s = .ok p) :
    ∃ c, ModeOpens s { kind := blockMode (modeField s = 0), cfg := c } ∧ ModePads c P.bytes (modeMsg s) ∧
      s.u2 + (paddedMessage c P.bytes (modeMsg s)).length ≤ 4096 ∧
      p = blocksEncPlan P (modeField s = 0) s.mode (blocksOf P.bytes (paddedMessage c P.bytes (modeMsg s)))
        (BitVec.ofNat 32 (8 * (paddedMessage c P.bytes (modeMsg s)).length - 8 * (modeMsg s).length)) := by
  obtain ⟨x, hopen, -⟩ := modeOpens_of_modePlan hPB h
  obtain ⟨sc, rfl, hlegal⟩ := hopen.blockMode hfield
  have hplan := (hopen.modePlan_eq hPB).symm.trans h
  have hpads : ModePads (modePadCfg s sc) P.bytes (modeMsg s) := by
    refine ⟨hlegal, by rw [hPB]; exact (eight_mul_bytes _).symm, fun hnone => ?_⟩
    by_contra hpart
    rw [encByMode_of_partial hnone hpart] at hplan
    cases hplan
  have hroom : s.u2 + (paddedMessage (modePadCfg s sc) P.bytes (modeMsg s)).length ≤ 4096 := by
    by_contra hroom
    rw [hpads.encByMode_of_lt (Nat.lt_of_not_le hroom)] at hplan
    cases hplan
  rw [hpads.encByMode_of_le hroom] at hplan
  exact ⟨_, hopen, hpads, hroom, (Except.ok.inj hplan).symm⟩

/-- The ciphertext blocks of the padded message. -/
def paddedCipher (P : Prim) (plain : Prop) [Decidable plain] (c : PadCfg) (chain msg : List Byte) : List (List Byte) :=
  (encRun P plain chain (blocksOf P.bytes (paddedMessage c P.bytes msg))).map Prod.snd

theorem length_of_mem_paddedCipher (hP : P.blockSized) {chain : List Byte} :
    ∀ b ∈ paddedCipher P plain c chain msg, b.length = P.bytes := length_of_mem_encRun hP

theorem ModePads.length_paddedCipher (h : ModePads c P.bytes msg) (hP : P.blockSized) (chain : List Byte) :
    (paddedCipher P plain c chain msg).flatten.length = (paddedMessage c P.bytes msg).length := by
  rw [length_flatten_of_blocks (length_of_mem_paddedCipher hP), paddedCipher, List.length_map, length_encRun,
    length_blocksOf_mul h.bytes_pos h.length_mod]

/-- Decrypting the ciphertext of a padded message, from the same chain value, gives the message. -/
theorem ModePads.decByMode_paddedCipher (h : ModePads c P.bytes msg) (hP : P.blockSized) (hinv : P.inverse)
    {m : ModeState} {dst : Nat} (hchain : m.chain.length = P.bytes)
    (hpad : m.lastPad = BitVec.ofNat 32 (8 * (paddedMessage c P.bytes msg).length - 8 * msg.length))
    (hroom : dst + (paddedMessage c P.bytes msg).length ≤ 4096) :
    decByMode P { kind := blockMode plain, cfg := c } m dst (paddedCipher P plain c m.chain msg).flatten =
      .ok (blocksDecPlan P plain m (paddedCipher P plain c m.chain msg) (.ok msg)) := by
  have hlen := h.length_paddedCipher (plain := plain) hP m.chain
  have hblocks : ∀ b ∈ blocksOf P.bytes (paddedMessage c P.bytes msg), b.length = P.bytes := by
    rw [blocksOf_of_mod h.bytes_pos h.length_mod]
    exact length_of_mem_firstBlocks (Nat.div_mul_le_self _ _)
  have hrun : decRun P plain m.chain (paddedCipher P plain c m.chain msg) =
      blocksOf P.bytes (paddedMessage c P.bytes msg) := decRun_encRun hP hinv hchain hblocks
  rw [decByMode_of_le h.bytes_pos (hlen.symm ▸ h.length_mod) (hlen.symm ▸ hroom),
    blocksOf_flatten h.bytes_pos (length_of_mem_paddedCipher hP), hrun, flatten_blocksOf h.bytes_pos, hpad,
    h.removePad_eq]

end

/-- Settles O58: the second command finds the encrypted blocks of the padded message, decrypts them to that message and
removes its padding. -/
theorem ecbAndCbcRoundTrip : Obligations.EcbAndCbcRoundTrip := by
  intro P s t hPB hP hinv hfield hchain herr hlive hrun hterr dst q r hdst hr hlive'
  obtain ⟨p, hplan⟩ : ∃ p, encPlan P s = .ok p := by
    cases hplan : encPlan P s with
    | error e =>
      rw [hplan] at hrun
      cases hrun
      cases hterr
    | ok p => exact ⟨p, rfl⟩
  obtain ⟨c, hopen, hpads, hroom, rfl⟩ := encPlan_eq_ok hPB hfield hplan
  rw [runMode_of_ok hplan rfl hlive] at hrun
  obtain rfl := Host.Outcome.next.inj hrun
  have hlen := hpads.length_paddedCipher (plain := modeField s = 0) hP s.mode.chain
  have hwritten : s.u2 + (paddedCipher P (modeField s = 0) c s.mode.chain (modeMsg s)).flatten.length ≤ 4096 :=
    hlen.symm ▸ hroom
  have hsmall := toNat_argument ((Nat.le_add_left _ _).trans (hwritten.trans (by decide : 4096 ≤ 8 * 4096)))
  have hr := rereads_moded hr hsmall
  have hopen' := hr.modeOpens hopen rfl rfl hwritten
  have hchain' : r.mode.chain = s.mode.chain := by rw [hr.mode]
  have hdec := hpads.decByMode_paddedCipher (plain := modeField s = 0) hP hinv (m := r.mode) (dst := r.u2)
    (by rw [hchain', hchain, hPB]) (by rw [hr.mode]) (by rw [State.u2, hr.dst, ← hlen, ← hsmall]; exact hdst)
  have hmsg : modeMsg r = (paddedCipher P (modeField s = 0) c r.mode.chain (modeMsg s)).flatten := by
    rw [hchain']
    exact hr.msg
  rw [← hmsg] at hdec
  have hplan' := (hopen'.modePlan_eq (byMode := decByMode) (hPB.trans (congrArg _ hr.width.symm))).trans hdec
  exact herr ▸ hr.runMode_eq hplan' rfl hlive' (length_modeMsg s)

end Sys2Proof.Machine

namespace Sys2Proof.Machine

/-! ## Exclusive or, from either side and with zeros -/

theorem xorBytes_comm (a b : List Byte) : xorBytes a b = xorBytes b a :=
  List.zipWith_comm_of_comm BitVec.xor_comm

theorem xorBytes_replicate_zero {a : List Byte} {n : Nat} (h : a.length ≤ n) :
    xorBytes a (List.replicate n 0#8) = a := by
  refine List.ext_getElem (by simp [xorBytes_length, h]) fun i hi hj => ?_
  simp [xorBytes]

/-! ## A message as its cut -/

/-- The bytes that a cut holds. -/
def CtsCut.bytes (x : CtsCut) : List Byte := x.front.flatten ++ x.full ++ x.short

/-- The lengths of the pieces that R413 cuts a message of blocks of `B` bytes into. -/
structure CtsCut.Sized (B : Nat) (x : CtsCut) : Prop where
  front : ∀ b ∈ x.front, b.length = B
  full : x.full.length = B
  short_pos : 0 < x.short.length
  short_lt : x.short.length < B

section
variable {P : Prim} {B : Nat} {x : CtsCut}

theorem CtsCut.Sized.length_bytes (h : x.Sized B) : x.bytes.length = (x.front.length + 1) * B + x.short.length := by
  rw [CtsCut.bytes, List.length_append, List.length_append, length_flatten_of_blocks h.front, h.full, Nat.add_mul,
    Nat.one_mul]

theorem CtsCut.Sized.blocksOf_bytes (h : x.Sized B) : blocksOf B x.bytes = x.front ++ [x.full, x.short] := by
  have hB : 0 < B := Nat.lt_trans h.short_pos h.short_lt
  have hjoin : x.bytes = (x.front ++ [x.full]).flatten ++ x.short := by simp [CtsCut.bytes]
  rw [hjoin, blocksOf_flatten_append hB, blocksOf_of_le h.short_pos h.short_lt.le, List.append_assoc]
  · rfl
  · exact List.forall_mem_append.mpr ⟨h.front, by simpa using h.full⟩

/-- Cutting the bytes of a cut gives it back. -/
theorem CtsCut.Sized.ctsCut_bytes (h : x.Sized P.bytes) : ctsCut P x.bytes = x := by
  simp [ctsCut, h.blocksOf_bytes]

/-- A message of at least one block, and not of whole blocks, is the bytes of its cut. -/
theorem exists_cut {msg : List Byte} (hB : 0 < B) (hle : B ≤ msg.length) (hmod : msg.length % B ≠ 0) :
    ∃ x : CtsCut, x.Sized B ∧ x.bytes = msg := by
  obtain ⟨k, hk⟩ : ∃ k, msg.length / B = k + 1 :=
    Nat.exists_eq_succ_of_ne_zero (Nat.div_pos hle hB).ne'
  have hlen : msg.length = (k + 1) * B + msg.length % B := by rw [← hk, Nat.div_add_mod']
  have hlt := Nat.mod_lt msg.length hB
  have hmul : (k + 1) * B = k * B + B := by rw [Nat.add_mul, Nat.one_mul]
  have hshort := length_lastBlock_of_short hlt hlen
  refine ⟨cutAt B msg k, ⟨length_of_mem_firstBlocks (by omega), length_block (by omega), ?_, ?_⟩, ?_⟩
  · show 0 < (block B msg (k + 1)).length
    omega
  · show (block B msg (k + 1)).length < B
    omega
  · have hrest : block B msg (k + 1) = msg.drop ((k + 1) * B) :=
      List.take_of_length_le (by rw [List.length_drop]; omega)
    show (firstBlocks B msg k).flatten ++ block B msg k ++ block B msg (k + 1) = msg
    rw [flatten_firstBlocks, hrest, block, ← List.take_add, ← hmul, List.take_append_drop]

end

/-! ## Ciphertext stealing undone (R416) -/

section
variable {P : Prim} {plain : Prop} [Decidable plain] {chain : List Byte} {x : CtsCut}

/-- The answer of the primitive for the full block, of which the head is written last. -/
def stealTail (P : Prim) (plain : Prop) [Decidable plain] (chain : List Byte) (x : CtsCut) : List Byte :=
  P.enc (stealInput P plain chain x)

/-- The pieces that an encryption with ciphertext stealing writes (R413). -/
def stealCipher (P : Prim) (plain : Prop) [Decidable plain] (chain : List Byte) (x : CtsCut) : CtsCut where
  front := (encRun P plain chain x.front).map Prod.snd
  full := P.enc (stealBlock plain P.bytes x.short (stealTail P plain chain x))
  short := (stealTail P plain chain x).take x.short.length

theorem length_short_stealCipher (hP : P.blockSized) (h : x.Sized P.bytes) :
    (stealCipher P plain chain x).short.length = x.short.length := by
  rw [stealCipher, List.length_take, stealTail, (hP _).1, Nat.min_eq_left h.short_lt.le]

theorem stealCipher_sized (hP : P.blockSized) (h : x.Sized P.bytes) :
    (stealCipher P plain chain x).Sized P.bytes := by
  have hshort := length_short_stealCipher (plain := plain) (chain := chain) hP h
  exact ⟨length_of_mem_encRun hP, (hP _).1, hshort ▸ h.short_pos, hshort ▸ h.short_lt⟩

/-- The block made from the stolen tail ends with that tail. -/
theorem drop_stealBlock {B : Nat} {short z : List Byte} (hz : z.length = B) :
    (stealBlock plain B short z).drop short.length = z.drop short.length := by
  unfold stealBlock
  split_ifs
  · exact List.drop_left
  · rw [xorBytes, List.drop_zipWith, List.drop_left]
    exact xorBytes_replicate_zero (by rw [List.length_drop, hz])

/-- How the block made from the stolen tail begins. -/
theorem take_stealBlock {B : Nat} {short z : List Byte} :
    (stealBlock plain B short z).take short.length =
      if plain then short else xorBytes (z.take short.length) short := by
  unfold stealBlock
  split_ifs
  · exact List.take_left
  · rw [xorBytes, List.take_zipWith, List.take_left]
    rfl

theorem length_stealBlock {B : Nat} {short z : List Byte} (hz : z.length = B) (hshort : short.length < B) :
    (stealBlock plain B short z).length = B := by
  unfold stealBlock
  split_ifs
  · rw [List.length_append, List.length_drop]
    omega
  · rw [xorBytes_length, List.length_append, List.length_replicate]
    omega

theorem dec_full_stealCipher (hP : P.blockSized) (hinv : P.inverse) (h : x.Sized P.bytes) :
    P.dec (stealCipher P plain chain x).full = stealBlock plain P.bytes x.short (stealTail P plain chain x) :=
  hinv _ (length_stealBlock (hP _).1 h.short_lt)

/-- Decryption rebuilds the answer for the full block (R414). -/
theorem rebuiltBlock_stealCipher (hP : P.blockSized) (hinv : P.inverse) (h : x.Sized P.bytes) :
    rebuiltBlock P (stealCipher P plain chain x) = stealTail P plain chain x := by
  have htail : (stealTail P plain chain x).length = P.bytes := (hP _).1
  rw [rebuiltBlock, dec_full_stealCipher hP hinv h, length_short_stealCipher hP h, drop_stealBlock htail]
  exact List.take_append_drop _ _

/-- The message comes back, piece by piece. -/
theorem stealDecOut_stealCipher (hP : P.blockSized) (hinv : P.inverse) (hchain : chain.length = P.bytes)
    (h : x.Sized P.bytes) : stealDecOut P plain chain (stealCipher P plain chain x) = x.bytes := by
  have hfront : decRun P plain chain (stealCipher P plain chain x).front = x.front :=
    decRun_encRun hP hinv hchain h.front
  have hlast : (lastBlock chain (stealCipher P plain chain x).front).length = P.bytes :=
    (length_lastBlock (stealCipher_sized hP h).front).elim (fun hlast => hlast ▸ hchain) id
  unfold stealDecOut
  rw [hfront, rebuiltBlock_stealCipher hP hinv h, dec_full_stealCipher hP hinv h, length_short_stealCipher hP h,
    take_stealBlock, CtsCut.bytes]
  split_ifs with hplain
  · rw [stealTail, stealInput, if_pos hplain, hinv _ h.full]
  · have hinput : stealInput P plain chain x = xorBytes x.full (lastBlock chain (stealCipher P plain chain x).front) :=
      if_neg hplain
    have hlen : (stealInput P plain chain x).length = P.bytes := by
      rw [hinput, xorBytes_length, h.full, hlast, Nat.min_self]
    have hshort : xorBytes (xorBytes ((stealTail P plain chain x).take x.short.length) x.short)
        (stealCipher P plain chain x).short = x.short := by
      rw [xorBytes_comm (List.take _ _)]
      exact xorBytes_xorBytes _ _ (length_short_stealCipher hP h).ge
    rw [hshort, stealTail, hinv _ hlen, hinput, xorBytes_xorBytes _ _ (by rw [h.full, hlast])]

end

section
variable {P : Prim} {plain : Prop} [Decidable plain] {m : ModeState} {msg : List Byte}

/-- Decrypting what a CTS mode wrote, from the same chain value, gives the message; the length is kept. -/
theorem ctsDec_ctsEnc (hP : P.blockSized) (hinv : P.inverse) (hB : 0 < P.bytes) (hchain : m.chain.length = P.bytes)
    (hle : P.bytes ≤ msg.length) :
    ∃ w, (ctsEnc P plain m msg).result = .ok w ∧ w.out.length = msg.length ∧ { w.mode with chain := m.chain } = m ∧
      ∃ w', (ctsDec P plain m w.out).result = .ok w' ∧ w'.out = msg := by
  by_cases hmod : msg.length % P.bytes = 0
  · have hblocks : ∀ b ∈ blocksOf P.bytes msg, b.length = P.bytes := by
      rw [blocksOf_of_mod hB hmod]
      exact length_of_mem_firstBlocks (Nat.div_mul_le_self _ _)
    have hsized := length_of_mem_encRun (plain := plain) (chain := m.chain) (ps := blocksOf P.bytes msg) hP
    have hlen := length_flatten_of_blocks hsized
    rw [List.length_map, length_encRun, length_blocksOf_mul hB hmod] at hlen
    rw [ctsEnc_of_whole hB hmod]
    refine ⟨_, rfl, hlen, rfl, ?_⟩
    rw [ctsDec_of_whole hB (hlen.symm ▸ hmod), blocksOf_flatten hB hsized, decRun_encRun hP hinv hchain hblocks]
    exact ⟨_, rfl, flatten_blocksOf hB msg⟩
  · obtain ⟨x, hx, rfl⟩ := exists_cut hB hle hmod
    rw [ctsEnc_of_short hmod, hx.ctsCut_bytes]
    have hy := stealCipher_sized (plain := plain) (chain := m.chain) hP hx
    have hlen : (stealCipher P plain m.chain x).bytes.length = x.bytes.length := by
      rw [hy.length_bytes, hx.length_bytes, length_short_stealCipher hP hx]
      simp [stealCipher, length_encRun]
    have hdec : ctsDec P plain m (stealCipher P plain m.chain x).bytes = 
        stealDecPlan P plain m (stealCipher P plain m.chain x).bytes.length (stealCipher P plain m.chain x) := by
      rw [ctsDec_of_short (by rw [hlen]; exact hmod), hy.ctsCut_bytes]
    exact ⟨_, rfl, hlen, rfl, _, congrArg ModePlan.result hdec, stealDecOut_stealCipher hP hinv hchain hx⟩

end

/-- Settles O59: the ciphertext is cut as the message was, and decryption undoes encryption piece by piece. -/
theorem stealingLaws : Obligations.StealingLaws := by
  intro P s hPB hP hinv hfield hstate hchain hle hsource hroom hlive
  have hB : 0 < P.bytes := hPB ▸ attachedPrim_bytes_pos s.primWidth
  have hmsg := length_modeMsg s
  obtain ⟨w, hw, hlen, hmode, w', hw', hout⟩ := ctsDec_ctsEnc (plain := modeField s = 2) (m := s.mode)
    (msg := modeMsg s) hP hinv hB (hchain.trans hPB.symm) (by omega)
  have hplan := modePlan_ctsEnc hPB hfield hstate hsource (hPB.trans_le hle) hroom
  have hwritten : w.out.length = s.u1 := hlen.trans hmsg
  refine ⟨_, runMode_of_ok hplan hw hlive, rfl, rfl, ?_, ?_, s.sameOutside_moded _ hwritten,
    fun dst q r hdst hr hlive' => ?_⟩
  · rw [State.moded_result0, hwritten, BitVec.ofNat_toNat, BitVec.setWidth_eq]
  · intro k hk
    rw [s.holds_moded _ w k (hwritten.symm ▸ hk)]
    exact Option.some_ne_none _
  · have hr := rereads_moded hr hwritten.symm
    have hopen := hr.modeOpens (modeOpens_of_stealMode hfield hstate hsource) (congrArg ModeState.ivValid hmode :)
      (congrArg ModeState.ctrValid hmode :) (hwritten.symm ▸ hroom)
    have hlen' : r.u1 = s.u1 := hr.len.trans hwritten
    have hplan' := hopen.decPlan_stealMode (hPB.trans (congrArg PrimWidth.bytes hr.width.symm))
      (hlen'.symm ▸ hPB.trans_le hle) (by rw [State.u2, hr.dst, hlen']; exact hdst)
    rw [hr.msg, hr.mode, hmode] at hplan'
    exact hout ▸ hr.runMode_eq hplan' hw' hlive' (hout ▸ hmsg)

end Sys2Proof.Machine

namespace Sys2Proof.Machine

/-! ## The calls of a command, and its end once they are answered -/

section
variable {α : Type} {s t : State} {i : Instr} {q : PrimPort}

/-- Only MODE.ENC and MODE.DEC make calls. -/
theorem mode_of_callsOf_ne_nil (h : callsOf i s ≠ []) : i = .modeEnc ∨ i = .modeDec := by
  cases i
  case modeEnc => exact .inl rfl
  case modeDec => exact .inr rfl
  all_goals exact absurd rfl h

/-- With every call answered, a command ends in one of two ways, whichever state it runs at. -/
theorem exec_end (i : Instr) :
    (∀ s, primLive i s → exec i s = finish s (commandWrites i s)) ∨
    (∀ s, primLive i s → exec i s = finishRead s (commandWrites i s)) := by
  have hmode {s : State} {r : Except CmdError ModePlan} (h : s.port.answeredAll (plannedCalls r) = true) :
      runMode s r = finishRead s (r >>= fun p => p.result.map (s.applyMode p)) := by
    cases r with
    | error e => rfl
    | ok p => exact runMode_answered h
  cases i
  case modeEnc | modeDec => exact .inr fun s h => hmode h
  case bvLdb | bvLdbits | bvUnpack | segFeed | segUnpad | modeSetiv | modeSetctr => exact .inr fun _ _ => rfl
  all_goals exact .inl fun _ _ => rfl

theorem exec_completes (h : primLive i s) : ∃ t, exec i s = .next t ∧ t.busy = false ∧ t.done = true := by
  rcases exec_end i with hend | hend
  · rw [hend s h]
    cases commandWrites i s <;> exact ⟨_, rfl, rfl, rfl⟩
  · rw [hend s h]
    cases commandWrites i s <;> exact ⟨_, rfl, rfl, rfl⟩

/-- A command that has made calls and not all answers waits. -/
theorem exec_waits (hcalls : callsOf i s ≠ []) (h : ¬ primLive i s) : exec i s = .next s := by
  have hi := mode_of_callsOf_ne_nil hcalls
  rw [primLive, callsOf_mode hi, Bool.not_eq_true] at h
  rw [callsOf_mode hi] at hcalls
  rw [exec_mode hi]
  cases hplan : modePlan (attachedPrim s.primWidth) (byModeOf i) s with
  | error e => rw [hplan] at hcalls; exact absurd rfl hcalls
  | ok p => rw [hplan] at h; exact runMode_waiting h

/-! What a command writes does not depend on the port. -/

theorem map_withPort {r : Except CmdError α} {f f' : α → State} (hf : ∀ a, f' a = { f a with port := q }) :
    r.map f' = (r.map f).map fun u => { u with port := q } := by
  obtain rfl : f' = fun a => { f a with port := q } := funext hf
  cases r <;> rfl

theorem plan_withPort (r : Except CmdError ModePlan) :
    (r >>= fun p => p.result.map (State.applyMode { s with port := q } p)) =
      (r >>= fun p => p.result.map (s.applyMode p)).map fun u => { u with port := q } := by
  cases r with
  | error e => rfl
  | ok p => exact map_withPort (r := p.result) fun _ => rfl

theorem commandWrites_withPort (i : Instr) (s : State) (q : PrimPort) :
    commandWrites i { s with port := q } = (commandWrites i s).map fun u => { u with port := q } := by
  cases i
  case modeEnc | modeDec => exact plan_withPort _
  case modeGetiv | modeGetctr =>
    unfold commandWrites
    rw [storeBlock_eq_map, storeBlock_eq_map]
    exact map_withPort fun _ => rfl
  case nop | bvMov | bvSize | bvRdw | bvAnd | bvOr | bvXor | bvNot | bvAdd | bvSub | bvShl | bvShr | bvHw | ctrReset =>
    rfl
  all_goals exact map_withPort fun _ => rfl

theorem finish_withPort {r : Except CmdError State} (h : finish s r = .next t) :
    finish { s with port := q } (r.map fun u => { u with port := q }) =
      .next { t with port := { t.port with trace := q.trace } } := by
  cases r <;> cases h <;> rfl

theorem finishRead_withPort {r : Except CmdError State} (h : finishRead s r = .next t) :
    finishRead { s with port := q } (r.map fun u => { u with port := q }) =
      .next { t with port := { t.port with trace := q.trace } } := by
  cases r <;> cases h <;> rfl

/-- With every call answered at both ports, a command does the same, but for the record of calls. -/
theorem exec_withPort (h : exec i s = .next t) (hlive : primLive i s) (hlive' : primLive i { s with port := q }) :
    exec i { s with port := q } = .next { t with port := { t.port with trace := q.trace } } := by
  rcases exec_end i with hend | hend
  · rw [hend _ hlive', commandWrites_withPort]
    exact finish_withPort ((hend s hlive).symm.trans h)
  · rw [hend _ hlive', commandWrites_withPort]
    exact finishRead_withPort ((hend s hlive).symm.trans h)

theorem callsOf_withPort (i : Instr) (s : State) (q : PrimPort) : callsOf i { s with port := q } = callsOf i s := by
  cases i <;> rfl

theorem callsOf_withAgenda (i : Instr) (s : State) (es : List Event) :
    callsOf i { s with agenda := es } = callsOf i s := by
  cases i <;> rfl

/-! ## The events of the port -/

theorem runningCalls_of_decode (h : decode s.cmd = .ok i) : runningCalls s = callsOf i s := by
  rw [runningCalls, h]

theorem primEvent_of_outstanding (hbusy : s.busy = true) {c : PrimCall} (h : s.port.outstanding = some c) :
    primEvent s = { s with port := { s.port with outstanding := none, answered := s.port.answered + 1 } } := by
  rw [primEvent, if_pos hbusy, h]

theorem primEvent_of_call (hbusy : s.busy = true) (hdecode : decode s.cmd = .ok i) (h : s.port.outstanding = none)
    {c : PrimCall} (hc : (callsOf i s)[s.port.answered]? = some c) :
    primEvent s = { s with port := { s.port with outstanding := some c, trace := s.port.trace ++ [c] } } := by
  rw [primEvent, if_pos hbusy, h, runningCalls_of_decode hdecode, hc]

theorem primEvent_of_done (hbusy : s.busy = true) (hdecode : decode s.cmd = .ok i) (h : s.port.outstanding = none)
    (hc : (callsOf i s).length ≤ s.port.answered) : primEvent s = s := by
  rw [primEvent, if_pos hbusy, h, runningCalls_of_decode hdecode, List.getElem?_eq_none hc]

theorem callsOf_primEvent (i : Instr) (s : State) : callsOf i (primEvent s) = callsOf i s := by
  rcases primEvent_cases s with h | ⟨-, -, h⟩ | ⟨-, -, c, -, h⟩
  · rw [h]
  · rw [h, callsOf_withPort]
  · rw [h, callsOf_withPort]

end

/-! ## The host while a command runs (20_memory R110) -/

/-- `t` is `s` after an access of the host that leaves the running command alone: it sets no `DONE`, and what it
changes, no command reads. -/
def HostTouched (s t : State) : Prop :=
  ∃ ie done err ovr accErr errCode errSub errChk rdata, (done = true → s.done = true) ∧
    t = { s with ie := ie, done := done, err := err, ovr := ovr, accErr := accErr, errCode := errCode,
                 errSub := errSub, errChk := errChk, rdata := rdata }

section
variable {s t : State} {o : HostOffset} {w : Word}

theorem HostTouched.callsOf_eq (h : HostTouched s t) (i : Instr) : callsOf i t = callsOf i s := by
  obtain ⟨_, _, _, _, _, _, _, _, _, -, rfl⟩ := h
  cases i <;> rfl

theorem HostTouched.kept (h : HostTouched s t) :
    t.busy = s.busy ∧ t.cmd = s.cmd ∧ t.port = s.port ∧ t.agenda = s.agenda ∧ (t.done = true → s.done = true) := by
  obtain ⟨_, _, _, _, _, _, _, _, _, hdone, rfl⟩ := h
  exact ⟨rfl, rfl, rfl, rfl, hdone⟩

theorem hostTouched_refuseAccess (s : State) : HostTouched s s.refuseAccess :=
  ⟨_, _, _, _, _, _, _, _, _, id, rfl⟩

theorem hostTouched_hostRead (hbusy : s.busy = true) (o : HostOffset) : HostTouched s (hostRead o s) := by
  unfold hostRead
  split
  case h_2 => rw [if_pos hbusy]; exact ⟨_, _, _, _, _, _, _, _, _, id, rfl⟩
  all_goals exact ⟨_, _, _, _, _, _, _, _, _, id, rfl⟩

theorem hostTouched_idleWrite (hbusy : s.busy = true) (t : State) : HostTouched s (idleWrite s t) := by
  rw [idleWrite_of_busy hbusy]
  exact hostTouched_refuseAccess s

theorem hostTouched_hostWrite (hbusy : s.busy = true) (h : ¬ softResets o w) : HostTouched s (hostWrite o w s) := by
  unfold hostWrite
  split
  case h_1 r hr =>
    cases r
    case ctrl =>
      have hbit : ¬ w.getLsbD 1 = true := fun hbit =>
        h ⟨BitVec.eq_of_toNat_eq (hostRegAt_eq_ctrl (hostRegAt_of_targetOf hr)), hbit⟩
      rw [regWrite, writeCtrl, if_neg hbit]
      exact ⟨_, _, _, _, _, _, _, _, _, id, rfl⟩
    case status =>
      rw [regWrite, State.clearStatus_eq]
      exact ⟨_, _, _, _, _, _, _, _, _, fun hdone => (Bool.and_eq_true_iff.mp hdone).1, rfl⟩
    case cmd =>
      rw [regWrite, writeCmd, if_pos hbusy]
      exact ⟨_, _, _, _, _, _, _, _, _, id, rfl⟩
    case arg0 | arg1 | arg2 | arg3 | segCfg | segBlkBits | modeCfg => exact hostTouched_idleWrite hbusy _
    all_goals exact hostTouched_refuseAccess s
  case h_2 => exact hostTouched_idleWrite hbusy _
  all_goals exact hostTouched_refuseAccess s

end

end Sys2Proof.Machine

namespace Sys2Proof.Machine

/-! ## Runs while a command runs -/

section
variable {i : Instr} {s t : State} {e : Event} {es : List Event}

theorem noReset_cons (h : noReset (e :: es)) :
    (e ≠ .hardReset ∧ ∀ w : Word, e = .write 0x008#13 w → w.getLsbD 1 = false) ∧ noReset es :=
  List.forall_mem_cons.mp h

/-- A host access is the event `e`. -/
def Event.isHost : Event → Bool
  | .write _ _ | .read _ => true
  | .hardReset | .prim | .engine => false

/-- A host access that resets nothing, while a command runs. -/
theorem stepEvent_of_host (hbusy : s.busy = true) (hhost : e.isHost = true)
    (hreset : ∀ w : Word, e = .write 0x008#13 w → w.getLsbD 1 = false) :
    ∃ t, stepEvent e s = .next t ∧ HostTouched s t := by
  cases e with
  | write o w =>
    refine ⟨_, rfl, hostTouched_hostWrite hbusy ?_⟩
    rintro ⟨rfl, hbit⟩
    exact absurd (hreset w rfl) (by rw [hbit]; decide)
  | read o => exact ⟨_, rfl, hostTouched_hostRead hbusy o⟩
  | hardReset | prim | engine => cases hhost

theorem runSteps_succ (h : step s = .next t) (n : Nat) : runSteps (n + 1) s = runSteps n t := by
  rw [runSteps, h]

end

/-! ## A hang (70 R606, R613) -/

/-- A command `i` waits at `s` for answers that its agenda does not bring; it began to wait at `s₀`. -/
structure Waits (i : Instr) (s₀ s : State) : Prop where
  busy : s.busy = true
  cmd : s.cmd = s₀.cmd
  calls : callsOf i s ≠ []
  unanswered : ¬ primLive i s
  noReset : noReset s.agenda
  noPrim : Event.prim ∉ s.agenda
  done : s.done = true → s₀.done = true

section
variable {i : Instr} {s₀ s t : State}

theorem Waits.of_hostTouched (h : Waits i s₀ s) (ht : HostTouched s t) : Waits i s₀ t := by
  have hcalls := ht.callsOf_eq i
  obtain ⟨hbusy, hcmd, hport, hagenda, hdone⟩ := ht.kept
  exact {
    busy := hbusy.trans h.busy
    cmd := hcmd.trans h.cmd
    calls := hcalls ▸ h.calls
    unanswered := by rw [primLive, hport, hcalls]; exact h.unanswered
    noReset := hagenda ▸ h.noReset
    noPrim := hagenda ▸ h.noPrim
    done := fun hd => h.done (hdone hd) }

theorem Waits.tail {e : Event} {rest : List Event} (h : Waits i s₀ s) (hagenda : s.agenda = e :: rest) :
    Waits i s₀ { s with agenda := rest } where
  busy := h.busy
  cmd := h.cmd
  calls := callsOf_withAgenda i s rest ▸ h.calls
  unanswered := by rw [primLive, callsOf_withAgenda]; exact h.unanswered
  noReset := (noReset_cons (hagenda ▸ h.noReset)).2
  noPrim := fun hmem => h.noPrim (hagenda ▸ List.mem_cons_of_mem e hmem)
  done := h.done

/-- Every step leaves a waiting command waiting. -/
theorem Waits.step (h : Waits i s₀ s) (hdecode : decode s₀.cmd = .ok i) :
    ∃ t, step s = .next t ∧ Waits i s₀ t := by
  cases hagenda : s.agenda with
  | nil => exact ⟨s, step_of_agenda_nil hagenda, h⟩
  | cons e rest =>
    have hrest := h.tail hagenda
    obtain ⟨⟨hhard, hsoft⟩, -⟩ := noReset_cons (hagenda ▸ h.noReset)
    have hhost (hhost : e.isHost = true) : ∃ t, Machine.step s = .next t ∧ Waits i s₀ t := by
      rw [step_of_agenda_cons hagenda]
      obtain ⟨t, ht, htouched⟩ := stepEvent_of_host hrest.busy hhost hsoft
      exact ⟨t, ht, hrest.of_hostTouched htouched⟩
    cases e with
    | write o w | read o => exact hhost rfl
    | hardReset => exact absurd rfl hhard
    | prim => exact absurd (hagenda ▸ List.mem_cons_self) h.noPrim
    | engine =>
      rw [step_of_decode_ok h.busy hagenda (h.cmd ▸ hdecode)]
      exact ⟨_, exec_waits hrest.calls hrest.unanswered, hrest⟩

theorem Waits.runSteps (h : Waits i s₀ s) (hdecode : decode s₀.cmd = .ok i) (n : Nat) :
    Waits i s₀ (runSteps n s) := by
  induction n generalizing s with
  | zero => exact h
  | succ n ih =>
    obtain ⟨t, ht, hwaits⟩ := h.step hdecode
    rw [runSteps_succ ht]
    exact ih hwaits

end

/-! ## Completion under PRIM_LIVE (70 R613) -/

/-- The events of the port that are still to come before every call of `i` is answered: two for each, less the request
that has been made. -/
def pendingEvents (i : Instr) (s : State) : Nat :=
  2 * ((callsOf i s).length - s.port.answered) - if s.port.outstanding.isSome then 1 else 0

/-- Command `i` runs at `s`, and `pre`, which comes before an engine turn, brings the events its calls still take. -/
structure Progresses (i : Instr) (pre : List Event) (s : State) : Prop where
  busy : s.busy = true
  decoded : decode s.cmd = .ok i
  agenda : ∃ post, s.agenda = pre ++ .engine :: post
  noReset : noReset pre
  called : s.port.outstanding.isSome = true → s.port.answered < (callsOf i s).length
  enough : pendingEvents i s ≤ pre.count .prim

section
variable {i : Instr} {s t : State} {e : Event} {pre : List Event}

/-- Where no event is pending, every call is answered. -/
theorem primLive_of_pendingEvents (hcalled : s.port.outstanding.isSome = true → s.port.answered < (callsOf i s).length)
    (h : pendingEvents i s = 0) : primLive i s := by
  rw [primLive, PrimPort.answeredAll_iff]
  unfold pendingEvents at h
  cases hout : s.port.outstanding with
  | none =>
    rw [hout] at h
    exact ⟨rfl, by simpa [Nat.sub_eq_zero_iff_le] using h⟩
  | some c =>
    have hlt := hcalled (hout ▸ rfl)
    rw [hout] at h
    simp at h
    omega

/-- A command that makes no call needs no answer. -/
theorem primLive_of_no_calls (hcalled : s.port.outstanding.isSome = true → s.port.answered < (callsOf i s).length)
    (h : callsOf i s = []) : primLive i s :=
  primLive_of_pendingEvents hcalled (by simp [pendingEvents, h])

theorem primEvent_kept (s : State) :
    (primEvent s).busy = s.busy ∧ (primEvent s).cmd = s.cmd ∧ (primEvent s).agenda = s.agenda := by
  rcases primEvent_cases s with h | ⟨-, -, h⟩ | ⟨-, -, c, -, h⟩ <;> rw [h] <;> exact ⟨rfl, rfl, rfl⟩

theorem pendingEvents_congr (hport : t.port = s.port) (hcalls : callsOf i t = callsOf i s) :
    pendingEvents i t = pendingEvents i s := by
  rw [pendingEvents, pendingEvents, hport, hcalls]

theorem pendingEvents_withAgenda (i : Instr) (s : State) (es : List Event) :
    pendingEvents i { s with agenda := es } = pendingEvents i s :=
  pendingEvents_congr rfl (callsOf_withAgenda i s es)

/-- An event of the port is one of those that are pending. -/
theorem pendingEvents_primEvent (hbusy : s.busy = true) (hdecode : decode s.cmd = .ok i) :
    pendingEvents i (primEvent s) = pendingEvents i s - 1 ∧
      ((primEvent s).port.outstanding.isSome = true → (primEvent s).port.answered < (callsOf i s).length) := by
  unfold pendingEvents
  rw [callsOf_primEvent]
  cases hout : s.port.outstanding with
  | some c =>
    rw [primEvent_of_outstanding hbusy hout]
    refine ⟨?_, fun h => by cases h⟩
    simp
    omega
  | none =>
    by_cases hlt : s.port.answered < (callsOf i s).length
    · rw [primEvent_of_call hbusy hdecode hout (List.getElem?_eq_getElem hlt)]
      exact ⟨rfl, fun _ => hlt⟩
    · rw [primEvent_of_done hbusy hdecode hout (by omega), hout]
      refine ⟨?_, fun h => by cases h⟩
      simp
      omega

theorem Progresses.primLive (h : Progresses i pre s) (hnone : pre.count .prim = 0) : primLive i s :=
  primLive_of_pendingEvents h.called (Nat.le_zero.mp (hnone ▸ h.enough))

/-- The engine turn behind `pre` completes the command. -/
theorem Progresses.step_nil (h : Progresses i [] s) :
    ∃ t, Machine.step s = .next t ∧ t.busy = false ∧ t.done = true := by
  obtain ⟨post, hagenda⟩ := h.agenda
  have hlive := h.primLive rfl
  rw [step_of_decode_ok h.busy hagenda h.decoded]
  exact exec_completes (by rwa [Machine.primLive, callsOf_withAgenda])

/-- What an event other than the port's leaves to come. -/
theorem Progresses.tail (h : Progresses i (e :: pre) s) (he : e ≠ .prim) (hbusy : t.busy = s.busy)
    (hcmd : t.cmd = s.cmd) (hport : t.port = s.port) (hcalls : callsOf i t = callsOf i s)
    (hagenda : ∃ post, t.agenda = pre ++ .engine :: post) : Progresses i pre t where
  busy := hbusy.trans h.busy
  decoded := hcmd ▸ h.decoded
  agenda := hagenda
  noReset := (noReset_cons h.noReset).2
  called := by rw [hport, hcalls]; exact h.called
  enough := by
    rw [pendingEvents_congr hport hcalls, ← List.count_cons_of_ne he]
    exact h.enough

/-- After the first event of `pre`, the rest of it still brings what is pending, or the command is complete. -/
theorem Progresses.step (h : Progresses i (e :: pre) s) :
    ∃ t, step s = .next t ∧ (Progresses i pre t ∨ t.busy = false ∧ t.done = true) := by
  obtain ⟨post, hagenda⟩ := h.agenda
  rw [List.cons_append] at hagenda
  obtain ⟨⟨hhard, hsoft⟩, hreset⟩ := noReset_cons h.noReset
  have hcalls := callsOf_withAgenda i s (pre ++ .engine :: post)
  have hhost (hhost : e.isHost = true) : ∃ t, Machine.step s = .next t ∧ Progresses i pre t := by
    rw [step_of_agenda_cons hagenda]
    obtain ⟨t, ht, htouched⟩ := stepEvent_of_host (s := { s with agenda := pre ++ .engine :: post }) h.busy hhost hsoft
    obtain ⟨hbusy, hcmd, hport, hagenda, -⟩ := htouched.kept
    exact ⟨t, ht, h.tail (by rintro rfl; cases hhost) hbusy hcmd hport ((htouched.callsOf_eq i).trans hcalls)
      ⟨post, hagenda⟩⟩
  cases e with
  | write o w | read o =>
    obtain ⟨t, ht, hprogress⟩ := hhost rfl
    exact ⟨t, ht, .inl hprogress⟩
  | hardReset => exact absurd rfl hhard
  | prim =>
    rw [step_of_agenda_cons hagenda]
    obtain ⟨hpending, hcalled⟩ := pendingEvents_primEvent (i := i) (s := { s with agenda := pre ++ .engine :: post })
      h.busy h.decoded
    obtain ⟨hbusy, hcmd, hagenda'⟩ := primEvent_kept { s with agenda := pre ++ .engine :: post }
    refine ⟨_, rfl, .inl ⟨hbusy.trans h.busy, (congrArg decode hcmd).trans h.decoded,
      ⟨post, hagenda'⟩, hreset, ?_, ?_⟩⟩
    · rwa [callsOf_primEvent]
    · have henough := h.enough
      rw [List.count_cons_self] at henough
      rw [hpending, pendingEvents_withAgenda]
      omega
  | engine =>
    rw [step_of_decode_ok h.busy hagenda h.decoded]
    by_cases hlive : Machine.primLive i { s with agenda := pre ++ .engine :: post }
    · obtain ⟨t, ht, hdone⟩ := exec_completes hlive
      exact ⟨t, ht, .inr hdone⟩
    · refine ⟨_, exec_waits (fun hnil => hlive ?_) hlive, .inl (h.tail (by decide) rfl rfl rfl hcalls ⟨post, rfl⟩)⟩
      rw [Machine.primLive, hcalls]
      exact primLive_of_no_calls h.called (hcalls.symm.trans hnil)

theorem Progresses.completes (h : Progresses i pre s) :
    ∃ n, (Machine.runSteps n s).busy = false ∧ (Machine.runSteps n s).done = true := by
  induction pre generalizing s with
  | nil =>
    obtain ⟨t, ht, hdone⟩ := h.step_nil
    exact ⟨1, (runSteps_succ ht 0).symm ▸ hdone⟩
  | cons e pre ih =>
    obtain ⟨t, ht, hprogress | hdone⟩ := h.step
    · obtain ⟨n, hn⟩ := ih hprogress
      exact ⟨n + 1, (runSteps_succ ht n).symm ▸ hn⟩
    · exact ⟨1, (runSteps_succ ht 0).symm ▸ hdone⟩

end

/-! ## Settled: the port of the primitive -/

/-- Settles O21: the events of the port; the end of a command with every call answered, at any port (`exec_withPort`); a
wait that every step keeps (`Waits`); and the events still pending, which the agenda brings (`Progresses`). -/
theorem primitivePortAndLiveness : Obligations.PrimitivePortAndLiveness := by
  refine ⟨fun s i hbusy hdecode => ⟨callsOf_primEvent i s, fun c => primEvent_of_outstanding hbusy,
      fun c hout => primEvent_of_call hbusy hdecode hout, primEvent_of_done hbusy hdecode⟩,
    fun s t i q => exec_withPort, fun s i hbusy hdecode hcalls hlive hreset hprim n => ?_,
    fun s i hbusy hdecode hidle hrun => ?_⟩
  · have hwaits : Waits i s s := ⟨hbusy, rfl, hcalls, hlive, hreset, hprim, id⟩
    obtain ⟨hbusy', hcmd, -, hlive', -, -, hdone⟩ := hwaits.runSteps hdecode n
    exact ⟨hbusy', hcmd, hlive', hdone⟩
  · obtain ⟨pre, post, hagenda, hreset, hcount⟩ := hrun
    obtain ⟨hout, hanswered⟩ := hidle
    have hprogress : Progresses i pre s := by
      refine ⟨hbusy, hdecode, ⟨post, hagenda⟩, hreset, fun h => ?_, ?_⟩
      · rw [hout] at h
        cases h
      · rw [pendingEvents, hout, hanswered]
        exact hcount
    exact hprogress.completes

end Sys2Proof.Machine

namespace Sys2Proof.Machine

/-! ## What a command raises, whether or not its state meets the invariant (60_exceptions R500, R501) -/

theorem catValue_raises (a b : BvReg) : Answers (opRaises 0x28#8) (fun _ => True) (catValue a b) :=
  (answers_checkSize (by decide)).bind fun _ _ => trivial

theorem zextValue_raises (r : BvReg) (m : Nat) : Answers (opRaises 0x29#8) (fun _ => True) (zextValue r m) := by
  unfold zextValue
  split_ifs
  · trivial
  · exact (answers_checkSize (by decide)).bind fun _ _ => trivial

theorem sextValue_raises (r : BvReg) (m : Nat) : Answers (opRaises 0x2A#8) (fun _ => True) (sextValue r m) := by
  unfold sextValue
  split
  · trivial
  · exact (answers_checkSize (by decide)).bind fun _ _ => trivial

theorem setValue_raises (vd : VReg) (s : State) : Answers (opRaises 0x19#8) (fun _ => True) (setValue vd s) :=
  (answers_normIndex (by decide)).bind fun _ _ => (answers_check (by decide)).bind fun _ _ => trivial

theorem getsValue_raises (va : VReg) (ns ne : Bool) (s : State) :
    Answers (opRaises 0x1A#8) (fun _ => True) (getsValue va ns ne s) :=
  (answers_sliceOf (by decide) (by decide)).bind fun _ _ => trivial

theorem setsValue_raises (vd va : VReg) (ns ne co : Bool) (s : State) :
    Answers (opRaises 0x1B#8) (fun _ => True) (setsValue vd va ns ne co s) :=
  (answers_sliceOf (by decide) (by decide)).bind fun _ _ => (answers_check (by decide)).bind fun _ _ => trivial

theorem feedLength_raises (decl : Bool) (n declared : Nat) :
    Answers (opRaises 0x31#8) (fun _ => True) (feedLength decl n declared) := by
  cases decl
  · trivial
  · exact (answers_check (by decide)).bind fun _ _ => trivial

theorem feedPlan_raises (pad decl : Bool) (s : State) :
    Answers (opRaises 0x31#8) (fun _ => True) (feedPlan pad decl s) :=
  (answers_check (by decide)).bind fun _ _ => (answers_checkRange (by decide)).bind fun _ _ =>
    (feedLength_raises decl _ _).bind fun _ _ => (answers_check (by decide)).bind fun _ _ =>
      (answers_check (by decide)).bind fun _ _ => (answers_checkRange (by decide)).bind fun _ _ => trivial

theorem storeBlock_raises {E : CmdError → Prop} (hrange : E { code := .address, sub := 1#8 }) (b : List Byte)
    (s : State) : Answers E (fun _ => True) (storeBlock b s) :=
  (answers_checkRange hrange).bind fun _ _ => trivial

theorem modeWrites_raises {s : State} {op : BitVec 8} {r : Except CmdError ModePlan}
    (h : Answers (opRaises op) (planSound op (attachedPrim s.primWidth) s) r) :
    Answers (opRaises op) (fun _ => True) (r >>= fun p => p.result.map (s.applyMode p)) :=
  h.bind fun _ ⟨_, _, hresult⟩ => hresult.map fun _ _ => trivial

/-- At every state a command raises only errors of its own row of the table. -/
theorem commandWrites_raises (i : Instr) (s : State) :
    Answers (opRaises (opcodeByte i)) (fun _ => True) (commandWrites i s) := by
  cases i with
  | nop | bvMov | bvSize | bvRdw | bvAnd | bvOr | bvXor | bvNot | bvAdd | bvSub | bvShl | bvShr | bvHw | ctrReset =>
    trivial
  | bvLdi vd sz => exact (answers_ldiValue sz s).map fun _ _ => trivial
  | bvLdb vd bo sz => exact (answers_ldbValue bo sz s).map fun _ _ => trivial
  | bvStb va bo => exact (answers_stbBytes va bo s).map fun _ _ => trivial
  | bvLdbits vd => exact (answers_ldbitsValue s).map fun _ _ => trivial
  | bvGet vd va => exact (answers_getBit va).map fun _ _ => trivial
  | bvSet vd => exact (setValue_raises vd s).map fun _ _ => trivial
  | bvGets vd va ns ne => exact (getsValue_raises va ns ne s).map fun _ _ => trivial
  | bvSets vd va ns ne co => exact (setsValue_raises vd va ns ne co s).map fun _ _ => trivial
  | bvCat vd va vb => exact (catValue_raises _ _).map fun _ _ => trivial
  | bvZext vd => exact (zextValue_raises _ _).map fun _ _ => trivial
  | bvSext vd => exact (sextValue_raises _ _).map fun _ _ => trivial
  | bvHd va vb => exact answers_hamming.map fun _ _ => trivial
  | bvPack va big => exact (answers_packBytes va big s).map fun _ _ => trivial
  | bvUnpack vd big => exact (answers_unpackValue big s).map fun _ _ => trivial
  | segReset => exact (answers_segConfig s).map fun _ _ => trivial
  | segFeed pad decl => exact (feedPlan_raises pad decl s).map fun _ _ => trivial
  | segUnpad => exact (answers_segUnpadLength s).map fun _ _ => trivial
  | modeEnc => exact modeWrites_raises (answers_encPlan s)
  | modeDec => exact modeWrites_raises (answers_decPlan s)
  | modeSetiv | modeSetctr => exact (answers_loadBlock (by decide) (by decide)).map fun _ _ => trivial
  | modeGetiv | modeGetctr => exact storeBlock_raises (by decide) _ _

/-! ## What the writes of a command leave unchanged -/

/-- `u` is `s` after writes of a command: everything but the V registers, the results, the segmenter, the mode state and
`DBUF` is as before. -/
def CommandWritten (s u : State) : Prop :=
  ∃ v result0 result1 seg mode dbuf,
    u = { s with v := v, result0 := result0, result1 := result1, seg := seg, mode := mode, dbuf := dbuf }

section
variable {i : Instr} {s t u : State}

theorem commandWrites_written (h : commandWrites i s = .ok u) : CommandWritten s u := by
  cases i
  case modeEnc | modeDec => obtain ⟨p, w, -, -, rfl⟩ := modeWrites_ok h; exact ⟨_, _, _, _, _, _, rfl⟩
  case modeGetiv | modeGetctr => rw [storeBlock_ok h]; exact ⟨_, _, _, _, _, _, rfl⟩
  case nop | bvMov | bvSize | bvRdw | bvAnd | bvOr | bvXor | bvNot | bvAdd | bvSub | bvShl | bvShr | bvHw | ctrReset =>
    cases h; exact ⟨_, _, _, _, _, _, rfl⟩
  all_goals obtain ⟨_, -, rfl⟩ := Except.map_eq_ok_iff.mp h; exact ⟨_, _, _, _, _, _, rfl⟩

/-- What is left of `s` at a completion without error. -/
theorem CommandWritten.completed (h : CommandWritten s u) {d : Nat} (ht : t = { u.complete with draws := d }) :
    hostSame s t ∧ t.port.trace = s.port.trace ∧ t.busy = false ∧ t.done = true ∧ portIdle t ∧
      (t.err = s.err ∧ t.errCode = s.errCode ∧ t.errSub = s.errSub ∧ t.errChk = s.errChk) := by
  obtain ⟨_, _, _, _, _, _, rfl⟩ := h
  subst ht
  simp [hostSame, portIdle]

end

/-! ## Only `MODE.DEC` raises after calls (43_modes R404, R405) -/

section
variable {P : Prim} {c : PadCfg} {m : ModeState} {dst : Nat} {msg : List Byte}

/-- A plan without a late error. -/
def ModePlan.Succeeds (p : ModePlan) : Prop := ∃ w, p.result = .ok w

theorem ecbEnc_succeeds : Answers (opRaises 0x40#8) ModePlan.Succeeds (ecbEnc P c m dst msg) :=
  (answers_modePad (by decide)).bind fun _ _ => (answers_checkRange (by decide)).bind fun _ _ => ⟨_, rfl⟩

theorem cbcEnc_succeeds : Answers (opRaises 0x40#8) ModePlan.Succeeds (cbcEnc P c m dst msg) :=
  (answers_modePad (by decide)).bind fun _ _ => (answers_checkRange (by decide)).bind fun _ _ => ⟨_, rfl⟩

theorem ecbCtsEnc_succeeds : (ecbCtsEnc P m msg).Succeeds := by
  unfold ecbCtsEnc
  split_ifs <;> exact ⟨_, rfl⟩

theorem cbcCtsEnc_succeeds : (cbcCtsEnc P m msg).Succeeds := by
  unfold cbcCtsEnc
  split_ifs <;> exact ⟨_, rfl⟩

theorem ctrXcrypt_succeeds : Answers (opRaises 0x40#8) ModePlan.Succeeds (ctrXcrypt P m dst msg) :=
  (answers_checkRange (by decide)).bind fun _ _ => ⟨_, rfl⟩

/-- An encryption that has made its plan can fail no more. -/
theorem encByMode_succeeds (x : ModeSample) :
    Answers (opRaises 0x40#8) ModePlan.Succeeds (encByMode P x m dst msg) := by
  unfold encByMode
  cases x.kind with
  | ecb => exact ecbEnc_succeeds
  | cbc => exact cbcEnc_succeeds
  | ecbCts => exact (answers_ctsCheck (.inl rfl)).map fun _ _ => ecbCtsEnc_succeeds
  | cbcCts => exact (answers_ctsCheck (.inl rfl)).map fun _ _ => cbcCtsEnc_succeeds
  | ctr => exact ctrXcrypt_succeeds

end

section
variable {i : Instr} {s t : State} {e : CmdError}

theorem encPlan_succeeds {p : ModePlan} (h : encPlan (attachedPrim s.primWidth) s = .ok p) : p.Succeeds := by
  obtain ⟨x, hopen, -⟩ := modeOpens_of_modePlan rfl h
  exact (encByMode_succeeds x).of_ok ((hopen.modePlan_eq rfl).symm.trans h)

/-- A command that raises has made no PRIM call, but for `MODE.DEC` (43_modes R405, R406). -/
theorem callsOf_of_error (h : commandWrites i s = .error e) : callsOf i s = [] ∨ i = .modeDec := by
  cases i
  case modeDec => exact .inr rfl
  case modeEnc =>
    left
    cases hplan : encPlan (attachedPrim s.primWidth) s with
    | error e' => rw [callsOf, hplan]; rfl
    | ok p =>
      obtain ⟨w, hw⟩ := encPlan_succeeds hplan
      rw [commandWrites, hplan] at h
      have hlate : p.result = .error e := Except.map_eq_error_iff.mp h
      cases hw.symm.trans hlate
  all_goals exact .inl rfl

/-! ## What every command answers (60_exceptions R511) -/

theorem runMode_next (s : State) (r : Except CmdError ModePlan) : ∃ t, runMode s r = .next t := by
  cases r with
  | error e => exact ⟨_, rfl⟩
  | ok p =>
    unfold runMode
    dsimp only
    split_ifs
    · exact finish_next _ _
    · exact ⟨_, rfl⟩

theorem exec_next (i : Instr) (s : State) : ∃ t, exec i s = .next t := by
  cases i
  case modeEnc | modeDec => exact runMode_next _ _
  case nop | bvMov | bvSize | bvRdw | bvAnd | bvOr | bvXor | bvNot | bvAdd | bvSub | bvShl | bvShr | bvHw | ctrReset =>
    exact ⟨_, rfl⟩
  all_goals exact finish_next _ _

/-- A command ends, or it waits with a call that is not answered. -/
theorem exec_ends_or_waits (h : exec i s = .next t) :
    (t = s ∧ (i = .modeEnc ∨ i = .modeDec) ∧ ¬ primLive i s) ∨ EndsAs s (commandWrites i s) t := by
  by_cases hlive : primLive i s
  · rcases exec_end i with hend | hend
    · exact .inr (finish_endsAs ((hend s hlive).symm.trans h))
    · exact .inr (finishRead_endsAs ((hend s hlive).symm.trans h))
  · exact (exec_cases h).imp_left fun ⟨ht, hi⟩ => ⟨ht, hi, hlive⟩

end

/-! ## Settled: errors are precise -/

/-- Settles O6: a command that does not wait ends as `commandWrites` says: its writes leave the rest
(`commandWrites_written`), its errors are in the table (`commandWrites_raises`) and, but for `MODE.DEC`, come before
any call (`callsOf_of_error`). -/
theorem errorsArePrecise : Obligations.ErrorsArePrecise := by
  intro i s
  obtain ⟨t, ht⟩ := exec_next i s
  refine ⟨t, ht, ?_⟩
  rcases exec_ends_or_waits ht with ⟨rfl, hi, hlive⟩ | ⟨u, d, hwrites, hu⟩ | ⟨e, d, herror, rfl⟩
  · exact ⟨by simp [hostSame], rfl, .inl ⟨rfl, hi, hlive⟩⟩
  · obtain ⟨hhost, htrace, hbusy, hdone, hport, herr⟩ := (commandWrites_written hwrites).completed hu
    exact ⟨hhost, htrace, .inr ⟨hbusy, hdone, hport, .inl herr⟩⟩
  · have hraise : mayRaise i e.code e.sub := opRaises_iff_mayRaise.mp ((commandWrites_raises i s).of_error herror)
    exact ⟨by simp [hostSame], rfl,
      .inr ⟨rfl, rfl, ⟨rfl, rfl⟩, .inr ⟨e.code, e.sub, hraise, rfl, callsOf_of_error herror⟩⟩⟩

/-! ## The interrupt output, event by event (60_exceptions R520) -/

/-- What makes the output rise: the end of a running command with interrupts enabled, or the host enabling them while
`DONE` stands. -/
def IrqRiseCause (s t : State) : Prop :=
  (s.busy = true ∧ t.busy = false ∧ t.done = true ∧ s.ie = true) ∨
  (s.done = true ∧ ∃ (w : Word) (rest : List Event), s.agenda = .write 0x008#13 w :: rest ∧
    w.getLsbD 0 = true ∧ w.getLsbD 1 = false)

/-- What makes the output fall: a write of 1 to `STATUS.DONE`, a write of `CTRL` with `IE = 0`, or a reset. -/
def IrqFallCause (s : State) : Prop :=
  (∃ (w : Word) (rest : List Event), s.agenda = .write 0x00C#13 w :: rest ∧ w.getLsbD 1 = true) ∨
  (∃ (w : Word) (rest : List Event), s.agenda = .write 0x008#13 w :: rest ∧ w.getLsbD 0 = false) ∨
  resetsNext s

/-- A step from `s` to `t` moves the output only for a cause. -/
def IrqMovesByCause (s t : State) : Prop :=
  (s.irq = false → t.irq = true → IrqRiseCause s t) ∧ (s.irq = true → t.irq = false → IrqFallCause s)

section
variable {s t : State} {i : Instr} {w : Word} {rest : List Event}

theorem irq_iff : s.irq = true ↔ s.ie = true ∧ s.done = true := Bool.and_eq_true_iff

theorem IrqMovesByCause.of_irq_eq (h : t.irq = s.irq) : IrqMovesByCause s t :=
  ⟨fun h0 h1 => absurd (h0.symm.trans (h.symm.trans h1)) Bool.false_ne_true,
   fun h1 h0 => absurd (h0.symm.trans (h.trans h1)) Bool.false_ne_true⟩

/-- A completion can only raise the output. -/
theorem IrqMovesByCause.of_completion (hbusy : s.busy = true) (hidle : t.busy = false) (hdone : t.done = true)
    (hie : t.ie = s.ie) : IrqMovesByCause s t :=
  ⟨fun _ h1 => .inl ⟨hbusy, hidle, hdone, hie ▸ (irq_iff.mp h1).1⟩,
   fun h1 h0 => absurd (h0.symm.trans (irq_iff.mpr ⟨hie.trans (irq_iff.mp h1).1, hdone⟩)) Bool.false_ne_true⟩

/-- A reset clears the output. -/
theorem IrqMovesByCause.of_reset (hreset : resetsNext s) (h : t.irq = false) : IrqMovesByCause s t :=
  ⟨fun _ h1 => absurd (h.symm.trans h1) Bool.false_ne_true, fun _ _ => .inr (.inr hreset)⟩

theorem irq_hostRead (o : HostOffset) (s : State) : (hostRead o s).irq = s.irq := by
  unfold hostRead
  split
  case h_2 => split_ifs <;> rfl
  all_goals rfl

theorem irq_primEvent (s : State) : (primEvent s).irq = s.irq := by
  rcases primEvent_cases s with h | ⟨-, -, h⟩ | ⟨-, -, c, -, h⟩ <;> rw [h] <;> rfl

theorem irq_idleWrite {s t : State} (h : t.irq = s.irq) : (idleWrite s t).irq = s.irq := by
  rcases idleWrite_cases s t with he | ⟨-, he⟩ <;> rw [he]
  · rfl
  · exact h

theorem hostRegAt_eq_status {n : Nat} (h : hostRegAt n = some .status) : n = 0x00C := by
  unfold hostRegAt at h
  split at h <;> cases h
  rfl

/-- Of all host writes only those of `CTRL` and of `STATUS` reach the output. -/
theorem hostWrite_irq_cases (o : HostOffset) (w : Word) (s : State) :
    (hostWrite o w s).irq = s.irq ∨ (o = 0x008#13 ∧ hostWrite o w s = writeCtrl w s) ∨
      (o = 0x00C#13 ∧ hostWrite o w s = s.clearStatus w) := by
  cases htarget : targetOf o with
  | misaligned => exact .inl (by rw [hostWrite, htarget]; rfl)
  | unmapped => exact .inl (by rw [hostWrite, htarget]; rfl)
  | dbuf a => exact .inl (by rw [hostWrite_of_dbuf htarget]; exact irq_idleWrite rfl)
  | reg r =>
    have hreg := hostRegAt_of_targetOf htarget
    rw [hostWrite_of_reg hreg]
    cases r
    case ctrl => exact .inr (.inl ⟨BitVec.eq_of_toNat_eq (hostRegAt_eq_ctrl hreg), rfl⟩)
    case status => exact .inr (.inr ⟨BitVec.eq_of_toNat_eq (hostRegAt_eq_status hreg), rfl⟩)
    case cmd =>
      left
      unfold regWrite writeCmd
      dsimp only
      split_ifs <;> rfl
    case arg0 | arg1 | arg2 | arg3 | segCfg | segBlkBits | modeCfg => exact .inl (irq_idleWrite rfl)
    all_goals exact .inl rfl

theorem irq_writeCtrl (w : Word) (s : State) :
    (writeCtrl w s).irq = (!w.getLsbD 1 && (w.getLsbD 0 && s.done)) := by
  unfold writeCtrl
  cases w.getLsbD 1 <;> rfl

theorem IrqMovesByCause.writeCtrl (hagenda : s.agenda = .write 0x008#13 w :: rest) :
    IrqMovesByCause s (writeCtrl w { s with agenda := rest }) := by
  have hirq : (Machine.writeCtrl w { s with agenda := rest }).irq = (!w.getLsbD 1 && (w.getLsbD 0 && s.done)) :=
    irq_writeCtrl w _
  refine ⟨fun _ h1 => ?_, fun h1 h0 => ?_⟩
  · simp only [hirq, Bool.and_eq_true, Bool.not_eq_true'] at h1
    obtain ⟨hreset, hie, hdone⟩ := h1
    exact .inr ⟨hdone, w, rest, hagenda, hie, hreset⟩
  · rw [hirq] at h0
    cases hreset : w.getLsbD 1
    · rw [hreset, (irq_iff.mp h1).2, Bool.and_true] at h0
      exact .inr (.inl ⟨w, rest, hagenda, h0⟩)
    · exact .inr (.inr ⟨_, rest, hagenda, .inr ⟨w, rfl, hreset⟩⟩)

theorem irq_clearStatus (w : Word) (s : State) : (s.clearStatus w).irq = (s.irq && !w.getLsbD 1) := by
  rw [State.clearStatus_eq]
  exact (Bool.and_assoc ..).symm

theorem IrqMovesByCause.clearStatus (hagenda : s.agenda = .write 0x00C#13 w :: rest) :
    IrqMovesByCause s (State.clearStatus { s with agenda := rest } w) := by
  have hirq : (State.clearStatus { s with agenda := rest } w).irq = (s.irq && !w.getLsbD 1) := irq_clearStatus w _
  refine ⟨fun h0 h1 => ?_, fun h1 h0 => .inl ⟨w, rest, hagenda, ?_⟩⟩
  · rw [hirq, h0] at h1
    cases h1
  · simpa [hirq, h1] using h0

theorem IrqMovesByCause.hostWrite {o : HostOffset} (hagenda : s.agenda = .write o w :: rest) :
    IrqMovesByCause s (hostWrite o w { s with agenda := rest }) := by
  rcases hostWrite_irq_cases o w { s with agenda := rest } with h | ⟨rfl, h⟩ | ⟨rfl, h⟩
  · exact .of_irq_eq h
  · exact h ▸ .writeCtrl hagenda
  · exact h ▸ .clearStatus hagenda

/-- A command that runs completes or leaves the output as it is, for it keeps `IE` (R511). -/
theorem IrqMovesByCause.exec (hbusy : s.busy = true) (h : exec i { s with agenda := rest } = .next t) :
    IrqMovesByCause s t := by
  obtain ⟨t', ht', hhost, -, hend⟩ := errorsArePrecise i { s with agenda := rest }
  obtain rfl : t = t' := Host.Outcome.next.inj (h.symm.trans ht')
  obtain ⟨-, -, -, -, hie, -⟩ := hhost
  rcases hend with ⟨rfl, -⟩ | ⟨hidle, hdone, -⟩
  · exact .of_irq_eq rfl
  · exact .of_completion hbusy hidle hdone hie

end

/-! ## Settled: the interrupt output -/

/-- Settles O7: each event moves the output only for a cause; a command does by `errorsArePrecise`. -/
theorem interruptRisesOnlyByCompletionOrEnable : Obligations.InterruptRisesOnlyByCompletionOrEnable := by
  intro s t h
  show IrqMovesByCause s t
  rcases step_cases h with ⟨-, rfl⟩ | ⟨e, rest, hagenda, hevent⟩
  · exact .of_irq_eq rfl
  rcases hevent with ⟨o, w, rfl, rfl⟩ | ⟨o, -, rfl⟩ | ⟨rfl, rfl⟩ | ⟨-, rfl⟩ | ⟨-, -, rfl⟩ | ⟨err, -, hbusy, -, rfl⟩ |
    ⟨i, -, hbusy, -, hexec⟩
  · exact .hostWrite hagenda
  · exact .of_irq_eq (irq_hostRead o _)
  · exact .of_reset ⟨_, rest, hagenda, .inl rfl⟩ rfl
  · exact .of_irq_eq (irq_primEvent _)
  · exact .of_irq_eq rfl
  · exact .of_completion hbusy rfl rfl rfl
  · exact .exec hbusy hexec

end Sys2Proof.Machine

namespace Sys2Proof.Machine

/-! ## The destination range of the command in progress (70 R603; log 9) -/

theorem rangeOf_storeBlock (b : List Byte) (s : State) :
    rangeOf (storeBlock b s) s.u0 (fun _ => s.primWidth.bytes) =
      if s.u0 + s.primWidth.bytes ≤ 4096 then some (s.u0, s.primWidth.bytes) else none := by
  rw [storeBlock_eq]
  split_ifs <;> rfl

theorem destRange_modeGetiv (s : State) : destRange .modeGetiv s =
    if s.u0 + s.primWidth.bytes ≤ 4096 then some (s.u0, s.primWidth.bytes) else none :=
  rangeOf_storeBlock _ s

theorem destRange_modeGetctr (s : State) : destRange .modeGetctr s =
    if s.u0 + s.primWidth.bytes ≤ 4096 then some (s.u0, s.primWidth.bytes) else none :=
  rangeOf_storeBlock _ s

/-- A destination range depends on neither `STATUS.ERR` nor the events to come. -/
theorem destRange_withErr_withAgenda (i : Instr) (s : State) (e : Bool) (es : List Event) :
    destRange i { s with err := e, agenda := es } = destRange i s := by
  cases i
  case modeGetiv => simp only [destRange_modeGetiv]
  case modeGetctr => simp only [destRange_modeGetctr]
  all_goals rfl

section
variable {s : State}

theorem runningDest_of_decode {i : Instr} (h : decode s.cmd = .ok i) : runningDest s = destRange i s := by
  rw [runningDest, h]

theorem runningDest_of_decode_error {e : DecodeError} (h : decode s.cmd = .error e) : runningDest s = none := by
  rw [runningDest, h]

theorem runningDest_withAgenda (s : State) (rest : List Event) :
    runningDest { s with agenda := rest } = runningDest s := by
  cases h : decode s.cmd with
  | ok i =>
    rw [runningDest_of_decode h, ← destRange_withErr_withAgenda i s s.err rest]
    exact runningDest_of_decode h
  | error e =>
    rw [runningDest_of_decode_error h]
    exact runningDest_of_decode_error h

end

/-! ## `DBUF` after a soft reset (70 R602, R603) -/

/-- Bytes selected by their addresses: an address that is not selected is no longer listed. -/
theorem Memory.byte?_filter (p : Nat → Bool) (x : Nat) :
    ∀ m : Memory, Memory.byte? (m.filter fun c => p c.1) x = if p x then Memory.byte? m x else none
  | [] => by simp [Memory.byte?]
  | (k, b) :: m => by
    have ih := Memory.byte?_filter p x m
    rw [List.filter_cons]
    by_cases hx : x = k
    · subst hx
      cases hp : p x <;> simp [Memory.byte?, hp, ih]
    · cases hp : p k <;> simpa [Memory.byte?, hx] using ih

theorem Memory.byte?_scramble (m : Memory) (draw a n x : Nat) :
    Memory.byte? (Memory.scramble m draw a n) x =
      if !(decide (a ≤ x) && decide (x < a + n)) || Config.keepsOld draw x then Memory.byte? m x else none :=
  Memory.byte?_filter (fun k => !(decide (a ≤ k) && decide (k < a + n)) || Config.keepsOld draw k) x m

theorem Memory.byte?_scramble_of_not_mem {m : Memory} {draw a n x : Nat} (hx : x < a ∨ a + n ≤ x) :
    Memory.byte? (Memory.scramble m draw a n) x = Memory.byte? m x := by
  have hout : ¬ (a ≤ x ∧ x < a + n) := by omega
  rw [Memory.byte?_scramble, ← Bool.decide_and, decide_eq_false hout]
  rfl

theorem Memory.byte?_scramble_eq_or (m : Memory) (draw a n x : Nat) :
    Memory.byte? (Memory.scramble m draw a n) x = Memory.byte? m x ∨
      Memory.byte? (Memory.scramble m draw a n) x = none := by
  rw [Memory.byte?_scramble]
  exact ite_eq_or_eq _ _ _

section
variable {s : State}

theorem State.dbufAfterSoftReset_of_idle (hidle : s.busy = false) : s.dbufAfterSoftReset = s.dbuf :=
  if_neg (Bool.eq_false_iff.mp hidle)

theorem State.dbufAfterSoftReset_of_dest_none (h : runningDest s = none) : s.dbufAfterSoftReset = s.dbuf := by
  rw [State.dbufAfterSoftReset, h]
  exact ite_self _

theorem State.dbufAfterSoftReset_of_dest_some {a n : Nat} (hbusy : s.busy = true) (h : runningDest s = some (a, n)) :
    s.dbufAfterSoftReset = Memory.scramble s.dbuf s.draws a n := by
  rw [State.dbufAfterSoftReset, if_pos hbusy, h]

theorem State.dbufAfterSoftReset_withAgenda (s : State) (rest : List Event) :
    State.dbufAfterSoftReset { s with agenda := rest } = s.dbufAfterSoftReset := by
  rw [State.dbufAfterSoftReset, State.dbufAfterSoftReset, runningDest_withAgenda]

end

/-! ## The reset events (70 R600, R602) -/

section
variable {s : State} {rest : List Event} {w : Word}

/-- What a reset leaves: the reset state, but for `DBUF` and the model's own record of the world outside. -/
theorem State.resetKeeping_eq (s : State) (rest : List Event) (mem : Memory) :
    State.resetKeeping { s with agenda := rest } mem =
      { State.resetWith s.primWidth with
        dbuf := mem, agenda := rest, rdata := s.rdata, draws := s.draws + 1,
        port := { outstanding := none, answered := 0, trace := s.port.trace } } := rfl

theorem step_of_softReset (hagenda : s.agenda = .write 0x008#13 w :: rest) (hreset : w.getLsbD 1 = true) :
    step s = .next (State.resetKeeping { s with agenda := rest } s.dbufAfterSoftReset) := by
  have hwrite : hostWrite 0x008#13 w { s with agenda := rest } = State.softReset { s with agenda := rest } :=
    (hostWrite_of_reg (r := .ctrl) rfl w _).trans (if_pos hreset)
  rw [step_of_agenda_cons hagenda, stepEvent, hwrite, State.softReset, State.dbufAfterSoftReset_withAgenda]

/-- With no command in progress, the port takes no call and an answer is ignored. -/
theorem primEvent_of_idle (hidle : s.busy = false) : primEvent s = s :=
  if_neg (Bool.eq_false_iff.mp hidle)

end

/-! ## Settled: the resets of any state and of an idle block -/

/-- Settles O11: either reset is `resetKeeping`; a hardware reset lists no byte of `DBUF`, a soft reset of an idle block
keeps them all. -/
theorem resetsFromAnyState : Obligations.ResetsFromAnyState := by
  refine fun s rest => ⟨fun hagenda => ?hard, fun w hagenda hreset hidle => ?soft⟩
  case hard => exact ⟨_, step_of_agenda_cons hagenda, rfl, primEvent_of_idle rfl, s.resetKeeping_eq rest []⟩
  case soft =>
    rw [step_of_softReset hagenda hreset, State.dbufAfterSoftReset_of_idle hidle, State.resetKeeping_eq]

end Sys2Proof.Machine

namespace Sys2Proof.Machine

/-! ## The destination ranges of the stores and of `SEG.FEED` (41_bitvector R213, R250; 42_segmenter R305) -/

section
variable {s : State} {va : VReg} {bo : BitOrder} {pad decl : Bool}

theorem destRange_bvStb (hbo : bo ≠ .reserved) (hroom : s.u0 + (s.vreg va).byteCount ≤ 4096) :
    destRange (.bvStb va bo) s = some (s.u0, (s.vreg va).byteCount) := by
  rw [destRange, stbBytes_ok hbo hroom, rangeOf, length_natToBytes hbo]

theorem destRange_bvPack (va : VReg) (big : Bool) (s : State) :
    destRange (.bvPack va big) s = destRange (.bvStb va (if big then .bigEndian else .littleEndian)) s := by
  rw [destRange, destRange, packBytes_eq_stbBytes]

/-- A store that decodes has no reserved bit order (30_encoding R147). -/
theorem ne_reserved_of_decode (h : decode s.cmd = .ok (.bvStb va bo)) : bo ≠ .reserved := by
  rintro rfl
  cases (decodedWordsEncodeBack _ _ h).1

theorem Paddable.length_paddedBits_add {c : PadCfg} {m : List Bool} (h : Paddable c m) (p : Nat) :
    (paddedBits c m p).length = m.length + (paddedTail c m p).padBits := by
  by_cases hnone : c.scheme = .none
  · obtain ⟨hbits, hpad⟩ := paddedBits_of_none (m := m) hnone p
    rw [hbits, hpad, Nat.add_zero]
  · exact h.length_paddedBits_eq p hnone

/-- The bits that the padding of a feed adds to its message (R311, R319). -/
def feedPadBits (pad decl : Bool) (s : State) : Nat :=
  if pad then (padTail s.seg.cfg
    ((feedMsg decl s).drop (feedBits decl s / s.seg.cfg.blockBits * s.seg.cfg.blockBits))
    (s.seg.processed + BitVec.ofNat 64 (feedBits decl s)).toNat).padBits else 0

/-- The bytes of a feed are the message and its padding, and no more (R310, R311). -/
theorem FeedFits.length_out (h : FeedFits pad decl s) (hlegal : s.seg.cfg.legal = true) :
    (feedMessage pad s.seg (feedMsg decl s)).out.length = (feedBits decl s + feedPadBits pad decl s + 7) / 8 := by
  have hlen := length_feedMsg h.declared
  cases pad with
  | false =>
    have hwhole := h.whole.resolve_left Bool.false_ne_true
    rw [feedMessage_of_whole (hlen.symm ▸ hwhole), length_packBits, hlen]
    rfl
  | true =>
    have hpaddable : Paddable s.seg.cfg (feedMsg decl s) := ⟨hlegal, hlen.symm ▸ h.bytes rfl⟩
    rw [feedMessage_of_pad hlegal rfl, length_packBits, hpaddable.length_paddedBits_add, paddedTail, hlen]
    rfl

theorem FeedFits.destRange_segFeed (h : FeedFits pad decl s) (hlegal : s.seg.cfg.legal = true)
    (hroom : s.u3 + (feedBits decl s + feedPadBits pad decl s + 7) / 8 ≤ 4096) :
    destRange (.segFeed pad decl) s = some (s.u3, (feedBits decl s + feedPadBits pad decl s + 7) / 8) := by
  rw [← h.length_out hlegal] at hroom ⊢
  rw [destRange, h.feedPlan_eq, checkRange_bind_pass _ hroom]
  rfl

end

/-! ## The destination ranges of `MODE.ENC` and `MODE.DEC` (43_modes R403, R404, R405) -/

section
variable {P : Prim} {plain : Prop} [Decidable plain] {m : ModeState} {msg : List Byte}

theorem room_ctsEnc : (ctsEnc P plain m msg).room = msg.length := by
  unfold ctsEnc ecbCtsEnc cbcCtsEnc
  split_ifs <;> rfl

theorem room_ctsDec : (ctsDec P plain m msg).room = msg.length := by
  unfold ctsDec ecbCtsDec cbcCtsDec
  split_ifs <;> rfl

end

section
variable {s : State} {n : Nat}

/-- The range of a MODE command is the one its plan has checked. -/
theorem destRange_of_modePlan {i : Instr} {p : ModePlan} (hi : i = .modeEnc ∨ i = .modeDec)
    (h : modePlan (attachedPrim s.primWidth) (byModeOf i) s = .ok p) (hroom : p.room = n) :
    destRange i s = some (s.u2, n) := by
  subst hroom
  rcases hi with rfl | rfl
  · exact congrArg (rangeOf · s.u2 ModePlan.room) h
  · exact congrArg (rangeOf · s.u2 ModePlan.room) h

/-- In ECB and CBC the range of an encryption is that of the padded message (R403). -/
theorem destRange_modeEnc_of_padded {sc : PadScheme} (hcfg : modeConfigOk s) (hstate : modeStateOk s)
    (hsource : s.u0 + s.u1 ≤ 4096) (hfield : modeField s ≤ 1)
    (hsc : schemeOfCode (s.modeCfg.extractLsb' 4 3) = some sc)
    (hwhole : sc = .none → s.u1 % s.primWidth.bytes = 0)
    (hn : n = (paddedMessage (modePadCfg s sc) s.primWidth.bytes (modeMsg s)).length) (hroom : s.u2 + n ≤ 4096) :
    destRange .modeEnc s = some (s.u2, n) := by
  subst hn
  have hopen := modeOpens_of_padded hcfg hstate hsource hfield (modeField_eq_blockMode hfield) hsc
  have hpads := modePads_modeMsg (modePadCfg_legal hcfg hfield hsc) hwhole
  exact destRange_of_modePlan (.inl rfl) ((hopen.modePlan_eq rfl).trans (ModePads.encByMode_of_le hpads hroom))
    (length_blocksOf_mul hpads.bytes_pos hpads.length_mod)

theorem destRange_modeEnc_of_stealing (hstate : modeStateOk s) (hsource : s.u0 + s.u1 ≤ 4096)
    (hfield : modeField s = 2 ∨ modeField s = 3) (hle : s.primWidth.bytes ≤ s.u1) (hroom : s.u2 + s.u1 ≤ 4096) :
    destRange .modeEnc s = some (s.u2, s.u1) :=
  destRange_of_modePlan (.inl rfl) (modePlan_ctsEnc rfl hfield hstate hsource hle hroom)
    (room_ctsEnc.trans (length_modeMsg s))

theorem destRange_ctr {i : Instr} (hi : i = .modeEnc ∨ i = .modeDec) (hstate : modeStateOk s)
    (hsource : s.u0 + s.u1 ≤ 4096) (hfield : modeField s = 4) (hroom : s.u2 + s.u1 ≤ 4096) :
    destRange i s = some (s.u2, s.u1) := by
  obtain ⟨-, hvalid⟩ := hstate
  exact destRange_of_modePlan hi (modePlan_ctr hi (attachedPrim_blockSized _) (attachedPrim_bytes_pos _) rfl hfield
    (hvalid hfield) hsource hroom) (length_modeMsg s)

/-- The length checks of the mode with number `field`, on a source of `n` bytes, and the check of the destination range
(R408, R410, R411, R435). -/
structure DecFits (B field dst n : Nat) : Prop where
  whole : field ≤ 1 → n % B = 0
  least : field = 2 ∨ field = 3 → B ≤ n
  room : dst + n ≤ 4096

/-- What `MODE.DEC` has passed once its destination range is checked. Only the padding errors come later (R405). -/
structure DecReaches (s : State) : Prop where
  config : modeConfigOk s
  state : modeStateOk s
  source : s.u0 + s.u1 ≤ 4096
  fits : DecFits s.primWidth.bytes (modeField s) s.u2 s.u1

/-- Once `MODE.DEC` reaches it, the range is as long as the source, whatever the padding (R405). -/
theorem DecReaches.destRange_modeDec (h : DecReaches s) : destRange .modeDec s = some (s.u2, s.u1) := by
  have hlen := length_modeMsg s
  have hB := attachedPrim_bytes_pos s.primWidth
  obtain ⟨hcfg, hstate, hsource, hwhole, hleast, hroom⟩ := h
  have hmax : modeField s ≤ 4 := hcfg.1
  have hmode : modeField s ≤ 1 ∨ (modeField s = 2 ∨ modeField s = 3) ∨ modeField s = 4 := by omega
  rcases hmode with hfield | hfield | hfield
  · obtain ⟨sc, hsc⟩ := exists_scheme hcfg hfield
    have hmod : (modeMsg s).length % (attachedPrim s.primWidth).bytes = 0 := hlen.symm ▸ hwhole hfield
    have hopen := modeOpens_of_padded hcfg hstate hsource hfield (modeField_eq_blockMode hfield) hsc
    exact destRange_of_modePlan (.inr rfl)
      ((hopen.modePlan_eq rfl).trans (decByMode_of_le hB hmod (hlen.symm ▸ hroom)))
      ((length_blocksOf_mul hB hmod).trans hlen)
  · exact destRange_of_modePlan (.inr rfl) (modePlan_ctsDec rfl hfield hstate hsource (hleast hfield) hroom)
      (room_ctsDec.trans hlen)
  · exact destRange_ctr (.inr rfl) hstate hsource hfield hroom

end

/-! ## What a MODE command has passed when its plan is made -/

section
variable {s : State} {x : ModeSample}

theorem ModeOpens.modeField_eq (h : ModeOpens s x) : modeField s = x.kind.number :=
  (answers_modeSample (.inl rfl) _ _).of_ok h.sample

/-- A sample is made only of a configuration that passes R401. -/
theorem ModeOpens.configOk (h : ModeOpens s x) : modeConfigOk s := by
  have hsample := h.sample
  refine ⟨?_, fun hfield => ?_⟩
  · by_contra hlt
    rw [modeSample_of_reserved (Nat.lt_of_not_le hlt)] at hsample
    cases hsample
  · have hpad : padField s ≠ 7 := by
      intro hpad
      rw [modeSample_of_badPad hfield hpad] at hsample
      cases hsample
    obtain ⟨sc, hsc⟩ := Option.ne_none_iff_exists'.mp (mt schemeOfCode_eq_none_iff.mp hpad)
    rw [modeSample_of_padded hfield h.modeField_eq hsc] at hsample
    split_ifs at hsample with hfits
    have hsuffix := (fieldFits_modePadCfg_iff hsc).mp hfits
    exact ⟨hpad, fun hmd => Nat.le_of_not_lt fun hlt => hsuffix (.inl ⟨hmd, hlt⟩),
      fun hblake => Nat.le_of_not_lt fun hlt => hsuffix (.inr ⟨hblake, hlt⟩)⟩

theorem ModeOpens.stateOk (h : ModeOpens s x) : modeStateOk s := by
  refine ⟨fun hmode => ?iv, fun hmode => ?counter⟩
  case iv =>
    cases hiv : s.mode.ivValid with
    | true => rfl
    | false => cases h.state.symm.trans (modeStateCheck_of_noIv h.modeField_eq hmode hiv)
  case counter =>
    have hkind := h.modeField_eq.symm.trans hmode
    have hstate := h.state
    cases hx : x.kind with
    | ctr => exact check_eq_ok.mp (hx ▸ hstate)
    | ecb | cbc | ecbCts | cbcCts => exact absurd (hx ▸ hkind) (by decide)

/-- A decryption that makes its plan has passed the checks of its mode. -/
theorem answers_decByMode_fits {P : Prim} {m : ModeState} {dst : Nat} {msg : List Byte} :
    Answers (opRaises 0x41#8) (fun _ => DecFits P.bytes x.kind.number dst msg.length) (decByMode P x m dst msg) := by
  unfold decByMode
  cases x.kind with
  | ecb | cbc =>
    exact (answers_check (by decide)).bind fun _ hmod => (answers_checkRange (by decide)).bind fun _ hroom =>
      ⟨fun _ => of_decide_eq_true hmod, fun h => absurd h (by decide), hroom⟩
  | ecbCts | cbcCts =>
    exact (answers_ctsCheck (.inr rfl)).map fun _ ⟨hle, hroom⟩ =>
      ⟨fun h => absurd h (by decide), fun _ => hle, hroom⟩
  | ctr =>
    exact (answers_checkRange (by decide)).bind fun _ hroom =>
      ⟨fun h => absurd h (by decide), fun h => absurd h (by decide), hroom⟩

theorem decReaches_of_decPlan {p : ModePlan} (h : decPlan (attachedPrim s.primWidth) s = .ok p) : DecReaches s := by
  obtain ⟨x, hopen, hkind⟩ := modeOpens_of_modePlan rfl h
  have hfits := answers_decByMode_fits.of_ok ((hopen.modePlan_eq rfl).symm.trans h)
  rw [length_modeMsg, ← hkind] at hfits
  exact ⟨hopen.configOk, hopen.stateOk, hopen.source, hfits⟩

theorem destRange_modeDec_of_not_reaches (h : ¬ DecReaches s) : destRange .modeDec s = none := by
  cases hplan : decPlan (attachedPrim s.primWidth) s with
  | ok p => exact absurd (decReaches_of_decPlan hplan) h
  | error e => rw [destRange, hplan, rangeOf]

end

/-! ## Commands without a destination range -/

section
variable {i : Instr} {s : State}

/-- A command that raises does so for an error of its computation. -/
theorem commandWrites_of_raises (h : raises i s) : ∃ e, commandWrites i { s with err := false } = .error e := by
  obtain ⟨t, hexec, herr⟩ := h
  rcases exec_cases hexec with ⟨rfl, -⟩ | ⟨u, d, hu, rfl⟩ | ⟨e, d, he, -⟩
  · cases herr
  · obtain ⟨_, _, _, _, _, _, rfl⟩ := commandWrites_written hu
    cases herr
  · exact ⟨e, he⟩

/-- An encryption that raises has made no plan. -/
theorem encPlan_of_writes_error {e : CmdError} (h : commandWrites .modeEnc s = .error e) :
    ∃ e', encPlan (attachedPrim s.primWidth) s = .error e' := by
  cases hplan : encPlan (attachedPrim s.primWidth) s with
  | error e' => exact ⟨e', rfl⟩
  | ok p =>
    obtain ⟨w, hw⟩ := encPlan_succeeds hplan
    rw [commandWrites, hplan] at h
    cases hw.symm.trans (Except.map_eq_error_iff.mp h)

/-- A command other than `MODE.DEC` raises before or at the check of its destination range. -/
theorem destRange_of_writes_error {e : CmdError} (h : commandWrites i s = .error e) (hdec : i ≠ .modeDec) :
    destRange i s = none := by
  cases i
  case modeDec => exact absurd rfl hdec
  case modeEnc =>
    obtain ⟨e', he'⟩ := encPlan_of_writes_error h
    rw [destRange, he', rangeOf]
  case modeGetiv | modeGetctr =>
    rw [commandWrites] at h
    rw [destRange, h, rangeOf]
  case bvStb | bvPack | segFeed =>
    rw [destRange, Except.map_eq_error_iff.mp h, rangeOf]
  all_goals rfl

theorem destRange_of_raises (h : raises i s) (hdec : i ≠ .modeDec) : destRange i s = none := by
  obtain ⟨e, he⟩ := commandWrites_of_raises h
  rw [← destRange_withErr_withAgenda i s false s.agenda]
  exact destRange_of_writes_error he hdec

/-- The listed opcodes are those of the commands that store to `DBUF`. -/
theorem destRange_of_no_store
    (h : opcodeByte i ∉ [0x12#8, 0x2D#8, 0x31#8, 0x40#8, 0x41#8, 0x43#8, 0x45#8]) : destRange i s = none := by
  cases i
  case bvStb | bvPack | segFeed | modeEnc | modeDec | modeGetiv | modeGetctr => simp [opcodeByte] at h
  all_goals rfl

end

/-! ## Settled: a soft reset during a command -/

/-- Settles O12: the state is `resetKeeping` of the buffer that `runningDest` leaves; the range is there just when the
command's computation has passed the check of it. -/
theorem softResetAbandonsTheCommand : Obligations.SoftResetAbandonsTheCommand := by
  intro s rest w hbusy hagenda hreset
  refine ⟨_, step_of_softReset hagenda hreset, rfl, rfl, fun hnone x => ?kept, fun a n hdest => ?lost,
    fun va bo hdecode hroom => ?stb, fun va big hdecode hroom => ?pack, fun hdecode hroom => ?chainAndCounter,
    fun pad decl n hdecode hlegal hopen hsource hdeclared hwhole hbytes hn hroom => ?feed,
    fun n hdecode hcfg hstate hsource hmode hroom => ?encrypt,
    fun hdecode hcfg hstate hsource hwhole hleast hroom => ?decrypt, fun i hdecode h => ?noRange,
    fun e => runningDest_of_decode_error⟩
  case kept => exact congrArg (Memory.byte? · x) (State.dbufAfterSoftReset_of_dest_none hnone)
  case lost =>
    rw [State.dbufAfterSoftReset_of_dest_some hbusy hdest]
    exact ⟨fun x hx => Memory.byte?_scramble_of_not_mem hx, Memory.byte?_scramble_eq_or _ _ _ _⟩
  case stb =>
    rw [runningDest_of_decode hdecode]
    exact destRange_bvStb (ne_reserved_of_decode hdecode) hroom
  case pack =>
    rw [runningDest_of_decode hdecode, destRange_bvPack]
    exact destRange_bvStb (byteOrder_ne_reserved big) hroom
  case chainAndCounter =>
    rcases hdecode with hdecode | hdecode
    · rw [runningDest_of_decode hdecode, destRange_modeGetiv, if_pos hroom]
    · rw [runningDest_of_decode hdecode, destRange_modeGetctr, if_pos hroom]
  case feed =>
    subst hn
    have hfits : FeedFits pad decl s := by
      refine ⟨⟨hopen, hsource, hdeclared⟩, ?_, fun hpad h => hbytes hpad (PadScheme.wholeBytes_iff.mp h)⟩
      cases pad with
      | false => exact .inr (hwhole rfl)
      | true => exact .inl rfl
    rw [runningDest_of_decode hdecode]
    exact hfits.destRange_segFeed hlegal hroom
  case encrypt =>
    rw [runningDest_of_decode hdecode]
    rcases hmode with ⟨sc, hfield, hsc, hwhole, hn⟩ | ⟨hfield, hle, rfl⟩ | ⟨hfield, rfl⟩
    · exact destRange_modeEnc_of_padded hcfg hstate hsource hfield hsc hwhole hn hroom
    · exact destRange_modeEnc_of_stealing hstate hsource hfield hle hroom
    · exact destRange_ctr (.inl rfl) hstate hsource hfield hroom
  case decrypt =>
    rw [runningDest_of_decode hdecode]
    exact DecReaches.destRange_modeDec ⟨hcfg, hstate, hsource, hwhole, hleast, hroom⟩
  case noRange =>
    rw [runningDest_of_decode hdecode]
    rcases h with h | ⟨h, hdec⟩ | ⟨rfl, h⟩
    · exact destRange_of_no_store h
    · exact destRange_of_raises h hdec
    · refine destRange_modeDec_of_not_reaches ?_
      rintro ⟨hcfg, hstate, hsource, hwhole, hleast, hroom⟩
      rcases h with h | h | h | ⟨hfield, h⟩ | ⟨hfield, h⟩ | h
      exacts [h hcfg, h hstate, absurd hsource (Nat.not_le_of_lt h), h (hwhole hfield),
        absurd (hleast hfield) (Nat.not_le_of_lt h), absurd hroom (Nat.not_le_of_lt h)]

end Sys2Proof.Machine
